-- ==== Sys2Proof/Word.lean ====
section
/-! DEFINITION. Word.lean: the words of the part that the manual treats as bits. Counts, sizes, indices, days and
identities are natural numbers; bytes, digests, frame masks, tags and the port counts are bit vectors. -/

namespace Sys2Proof

/-- One byte of a staging window or of a port area. -/
abbrev Byte := BitVec 8

/-- A 64-bit digest (R23). -/
abbrev Digest := BitVec 64

/-- A 64-bit frame mask: bit `i` stands for frame `i` of its segment (chapter 0.6). -/
abbrev Mask := BitVec 64

/-- A 16-bit word: an order's tag (R186), or one of the four counts of a port area (R206), which wrap. -/
abbrev Half := BitVec 16

end Sys2Proof
end

