-- ==== Sys2Proof/Syntax.lean ====
section
/-! DEFINITION. Syntax.lean: the commands of the part, one constructor per row of spec/opcode_table.json.

WHAT A COMMAND IS. Each row of the table is one whole, indivisible step of the part (95_what_each_step_holds.md).
Three kinds of step stand in it:
* what the outside does to the part: power, the card reset line, a link going down or up, and a head's writes into a
  staging window or into its port area. Their operands are the head, the place written and what is written;
* an ORDER being TAKEN by a head's port. An order is a record that the head has written into an order place and posted
  by the order post count (R183, R206); "the port reads the record from the place when it takes the order" (R206). The
  record's fields (R207) therefore stand in the part's own memory and are the order's operands; what the command itself
  has to say is WHICH port takes its oldest order. `Machine/Operands.lean` reads the fields;
* what the part does of its own accord: the completion of an operation that takes time, the expiry of a timer, a step of
  the Plan Walker. Their operand names the operation, the timer's owner, or nothing.

A port takes its orders strictly oldest first. The command of an order that is not the one in front at that moment, or
of a port that may not take an order then (R184), and an expiry of a timer that does not run, are steps that do not occur
in that state: the model leaves the state as it is (notes/assumptions/1.md). -/

namespace Sys2Proof

/-- The two controller heads (chapter 0.2). -/
inductive Head where
  | a
  | b
deriving DecidableEq, Repr

/-- The commands, in the table's order. -/
inductive Instr where
  /-- POWER_ON (R18, R203): power is applied. -/
  | powerOn
  /-- CARD_RESET (R203): the shelf asserts the card reset line. -/
  | cardReset
  /-- LINK_LOSS (R202): the link of head `h` goes DOWN. -/
  | linkLoss (h : Head)
  /-- LINK_UP (R202): the link of head `h` comes UP. -/
  | linkUp (h : Head)
  /-- WINDOW_WRITE (R29): head `h` writes `bytes` into staging window `lane` from offset `offset` upward. -/
  | windowWrite (h : Head) (lane offset : Nat) (bytes : List Byte)
  /-- ORDER_POST_COUNT_WRITE (R206): head `h` writes `value` into its order post count. -/
  | orderPostCountWrite (h : Head) (value : Half)
  /-- REPLY_READ_COUNT_WRITE (R206): head `h` writes `value` into its reply read count. -/
  | replyReadCountWrite (h : Head) (value : Half)
  /-- PORT_AREA_WRITE (R206): head `h` writes `bytes` into its port area from offset `offset` upward, elsewhere than the
  two counts above. -/
  | portAreaWrite (h : Head) (offset : Nat) (bytes : List Byte)
  /-- UNKNOWN_ORDER (R186): the port of `h` takes an order whose code names no order. -/
  | unknownOrder (h : Head)
  /-- MEDIUM_ADD (R2): the port of `h` takes this order. -/
  | mediumAdd (h : Head)
  /-- MEDIUM_REMOVE (R3): the port of `h` takes this order. -/
  | mediumRemove (h : Head)
  /-- MEDIUM_WITHDRAW (R175): the port of `h` takes this order. -/
  | mediumWithdraw (h : Head)
  /-- MEDIUM_RETURN (R176): the port of `h` takes this order. -/
  | mediumReturn (h : Head)
  /-- MEDIUM_RESET_POINTS (R177): the port of `h` takes this order. -/
  | mediumResetPoints (h : Head)
  /-- REEL_ADD (R6): the port of `h` takes this order. -/
  | reelAdd (h : Head)
  /-- REEL_ADD_COMPLETION (R8): the registration of the reel `reel` completes. -/
  | reelAddCompletion (reel : Nat)
  /-- REEL_REMOVE (R10): the port of `h` takes this order. -/
  | reelRemove (h : Head)
  /-- REFERENCE_LOAD (R14): the port of `h` takes this order. -/
  | referenceLoad (h : Head)
  /-- SEGMENT_READ (R17): the port of `h` takes this order. -/
  | segmentRead (h : Head)
  /-- COPY_SELECT (R59): the port of `h` takes this order. -/
  | copySelect (h : Head)
  /-- LANE_OPEN (R26): the port of `h` takes this order. -/
  | laneOpen (h : Head)
  /-- LANE_FEED (R30): the port of `h` takes this order. -/
  | laneFeed (h : Head)
  /-- LANE_FEED_COMPLETION (R31): the feed in progress on lane `lane` completes. -/
  | laneFeedCompletion (lane : Nat)
  /-- LANE_END (R33): the port of `h` takes this order. -/
  | laneEnd (h : Head)
  /-- LANE_ABORT (R34): the port of `h` takes this order. -/
  | laneAbort (h : Head)
  /-- LANE_REPORT (R45): the port of `h` takes this order. -/
  | laneReport (h : Head)
  /-- STALL_TIMER_EXPIRY (R35): the stall timer of lane `lane` expires. -/
  | stallTimerExpiry (lane : Nat)
  /-- ITEM_CLAIM (R153): the port of `h` takes this order. -/
  | itemClaim (h : Head)
  /-- ITEM_RETURN (R160): the port of `h` takes this order. -/
  | itemReturn (h : Head)
  /-- CLAIM_TIMER_EXPIRY (R158): the claim timer of the item with tag `tag` expires. -/
  | claimTimerExpiry (tag : Nat)
  /-- DISPUTE_ADOPT (R89): the port of `h` takes this order. -/
  | disputeAdopt (h : Head)
  /-- DISPUTE_REJECT (R90): the port of `h` takes this order. -/
  | disputeReject (h : Head)
  /-- CONFIRM_TIMER_EXPIRY (R78): the confirm timer of the dispute on segment `segment` of `reel` expires. -/
  | confirmTimerExpiry (reel segment : Nat)
  /-- REPAIR_REQUEST (R95): the port of `h` takes this order. -/
  | repairRequest (h : Head)
  /-- PLAN_LOAD (R110): the port of `h` takes this order. -/
  | planLoad (h : Head)
  /-- PLAN_LOAD_COMPLETION (R110): the load of plan slot `slot` completes. -/
  | planLoadCompletion (slot : Nat)
  /-- PLAN_START (R112): the port of `h` takes this order. -/
  | planStart (h : Head)
  /-- PLAN_QUEUE (R113): the port of `h` takes this order. -/
  | planQueue (h : Head)
  /-- PLAN_PAUSE (R114): the port of `h` takes this order. -/
  | planPause (h : Head)
  /-- PLAN_RESUME (R114): the port of `h` takes this order. -/
  | planResume (h : Head)
  /-- PLAN_STOP (R115): the port of `h` takes this order. -/
  | planStop (h : Head)
  /-- BANDS_SET (R123): the port of `h` takes this order. -/
  | bandsSet (h : Head)
  /-- DAY_SET (R108): the port of `h` takes this order. -/
  | daySet (h : Head)
  /-- WALKER_POSITION (R119): the Plan Walker takes up its next entry or position. -/
  | walkerPosition
  /-- PACE_SET (R131): the port of `h` takes this order. -/
  | paceSet (h : Head)
  /-- PACE_START (R133): the port of `h` takes this order. -/
  | paceStart (h : Head)
  /-- PACE_STOP (R137): the port of `h` takes this order. -/
  | paceStop (h : Head)
  /-- PACE_HALT (R138): the port of `h` takes this order. -/
  | paceHalt (h : Head)
  /-- DELAY_TIMER_EXPIRY (R134): the start delay of the Pacer ends. -/
  | delayTimerExpiry
  /-- WORK_WINDOW_END (R136): the window timer of a work window expires. -/
  | workWindowEnd
  /-- YIELD_WINDOW_END (R136): the window timer of a yield window expires. -/
  | yieldWindowEnd
  /-- LADDER_SET (R174): the port of `h` takes this order. -/
  | ladderSet (h : Head)
  /-- TIMERS_SET (R188): the port of `h` takes this order. -/
  | timersSet (h : Head)
  /-- FINDING_TAKE (R195): the port of `h` takes this order. -/
  | findingTake (h : Head)
  /-- ATTENTION_SET (R197): the port of `h` takes this order. -/
  | attentionSet (h : Head)
  /-- STATUS (R189): the port of `h` takes this order. -/
  | status (h : Head)
  /-- PORT_RESET (R200, R201): the port of `h` takes this order. -/
  | portReset (h : Head)
deriving DecidableEq, Repr

end Sys2Proof
end

