-- ==== Sys2Proof/Decode.lean ====
section
/-! DEFINITION. Decode.lean: the command that a table word spells. No row of spec/opcode_table.json gives bits (every
row's "fields" is empty): the commands of this part are not encoded in words. The records that DO have an encoding, the
order records of R207, are read in `Machine/Operands.lean` when a port takes them. -/

namespace Sys2Proof

/-- No row of the table gives bits, so no word spells a command. -/
def decodeTableWord (_nbits _w : Nat) : Option Instr := none

end Sys2Proof
end

