-- ==== Sys2Proof/Config.lean ====
section
/-! DEFINITION. Config.lean: the fixed numbers of the part: table capacities, ranges and power-on settings, each from
the rule named beside it. The spec leaves no value of an operation open, so no free value stands here. -/

namespace Sys2Proof.Config

/-- Capacity of the Medium Table (R1). -/
def mediaMax : Nat := 2048
/-- Capacity of the Reel Table, ADDING reels included (R4). -/
def reelsMax : Nat := 4096
/-- Number of segment records of the Segment Store (chapter 1). -/
def storeSize : Nat := 524288
/-- Highest accession id, 2 ^ 48 - 1 (R4). -/
def accessionMax : Nat := 281474976710655
/-- Longest segment in bytes (R6). -/
def segmentBytesMax : Nat := 4294967295
/-- Most segments of one reel (R4). -/
def segmentsMax : Nat := 16384
/-- Number of lanes (R21). -/
def laneCount : Nat := 12
/-- Length of a staging window, 1 MiB; also one credit unit (R29, chapter 0.6). -/
def windowBytes : Nat := 1048576
/-- Capacity of the Dispute Table (R64). -/
def disputesMax : Nat := 24
/-- Capacity of the Repair Table (R92). -/
def repairsMax : Nat := 16
/-- Capacity of the Work Item Queue (R150). -/
def itemsMax : Nat := 40
/-- Item count at which no scrub item is admitted any more (R150). -/
def scrubItemsMax : Nat := 32
/-- Raised requeue count at which an item is abandoned (R163). -/
def requeueLimit : Nat := 4
/-- Capacity of the Finding Queue (R191). -/
def findingsMax : Nat := 256
/-- Limit of the dropped count (R194). -/
def droppedMax : Nat := 65535
/-- Capacity of an order queue (R183). -/
def ordersMax : Nat := 16
/-- Capacity of a reply queue, reserved places included (R185). -/
def repliesMax : Nat := 32
/-- Most entries of a plan slot (R109). -/
def planEntriesMax : Nat := 512
/-- Highest medium points (R169). -/
def pointsMax : Nat := 65535

/-- Bytes of one order place (R205). -/
def orderPlaceBytes : Nat := 8208
/-- Longest body of an order record (R207). -/
def orderBodyMax : Nat := 8200
/-- Offset of reply place 0 in a port area (R205). -/
def replyBase : Nat := 131328
/-- Bytes of one reply place (R205). -/
def replyPlaceBytes : Nat := 1024
/-- Offset of the order post count, the first of the four counts (R205). -/
def countsBase : Nat := 164096
/-- Offset of the order take count, the first of the two counts the part writes (R205). -/
def partCountsBase : Nat := 164100
/-- Size of a port area (R205). -/
def areaBytes : Nat := 164104

/-- The generator polynomial in reflected form (R23). -/
def crcPoly : Digest := 0xC96C5795D7870F42#64
/-- Initial register value, and final exclusive-or (R23). -/
def crcOnes : Digest := 0xFFFFFFFFFFFFFFFF#64

/-- Weight of a transient read (R170). -/
def weightTransient : Nat := 1
/-- Weight of an unreadable medium (R170). -/
def weightUnreadable : Nat := 2
/-- Weight of a copy judged BAD (R170). -/
def weightBad : Nat := 8
/-- Weight of an exhausted repair (R170). -/
def weightExhausted : Nat := 8

end Sys2Proof.Config
end

