-- ==== Sys2Proof/Machine/State.lean ====
section
/-! DEFINITION. State.lean: everything the spec gives the part, as plain data, and the state after power-on.

A timer is held as "stopped" or as the limit it was started with: the elapsed time is not modelled, and an expiry is a
command (notes/assumptions/2.md). -/

namespace Sys2Proof.Machine

/-! ### Segments and copies as names -/

/-- A segment of a reel. -/
structure SegId where
  reel : Nat
  segment : Nat
deriving DecidableEq, Repr

/-- A segment copy (chapter 0.7). -/
structure CopyId where
  reel : Nat
  segment : Nat
  copy : Nat
deriving DecidableEq, Repr

/-! ### The Segment Catalogue (chapter 1) -/

/-- The kind of a medium (R1). -/
inductive MediumKind where
  | tape
  | disk
  | optical
deriving DecidableEq, Repr

/-- The health states, in rising order (R169). -/
inductive Health where
  | sound
  | watch
  | degraded
  | withdrawn
deriving DecidableEq, Repr

/-- A medium record (R1, R169). -/
structure Medium where
  id : Nat
  kind : MediumKind
  points : Nat
  saturated : Bool
  position : Nat
  ladderState : Health
  withdrawnByHead : Bool
  resetPending : Bool
  copyCount : Nat
deriving DecidableEq, Repr

/-- The trust of a segment copy (R48). -/
inductive Trust where
  | unverified
  | good
  | suspect
  | bad
  | repairing
deriving DecidableEq, Repr

/-- A copy record (R12). -/
structure CopyRec where
  trust : Trust
  lastDay : Nat
  deferred : Bool
  exhausted : Bool
  itemTag : Option Nat
deriving DecidableEq, Repr

/-- Where a reference came from (R13). -/
inductive Origin where
  | learned
  | loaded
  | adopted
deriving DecidableEq, Repr

/-- A reference: the origin is present exactly when the digest is (R13). -/
structure Reference where
  digest : Digest
  origin : Origin
deriving DecidableEq, Repr

/-- A segment record (R12, R13): its reference, its frame digest list and one copy record per copy. -/
structure SegRec where
  reference : Option Reference
  frameList : Option (List Digest)
  copies : List CopyRec
deriving DecidableEq, Repr

/-- The state of a reel (R4). An ADDING reel is a registration in progress: it belongs to the head whose REEL_ADD
began it, and its reply will carry that order's tag (R8, R187). -/
inductive ReelState where
  | adding (owner : Head) (tag : Half)
  | active
deriving DecidableEq, Repr

/-- A reel record (R4) with its run of the Segment Store. The copy count is the length of `copyMedia` and the segment
count is computed (`Reel.segCount`). `segs` lists, by rising segment index, the segment records that have changed since
registration; a segment it does not list still has the values of R12. -/
structure Reel where
  acc : Nat
  state : ReelState
  copyMedia : List Nat
  frameSize : Nat
  frameTotal : Nat
  framesPerSegment : Nat
  firstIndex : Nat
  scrubInterval : Nat
  segs : List (Nat × SegRec)
deriving DecidableEq, Repr

/-! ### Verification lanes (chapter 2) -/

/-- The form of LANE_OPEN that took the lane (R21). -/
inductive Purpose where
  | item
  | restore
  | ingest
deriving DecidableEq, Repr

/-- The state of a lane that is not FREE (R22). OPEN carries the limit of its running stall timer; DIGESTING carries the
feed in progress: its length and the tag of its LANE_FEED, for the reply. -/
inductive LaneState where
  | openFor (stallLimit : Nat)
  | digesting (length : Nat) (tag : Half)
  | done
deriving DecidableEq, Repr

/-- How a lane ended (R21). An end by PORT_RESET frees the lane at once and is held nowhere (R46). -/
inductive EndReason where
  | completed
  | short
  | aborted
  | stalled
deriving DecidableEq, Repr

/-- The judgement of a completed lane (R36). -/
inductive Result where
  | matched
  | mismatch
  | learned
  | inconclusive
deriving DecidableEq, Repr

/-- What became of a lane's result (R42). -/
inductive Routing where
  | plain
  | dispute
  | superseded
  | notUsed
deriving DecidableEq, Repr

/-- The context of a lane that is not FREE (R21). -/
structure LaneCtx where
  state : LaneState
  owner : Head
  purpose : Purpose
  itemTag : Option Nat
  target : CopyId
  expected : Nat
  bytesTaken : Nat
  segCrc : Digest
  frameIndex : Nat
  frameCrc : Digest
  frameDigests : List Digest
  badMask : Mask
  compared : Bool
  conflict : Bool
  endReason : Option EndReason
  result : Option Result
  observed : Option Digest
  routing : Option Routing
  trustAfter : Option Trust
deriving DecidableEq, Repr

/-- An observation: a judged digest with its mask and flag (R36). -/
structure Obs where
  digest : Digest
  mask : Mask
  compared : Bool
deriving DecidableEq, Repr

/-! ### The Dispute Table (chapter 4) -/

/-- The status of a slot with what that status holds (R66): the item tag of an ISSUED slot; the observation, its lane and
the tag of an item that still exists for an OBSERVED one. The waiting mark of a WANTED slot is its place among the
queue's waiting owners (`Queue.waiters`). -/
inductive Slot where
  | notWanted
  | wanted
  | issued (tag : Nat)
  | observed (obs : Obs) (lane : Nat) (tag : Option Nat)
  | unread
deriving DecidableEq, Repr

/-- The phase of a dispute (R65): COLLECTING with its running confirm timer, or AWAITING_RESOLUTION with the agreed
digest. -/
inductive Phase where
  | collecting (confirmLimit : Nat)
  | awaiting (agreed : Digest)
deriving DecidableEq, Repr

/-- A dispute entry (R64). -/
structure Dispute where
  seg : SegId
  trigger : Nat
  phase : Phase
  first : Obs
  slots : List Slot
  agreeing : List Nat
  rejected : List Nat
deriving DecidableEq, Repr

/-! ### The Repair Table (chapter 5) -/

/-- The request that created a repair entry (R92). -/
inductive RepairOrigin where
  | vote
  | adopt
  | reject
  | head
deriving DecidableEq, Repr

/-- The state of a repair entry (R93). -/
inductive RepairState where
  | waitingPlace
  | issued (tag : Nat)
deriving DecidableEq, Repr

/-- A repair entry (R92). Its waiting start is the number of its place among the queue's waiting owners. -/
structure Repair where
  target : CopyId
  mask : Mask
  attempt : Nat
  state : RepairState
  origin : RepairOrigin
deriving DecidableEq, Repr

/-! ### The Work Item Queue (chapter 8) -/

/-- The kind of a work item (R146). -/
inductive ItemKind where
  | scrub
  | confirm
  | repair
deriving DecidableEq, Repr

/-- The class of a work item (R146). -/
inductive ItemClass where
  | urgent
  | priority
  | normal
deriving DecidableEq, Repr

/-- The state of a work item (R148): CLAIMED carries the claiming head and the limit of the running claim timer, BOUND
the lane. -/
inductive ItemState where
  | queued
  | claimed (by_ : Head) (limit : Nat)
  | bound (lane : Nat)
deriving DecidableEq, Repr

/-- A work item (R146). The frame mask is empty for SCRUB and CONFIRM items. -/
structure Item where
  tag : Nat
  kind : ItemKind
  cls : ItemClass
  target : CopyId
  charge : Nat
  state : ItemState
  requeue : Nat
  everBound : Bool
  mask : Mask
  source : Option Nat
deriving DecidableEq, Repr

/-- What may wait for a place: a dispute slot or a repair entry, each named by its copy (R152). -/
inductive Owner where
  | slot (target : CopyId)
  | repair (target : CopyId)
deriving DecidableEq, Repr

/-- A waiting owner with its waiting number (R152). -/
structure Waiter where
  number : Nat
  owner : Owner
deriving DecidableEq, Repr

/-- The Work Item Queue: its list (R149), the last tag issued (R147), the waiting owners and their count (R152). -/
structure Queue where
  items : List Item
  lastTag : Nat
  waiters : List Waiter
  waitCount : Nat
deriving DecidableEq, Repr

/-! ### Plans and the walker (chapter 6) -/

/-- A plan entry (R109). -/
structure PlanEntry where
  acc : Nat
  firstSegment : Nat
  segmentCount : Nat
  copyMask : Nat
  last : Bool
  note : Bool
  hold : Bool
deriving DecidableEq, Repr

/-- A plan slot (R109). A LOADING slot belongs to the head whose PLAN_LOAD began it; its entries are not usable yet. -/
inductive PlanSlot where
  | empty
  | loading (owner : Head) (tag : Half) (entries : List PlanEntry)
  | loaded (entries : List PlanEntry)
deriving DecidableEq, Repr

/-- The states of the walker (R111). -/
inductive WalkerState where
  | idle
  | walking
  | waitCredit
  | waitRoom
  | paused
  | halted
deriving DecidableEq, Repr

/-- A position of the walk (R111). -/
structure Position where
  entry : Nat
  segment : Nat
  copy : Nat
deriving DecidableEq, Repr

/-- How far the walker is with the entry of its position: before it, past the look-up of its reel (R119), or with the
entry found stale at a pass start and the going on after it still to be made. The model's own field
(notes/assumptions/9.md). -/
inductive EntryPhase where
  | ahead
  | taken
  | stale
deriving DecidableEq, Repr

/-- The walker (R111). `notices` lists the entries of the running slot whose notice mark is set. `entryPhase` says how far
the walker is with the entry of its position (R119): a reel that is missing when the entry is taken up makes the entry
stale with cause 1, one that is missing later with cause 3. -/
structure Walker where
  state : WalkerState
  running : Option Nat
  queued : Option Nat
  loop : Bool
  haltEntry : Option Nat
  position : Option Position
  entryPhase : EntryPhase
  pass : Nat
  notices : List Nat
deriving DecidableEq, Repr

/-- The action of a due band (R122). -/
inductive BandAction where
  | skip
  | normal
  | priority
deriving DecidableEq, Repr

/-- A due band (R122). -/
structure Band where
  low : Nat
  high : Nat
  action : BandAction
  notify : Bool
deriving DecidableEq, Repr

/-! ### The Pacer (chapter 7) -/

/-- The states of the Pacer (R129). -/
inductive PacerState where
  | stopped
  | delay
  | work
  | yield
deriving DecidableEq, Repr

/-- A full set of Pacer settings (R130). -/
structure PaceSettings where
  budget : Nat
  fraction : Nat
  work : Nat
  yield : Nat
  delay : Nat
deriving DecidableEq, Repr

/-- The Pacer (R129). `window` is the length of the running window in ticks. -/
structure Pacer where
  state : PacerState
  credit : Int
  acc : Nat
  window : Option Nat
  stopPending : Bool
  inForce : PaceSettings
  staged : Option PaceSettings
deriving DecidableEq, Repr

/-! ### Health (chapter 9) -/

/-- A step of the health ladder (R173). -/
structure LadderStep where
  threshold : Nat
  state : Health
  attention : Bool
deriving DecidableEq, Repr

/-! ### Ports and findings (chapter 10) -/

/-- The three timer limits in seconds (R188). -/
structure Limits where
  claim : Nat
  stall : Nat
  confirm : Nat
deriving DecidableEq, Repr

/-- The nineteen finding kinds (R191), in the order of their codes (R204). -/
inductive FindingKind where
  | copyMismatch
  | copyBad
  | referenceDisputed
  | segmentLost
  | repairFailed
  | repairNoSource
  | mediumStep
  | transientRead
  | frameListSuspect
  | disputeDeferred
  | voteDecided
  | repaired
  | repairDeferred
  | repairAbandoned
  | itemAbandoned
  | dueNotice
  | planMark
  | planEntryStale
  | planDone
deriving DecidableEq, Repr

/-- A finding record (R191). -/
structure Finding where
  kind : FindingKind
  critical : Bool
  day : Nat
  reel : Option Nat
  segment : Option Nat
  copy : Option Nat
  medium : Option Nat
  digest : Option Digest
  mask : Option Mask
  detail : Nat
deriving DecidableEq, Repr

/-- The Finding Queue with its overflow flag and dropped count (R191, R196). -/
structure FindingQueue where
  findings : List Finding
  overflow : Bool
  dropped : Nat
deriving DecidableEq, Repr

/-- A head port (R182) with its port area (R205, R206). `area` holds the bytes of the order places and the reply places;
the four counts stand apart. The orders not yet taken and the replies not yet read are read from the places through the
counts, as R206 says. -/
structure Port where
  link : Bool
  area : List Host.Cell
  orderPost : Half
  orderTake : Half
  replyPost : Half
  replyRead : Half
  reserved : Nat
  overrun : Bool
  threshold : Nat
  routineEnable : Bool
  criticalEnable : Bool
  laneEnable : Bool
  line : Bool
deriving DecidableEq, Repr

/-! ### The part -/

/-- Everything the part holds. `windows` is the memory of the twelve staging windows, window `n` from address
`n * 1048576` upward. `lanes` holds a FREE lane as `none`: "all context fields except the state are without meaning"
(R22). `pending` is the queue of the commands still to be given. -/
structure State where
  media : List Medium
  reels : List Reel
  lanes : Vector (Option LaneCtx) 12
  windows : List Host.Cell
  disputes : List Dispute
  repairs : List Repair
  queue : Queue
  walker : Walker
  slots : Vector PlanSlot 2
  bands : List Band
  day : Option Nat
  pacer : Pacer
  ladder : List LadderStep
  limits : Limits
  fq : FindingQueue
  portA : Port
  portB : Port
  pending : List Instr
deriving DecidableEq, Repr

/-- Why the part's model stops with a fault. -/
inductive Fault where
  /-- Raised by WINDOW_WRITE: the write names a byte that no staging window has (R29: windows 0..11, offsets
  0..1,048,575). Safe: nothing is claimed of such a write. -/
  | noSuchWindowByte
  /-- Raised by PORT_AREA_WRITE: the write names a byte past the end of the port area, or a byte of the two counts that
  have commands of their own (R205). Safe: nothing is claimed of such a write. -/
  | noSuchAreaByte
deriving DecidableEq, Repr

/-- Why a command is refused by the model. -/
inductive Refusal where
  /-- Raised by exec's arms alone: the command has no meaning yet. Safe: the machine stops. -/
  | notModelled (mnemonic : String)
deriving DecidableEq, Repr

/-! ### State after power-on -/

/-- The settings in force at power-on (R130). -/
def PaceSettings.powerOn : PaceSettings := ⟨64, 0, 100, 100, 0⟩

/-- The Pacer at power-on (R129, R145). -/
def Pacer.powerOn : Pacer := ⟨.stopped, 0, 0, none, false, PaceSettings.powerOn, none⟩

/-- The walker at power-on and after a card reset (R111, R128). -/
def Walker.initial : Walker := ⟨.idle, none, none, false, none, none, .ahead, 0, []⟩

/-- The due-band table at power-on (R122). -/
def Band.powerOn : List Band := [⟨0, 63, .skip, false⟩, ⟨64, 65535, .normal, false⟩]

/-- The health ladder at power-on (R173). -/
def LadderStep.powerOn : List LadderStep :=
  [⟨16, .watch, false⟩, ⟨64, .degraded, true⟩, ⟨256, .withdrawn, true⟩]

/-- The timer limits at power-on (R188). -/
def Limits.powerOn : Limits := ⟨30, 20, 7200⟩

/-- A head port at power-on (R182, R197, R206). The spec gives no contents of the order and reply places; here every byte
of them reads 0 (DESIGN CHOICE, notes/assumptions/3.md). -/
def Port.powerOn : Port := ⟨false, [], 0, 0, 0, 0, 0, false, 1, true, true, true, false⟩

/-- The part right after power-on (R18, R47, R91, R106, R128, R145, R167, R181, R203). -/
def State.reset : State where
  media := []
  reels := []
  lanes := Vector.replicate 12 none
  windows := []
  disputes := []
  repairs := []
  queue := ⟨[], 0, [], 0⟩
  walker := Walker.initial
  slots := Vector.replicate 2 .empty
  bands := Band.powerOn
  day := none
  pacer := Pacer.powerOn
  ladder := LadderStep.powerOn
  limits := Limits.powerOn
  fq := ⟨[], false, 0⟩
  portA := Port.powerOn
  portB := Port.powerOn
  pending := []

end Sys2Proof.Machine
end

