-- ==== Sys2Proof/Machine/Ops.lean ====
section
/-! DEFINITION. Ops.lean: the operations the commands share: the sparse tables and byte memories, little-endian numbers,
the digest, the catalogue's lookups and updates, the medium charge, credit, findings, the Work Item Queue's placements
and departures, and the port's order and reply hand-over. -/

namespace Sys2Proof.Machine

/-! ### Sparse tables, keyed by rising numbers -/

/-- The value listed at key `k`. -/
def Sparse.find? {α : Type} (k : Nat) : List (Nat × α) → Option α
  | [] => none
  | (a, v) :: m => if k < a then none else if k = a then some v else Sparse.find? k m

/-- List `v` at key `k`, in place of what is listed there. -/
def Sparse.put {α : Type} (k : Nat) (v : α) : List (Nat × α) → List (Nat × α)
  | [] => [(k, v)]
  | (a, w) :: m => if k < a then (k, v) :: (a, w) :: m else if k = a then (k, v) :: m else (a, w) :: Sparse.put k v m

/-- List nothing at key `k`. -/
def Sparse.erase {α : Type} (k : Nat) : List (Nat × α) → List (Nat × α)
  | [] => []
  | (a, w) :: m => if k < a then (a, w) :: m else if k = a then m else (a, w) :: Sparse.erase k m

/-! ### Byte memories: the staging windows and the port areas -/

/-- What an unlisted byte reads as: 0, as the staging windows hold at power-on (R29). -/
def Memory.unlisted : Byte := 0#8

/-- The byte at address `a`. -/
def Memory.read (m : List Host.Cell) (a : Nat) : Byte := (Sparse.find? a m).getD Memory.unlisted

/-- Store the byte `b` at address `a`, keeping the canonical form. -/
def Memory.write (m : List Host.Cell) (a : Nat) (b : Byte) : List Host.Cell :=
  if b = Memory.unlisted then Sparse.erase a m else Sparse.put a b m

/-- Store bytes from address `a` upward. -/
def Memory.store (m : List Host.Cell) (a : Nat) : List Byte → List Host.Cell
  | [] => m
  | b :: bs => Memory.store (Memory.write m a b) (a + 1) bs

/-- A memory without its leading cells below address `a`. -/
def Memory.dropBelow (a : Nat) : List Host.Cell → List Host.Cell
  | [] => []
  | (k, b) :: m => if k < a then Memory.dropBelow a m else (k, b) :: m

/-- The `n` bytes from address `a` upward. -/
def Memory.load (m : List Host.Cell) (a : Nat) : Nat → List Byte
  | 0 => []
  | n + 1 => Memory.read m a :: Memory.load (Memory.dropBelow (a + 1) m) (a + 1) n

/-- The canonical form: addresses strictly rising from `low`, and no cell equal to what an unlisted address reads as. -/
def Memory.wfFrom (low : Nat) : List Host.Cell → Bool
  | [] => true
  | (a, b) :: m => low ≤ a && b ≠ Memory.unlisted && Memory.wfFrom (a + 1) m

/-- The canonical form of a byte memory. -/
def Memory.wf (m : List Host.Cell) : Bool := Memory.wfFrom 0 m

/-! ### Little-endian numbers (R204) -/

/-- The number that bytes spell, least significant byte first. -/
def leNat : List Byte → Nat
  | [] => 0
  | b :: bs => b.toNat + 256 * leNat bs

/-- The `n`-byte number at offset `off` of a record; bytes past its end read as 0. -/
def leAt (bytes : List Byte) (off n : Nat) : Nat := leNat ((bytes.drop off).take n)

/-- `n` bytes that spell `v mod 256 ^ n`, least significant byte first. -/
def leBytes : Nat → Nat → List Byte
  | 0, _ => []
  | n + 1, v => BitVec.ofNat 8 v :: leBytes n (v / 256)

/-- `n` reserved bytes, written as zero (R204). -/
def zeros (n : Nat) : List Byte := List.replicate n 0#8

/-- A boolean byte (R204). -/
def boolNat (b : Bool) : Nat := if b then 1 else 0

/-! ### The digest (R23) -/

/-- One right shift of the register, with the polynomial when the bit shifted out was 1. -/
def crcBit (r : Digest) : Digest := if r.getLsbD 0 then (r >>> 1) ^^^ Config.crcPoly else r >>> 1

/-- `n` shifts of the register. -/
def crcBits : Nat → Digest → Digest
  | 0, r => r
  | n + 1, r => crcBits n (crcBit r)

/-- One byte taken: combined into the least significant byte, then eight shifts. -/
def crcByte (r : Digest) (b : Byte) : Digest := crcBits 8 (r ^^^ b.zeroExtend 64)

/-- The register finalised into a digest. -/
def crcFinal (r : Digest) : Digest := r ^^^ Config.crcOnes

/-- The digest of a byte sequence. -/
def digest (bytes : List Byte) : Digest := crcFinal (bytes.foldl crcByte Config.crcOnes)

/-! ### Credit units and frame masks -/

/-- The charge of a byte count: `ceil (n / 1,048,576)` CU (chapter 0.6). -/
def chargeOf (n : Nat) : Nat := (n + (Config.windowBytes - 1)) / Config.windowBytes

/-- The mask of every frame of a segment of `n` frames (R92). -/
def fullMask (n : Nat) : Mask := BitVec.ofNat 64 (2 ^ n - 1)

/-- The single bit `k` of a mask. -/
def maskBit (k : Nat) : Mask := BitVec.ofNat 64 (2 ^ k)

/-- The frames to rewrite after an observation (R85, R101): its mask when the flag is set and the mask is not empty,
every frame otherwise. -/
def Obs.repairMask (o : Obs) (frames : Nat) : Mask :=
  if o.compared && o.mask != 0#64 then o.mask else fullMask frames

/-- The mask a finding carries for an observation (R63, R88): ABSENT unless frame-list-compared is set. -/
def Obs.findingMask (o : Obs) : Option Mask := if o.compared then some o.mask else none

/-! ### Segments and copies as names -/

/-- The segment of a segment copy. -/
def CopyId.seg (c : CopyId) : SegId := ⟨c.reel, c.segment⟩

/-- Copy `i` of a segment. -/
def SegId.copy (g : SegId) (i : Nat) : CopyId := ⟨g.reel, g.segment, i⟩

/-! ### Media (R1, R169) -/

/-- The rank of a health state: SOUND < WATCH < DEGRADED < WITHDRAWN (R169); also its code (R204). -/
def Health.rank : Health → Nat
  | .sound => 0
  | .watch => 1
  | .degraded => 2
  | .withdrawn => 3

/-- The higher of two health states. -/
def Health.higher (a b : Health) : Health := if a.rank ≤ b.rank then b else a

/-- Effective health (R169): the higher of the ladder state and, under the withdrawn-by-head mark, WITHDRAWN. -/
def Medium.health (m : Medium) : Health :=
  if m.withdrawnByHead then m.ladderState.higher .withdrawn else m.ladderState

/-- The medium record with an id. -/
def State.medium? (s : State) (id : Nat) : Option Medium := s.media.find? fun m => m.id == id

/-- Change the medium record with an id. -/
def State.modMedium (s : State) (id : Nat) (f : Medium → Medium) : State :=
  { s with media := s.media.map fun m => if m.id = id then f m else m }

/-- The effective health of the medium with an id. A medium named by a reel always has a record (R3). -/
def State.healthOf (s : State) (id : Nat) : Health := ((s.medium? id).map Medium.health).getD .withdrawn

/-! ### Reels, segments and copy records (R4, R11, R12) -/

/-- Number of copies (R4). -/
def Reel.copyCount (r : Reel) : Nat := r.copyMedia.length

/-- Number of segments: `ceil (frame total / frames per segment)` (R4). -/
def Reel.segCount (r : Reel) : Nat := (r.frameTotal + (r.framesPerSegment - 1)) / r.framesPerSegment

/-- First frame of segment `i` (R11). -/
def Reel.firstFrame (r : Reel) (i : Nat) : Nat := i * r.framesPerSegment

/-- Frame count of segment `i` (R11). -/
def Reel.frameCount (r : Reel) (i : Nat) : Nat :=
  if i + 1 = r.segCount then r.frameTotal - (r.segCount - 1) * r.framesPerSegment else r.framesPerSegment

/-- Byte length of segment `i` (R11). -/
def Reel.byteLength (r : Reel) (i : Nat) : Nat := r.frameCount i * r.frameSize

/-- Whether a reel is ACTIVE (R4). -/
def Reel.isActive (r : Reel) : Bool := match r.state with | .active => true | .adding _ _ => false

/-- A copy record at registration (R12). -/
def CopyRec.initial : CopyRec := ⟨.unverified, 0, false, false, none⟩

/-- A segment record at registration (R12). -/
def SegRec.initial (copies : Nat) : SegRec := ⟨none, none, List.replicate copies CopyRec.initial⟩

/-- Segment record `i` of a reel. -/
def Reel.seg (r : Reel) (i : Nat) : SegRec := (Sparse.find? i r.segs).getD (SegRec.initial r.copyCount)

/-- Change segment record `i` of a reel. -/
def Reel.modSeg (r : Reel) (i : Nat) (f : SegRec → SegRec) : Reel :=
  { r with segs := Sparse.put i (f (r.seg i)) r.segs }

/-- The reel record with an accession id, in either state. -/
def State.reel? (s : State) (acc : Nat) : Option Reel := s.reels.find? fun r => r.acc == acc

/-- The ACTIVE reel with an accession id (R5). -/
def State.activeReel? (s : State) (acc : Nat) : Option Reel := (s.reel? acc).filter Reel.isActive

/-- The record of a segment. -/
def State.seg (s : State) (g : SegId) : SegRec :=
  ((s.reel? g.reel).map fun r => r.seg g.segment).getD (SegRec.initial 0)

/-- Change the record of a segment. -/
def State.modSeg (s : State) (g : SegId) (f : SegRec → SegRec) : State :=
  { s with reels := s.reels.map fun r => if r.acc = g.reel then r.modSeg g.segment f else r }

/-- The reference digest of a segment, or ABSENT (R13). -/
def State.refDigest (s : State) (g : SegId) : Option Digest := (s.seg g).reference.map Reference.digest

/-- The frame count of a segment (R11). -/
def State.frameCount (s : State) (g : SegId) : Nat :=
  ((s.reel? g.reel).map fun r => r.frameCount g.segment).getD 0

/-- The byte length of a segment (R11). -/
def State.byteLength (s : State) (g : SegId) : Nat :=
  ((s.reel? g.reel).map fun r => r.byteLength g.segment).getD 0

/-- The record of a segment copy. -/
def State.copy (s : State) (c : CopyId) : CopyRec := ((s.seg c.seg).copies[c.copy]?).getD CopyRec.initial

/-- Change the record of a segment copy. -/
def State.modCopy (s : State) (c : CopyId) (f : CopyRec → CopyRec) : State :=
  s.modSeg c.seg fun g => { g with copies := g.copies.modify c.copy f }

/-- The medium id of a segment copy (R4). -/
def State.mediumOf (s : State) (c : CopyId) : Nat :=
  ((s.reel? c.reel).bind fun r => r.copyMedia[c.copy]?).getD 0

/-- The effective health of the medium of a segment copy. -/
def State.copyHealth (s : State) (c : CopyId) : Health := s.healthOf (s.mediumOf c)

/-- The copies of a segment, in ascending index. -/
def State.copiesOf (s : State) (g : SegId) : List CopyId :=
  (List.range (s.seg g).copies.length).map g.copy

/-- Set a copy's trust to a value other than GOOD. A copy that leaves SUSPECT loses its dispute-deferred mark in the same
change (R49); its last verified day is kept (R48). -/
def State.setTrust (s : State) (c : CopyId) (t : Trust) : State :=
  s.modCopy c fun r => { r with trust := t, deferred := r.deferred && t == .suspect }

/-- Make a copy GOOD, last verified on `day` (R48). -/
def State.setGood (s : State) (c : CopyId) (day : Nat) : State :=
  s.modCopy c fun r => { r with trust := .good, lastDay := day, deferred := false }

/-- Set or clear a copy's dispute-deferred mark. -/
def State.setDeferred (s : State) (c : CopyId) (b : Bool) : State := s.modCopy c fun r => { r with deferred := b }

/-- Set or clear a copy's repair-exhausted mark. -/
def State.setExhausted (s : State) (c : CopyId) (b : Bool) : State := s.modCopy c fun r => { r with exhausted := b }

/-- Set a copy's work item tag. -/
def State.setItemTag (s : State) (c : CopyId) (t : Option Nat) : State := s.modCopy c fun r => { r with itemTag := t }

/-- Every copy of a segment is BAD: the condition LOST (R58). -/
def State.isLost (s : State) (g : SegId) : Bool := (s.seg g).copies.all fun c => c.trust == .bad

/-- Today, or 0 while the day clock is unset (R36, R107). -/
def State.today (s : State) : Nat := s.day.getD 0

/-! ### Findings (R191 to R194) -/

/-- The findings without the oldest ROUTINE one, or `none` when every finding is CRITICAL. -/
def dropRoutine : List Finding → Option (List Finding)
  | [] => none
  | f :: fs => if f.critical then (dropRoutine fs).map (f :: ·) else some fs

/-- One more finding dropped (R194). -/
def FindingQueue.countDrop (q : FindingQueue) : FindingQueue := { q with dropped := min (q.dropped + 1) Config.droppedMax }

/-- Post a finding (R193, R194). -/
def FindingQueue.post (f : Finding) (q : FindingQueue) : FindingQueue :=
  if q.findings.length < Config.findingsMax then { q with findings := q.findings ++ [f] }
  else match dropRoutine q.findings with
    | some fs => { q.countDrop with findings := fs ++ [f] }
    | none => if f.critical then { q.countDrop with overflow := true } else q.countDrop

/-- Post a finding. -/
def State.post (s : State) (f : Finding) : State := { s with fq := s.fq.post f }

/-- A finding about a segment copy and its medium. -/
def State.copyFinding (s : State) (kind : FindingKind) (critical : Bool) (day : Nat) (c : CopyId)
    (digest : Option Digest) (mask : Option Mask) (detail : Nat) : Finding :=
  ⟨kind, critical, day, some c.reel, some c.segment, some c.copy, some (s.mediumOf c), digest, mask, detail⟩

/-- A finding about a segment, with copy and medium ABSENT. -/
def segFinding (kind : FindingKind) (critical : Bool) (day : Nat) (g : SegId) (digest : Option Digest) (detail : Nat) :
    Finding :=
  ⟨kind, critical, day, some g.reel, some g.segment, none, none, digest, none, detail⟩

/-- Post SEGMENT_LOST (R58, R192) after a change that made a copy of the segment BAD, when every copy is now BAD. -/
def State.postIfLost (s : State) (g : SegId) : State :=
  if s.isLost g then
    s.post (segFinding .segmentLost true s.today g (s.refDigest g) (s.seg g).copies.length)
  else s

/-! ### Charges against media (R171, R172, R179) -/

/-- The record of a medium after a counted or uncounted charge, before the ladder is compared (R171). -/
def Medium.addPoints (m : Medium) (w : Nat) : Medium :=
  if m.saturated then m
  else if m.points + w ≤ Config.pointsMax then { m with points := m.points + w }
  else { m with points := Config.pointsMax, saturated := true }

/-- Climb the remaining steps of the ladder (R172): the medium after them, and for each step passed its index, the ladder
state after it and its attention flag. -/
def Medium.climb (m : Medium) : List LadderStep → Medium × List (Nat × Health × Bool)
  | [] => (m, [])
  | t :: ts =>
    if t.threshold ≤ m.points then
      let state := m.ladderState.higher t.state
      let (m', passed) := Medium.climb { m with ladderState := state, position := m.position + 1 } ts
      (m', (m.position, state, t.attention) :: passed)
    else (m, [])

/-- The MEDIUM_STEP finding of a passed ladder step (R179). -/
def State.stepFinding (s : State) (c : CopyId) (points : Nat) (p : Nat × Health × Bool) : Finding :=
  s.copyFinding .mediumStep p.2.2 s.today c none none (points + 65536 * p.1 + 524288 * p.2.1.rank)

/-- Charge `w` points to the medium of a copy (R171) and step it up the ladder (R172), posting MEDIUM_STEP for each step
passed. -/
def State.chargeMedium (s : State) (c : CopyId) (w : Nat) : State :=
  match s.medium? (s.mediumOf c) with
  | none => s
  | some m =>
    if m.saturated then s
    else
      let m1 := m.addPoints w
      let (m2, passed) := m1.climb (s.ladder.drop m1.position)
      (passed.map (s.stepFinding c m1.points)).foldl State.post (s.modMedium m.id fun _ => m2)

/-! ### The Pacer's credit (R140, R142) -/

/-- The cap of credit (R129). -/
def Pacer.cap (p : Pacer) : Int := 2 * (p.inForce.budget : Int)

/-- The floor of credit (R129). -/
def Pacer.floor (p : Pacer) : Int := -(4 * (p.inForce.budget : Int))

/-- Clamp credit to the floor and the cap of the budget in force. -/
def Pacer.clamp (p : Pacer) : Pacer := { p with credit := max p.floor (min p.credit p.cap) }

/-- A charge (R140). -/
def Pacer.charge (p : Pacer) (n : Nat) : Pacer := { p with credit := max (p.credit - (n : Int)) p.floor }

/-- A refund (R142). -/
def Pacer.refund (p : Pacer) (n : Nat) : Pacer := { p with credit := min (p.credit + (n : Int)) p.cap }

/-- Wake a walker that waits for credit (R125). -/
def State.wakeCredit (s : State) : State :=
  if s.walker.state = .waitCredit then { s with walker := { s.walker with state := .walking } } else s

/-- Wake a walker that waits for a place, once the queue holds fewer than 32 items (R125, R151 step 5). -/
def State.wakeRoom (s : State) : State :=
  if s.walker.state = .waitRoom ∧ s.queue.items.length < Config.scrubItemsMax then
    { s with walker := { s.walker with state := .walking } }
  else s

/-- Charge credit (R140). -/
def State.chargeCredit (s : State) (n : Nat) : State := { s with pacer := s.pacer.charge n }

/-- Refund credit (R142), waking the walker when credit rises above 0 in WORK (R139). -/
def State.refundCredit (s : State) (n : Nat) : State :=
  let t := { s with pacer := s.pacer.refund n }
  if s.pacer.state = .work ∧ s.pacer.credit ≤ 0 ∧ 0 < t.pacer.credit then t.wakeCredit else t

/-! ### The Dispute and Repair Tables -/

/-- The dispute entry of a segment (R64). -/
def State.dispute? (s : State) (g : SegId) : Option Dispute := s.disputes.find? fun d => d.seg == g

/-- Change the dispute entry of a segment. -/
def State.modDispute (s : State) (g : SegId) (f : Dispute → Dispute) : State :=
  { s with disputes := s.disputes.map fun d => if d.seg = g then f d else d }

/-- Whether an owner is a dispute slot of a segment. -/
def Owner.isSlotOf (g : SegId) : Owner → Bool
  | .slot c => c.seg == g
  | .repair _ => false

/-- Remove the dispute entry of a segment, with the waiting marks its slots may hold (R66; they stand in the queue's list,
notes/assumptions/15.md). -/
def State.removeDispute (s : State) (g : SegId) : State :=
  { s with
    disputes := s.disputes.filter fun d => d.seg != g
    queue := { s.queue with waiters := s.queue.waiters.filter fun w => !w.owner.isSlotOf g } }

/-- Whether an entry is COLLECTING (R65). -/
def Dispute.isCollecting (d : Dispute) : Bool := match d.phase with | .collecting _ => true | .awaiting _ => false

/-- The COLLECTING entry of a segment. -/
def State.collecting? (s : State) (g : SegId) : Option Dispute := (s.dispute? g).filter Dispute.isCollecting

/-- Set the status of the slot of a copy. -/
def State.setSlot (s : State) (c : CopyId) (st : Slot) : State :=
  s.modDispute c.seg fun d => { d with slots := d.slots.set c.copy st }

/-- The item tag a slot holds (R66). -/
def Slot.tag : Slot → Option Nat
  | .issued t => some t
  | .observed _ _ t => t
  | .notWanted | .wanted | .unread => none

/-- The repair entry of a copy (R92). -/
def State.repair? (s : State) (c : CopyId) : Option Repair := s.repairs.find? fun r => r.target == c

/-- Change the repair entry of a copy. -/
def State.modRepair (s : State) (c : CopyId) (f : Repair → Repair) : State :=
  { s with repairs := s.repairs.map fun r => if r.target = c then f r else r }

/-- Remove the repair entry of a copy, with the waiting start it may hold (R92; it stands in the queue's list,
notes/assumptions/15.md). -/
def State.removeRepair (s : State) (c : CopyId) : State :=
  { s with
    repairs := s.repairs.filter fun r => r.target != c
    queue := { s.queue with waiters := s.queue.waiters.filter fun w => w.owner != .repair c } }

/-! ### The Work Item Queue: tags and placements (R147, R149) -/

/-- The item with a tag. -/
def State.item? (s : State) (tag : Nat) : Option Item := s.queue.items.find? fun i => i.tag == tag

/-- Change the item with a tag. -/
def State.modItem (s : State) (tag : Nat) (f : Item → Item) : State :=
  { s with queue := { s.queue with items := s.queue.items.map fun i => if i.tag = tag then f i else i } }

/-- The tag that follows another: 1, 2, …, 65535 and then 1 again (R147). -/
def succTag (t : Nat) : Nat := if t < 65535 then t + 1 else 1

/-- The first tag from `t` onward that is not in use, within a number of steps. -/
def freeTag (used : List Nat) : Nat → Nat → Nat
  | 0, t => t
  | n + 1, t => if used.contains t then freeTag used n (succTag t) else t

/-- The tag the next item takes (R147). -/
def Queue.nextTag (q : Queue) : Nat := freeTag (q.items.map Item.tag) q.items.length (succTag q.lastTag)

/-- Rank of a class in the list: URGENT, PRIORITY, NORMAL (R149); also its code (R204). -/
def ItemClass.rank : ItemClass → Nat
  | .urgent => 0
  | .priority => 1
  | .normal => 2

/-- Whether an item is QUEUED. -/
def Item.isQueued (i : Item) : Bool := match i.state with | .queued => true | .claimed _ _ | .bound _ => false

/-- Place an item after every item of its class (R149). -/
def placeLast (it : Item) (l : List Item) : List Item :=
  l.filter (fun i => i.cls.rank ≤ it.cls.rank) ++ it :: l.filter (fun i => it.cls.rank < i.cls.rank)

/-- Move the items that `p` marks to the front of their classes, keeping their order among themselves (R149). -/
def placeFront (p : Item → Bool) (l : List Item) : List Item :=
  [ItemClass.urgent, .priority, .normal].flatMap fun c =>
    l.filter (fun i => i.cls = c && p i) ++ l.filter (fun i => i.cls = c && !p i)

/-- Create a QUEUED item with the next tag at the end of its class, set the copy's work item tag and charge credit, in
whatever state the Pacer is in (R69, R98, R126, R141). -/
def State.createItem (s : State) (kind : ItemKind) (cls : ItemClass) (c : CopyId) (mask : Mask) : State :=
  let tag := s.queue.nextTag
  let charge := chargeOf (s.byteLength c.seg)
  let it : Item := ⟨tag, kind, cls, c, charge, .queued, 0, false, mask, none⟩
  let t := { s with queue := { s.queue with items := placeLast it s.queue.items, lastTag := tag } }
  (t.setItemTag c (some tag)).chargeCredit charge

/-! ### Waiting owners and departures (R151, R152) -/

/-- Whether an owner waits for a place. -/
def State.isWaiting (s : State) (o : Owner) : Bool := s.queue.waiters.any fun w => w.owner == o

/-- An owner starts waiting: it takes the next waiting number and joins the list (R152). -/
def State.startWaiting (s : State) (o : Owner) : State :=
  { s with queue := { s.queue with
      waiters := s.queue.waiters ++ [⟨s.queue.waitCount + 1, o⟩], waitCount := s.queue.waitCount + 1 } }

/-- An owner leaves the waiting owners without being served (R152). -/
def State.stopWaiting (s : State) (o : Owner) : State :=
  { s with queue := { s.queue with waiters := s.queue.waiters.filter fun w => w.owner != o } }

/-- Create the item of an owner, which becomes ISSUED: a CONFIRM item for a slot (R69), a REPAIR item for a repair entry
(R98). -/
def State.issue (s : State) : Owner → State
  | .slot c => (s.createItem .confirm .urgent c 0#64).setSlot c (.issued s.queue.nextTag)
  | .repair c =>
    (s.createItem .repair .urgent c (((s.repair? c).map Repair.mask).getD 0#64)).modRepair c
      fun r => { r with state := .issued s.queue.nextTag }

/-- Serve waiting owners, oldest first, while the queue holds fewer than 40 items (R151 step 3, R152). -/
def State.serveList : List Waiter → State → State
  | [], s => s
  | w :: ws, s =>
    if s.queue.items.length < Config.itemsMax then
      State.serveList ws (({ s with queue := { s.queue with waiters := ws } }).issue w.owner)
    else s

/-- Serve the waiting owners. -/
def State.serve (s : State) : State := State.serveList s.queue.waiters s

/-- Give an owner its item, or let it wait when the queue holds 40 items (R69, R96, R101). -/
def State.issueOrWait (s : State) (o : Owner) : State :=
  if s.queue.items.length < Config.itemsMax then s.issue o else s.startWaiting o

/-- Take an item out of the list; its copy's work item tag becomes ABSENT (R151 step 1). -/
def State.takeOut (s : State) (it : Item) : State :=
  ({ s with queue := { s.queue with items := s.queue.items.filter fun i => i.tag != it.tag } }).setItemTag it.target none

/-- Removal of an item: never refunded (R151). -/
def State.removeItem (s : State) (it : Item) : State := (s.takeOut it).serve

/-- Withdrawal of an item: refunded when its ever-bound flag is clear (R151). -/
def State.withdrawItem (s : State) (it : Item) : State :=
  let t := s.takeOut it
  (if it.everBound then t else t.refundCredit it.charge).serve

/-- A leftover item on the target of a repair entry is gone: the entry takes the next waiting start and is served when
there is a place and no older owner waits (R97). -/
def State.leftoverGone (s : State) (c : CopyId) : State :=
  match s.repair? c with
  | some r =>
    if r.state = .waitingPlace ∧ s.isWaiting (.repair c) = false then (s.startWaiting (.repair c)).serve else s
  | none => s

/-- The slot of a COLLECTING entry that an item serves (R66). -/
def State.ownSlot? (s : State) (it : Item) : Option Slot :=
  (s.collecting? it.target.seg).bind fun d =>
    (d.slots[it.target.copy]?).filter fun st => st.tag == some it.tag

/-- An item has lost its purpose (R164): another lane has filled its dispute slot, or it is left over on the target of a
repair entry. -/
def State.isPurposeless (s : State) (it : Item) : Bool :=
  (match s.ownSlot? it with | some (.observed _ _ _) => true | _ => false) ||
    (it.kind != .repair && (s.repair? it.target).isSome)

/-- The item of an OBSERVED slot is gone: the slot's tag becomes ABSENT (R72). -/
def State.clearSlotTag (s : State) (it : Item) : State :=
  match s.ownSlot? it with
  | some (.observed o n _) => s.setSlot it.target (.observed o n none)
  | _ => s

/-- Withdraw an item that has lost its purpose (R164, R72, R97). -/
def State.withdrawPurposeless (s : State) (it : Item) : State :=
  ((s.withdrawItem it).clearSlotTag it).leftoverGone it.target

/-- Put an item back to QUEUED at the front of its class (R149, R158, R40), with a given requeue count. -/
def State.requeueFront (s : State) (it : Item) (count : Nat) : State :=
  let t := s.modItem it.tag fun i => { i with state := .queued, requeue := count, source := none }
  { t with queue := { t.queue with items := placeFront (fun i => i.tag == it.tag) t.queue.items } }

/-- Put an item back to QUEUED at the end of its class (R149, R161), with a given requeue count. -/
def State.requeueLast (s : State) (it : Item) (count : Nat) : State :=
  { s with queue := { s.queue with
      items := placeLast { it with state := .queued, requeue := count, source := none }
        (s.queue.items.filter fun i => i.tag != it.tag) } }

/-! ### Lanes -/

/-- The context of lane `n`, or `none` when it is FREE. -/
def State.lane (s : State) (n : Nat) : Option LaneCtx := (s.lanes[n]?).getD none

/-- Set lane `n`. -/
def State.setLane (s : State) (n : Nat) (l : Option LaneCtx) : State :=
  { s with lanes := s.lanes.setIfInBounds n l }

/-- The charge of a RESTORE or INGEST lane at its end (R44); an ITEM lane charges nothing. -/
def State.chargeLane (s : State) (l : LaneCtx) : State :=
  match l.purpose with
  | .item => s
  | .restore | .ingest => s.chargeCredit (chargeOf l.bytesTaken)

/-! ### Ports (R182 to R187, R205 to R209) -/

/-- The port of a head. -/
def State.port (s : State) : Head → Port
  | .a => s.portA
  | .b => s.portB

/-- Set the port of a head. -/
def State.setPort (s : State) (h : Head) (p : Port) : State :=
  match h with
  | .a => { s with portA := p }
  | .b => { s with portB := p }

/-- Number of orders not yet taken (R206). While the link is DOWN the order queue is empty (R183, R202), whatever the
counts, which wait to be zeroed (notes/assumptions/10.md). -/
def Port.orders (p : Port) : Nat := if p.link then (p.orderPost - p.orderTake).toNat else 0

/-- Number of replies not yet read (R206); none while the link is DOWN (R202, notes/assumptions/10.md). -/
def Port.unread (p : Port) : Nat := if p.link then (p.replyPost - p.replyRead).toNat else 0

/-- An order record as the port reads it from its place (R207). A body longer than 8,200 bytes is not read. -/
structure OrderRec where
  code : Nat
  tag : Half
  len : Nat
  body : List Byte
deriving DecidableEq, Repr

/-- The order record in the place of the oldest order (R206, R207). -/
def Port.frontOrder (p : Port) : OrderRec :=
  let base := Config.orderPlaceBytes * (p.orderTake.toNat % Config.ordersMax)
  let head := Memory.load p.area base 8
  let len := leAt head 4 2
  ⟨leAt head 0 2, BitVec.ofNat 16 (leAt head 2 2), len,
    if len ≤ Config.orderBodyMax then Memory.load p.area (base + 8) len else []⟩

/-- Refusal reasons (R186), in the order of their codes (R204). -/
inductive Reason where
  | badArgument
  | unknownOrder
  | unknownReel
  | unknownMedium
  | unknownItem
  | noRoom
  | inUse
  | present
  | noReference
  | noLane
  | notOwner
  | laneBusy
  | badState
  | offsetMismatch
  | tooLong
  | late
  | notClaimed
  | notDisputed
  | notBad
  | noSource
  | withdrawn
  | staleDay
  | dayUnset
  | busy
  | emptySlot
  | slotBusy
  | running
deriving DecidableEq, Repr

/-- The code of a refusal reason (R204). -/
def Reason.code : Reason → Nat
  | .badArgument => 1
  | .unknownOrder => 2
  | .unknownReel => 3
  | .unknownMedium => 4
  | .unknownItem => 5
  | .noRoom => 6
  | .inUse => 7
  | .present => 8
  | .noReference => 9
  | .noLane => 10
  | .notOwner => 11
  | .laneBusy => 12
  | .badState => 13
  | .offsetMismatch => 14
  | .tooLong => 15
  | .late => 16
  | .notClaimed => 17
  | .notDisputed => 18
  | .notBad => 19
  | .noSource => 20
  | .withdrawn => 21
  | .staleDay => 22
  | .dayUnset => 23
  | .busy => 24
  | .emptySlot => 25
  | .slotBusy => 26
  | .running => 27

/-- Causes of NO_COPY (R60). -/
inductive NoCopyCause where
  | lost
  | withdrawn
  | unavailable
deriving DecidableEq, Repr

/-- The code of a NO_COPY cause (R204). -/
def NoCopyCause.code : NoCopyCause → Nat
  | .lost => 1
  | .withdrawn => 2
  | .unavailable => 3

/-- The outcome of an order with the body of its reply (R186, R209). -/
inductive Answer where
  | ok (body : List Byte)
  | refused (reason : Reason) (body : List Byte)
  | empty
  | same (body : List Byte)
  | noCopy (cause : NoCopyCause)
deriving DecidableEq, Repr

/-- A refusal with an empty body. -/
def Answer.no (r : Reason) : Answer := .refused r []

/-- The code of an answer's outcome (R209). -/
def Answer.outcome : Answer → Nat
  | .ok _ => 0
  | .refused _ _ => 1
  | .empty => 2
  | .same _ => 3
  | .noCopy _ => 4

/-- The detail byte of an answer (R209). -/
def Answer.detail : Answer → Nat
  | .refused r _ => r.code
  | .noCopy c => c.code
  | .ok _ | .empty | .same _ => 0

/-- The body of an answer (R209). -/
def Answer.body : Answer → List Byte
  | .ok b => b
  | .refused _ b => b
  | .same b => b
  | .empty | .noCopy _ => []

/-- The bytes of a reply record (R209). -/
def replyBytes (code : Nat) (tag : Half) (a : Answer) : List Byte :=
  leBytes 2 code ++ leBytes 2 tag.toNat ++ leBytes 1 a.outcome ++ leBytes 1 a.detail ++ leBytes 2 a.body.length ++ a.body

/-- The offset in the port area of the place the next reply is posted into (R206). -/
def Port.replyPlace (p : Port) : Nat := Config.replyBase + Config.replyPlaceBytes * (p.replyPost.toNat % Config.repliesMax)

/-- Post a reply: the record goes into the next reply place and the reply post count rises (R206). -/
def Port.postReply (p : Port) (code : Nat) (tag : Half) (a : Answer) : Port :=
  { p with area := Memory.store p.area p.replyPlace (replyBytes code tag a), replyPost := p.replyPost + 1 }

/-- Post a reply to a head. -/
def State.reply (s : State) (h : Head) (code : Nat) (tag : Half) (a : Answer) : State :=
  s.setPort h ((s.port h).postReply code tag a)

/-- Reserve a reply place for an order that takes time (R187). -/
def State.reserve (s : State) (h : Head) : State :=
  s.setPort h { s.port h with reserved := (s.port h).reserved + 1 }

/-- Release a reserved reply place, filled or not (R187). -/
def State.release (s : State) (h : Head) : State :=
  s.setPort h { s.port h with reserved := (s.port h).reserved - 1 }

/-- The places of a port in use: replies posted and not read, and reserved places (R185). -/
def Port.placesInUse (p : Port) : Nat := p.unread + p.reserved

/-- Whether the order in front is a PORT_RESET of the right length, the one order that needs no free reply place (R200).
One of a wrong length resets nothing, so it waits for a place as any order does (notes/assumptions/4.md). -/
def Port.frontIsReset (p : Port) : Bool := p.frontOrder.code = 59 && p.frontOrder.len = 0

/-- Whether the port takes its next order (R184). -/
def Port.canTake (p : Port) : Bool :=
  p.link && 0 < p.orders && (p.placesInUse < Config.repliesMax || p.frontIsReset)

/-! ### Attention lines (R198) -/

/-- The level R198 gives the attention line of a head. -/
def State.lineOf (s : State) (h : Head) : Bool :=
  let p := s.port h
  (p.routineEnable && p.threshold ≤ s.fq.findings.length) ||
  (p.criticalEnable && s.fq.findings.any Finding.critical) ||
  s.fq.overflow ||
  (p.laneEnable && s.lanes.toList.any fun l =>
    match l with
    | some c => c.owner = h && c.state = .done
    | none => false)

/-- Drive both attention lines to the levels the conditions call for: the last act of every event (R198). -/
def State.settle (s : State) : State :=
  { s with portA := { s.portA with line := s.lineOf .a }, portB := { s.portB with line := s.lineOf .b } }

/-! ### Taking an order (R184 to R187) -/

/-- What applying an order does: the state after it with its answer, or, for an order that takes time and was accepted,
the state with its operation begun (R187). -/
inductive Applied where
  | answered (s : State) (a : Answer)
  | begun (s : State)

/-- The front order leaves its place: the take count rises (R206). -/
def State.popOrder (s : State) (h : Head) : State :=
  s.setPort h { s.port h with orderTake := (s.port h).orderTake + 1 }

/-- Finish an order: post its answer, or reserve its reply place (R185, R187); the attention lines follow. -/
def Applied.finish (h : Head) (o : OrderRec) : Applied → State
  | .answered s a => (s.reply h o.code o.tag a).settle
  | .begun s => (s.reserve h).settle

end Sys2Proof.Machine
end

