-- ==== Sys2Proof/Machine/Operands.lean ====
section
/-! DEFINITION. Operands.lean: the operands of the orders, read from an order record's body (R204, R207, R208), the body
length each order's format allows, and the value codes of R204. Field offsets are those of R207's table. -/

namespace Sys2Proof.Machine

/-! ### Value codes (R204) -/

/-- The medium kind of a code. -/
def MediumKind.ofCode : Nat → Option MediumKind
  | 0 => some .tape
  | 1 => some .disk
  | 2 => some .optical
  | _ => none

/-- The code of a medium kind. -/
def MediumKind.code : MediumKind → Nat
  | .tape => 0
  | .disk => 1
  | .optical => 2

/-- The state of a ladder step: SOUND is not allowed (R204, R173). -/
def Health.ofStepCode : Nat → Option Health
  | 1 => some .watch
  | 2 => some .degraded
  | 3 => some .withdrawn
  | _ => none

/-- The code of a trust value. -/
def Trust.code : Trust → Nat
  | .unverified => 0
  | .good => 1
  | .suspect => 2
  | .bad => 3
  | .repairing => 4

/-- The code of a reference origin; 0 is ABSENT. -/
def Origin.code : Origin → Nat
  | .learned => 1
  | .loaded => 2
  | .adopted => 3

/-- The LANE_OPEN form of a code. -/
def Purpose.ofCode : Nat → Option Purpose
  | 0 => some .item
  | 1 => some .restore
  | 2 => some .ingest
  | _ => none

/-- The code of a lane purpose. -/
def Purpose.code : Purpose → Nat
  | .item => 0
  | .restore => 1
  | .ingest => 2

/-- The code of a lane's state; FREE is 0. -/
def LaneState.code : LaneState → Nat
  | .openFor _ => 1
  | .digesting _ _ => 2
  | .done => 3

/-- The code of an end reason. -/
def EndReason.code : EndReason → Nat
  | .completed => 1
  | .short => 2
  | .aborted => 3
  | .stalled => 4

/-- The code of a result; 0 is none. -/
def Result.code : Result → Nat
  | .matched => 1
  | .mismatch => 2
  | .learned => 3
  | .inconclusive => 4

/-- The code of a routing. -/
def Routing.code : Routing → Nat
  | .plain => 0
  | .dispute => 1
  | .superseded => 2
  | .notUsed => 3

/-- The code of an item kind. -/
def ItemKind.code : ItemKind → Nat
  | .scrub => 0
  | .confirm => 1
  | .repair => 2

/-- The reason of an ITEM_RETURN. -/
inductive ReturnReason where
  | retry
  | unreadable
deriving DecidableEq, Repr

/-- The return reason of a code. -/
def ReturnReason.ofCode : Nat → Option ReturnReason
  | 1 => some .retry
  | 2 => some .unreadable
  | _ => none

/-- The band action of a code. -/
def BandAction.ofCode : Nat → Option BandAction
  | 0 => some .skip
  | 1 => some .normal
  | 2 => some .priority
  | _ => none

/-- The code of a pacer state. -/
def PacerState.code : PacerState → Nat
  | .stopped => 0
  | .delay => 1
  | .work => 2
  | .yield => 3

/-- The code of a walker state. -/
def WalkerState.code : WalkerState → Nat
  | .idle => 0
  | .walking => 1
  | .waitCredit => 2
  | .waitRoom => 3
  | .paused => 4
  | .halted => 5

/-- The code of a plan slot's state. -/
def PlanSlot.code : PlanSlot → Nat
  | .empty => 0
  | .loading _ _ _ => 1
  | .loaded _ => 2

/-- The code of a finding kind (R204). -/
def FindingKind.code : FindingKind → Nat
  | .copyMismatch => 1
  | .copyBad => 2
  | .referenceDisputed => 3
  | .segmentLost => 4
  | .repairFailed => 5
  | .repairNoSource => 6
  | .mediumStep => 7
  | .transientRead => 8
  | .frameListSuspect => 9
  | .disputeDeferred => 10
  | .voteDecided => 11
  | .repaired => 12
  | .repairDeferred => 13
  | .repairAbandoned => 14
  | .itemAbandoned => 15
  | .dueNotice => 16
  | .planMark => 17
  | .planEntryStale => 18
  | .planDone => 19

/-! ### Record formats (R207) -/

/-- The body length an order's format allows, given its body: for an order with a list, the fixed part plus the count
carried in the body times the entry size. `none` for a code that names no order. -/
def bodyLength (body : List Byte) : Nat → Option Nat
  | 1 => some 8
  | 2 | 3 | 4 | 5 => some 4
  | 6 => some 32
  | 7 => some 8
  | 8 => some (24 + 8 * leAt body 17 1)
  | 9 => some 8
  | 10 => some 16
  | 16 => some 16
  | 17 => some 12
  | 18 | 19 | 20 => some 4
  | 24 => some 0
  | 25 => some 4
  | 32 | 33 => some 8
  | 34 => some 16
  | 40 => some (8 + 16 * leAt body 2 2)
  | 41 => some 4
  | 42 => some 4
  | 43 | 44 | 45 => some 0
  | 46 => some (4 + 8 * leAt body 0 1)
  | 47 => some 4
  | 48 => some 12
  | 49 | 50 | 51 => some 0
  | 52 => some (4 + 4 * leAt body 0 1)
  | 53 => some 8
  | 56 => some 4
  | 57 => some 4
  | 58 | 59 => some 0
  | _ => none

/-- The second common check (R186, R207): the body length is the one the format allows, and at most 8,200. -/
def OrderRec.lengthOk (o : OrderRec) : Bool :=
  o.len ≤ Config.orderBodyMax && bodyLength o.body o.code = some o.len

/-- A boolean byte: 0 or 1, anything else is refused (R204). -/
def boolAt (body : List Byte) (off : Nat) : Option Bool :=
  match leAt body off 1 with
  | 0 => some false
  | 1 => some true
  | _ => none

/-- An optional one-byte field whose ABSENT value is 255 (R204). -/
def optByte (v : Nat) : Option Nat := if v = 255 then none else some v

/-- An optional two-byte field whose ABSENT value is 65535 (R204). -/
def optHalf (v : Nat) : Option Nat := if v = 65535 then none else some v

/-- The segment named by an order with the accession id at 0 and the segment index at 6. -/
def segOperand (body : List Byte) : SegId := ⟨leAt body 0 6, leAt body 6 2⟩

/-- The digests of a list of `n` digests from an offset on. -/
def digestsAt (body : List Byte) (off : Nat) (n : Nat) : List Digest :=
  (List.range n).map fun i => BitVec.ofNat 64 (leAt body (off + 8 * i) 8)

/-- Plan entry `i` of a PLAN_LOAD body (R208). -/
def planEntryAt (body : List Byte) (i : Nat) : PlanEntry :=
  let off := 8 + 16 * i
  let flags := leAt body (off + 11) 1
  ⟨leAt body off 6, leAt body (off + 6) 2, leAt body (off + 8) 2, leAt body (off + 10) 1,
    flags.testBit 0, flags.testBit 1, flags.testBit 2⟩

/-- The entries of a PLAN_LOAD body. -/
def planEntries (body : List Byte) : List PlanEntry := (List.range (leAt body 2 2)).map (planEntryAt body)

/-- The ranges of a plan entry (R109, check 3 of R110). -/
def PlanEntry.inRange (e : PlanEntry) : Bool :=
  e.acc != 0 && 1 ≤ e.copyMask && e.copyMask ≤ 7 && e.firstSegment ≤ 16383 && e.segmentCount ≤ 16384

/-- Band `i` of a BANDS_SET body, if its boolean and its action are in range. -/
def bandAt (body : List Byte) (i : Nat) : Option Band := do
  let off := 4 + 8 * i
  let notify ← boolAt body (off + 5)
  let action ← BandAction.ofCode (leAt body (off + 4) 1)
  return ⟨leAt body off 2, leAt body (off + 2) 2, action, notify⟩

/-- The bands of a BANDS_SET body, if every one can be read. -/
def bandsOperand (body : List Byte) : Option (List Band) := (List.range (leAt body 0 1)).mapM (bandAt body)

/-- Step `i` of a LADDER_SET body, if its boolean and its state are in range. -/
def stepAt (body : List Byte) (i : Nat) : Option LadderStep := do
  let off := 4 + 4 * i
  let attention ← boolAt body (off + 3)
  let state ← Health.ofStepCode (leAt body (off + 2) 1)
  return ⟨leAt body off 2, state, attention⟩

/-- The steps of a LADDER_SET body, if every one can be read. -/
def ladderOperand (body : List Byte) : Option (List LadderStep) := (List.range (leAt body 0 1)).mapM (stepAt body)

/-- The settings of a PACE_SET body. -/
def paceOperand (body : List Byte) : PaceSettings :=
  ⟨leAt body 0 2, leAt body 2 1, leAt body 4 2, leAt body 6 2, leAt body 8 2⟩

/-- The ranges of the Pacer's settings (R130). -/
def PaceSettings.inRange (p : PaceSettings) : Bool :=
  1 ≤ p.budget && p.budget ≤ 65535 && p.fraction ≤ 15 && 1 ≤ p.work && p.work ≤ 4095 && p.yield ≤ 4095 &&
    p.delay ≤ 65535

/-! ### Taking an order -/

/-- The port of `h` takes its oldest order when that order has the given code (R184, R206): the order leaves its place,
the length check of R186 is made, and the order is applied. When the port does not take an order with this code now, the
command is a step that does not occur (notes/assumptions/1.md). -/
def takeOrder (h : Head) (code : Nat) (act : Half → List Byte → State → Applied) (s : State) :
    Host.Outcome State Fault Refusal :=
  let p := s.port h
  let o := p.frontOrder
  if p.canTake && o.code == code then
    .next ((if o.lengthOk then act o.tag o.body (s.popOrder h)
      else .answered (s.popOrder h) (.no .badArgument)).finish h o)
  else .next s

/-- The common check of R5 for an order that names a reel and a segment. -/
def State.checkSeg (s : State) (g : SegId) : Except Reason Reel :=
  match s.activeReel? g.reel with
  | none => .error .unknownReel
  | some r => if g.segment < r.segCount then .ok r else .error .badArgument

/-- The common check of R5 for an order that also names a copy. -/
def State.checkCopy (s : State) (c : CopyId) : Except Reason Reel :=
  match s.checkSeg c.seg with
  | .error e => .error e
  | .ok r => if c.copy < r.copyCount then .ok r else .error .badArgument

end Sys2Proof.Machine
end

