-- ==== Sys2Proof/Machine/Flags.lean ====
section
/-! DEFINITION. Flags.lean: the flags bytes of the records (R204, R209, R210), each a number whose named bits carry
set/clear values. -/

namespace Sys2Proof.Machine

/-- A flags byte from its bits, bit 0 first. -/
def flagsOf : List Bool → Nat
  | [] => 0
  | b :: bs => boolNat b + 2 * flagsOf bs

/-- The marks of a medium record: saturated, withdrawn by head, reset pending (R209). -/
def Medium.marks (m : Medium) : Nat := flagsOf [m.saturated, m.withdrawnByHead, m.resetPending]

/-- The marks of a copy record: dispute deferred, repair exhausted (R209). -/
def CopyRec.marks (c : CopyRec) : Nat := flagsOf [c.deferred, c.exhausted]

/-- The flags of a lane report: observation present, frame-list-compared, window-conflict (R209). -/
def LaneCtx.flags (l : LaneCtx) : Nat := flagsOf [l.observed.isSome, l.observed.isSome && l.compared, l.conflict]

/-- The flags of a finding record: digest present, frame mask present (R210). -/
def Finding.flags (f : Finding) : Nat := flagsOf [f.digest.isSome, f.mask.isSome]

/-- The attention enables: routine, critical, lane-report (R207). -/
def Port.enables (p : Port) : Nat := flagsOf [p.routineEnable, p.criticalEnable, p.laneEnable]

/-- The flags of a STATUS reply to head `h` (R210). -/
def State.statusFlags (s : State) (h : Head) : Nat :=
  flagsOf [s.portA.link, s.portB.link, s.portA.line, s.portB.line, (s.port h).overrun, s.day.isSome, s.fq.overflow]

/-- The Pacer's flags of a STATUS reply: stop pending, staged set exists (R210). -/
def Pacer.flags (p : Pacer) : Nat := flagsOf [p.stopPending, p.staged.isSome]

end Sys2Proof.Machine
end

