-- ==== Sys2Proof/Machine/Repair.lean ====
section
/-! DEFINITION. Repair.lean: the Repair Table (chapter 5) and REPAIR_REQUEST. -/

namespace Sys2Proof.Machine

/-- The source of a repair (R99): the lowest-indexed GOOD copy other than the target on a SOUND or WATCH medium, or
failing that on a DEGRADED medium. -/
def State.source? (s : State) (c : CopyId) : Option Nat :=
  let good := (s.copiesOf c.seg).filter fun d => d != c && (s.copy d).trust == .good
  let first := good.find? fun d => s.copyHealth d == .sound || s.copyHealth d == .watch
  (first <|> good.find? fun d => s.copyHealth d == .degraded).map CopyId.copy

/-- Creation of a repair entry (R96, R97): the target becomes REPAIRING; a QUEUED leftover item on it is withdrawn, a
CLAIMED or BOUND one continues; with no other item the entry gets its REPAIR item or waits for a place. -/
def State.createRepair (s : State) (c : CopyId) (mask : Mask) (origin : RepairOrigin) : State :=
  let entry : Repair := ⟨c, mask, 1, .waitingPlace, origin⟩
  let t := ({ s with repairs := s.repairs ++ [entry] }).setTrust c .repairing
  match (t.copy c).itemTag.bind t.item? with
  | some it => if it.isQueued then (t.withdrawItem it).leftoverGone c else t
  | none => t.issueOrWait (.repair c)

/-- An internal request for the repair of a BAD copy (R94). -/
def State.requestRepair (s : State) (c : CopyId) (mask : Mask) (origin : RepairOrigin) : State :=
  if s.copyHealth c = .withdrawn then
    s.post (s.copyFinding .repairAbandoned false s.today c none (some mask) 1)
  else if (s.source? c).isNone then
    s.post (s.copyFinding .repairNoSource true s.today c none (some mask) 1)
  else if Config.repairsMax ≤ s.repairs.length then
    s.post (s.copyFinding .repairDeferred false s.today c none (some mask) Config.repairsMax)
  else s.createRepair c mask origin

/-- The internal requests of one decision, in the order given, each for a copy that is still BAD (R84, R89, R90). -/
def State.requestRepairs (s : State) (origin : RepairOrigin) (l : List (CopyId × Mask)) : State :=
  l.foldl (fun t p => if (t.copy p.1).trust = .bad then t.requestRepair p.1 p.2 origin else t) s

/-- Close the repair entry of a copy without success: the entry is removed, the target becomes BAD, the finding is posted,
and SEGMENT_LOST follows when every copy is now BAD (R99, R103, R105). -/
def State.closeRepair (s : State) (c : CopyId) (kind : FindingKind) (critical : Bool) (cause : Nat) : State :=
  let mask := (s.repair? c).map Repair.mask
  let t := (s.removeRepair c).setTrust c .bad
  (t.post (t.copyFinding kind critical t.today c none mask cause)).postIfLost c.seg

/-- A repair entry is abandoned (R103): REPAIR_ABANDONED with its cause. -/
def State.abandonRepair (s : State) (c : CopyId) (cause : Nat) : State := s.closeRepair c .repairAbandoned false cause

/-- A read-back MATCH (R100). -/
def State.readBackMatch (s : State) (c : CopyId) (r : Repair) (o : Obs) : State :=
  let t := s.setGood c s.today
  (t.post (t.copyFinding .repaired false t.today c (some o.digest) (some r.mask) r.attempt)).removeRepair c

/-- A read-back MISMATCH (R101, R102). -/
def State.readBackMismatch (s : State) (c : CopyId) (r : Repair) (o : Obs) : State :=
  if r.attempt + 1 ≤ 3 then
    (s.modRepair c fun q =>
      { q with attempt := r.attempt + 1, mask := o.repairMask (s.frameCount c.seg), state := .waitingPlace }).issueOrWait
        (.repair c)
  else
    let t := (s.setTrust c .bad).setExhausted c true
    let u := t.post (t.copyFinding .repairFailed true t.today c (some o.digest) o.findingMask 3)
    ((u.chargeMedium c Config.weightExhausted).removeRepair c).postIfLost c.seg

/-- The judged result of a REPAIR item's lane goes to the entry as a read-back (R41, R100, R101, R102). -/
def State.readBack (s : State) (c : CopyId) (result : Result) (o : Obs) : State :=
  match s.repair? c with
  | none => s
  | some r => if result = .mismatch then s.readBackMismatch c r o else s.readBackMatch c r o

/-- REPAIR_REQUEST (R95). -/
def repairRequest (body : List Byte) (s : State) : Applied :=
  let c : CopyId := (segOperand body).copy (leAt body 8 1)
  match s.checkCopy c with
  | .error e => .answered s (.no e)
  | .ok r =>
    if (s.dispute? c.seg).isSome then .answered s (.no .inUse)
    else if (s.copy c).trust ≠ .bad then .answered s (.no .notBad)
    else if s.copyHealth c = .withdrawn then .answered s (.no .withdrawn)
    else if (s.source? c).isNone then .answered s (.no .noSource)
    else if Config.repairsMax ≤ s.repairs.length then .answered s (.no .noRoom)
    else
      let t := (s.setExhausted c false).createRepair c (fullMask (r.frameCount c.segment)) .head
      let state := match t.repair? c with
        | some ⟨_, _, _, .issued tag, _⟩ => leBytes 1 1 ++ zeros 1 ++ leBytes 2 tag
        | _ => zeros 4
      .answered t.wakeRoom (.ok state)

/-- REPAIR_REQUEST taken by the port of `h`. -/
def execRepairRequest (h : Head) (s : State) : Host.Outcome State Fault Refusal :=
  takeOrder h 34 (fun _ body => repairRequest body) s

end Sys2Proof.Machine
end

