-- ==== Sys2Proof/Machine/Disputes.lean ====
section
/-! DEFINITION. Disputes.lean: the Dispute Table, the copy vote and the resolution by the heads (chapter 4). -/

namespace Sys2Proof.Machine

/-! ### The vote (R79 to R85) -/

/-- The observation in a slot with its lane number (R66). -/
def Dispute.slotObs (d : Dispute) (i : Nat) : Option (Obs × Nat) :=
  match d.slots[i]? with
  | some (.observed o n _) => some (o, n)
  | _ => none

/-- The effective observation of a copy, when the copy is voted (R79). -/
def Dispute.effective (d : Dispute) (i : Nat) : Option Obs :=
  if i = d.trigger then some (((d.slotObs i).map Prod.fst).getD d.first) else (d.slotObs i).map Prod.fst

/-- The voted copies with their effective observations, in ascending index (R79). -/
def Dispute.votes (d : Dispute) : List (Nat × Obs) :=
  (List.range d.slots.length).filterMap fun i => (d.effective i).map fun o => (i, o)

/-- No slot is WANTED or ISSUED any more (R77). -/
def Dispute.isDecided (d : Dispute) : Bool :=
  d.slots.all fun st => match st with
    | .wanted | .issued _ => false
    | .notWanted | .observed _ _ _ | .unread => true

/-- The digest that at least two voted copies share (R82). -/
def sharedDigest (votes : List (Nat × Obs)) : Option Digest :=
  (votes.find? fun p => 2 ≤ (votes.filter fun q => q.2.digest == p.2.digest).length).map fun p => p.2.digest

/-- The transient-read test (R80). -/
def State.transientTest (s : State) (d : Dispute) (r : Option Digest) : State :=
  match d.slotObs d.trigger with
  | some (o, lane) =>
    if some o.digest = r then
      let c := d.seg.copy d.trigger
      (s.post (s.copyFinding .transientRead false s.today c (some o.digest) none lane)).chargeMedium c
        Config.weightTransient
    else s
  | none => s

/-- A voted copy becomes BAD: COPY_BAD is posted and its medium charged 8 points (R81 step 2). -/
def State.judgeBad (s : State) (g : SegId) (outcome : Nat) (p : Nat × Obs) : State :=
  let c := g.copy p.1
  let t := s.setTrust c .bad
  (t.post (t.copyFinding .copyBad true t.today c (some p.2.digest) p.2.findingMask outcome)).chargeMedium c
    Config.weightBad

/-- Several voted copies become BAD, in ascending index. -/
def State.judgeAllBad (s : State) (g : SegId) (outcome : Nat) (l : List (Nat × Obs)) : State :=
  l.foldl (fun t p => t.judgeBad g outcome p) s

/-- Several voted copies become GOOD on a day. -/
def State.judgeAllGood (s : State) (g : SegId) (day : Nat) (l : List Nat) : State :=
  l.foldl (fun t i => t.setGood (g.copy i) day) s

/-- The detail value of VOTE_DECIDED (R88). -/
def outcomeDetail (outcome : Nat) (expired : Bool) : Nat := outcome + if expired then 16 else 0

/-- Closing steps 1 to 4 of a vote (R84): marks cleared, VOTE_DECIDED, SEGMENT_LOST. The confirm timer stops with the
entry's phase. -/
def State.closeVote (s : State) (g : SegId) (votes : List (Nat × Obs)) (outcome : Nat) (expired : Bool)
    (dig : Option Digest) : State :=
  let t := votes.foldl (fun t p => t.setDeferred (g.copy p.1) false) s
  (t.post (segFinding .voteDecided false t.today g dig (outcomeDetail outcome expired))).postIfLost g

/-- The repair requests of a decision: each rejected copy with the mask of its effective observation (R84, R85). -/
def repairList (g : SegId) (frames : Nat) (l : List (Nat × Obs)) : List (CopyId × Mask) :=
  l.map fun p => (g.copy p.1, p.2.repairMask frames)

/-- Closing steps 5 and 6 of an AGREED or UNAGREED vote (R84): the entry is removed, and repairs are requested unless the
segment is LOST. -/
def State.endVote (s : State) (g : SegId) (rejected : List (Nat × Obs)) : State :=
  let t := s.removeDispute g
  if t.isLost g then t else t.requestRepairs .vote (repairList g (t.frameCount g) rejected)

/-- The outcome AGREED (R81). -/
def State.voteAgreed (s : State) (g : SegId) (votes : List (Nat × Obs)) (r : Option Digest) (expired : Bool) : State :=
  let good := votes.filter fun p => some p.2.digest == r
  let rejected := votes.filter fun p => some p.2.digest != r
  let t := (s.judgeAllGood g s.today (good.map Prod.fst)).judgeAllBad g 1 rejected
  (t.closeVote g votes 1 expired r).endVote g rejected

/-- The outcome DISPUTED with the shared digest `dd` (R82). The slots stand as they were, item tags included: whether an
OBSERVED slot keeps the tag of an item that the decision frees (R76), or loses it with that item (R66, R72), R86 does not
settle; here it keeps the tag and nothing clears it (DESIGN CHOICE, notes/assumptions/25.md). -/
def State.voteDisputed (s : State) (g : SegId) (votes : List (Nat × Obs)) (dd : Digest) (expired : Bool) : State :=
  let agreeing := votes.filter fun p => p.2.digest == dd
  let rejected := votes.filter fun p => p.2.digest != dd
  let t := (agreeing.foldl (fun t p => t.setTrust (g.copy p.1) .suspect) s).judgeAllBad g 2 rejected
  let u := (t.post (segFinding .referenceDisputed true t.today g (some dd) agreeing.length)).modDispute g fun d =>
    { d with phase := .awaiting dd, agreeing := agreeing.map Prod.fst, rejected := rejected.map Prod.fst }
  u.closeVote g votes 2 expired (some dd)

/-- The outcome UNAGREED (R83). -/
def State.voteUnagreed (s : State) (g : SegId) (votes : List (Nat × Obs)) (r : Option Digest) (expired : Bool) : State :=
  ((s.judgeAllBad g 3 votes).closeVote g votes 3 expired r).endVote g votes

/-- The copy vote of a segment's entry (R79 to R84). -/
def State.takeVote (s : State) (g : SegId) (expired : Bool) : State :=
  match s.dispute? g with
  | none => s
  | some d =>
    let r := s.refDigest g
    let t := s.transientTest d r
    if d.votes.any fun p => some p.2.digest == r then t.voteAgreed g d.votes r expired
    else match sharedDigest d.votes with
      | some dd => t.voteDisputed g d.votes dd expired
      | none => t.voteUnagreed g d.votes r expired

/-- The decision test after a change to a COLLECTING entry's slots (R77). -/
def State.testDecision (s : State) (g : SegId) : State :=
  match s.collecting? g with
  | some d => if d.isDecided then s.takeVote g false else s
  | none => s

/-! ### Opening (R67 to R69) -/

/-- A slot's starting status (R67 step 2). -/
def State.startSlot (s : State) (trigger : CopyId) (c : CopyId) : Slot :=
  if c = trigger then .wanted
  else match (s.copy c).trust with
    | .unverified | .good | .suspect => if s.copyHealth c = .withdrawn then .notWanted else .wanted
    | .bad | .repairing => .notWanted

/-- A dispute's takeover of the item of copy `c` (R68, R165): it becomes CONFIRM and URGENT, at the end of the URGENT
class, and the copy's slot ISSUED. -/
def State.takeOver (s : State) (c : CopyId) (it : Item) : State :=
  ({ s with queue := { s.queue with
      items := placeLast { it with kind := .confirm, cls := .urgent }
        (s.queue.items.filter fun i => i.tag != it.tag) } }).setSlot c (.issued it.tag)

/-- Serve a WANTED slot at the opening (R68, R69). -/
def State.serveSlot (s : State) (c : CopyId) : State :=
  match (s.dispute? c.seg).bind fun d => d.slots[c.copy]? with
  | some .wanted =>
    match ((s.copy c).itemTag.bind s.item?).filter fun it => it.kind != .repair with
    | some it => s.takeOver c it
    | none => s.issueOrWait (.slot c)
  | _ => s

/-- The opening of a dispute by the mismatch of copy `c` (R67). -/
def State.openDispute (s : State) (c : CopyId) (o : Obs) : State :=
  let copies := s.copiesOf c.seg
  let entry : Dispute := ⟨c.seg, c.copy, .collecting s.limits.confirm, o, copies.map (s.startSlot c), [], []⟩
  let t := { s with disputes := s.disputes ++ [entry] }
  (copies.foldl State.serveSlot t).setDeferred c false

/-! ### Results routed to a COLLECTING entry (R70 to R72) -/

/-- Deal with the own item of a slot that another lane has filled (R72). -/
def State.dealOwnItem (s : State) (c : CopyId) (o : Obs) (lane : Nat) (tag : Nat) : State :=
  match s.item? tag with
  | some it => if it.isQueued then (s.withdrawItem it).setSlot c (.observed o lane none) else s
  | none => s

/-- Apply a judged result to the slot of its copy (R70): the routing and the state after it. `laneTag` is the tag of the
lane's item, if it read one. -/
def State.routeDispute (s : State) (d : Dispute) (c : CopyId) (o : Obs) (lane : Nat) (laneTag : Option Nat) :
    Routing × State :=
  match d.slots[c.copy]? with
  | some .wanted =>
    (.dispute, ((s.stopWaiting (.slot c)).setSlot c (.observed o lane none)).testDecision c.seg)
  | some (.issued t) =>
    if laneTag = some t then (.dispute, (s.setSlot c (.observed o lane none)).testDecision c.seg)
    else (.dispute, ((s.setSlot c (.observed o lane (some t))).dealOwnItem c o lane t).testDecision c.seg)
  | some (.observed o' n' (some t)) =>
    if laneTag = some t then (.superseded, s.setSlot c (.observed o' n' none)) else (.notUsed, s)
  | some (.observed _ _ none) | some .unread | some .notWanted | none => (.notUsed, s)

/-! ### The confirm timer (R78) -/

/-- One slot of an entry whose confirm timer expires: an open one becomes UNREAD, and a waiting one leaves the waiting
owners (R78). -/
def State.expireSlot (s : State) (c : CopyId) : State :=
  match (s.dispute? c.seg).bind fun d => d.slots[c.copy]? with
  | some .wanted => (s.stopWaiting (.slot c)).setSlot c .unread
  | some (.issued _) => s.setSlot c .unread
  | _ => s

/-- The own items of an entry's ISSUED slots, in ascending copy index. -/
def State.openItems (s : State) (d : Dispute) : List Item :=
  d.slots.filterMap fun st => match st with
    | .issued t => s.item? t
    | _ => none

/-- The expiry of the confirm timer of a COLLECTING entry (R78): every open slot becomes UNREAD, then each own item that
is QUEUED is withdrawn, then the vote is taken with what has been observed. All the slots are given up before the first
withdrawal frees a place, so no place goes to a slot of the entry (notes/assumptions/5.md). -/
def State.expireDispute (s : State) (g : SegId) (d : Dispute) : State :=
  let t := ((List.range d.slots.length).map g.copy).foldl State.expireSlot s
  ((((s.openItems d).filter Item.isQueued).foldl State.withdrawItem t).takeVote g true).wakeRoom

/-- CONFIRM_TIMER_EXPIRY (R78). Where no COLLECTING entry stands on the segment, no confirm timer runs. -/
def execConfirmTimerExpiry (reel segment : Nat) (s : State) : Host.Outcome State Fault Refusal :=
  match s.collecting? ⟨reel, segment⟩ with
  | some d => .next (s.expireDispute ⟨reel, segment⟩ d).settle
  | none => .next s

/-! ### Resolution by the heads (R89, R90) -/

/-- The entry of a segment that awaits resolution, with its agreed digest. -/
def State.awaiting? (s : State) (g : SegId) : Option (Dispute × Digest) :=
  (s.dispute? g).bind fun d => match d.phase with
    | .awaiting dd => some (d, dd)
    | .collecting _ => none

/-- The effects of DISPUTE_ADOPT on an entry with agreed digest `dd` (R89). -/
def State.adopt (s : State) (g : SegId) (d : Dispute) (dd : Digest) : State :=
  let s1 := s.modSeg g fun r => { r with reference := some ⟨dd, .adopted⟩, frameList := none }
  let s2 := s1.judgeAllGood g s1.today d.agreeing
  let s3 := s2.post (segFinding .voteDecided false s2.today g (some dd) 4)
  (s3.removeDispute g).requestRepairs .adopt (d.rejected.map fun i => (g.copy i, fullMask (s3.frameCount g)))

/-- The effects of DISPUTE_REJECT (R90). -/
def State.reject (s : State) (g : SegId) (d : Dispute) : State :=
  let agreeing := d.votes.filter fun p => d.agreeing.contains p.1
  let rejected := d.votes.filter fun p => d.agreeing.contains p.1 || d.rejected.contains p.1
  let s1 := s.judgeAllBad g 5 agreeing
  let s2 := (s1.post (segFinding .voteDecided false s1.today g (s1.refDigest g) 5)).postIfLost g
  let s3 := s2.removeDispute g
  if s3.isLost g then s3 else s3.requestRepairs .reject (repairList g (s3.frameCount g) rejected)

/-- DISPUTE_ADOPT (R89). -/
def disputeAdopt (body : List Byte) (s : State) : Applied :=
  let g := segOperand body
  match s.checkSeg g with
  | .error e => .answered s (.no e)
  | .ok _ => match s.awaiting? g with
    | none => .answered s (.no .notDisputed)
    | some (d, dd) => .answered (s.adopt g d dd).wakeRoom (.ok [])

/-- DISPUTE_ADOPT taken by the port of `h`. -/
def execDisputeAdopt (h : Head) (s : State) : Host.Outcome State Fault Refusal :=
  takeOrder h 32 (fun _ body => disputeAdopt body) s

/-- DISPUTE_REJECT (R90). -/
def disputeReject (body : List Byte) (s : State) : Applied :=
  let g := segOperand body
  match s.checkSeg g with
  | .error e => .answered s (.no e)
  | .ok _ => match s.awaiting? g with
    | none => .answered s (.no .notDisputed)
    | some (d, _) => .answered (s.reject g d).wakeRoom (.ok [])

/-- DISPUTE_REJECT taken by the port of `h`. -/
def execDisputeReject (h : Head) (s : State) : Host.Outcome State Fault Refusal :=
  takeOrder h 33 (fun _ body => disputeReject body) s

end Sys2Proof.Machine
end

