-- ==== Sys2Proof/Machine/Trust.lean ====
section
/-! DEFINITION. Trust.lean: the plain trust rules, the segment condition and copy selection (chapter 3). -/

namespace Sys2Proof.Machine

/-! ### The plain rules (R50 to R56, R63) -/

/-- Post COPY_MISMATCH for a copy (R63). -/
def State.postMismatch (s : State) (c : CopyId) (o : Obs) (lane : Nat) : State :=
  s.post (s.copyFinding .copyMismatch true s.today c (some o.digest) o.findingMask lane)

/-- A plain MISMATCH on an UNVERIFIED, GOOD or SUSPECT copy (R53, R54). -/
def State.plainMismatch (s : State) (c : CopyId) (o : Obs) (lane : Nat) : State :=
  let t := (s.setTrust c .suspect).postMismatch c o lane
  if t.disputes.length < Config.disputesMax then t.openDispute c o
  else
    let u := t.setDeferred c true
    u.post (u.copyFinding .disputeDeferred false u.today c (some o.digest) o.findingMask lane)

/-- A plain MATCH on a SUSPECT copy with the dispute-deferred mark (R52). -/
def State.plainTransient (s : State) (c : CopyId) (o : Obs) (lane : Nat) : State :=
  let t := s.setGood c s.today
  (t.post (t.copyFinding .transientRead false t.today c (some o.digest) none lane)).chargeMedium c
    Config.weightTransient

/-- Apply a judged result by the plain rules (R50): the first row of its table that holds. The last row of the match is
for a SUSPECT copy without the mark, which R50 says does not reach these rules: nothing changes. -/
def State.plain (s : State) (c : CopyId) (result : Result) (o : Obs) (lane : Nat) : State :=
  if (s.awaiting? c.seg).isSome then
    if result = .mismatch then s.postMismatch c o lane else s
  else match (s.copy c).trust, result with
    | .bad, _ | .repairing, _ => s
    | .unverified, .mismatch | .good, .mismatch | .suspect, .mismatch => s.plainMismatch c o lane
    | .unverified, _ | .good, _ => s.setGood c s.today
    | .suspect, .matched => if (s.copy c).deferred then s.plainTransient c o lane else s
    | .suspect, _ => s

/-! ### Segment condition (R58) -/

/-- The segment condition (R58). -/
inductive Condition where
  | ordinary
  | disputed
  | lost
deriving DecidableEq, Repr

/-- The code of a segment condition (R204). -/
def Condition.code : Condition → Nat
  | .ordinary => 0
  | .disputed => 1
  | .lost => 2

/-- The condition of a segment: the first row of R58 that holds. -/
def State.condition (s : State) (g : SegId) : Condition :=
  if s.isLost g then .lost else if (s.awaiting? g).isSome then .disputed else .ordinary

/-! ### COPY_SELECT (R59 to R61) -/

/-- The tier of a copy by its trust and its medium's effective health, when it can be a candidate (R59). -/
def tierOf : Trust → Health → Option Nat
  | .bad, _ | .repairing, _ => none
  | _, .withdrawn => none
  | .good, .sound | .good, .watch => some 1
  | .good, .degraded => some 2
  | .unverified, .sound | .unverified, .watch => some 3
  | .unverified, .degraded => some 4
  | .suspect, .sound | .suspect, .watch | .suspect, .degraded => some 5

/-- The candidate of a segment with a given tier and the lowest copy index, with an optional excluded copy (R59). -/
def State.candidate? (s : State) (g : SegId) (excluded : Option Nat) (tier : Nat) : Option CopyId :=
  (s.copiesOf g).find? fun c => some c.copy != excluded && tierOf (s.copy c).trust (s.copyHealth c) == some tier

/-- The copy COPY_SELECT names, with its tier (R59): the candidate in the lowest-numbered tier. -/
def State.selectCopy (s : State) (g : SegId) (excluded : Option Nat) : Option (CopyId × Nat) :=
  [1, 2, 3, 4, 5].findSome? fun t => (s.candidate? g excluded t).map fun c => (c, t)

/-- A copy that is UNVERIFIED, GOOD or SUSPECT (R60). -/
def Trust.isReadable : Trust → Bool
  | .unverified | .good | .suspect => true
  | .bad | .repairing => false

/-- The cause of NO_COPY: the first row of R60 that holds. -/
def State.noCopyCause (s : State) (g : SegId) (excluded : Option Nat) : NoCopyCause :=
  let others := (s.copiesOf g).filter fun c => some c.copy != excluded && (s.copy c).trust.isReadable
  if s.isLost g then .lost
  else if !others.isEmpty && others.all fun c => s.copyHealth c == .withdrawn then .withdrawn
  else .unavailable

/-- COPY_SELECT (R59, R60). -/
def copySelect (body : List Byte) (s : State) : Applied :=
  let g := segOperand body
  let excluded := optByte (leAt body 8 1)
  let check := match excluded with
    | some i => s.checkCopy (g.copy i)
    | none => s.checkSeg g
  match check with
  | .error e => .answered s (.no e)
  | .ok _ =>
    match s.selectCopy g excluded with
    | some (c, tier) =>
      .answered s (.ok (leBytes 1 c.copy ++ leBytes 1 (s.copy c).trust.code ++ leBytes 1 tier ++
        leBytes 1 (s.copyHealth c).rank ++ leBytes 4 (s.mediumOf c)))
    | none => .answered s (.noCopy (s.noCopyCause g excluded))

/-- COPY_SELECT taken by the port of `h`. -/
def execCopySelect (h : Head) (s : State) : Host.Outcome State Fault Refusal :=
  takeOrder h 10 (fun _ body => copySelect body) s

end Sys2Proof.Machine
end

