-- ==== Sys2Proof/Machine/Catalogue.lean ====
section
/-! DEFINITION. Catalogue.lean: reels, references and SEGMENT_READ (chapter 1). -/

namespace Sys2Proof.Machine

/-! ### The Segment Store (R7) -/

/-- Whether the run of `n` store records from `start` is free: inside the store and apart from every reel's run. -/
def State.runFree (s : State) (start n : Nat) : Bool :=
  start + n ≤ Config.storeSize &&
    s.reels.all fun r => start + n ≤ r.firstIndex || r.firstIndex + r.segCount ≤ start

/-- Where a run of free records can begin: at index 0, or where a reel's run ends. -/
def State.runStarts (s : State) : List Nat := 0 :: s.reels.map fun r => r.firstIndex + r.segCount

/-- The lowest of a list of numbers. -/
def lowest : List Nat → Option Nat
  | [] => none
  | n :: ns => some (match lowest ns with | some m => min n m | none => n)

/-- First-fit placement (R7): the lowest start of a free run of at least `n` records. -/
def State.firstFit (s : State) (n : Nat) : Option Nat := lowest (s.runStarts.filter fun a => s.runFree a n)

/-- Number of free store records (R189). -/
def State.freeRecords (s : State) : Nat := Config.storeSize - (s.reels.map Reel.segCount).sum

/-- Length of the free run that begins at `start`, 0 when that record is not free (R189). -/
def State.runLength (s : State) (start : Nat) : Nat :=
  if s.runFree start 1 then
    ((s.reels.filter fun r => start < r.firstIndex).map Reel.firstIndex).foldl min Config.storeSize - start
  else 0

/-- Length of the longest free run of the store (R189). -/
def State.longestRun (s : State) : Nat := (s.runStarts.map s.runLength).foldl max 0

/-! ### Registration and removal of reels (R6 to R10) -/

/-- The reel record of a REEL_ADD body, ADDING for a head (R207). The medium ids beyond the copy media count are
ignored. -/
def reelOperand (h : Head) (tag : Half) (body : List Byte) : Reel where
  acc := leAt body 0 6
  state := .adding h tag
  copyMedia := ([leAt body 20 4, leAt body 24 4, leAt body 28 4]).take (leAt body 6 1)
  frameSize := leAt body 8 4
  frameTotal := leAt body 12 4
  framesPerSegment := leAt body 16 1
  firstIndex := 0
  scrubInterval := leAt body 18 2
  segs := []

/-- Whether a list holds no number twice. -/
def distinct : List Nat → Bool
  | [] => true
  | n :: ns => !ns.contains n && distinct ns

/-- The argument check of REEL_ADD (R6 check 1). -/
def Reel.argumentsOk (r : Reel) (copies : Nat) : Bool :=
  r.acc != 0 && 1 ≤ copies && copies ≤ 3 && distinct r.copyMedia && !r.copyMedia.contains 0 &&
    512 ≤ r.frameSize && r.frameSize ≤ 268435456 && 1 ≤ r.frameTotal && r.frameTotal ≤ 1048576 &&
    1 ≤ r.framesPerSegment && r.framesPerSegment ≤ 64 && 1 ≤ r.scrubInterval && r.scrubInterval ≤ 4095 &&
    r.framesPerSegment * r.frameSize ≤ Config.segmentBytesMax && r.segCount ≤ Config.segmentsMax

/-- REEL_ADD (R6, R7, R8). -/
def reelAdd (h : Head) (tag : Half) (body : List Byte) (s : State) : Applied :=
  let r := reelOperand h tag body
  if r.argumentsOk (leAt body 6 1) = false then .answered s (.no .badArgument)
  else if (r.copyMedia.all fun id => (s.medium? id).isSome) = false then .answered s (.no .unknownMedium)
  else if (s.reel? r.acc).isSome then .answered s (.no .inUse)
  else if Config.reelsMax ≤ s.reels.length then .answered s (.no .noRoom)
  else match s.firstFit r.segCount with
    | none => .answered s (.no .noRoom)
    | some start => .begun { s with reels := s.reels ++ [{ r with firstIndex := start }] }

/-- REEL_ADD taken by the port of `h`. -/
def execReelAdd (h : Head) (s : State) : Host.Outcome State Fault Refusal := takeOrder h 6 (reelAdd h) s

/-- Change the copy counts of a reel's media (R1). -/
def State.countCopies (s : State) (ids : List Nat) (f : Nat → Nat) : State :=
  { s with media := s.media.map fun m => if ids.contains m.id then { m with copyCount := f m.copyCount } else m }

/-- The registration of a reel completes (R8): it is ACTIVE, its segment records hold the values of R12, and its media's
copy counts rise. -/
def State.activate (s : State) (r : Reel) : State :=
  let reels := s.reels.map fun q => if q.acc = r.acc then ({ q with state := .active, segs := [] } : Reel) else q
  ({ s with reels := reels }).countCopies r.copyMedia (· + 1)

/-- REEL_ADD_COMPLETION (R8). Where the reel is not ADDING, no registration completes. -/
def execReelAddCompletion (reel : Nat) (s : State) : Host.Outcome State Fault Refusal :=
  match s.reel? reel with
  | none => .next s
  | some r =>
    match r.state with
    | .active => .next s
    | .adding h tag =>
      .next ((((s.activate r).release h).reply h 6 tag
        (.ok (leBytes 4 r.firstIndex ++ leBytes 2 r.segCount ++ zeros 2))).settle)

/-- Whether a lane that is not FREE, an item, a dispute entry or a repair entry refers to a segment that `p` marks
(R10, R14). -/
def State.refersTo (s : State) (p : SegId → Bool) : Bool :=
  (s.lanes.toList.any fun l => l.any fun c => p c.target.seg) ||
  (s.queue.items.any fun i => p i.target.seg) ||
  (s.disputes.any fun d => p d.seg) ||
  (s.repairs.any fun r => p r.target.seg)

/-- REEL_REMOVE (R10). -/
def reelRemove (body : List Byte) (s : State) : Applied :=
  let acc := leAt body 0 6
  match s.activeReel? acc with
  | none => .answered s (.no .unknownReel)
  | some r =>
    if s.refersTo fun g => g.reel = acc then .answered s (.no .inUse)
    else .answered (({ s with reels := s.reels.filter fun q => q.acc != acc }).countCopies r.copyMedia (· - 1)) (.ok [])

/-- REEL_REMOVE taken by the port of `h`. -/
def execReelRemove (h : Head) (s : State) : Host.Outcome State Fault Refusal :=
  takeOrder h 7 (fun _ body => reelRemove body) s

/-! ### References (R14 to R16) -/

/-- A first load (R15): the copy records are not changed. -/
def SegRec.firstLoad (d : Digest) (list : Option (List Digest)) (r : SegRec) : SegRec :=
  { r with reference := some ⟨d, .loaded⟩, frameList := list }

/-- A replacement (R16): every copy record starts afresh. -/
def SegRec.replaceReference (d : Digest) (list : Option (List Digest)) (r : SegRec) : SegRec :=
  { reference := some ⟨d, .loaded⟩, frameList := list,
    copies := r.copies.map fun c =>
      { c with trust := .unverified, lastDay := 0, deferred := false, exhausted := false } }

/-- REFERENCE_LOAD (R14). -/
def referenceLoad (body : List Byte) (s : State) : Applied :=
  let g := segOperand body
  let d : Digest := BitVec.ofNat 64 (leAt body 8 8)
  let n := leAt body 17 1
  let list := if n = 0 then none else some (digestsAt body 24 n)
  match boolAt body 16 with
  | none => .answered s (.no .badArgument)
  | some replace =>
    match s.checkSeg g with
    | .error e => .answered s (.no e)
    | .ok r =>
      if n ≠ 0 ∧ n ≠ r.frameCount g.segment then .answered s (.no .badArgument)
      else if (s.seg g).reference = none then .answered (s.modSeg g (SegRec.firstLoad d list)) (.ok [])
      else if replace = false then .answered s (.no .present)
      else if s.refersTo fun q => q == g then .answered s (.no .inUse)
      else .answered (s.modSeg g (SegRec.replaceReference d list)) (.ok [])

/-- REFERENCE_LOAD taken by the port of `h`. -/
def execReferenceLoad (h : Head) (s : State) : Host.Outcome State Fault Refusal :=
  takeOrder h 8 (fun _ body => referenceLoad body) s

/-! ### SEGMENT_READ (R17) -/

/-- The code of a segment's dispute phase (R204). -/
def State.phaseCode (s : State) (g : SegId) : Nat :=
  match s.dispute? g with
  | none => 0
  | some d => if d.isCollecting then 1 else 2

/-- One copy record of a SEGMENT_READ reply (R209). -/
def State.copyBody (s : State) (c : CopyId) : List Byte :=
  let r := s.copy c
  let kind := ((s.medium? (s.mediumOf c)).map fun m => m.kind.code).getD 0
  leBytes 4 (s.mediumOf c) ++ leBytes 1 r.trust.code ++ leBytes 1 (s.copyHealth c).rank ++ leBytes 1 kind ++
    leBytes 1 r.marks ++ leBytes 2 r.lastDay ++ leBytes 2 (r.itemTag.getD 0) ++ zeros 4

/-- The body of a SEGMENT_READ reply (R17, R209). -/
def State.segmentBody (s : State) (g : SegId) (r : Reel) : List Byte :=
  let q := s.seg g
  let frames := q.frameList.getD []
  leBytes 6 g.reel ++ leBytes 2 g.segment ++ leBytes 4 (r.firstIndex + g.segment) ++ leBytes 4 (r.firstFrame g.segment) ++
    leBytes 4 (r.byteLength g.segment) ++ leBytes 4 r.frameSize ++ leBytes 4 r.frameTotal ++ leBytes 2 r.segCount ++
    leBytes 2 r.scrubInterval ++ leBytes 1 (r.frameCount g.segment) ++ leBytes 1 r.framesPerSegment ++
    leBytes 1 r.copyCount ++ leBytes 1 (s.condition g).code ++ leBytes 1 (s.phaseCode g) ++
    leBytes 1 ((q.reference.map fun x => x.origin.code).getD 0) ++ leBytes 1 frames.length ++ zeros 1 ++
    leBytes 8 ((q.reference.map fun x => x.digest.toNat).getD 0) ++
    ([0, 1, 2].flatMap fun i => if i < r.copyCount then s.copyBody (g.copy i) else zeros 16) ++
    frames.flatMap fun d => leBytes 8 d.toNat

/-- SEGMENT_READ (R17). -/
def segmentRead (body : List Byte) (s : State) : Applied :=
  let g := segOperand body
  match s.checkSeg g with
  | .error e => .answered s (.no e)
  | .ok r => .answered s (.ok (s.segmentBody g r))

/-- SEGMENT_READ taken by the port of `h`. -/
def execSegmentRead (h : Head) (s : State) : Host.Outcome State Fault Refusal :=
  takeOrder h 9 (fun _ body => segmentRead body) s

end Sys2Proof.Machine
end

