-- ==== Sys2Proof/Machine/Items.lean ====
section
/-! DEFINITION. Items.lean: claims, lapses, returns and the end of work items (chapter 8). -/

namespace Sys2Proof.Machine

/-! ### What an owner does when its item is lost (R73, R103, R162, R163) -/

/-- The owner of a withdrawn item acts: a repair entry is abandoned with a cause; an ISSUED slot of a COLLECTING entry
becomes UNREAD and the entry tests for its decision; an OBSERVED slot keeps its observation and loses the tag; a repair
entry that waited for a leftover item goes on. -/
def State.ownerLost (s : State) (it : Item) (cause : Nat) : State :=
  match it.kind with
  | .repair => s.abandonRepair it.target cause
  | .scrub | .confirm =>
    match s.ownSlot? it with
    | some (.issued _) => (s.setSlot it.target .unread).testDecision it.target.seg
    | some (.observed _ _ _) => s.clearSlotTag it
    | _ => s.leftoverGone it.target

/-- An item is abandoned at a raised requeue count of 4 (R163, R166): withdrawn, ITEM_ABANDONED posted, its owner told.
`cause` is 1 for a lapse, 2 for a RETRY return, 3 for an unjudged lane end. -/
def State.abandonItem (s : State) (it : Item) (cause : Nat) : State :=
  let t := s.withdrawItem it
  (t.post (t.copyFinding .itemAbandoned false t.today it.target none none (it.tag + 65536 * cause))).ownerLost it 4

/-- A raised return of an item to the front of its class (R40, R158): withdrawn when it has lost its purpose (R164),
abandoned when the raised count is 4 (R163). -/
def State.returnFront (s : State) (it : Item) (cause : Nat) : State :=
  if s.isPurposeless it then s.withdrawPurposeless it
  else if it.requeue + 1 < Config.requeueLimit then s.requeueFront it (it.requeue + 1)
  else s.abandonItem it cause

/-- A RETRY return to the end of the item's class (R161, R163, R164). -/
def State.returnRetry (s : State) (it : Item) : State :=
  if s.isPurposeless it then s.withdrawPurposeless it
  else if it.requeue + 1 < Config.requeueLimit then s.requeueLast it (it.requeue + 1)
  else s.abandonItem it 2

/-- An UNREADABLE return (R162): withdrawal, the medium's charge, then the owner. -/
def State.returnUnreadable (s : State) (it : Item) : State :=
  ((s.withdrawItem it).chargeMedium it.target Config.weightUnreadable).ownerLost it 3

/-! ### ITEM_CLAIM (R153 to R156, R99) -/

/-- What the checks at claim say of a QUEUED item (R154, R99). -/
inductive Verdict where
  | pass (source : Option Nat)
  | mediumWithdrawn
  | noSource
deriving DecidableEq, Repr

/-- The checks at claim (R154, R99). -/
def State.claimVerdict (s : State) (it : Item) : Verdict :=
  if s.copyHealth it.target = .withdrawn then .mediumWithdrawn
  else match it.kind with
    | .scrub | .confirm => .pass none
    | .repair => match s.source? it.target with
      | some i => .pass (some i)
      | none => .noSource

/-- Withdraw an item that fails its checks at claim, with its owner's effects (R154, R99). -/
def State.claimFail (s : State) (it : Item) (v : Verdict) : State :=
  let t := s.withdrawItem it
  match it.kind, v with
  | .repair, .noSource => t.closeRepair it.target .repairNoSource true 2
  | .repair, _ => t.closeRepair it.target .repairAbandoned false 2
  | .scrub, _ | .confirm, _ => t.ownerLost it 0

/-- The claim's walk over the list (R153): the first QUEUED item that passes, failing ones withdrawn on the way. The
number bounds the walk: each failing item leaves the queue for good, and what can enter it in its place is bounded. -/
def State.claimWalk (h : Head) : Nat → State → State × Option Item
  | 0, s => (s, none)
  | n + 1, s =>
    match s.queue.items.find? Item.isQueued with
    | none => (s, none)
    | some it =>
      match s.claimVerdict it with
      | .pass source =>
        let it' := { it with state := .claimed h s.limits.claim, source := source }
        (s.modItem it.tag fun _ => it', some it')
      | v => State.claimWalk h n (s.claimFail it v)

/-- A bound on the claim's walk: the items in the queue, the owners that wait, the repair entries that wait for a leftover
item, and the slots of disputes that a vote could turn into repairs. -/
def State.claimBound (s : State) : Nat :=
  s.queue.items.length + s.queue.waiters.length + s.repairs.length +
    2 * (s.disputes.map fun d => d.slots.length).sum + 1

/-- The body of the claim reply (R155, R209). -/
def State.claimBody (s : State) (it : Item) (r : Reel) : List Byte :=
  let c := it.target
  let kind := ((s.medium? (s.mediumOf c)).map fun m => m.kind.code).getD 0
  leBytes 2 it.tag ++ leBytes 1 it.kind.code ++ leBytes 1 it.cls.rank ++ leBytes 1 it.requeue ++ leBytes 1 c.copy ++
    leBytes 2 c.segment ++ leBytes 6 c.reel ++ leBytes 1 kind ++ leBytes 1 (it.source.getD 255) ++
    leBytes 4 (s.mediumOf c) ++ leBytes 4 ((it.source.map fun i => s.mediumOf (c.seg.copy i)).getD 0) ++
    leBytes 4 r.frameSize ++ leBytes 4 (r.byteLength c.segment) ++ leBytes 4 (r.firstFrame c.segment) ++
    leBytes 1 (r.frameCount c.segment) ++ zeros 1 ++ leBytes 2 s.limits.claim ++ leBytes 8 it.mask.toNat

/-- ITEM_CLAIM (R153). -/
def itemClaim (h : Head) (s : State) : Applied :=
  let (t, taken) := State.claimWalk h s.claimBound s
  match taken with
  | none => .answered t.wakeRoom .empty
  | some it => match t.reel? it.target.reel with
    | some r => .answered t.wakeRoom (.ok (t.claimBody it r))
    | none => .answered t.wakeRoom .empty

/-- ITEM_CLAIM taken by the port of `h`. -/
def execItemClaim (h : Head) (s : State) : Host.Outcome State Fault Refusal :=
  takeOrder h 24 (fun _ _ => itemClaim h) s

/-! ### ITEM_RETURN and the claim timer (R157 to R162) -/

/-- Whether a head holds an item CLAIMED. -/
def Item.isClaimedBy (it : Item) (h : Head) : Bool :=
  match it.state with
  | .claimed h' _ => h' = h
  | .queued | .bound _ => false

/-- ITEM_RETURN (R160). -/
def itemReturn (h : Head) (body : List Byte) (s : State) : Applied :=
  match ReturnReason.ofCode (leAt body 2 1) with
  | none => .answered s (.no .badArgument)
  | some reason =>
    match (s.item? (leAt body 0 2)).filter fun it => it.isClaimedBy h with
    | none => .answered s (.no .notClaimed)
    | some it =>
      let t := match reason with
        | .retry => s.returnRetry it
        | .unreadable => s.returnUnreadable it
      .answered t.wakeRoom (.ok [])

/-- ITEM_RETURN taken by the port of `h`. -/
def execItemReturn (h : Head) (s : State) : Host.Outcome State Fault Refusal :=
  takeOrder h 25 (fun _ body => itemReturn h body) s

/-- CLAIM_TIMER_EXPIRY (R158): the claim on the item with this tag lapses. Where no CLAIMED item has the tag, no claim
timer runs. -/
def execClaimTimerExpiry (tag : Nat) (s : State) : Host.Outcome State Fault Refusal :=
  match (s.item? tag).filter fun it => it.isClaimedBy .a || it.isClaimedBy .b with
  | some it => .next (s.returnFront it 1).wakeRoom.settle
  | none => .next s

end Sys2Proof.Machine
end

