-- ==== Sys2Proof/Machine/Lanes.lean ====
section
/-! DEFINITION. Lanes.lean: the verification lanes (chapter 2): opening, feeding, ending, completion and judgement, the
routing of results and the lane report. -/

namespace Sys2Proof.Machine

/-! ### Digesting a feed (R24, R25) -/

/-- A frame completes: its digest is finalised, appended and compared against the frame digest list as it stands, and the
frame CRC restarts (R24, R25). -/
def LaneCtx.completeFrame (list : Option (List Digest)) (l : LaneCtx) : LaneCtx :=
  let d := crcFinal l.frameCrc
  let l1 := { l with frameDigests := l.frameDigests ++ [d], frameCrc := Config.crcOnes, frameIndex := l.frameIndex + 1 }
  match list with
  | none => { l1 with compared := false }
  | some ds => if ds[l.frameIndex]? = some d then l1 else { l1 with badMask := l.badMask ||| maskBit l.frameIndex }

/-- One byte taken by a lane (R24). -/
def LaneCtx.takeByte (frameSize : Nat) (list : Option (List Digest)) (l : LaneCtx) (b : Byte) : LaneCtx :=
  let l1 := { l with
    segCrc := crcByte l.segCrc b, frameCrc := crcByte l.frameCrc b, bytesTaken := l.bytesTaken + 1 }
  if l1.bytesTaken = (l.frameIndex + 1) * frameSize then l1.completeFrame list else l1

/-- The bytes of a feed taken in order (R31). -/
def LaneCtx.takeBytes (frameSize : Nat) (list : Option (List Digest)) (l : LaneCtx) (bytes : List Byte) : LaneCtx :=
  bytes.foldl (LaneCtx.takeByte frameSize list) l

/-! ### The end of a lane (R36 to R44) -/

/-- The judgement of a completed read with observed digest `d`: the first row of R36 that holds. -/
def judge (conflict : Bool) (purpose : Purpose) (ref : Option Digest) (d : Digest) : Result :=
  if conflict then .inconclusive
  else match ref, purpose with
    | none, .ingest => .learned
    | none, .item | none, .restore => .inconclusive
    | some r, _ => if d = r then .matched else .mismatch

/-- A LEARNED result makes the lane's read the segment's reference (R37). -/
def State.learn (s : State) (g : SegId) (d : Digest) (frames : List Digest) : State :=
  s.modSeg g fun r => { r with reference := some ⟨d, .learned⟩, frameList := some frames }

/-- A lane enters DONE with its outcome recorded (R39 step 5, R42). -/
def State.finishLane (s : State) (n : Nat) (l : LaneCtx) (reason : EndReason) (result : Option Result)
    (observed : Option Digest) (routing : Routing) : State :=
  s.setLane n (some { l with
    state := .done, endReason := some reason, result := result, observed := observed, routing := some routing,
    trustAfter := some (s.copy l.target).trust })

/-- A lane ends without a judged result (R39, R40, R44): its item goes back or is withdrawn, its bytes are charged. -/
def State.endUnjudged (s : State) (n : Nat) (l : LaneCtx) (reason : EndReason) (result : Option Result) : State :=
  let t := match l.itemTag.bind s.item? with
    | some it => s.returnFront it 3
    | none => s
  (t.chargeLane l).finishLane n l reason result none .notUsed

/-- Route a judged result to the block it goes to (R41). `it` is the item the lane read, already out of the queue. -/
def State.route (s : State) (n : Nat) (l : LaneCtx) (it : Option Item) (result : Result) (o : Obs) : Routing × State :=
  if it.any fun i => i.kind == .repair then (.plain, s.readBack l.target result o)
  else match s.collecting? l.target.seg with
    | some d => s.routeDispute d l.target o n l.itemTag
    | none => (.plain, s.plain l.target result o n)

/-- FRAME_LIST_SUSPECT after a MATCH whose mask is not empty (R38, R192). -/
def State.postFrameSuspect (s : State) (n : Nat) (l : LaneCtx) (result : Result) (d : Digest) : State :=
  if result = .matched ∧ l.badMask ≠ 0#64 then
    s.post (s.copyFinding .frameListSuspect false s.today l.target (some d) (some l.badMask) n)
  else s

/-- A lane that has taken its last byte completes (R36, R39): judgement and learning, FRAME_LIST_SUSPECT, the item's
removal, the routing, the charge, DONE. -/
def State.completeLane (s : State) (n : Nat) (l : LaneCtx) : State :=
  let d := crcFinal l.segCrc
  let result := judge l.conflict l.purpose (s.refDigest l.target.seg) d
  if result = .inconclusive then s.endUnjudged n l .completed (some .inconclusive)
  else
    let s1 := if result = .learned then s.learn l.target.seg d l.frameDigests else s
    let s2 := s1.postFrameSuspect n l result d
    let it := l.itemTag.bind s2.item?
    let s3 := match it with
      | some i => (s2.removeItem i).leftoverGone l.target
      | none => s2
    let (routing, s4) := s3.route n l it result ⟨d, l.badMask, l.compared⟩
    (s4.chargeLane l).finishLane n l .completed (some result) (some d) routing

/-- The effects of a completed feed of `len` bytes on lane `n` (R31). -/
def State.completeFeed (s : State) (n : Nat) (l : LaneCtx) (len : Nat) : State :=
  let bytes := Memory.load s.windows (n * Config.windowBytes) len
  let frameSize := ((s.reel? l.target.reel).map Reel.frameSize).getD 0
  let l1 := l.takeBytes frameSize (s.seg l.target.seg).frameList bytes
  if l1.bytesTaken = l.expected then s.completeLane n l1
  else s.setLane n (some { l1 with state := .openFor s.limits.stall })

/-- LANE_FEED_COMPLETION (R31). Where no feed is in progress on the lane, none completes. -/
def execLaneFeedCompletion (lane : Nat) (s : State) : Host.Outcome State Fault Refusal :=
  match s.lane lane with
  | none => .next s
  | some l =>
    match l.state with
    | .digesting len tag =>
      let t := (s.completeFeed lane l len).wakeRoom
      let body := match t.lane lane with
        | some l' => leBytes 4 l'.bytesTaken ++ leBytes 1 l'.state.code ++ zeros 3
        | none => zeros 8
      .next ((t.release l.owner).reply l.owner 17 tag (.ok body)).settle
    | .openFor _ | .done => .next s

/-! ### Opening (R26 to R28) -/

/-- The context of a lane at its opening (R26). -/
def LaneCtx.opened (h : Head) (purpose : Purpose) (tag : Option Nat) (c : CopyId) (expected stall : Nat) : LaneCtx where
  state := .openFor stall
  owner := h
  purpose := purpose
  itemTag := tag
  target := c
  expected := expected
  bytesTaken := 0
  segCrc := Config.crcOnes
  frameIndex := 0
  frameCrc := Config.crcOnes
  frameDigests := []
  badMask := 0#64
  compared := true
  conflict := false
  endReason := none
  result := none
  observed := none
  routing := none
  trustAfter := none

/-- The lowest-numbered FREE lane. -/
def State.freeLane? (s : State) : Option Nat := (List.range Config.laneCount).find? fun n => (s.lane n).isNone

/-- Take the lowest FREE lane for a head (R26). -/
def State.openLane (s : State) (h : Head) (purpose : Purpose) (it : Option Item) (c : CopyId) (r : Reel) : Applied :=
  match s.freeLane? with
  | none => .answered s (.no .noLane)
  | some n =>
    let t := match it with
      | some i => s.modItem i.tag fun j => { j with state := .bound n, everBound := true }
      | none => s
    let expected := r.byteLength c.segment
    .answered (t.setLane n (some (LaneCtx.opened h purpose (it.map Item.tag) c expected s.limits.stall)))
      (.ok (leBytes 1 n ++ zeros 3 ++ leBytes 4 expected ++ leBytes 4 r.frameSize ++
        leBytes 4 (r.firstFrame c.segment) ++ leBytes 1 (r.frameCount c.segment) ++ zeros 3))

/-- LANE_OPEN in the ITEM form (R27). -/
def laneOpenItem (h : Head) (tag : Nat) (s : State) : Applied :=
  match s.item? tag with
  | none => .answered s (.no .unknownItem)
  | some it =>
    match it.state with
    | .queued => .answered s (.no .late)
    | .claimed h' _ =>
      if h' = h then match s.reel? it.target.reel with
        | some r => s.openLane h .item (some it) it.target r
        | none => .answered s (.no .unknownItem)
      else .answered s (.no .late)
    | .bound n =>
      if (s.lane n).any fun l => l.owner == h then .answered s (.no .badState) else .answered s (.no .late)

/-- LANE_OPEN in the RESTORE or INGEST form (R28). -/
def laneOpenCopy (h : Head) (purpose : Purpose) (c : CopyId) (s : State) : Applied :=
  match s.checkCopy c with
  | .error e => .answered s (.no e)
  | .ok r =>
    if purpose = .restore ∧ s.refDigest c.seg = none then .answered s (.no .noReference)
    else s.openLane h purpose none c r

/-- LANE_OPEN (R26). -/
def laneOpen (h : Head) (body : List Byte) (s : State) : Applied :=
  match Purpose.ofCode (leAt body 0 1) with
  | none => .answered s (.no .badArgument)
  | some .item => laneOpenItem h (leAt body 2 2) s
  | some purpose => laneOpenCopy h purpose ⟨leAt body 8 6, leAt body 14 2, leAt body 4 1⟩ s

/-- LANE_OPEN taken by the port of `h`. -/
def execLaneOpen (h : Head) (s : State) : Host.Outcome State Fault Refusal :=
  takeOrder h 16 (fun _ body => laneOpen h body) s

/-! ### Feeding, ending and reporting (R30 to R35, R45) -/

/-- The lane checks shared by LANE_FEED, LANE_END, LANE_ABORT and LANE_REPORT (R30, R33, R34, R45). -/
def State.ownLane (s : State) (h : Head) (n : Nat) : Except Reason LaneCtx :=
  if n < Config.laneCount then
    match s.lane n with
    | none => .error .notOwner
    | some l => if l.owner = h then .ok l else .error .notOwner
  else .error .badArgument

/-- LANE_FEED (R30, R31). -/
def laneFeed (h : Head) (tag : Half) (body : List Byte) (s : State) : Applied :=
  let n := leAt body 0 1
  let len := leAt body 4 4
  let offset := leAt body 8 4
  match s.ownLane h n with
  | .error e => .answered s (.no e)
  | .ok l =>
    match l.state with
    | .digesting _ _ => .answered s (.no .laneBusy)
    | .done => .answered s (.no .badState)
    | .openFor _ =>
      if len = 0 ∨ Config.windowBytes < len then .answered s (.no .badArgument)
      else if offset ≠ l.bytesTaken then .answered s (.refused .offsetMismatch (leBytes 4 l.bytesTaken))
      else if l.expected < offset + len then .answered s (.no .tooLong)
      else .begun (s.setLane n (some { l with state := .digesting len tag }))

/-- LANE_FEED taken by the port of `h`. -/
def execLaneFeed (h : Head) (s : State) : Host.Outcome State Fault Refusal :=
  takeOrder h 17 (laneFeed h) s

/-- LANE_END (R33). -/
def laneEnd (h : Head) (body : List Byte) (s : State) : Applied :=
  let n := leAt body 0 1
  match s.ownLane h n with
  | .error e => .answered s (.no e)
  | .ok l =>
    match l.state with
    | .digesting _ _ => .answered s (.no .laneBusy)
    | .done => .answered s (.no .badState)
    | .openFor _ => .answered (s.endUnjudged n l .short none).wakeRoom (.ok [])

/-- LANE_END taken by the port of `h`. -/
def execLaneEnd (h : Head) (s : State) : Host.Outcome State Fault Refusal :=
  takeOrder h 18 (fun _ body => laneEnd h body) s

/-- LANE_ABORT (R34). A feed in progress is abandoned and its reserved reply place released (R32, R187). -/
def laneAbort (h : Head) (body : List Byte) (s : State) : Applied :=
  let n := leAt body 0 1
  match s.ownLane h n with
  | .error e => .answered s (.no e)
  | .ok l =>
    match l.state with
    | .done => .answered s (.no .badState)
    | .openFor _ => .answered (s.endUnjudged n l .aborted none).wakeRoom (.ok [])
    | .digesting _ _ => .answered ((s.release h).endUnjudged n l .aborted none).wakeRoom (.ok [])

/-- LANE_ABORT taken by the port of `h`. -/
def execLaneAbort (h : Head) (s : State) : Host.Outcome State Fault Refusal :=
  takeOrder h 19 (fun _ body => laneAbort h body) s

/-- The body of a lane report (R45, R209). -/
def LaneCtx.reportBody (l : LaneCtx) (n : Nat) : List Byte :=
  let judged := l.observed.isSome
  leBytes 1 n ++ leBytes 1 l.purpose.code ++ leBytes 2 (l.itemTag.getD 0) ++ leBytes 1 l.target.copy ++
    leBytes 1 ((l.endReason.map EndReason.code).getD 0) ++ leBytes 1 ((l.result.map Result.code).getD 0) ++
    leBytes 1 ((l.routing.map Routing.code).getD 0) ++ leBytes 6 l.target.reel ++ leBytes 2 l.target.segment ++
    leBytes 4 l.bytesTaken ++ leBytes 1 ((l.trustAfter.map Trust.code).getD 0) ++ leBytes 1 l.flags ++ zeros 2 ++
    leBytes 8 ((l.observed.map BitVec.toNat).getD 0) ++ leBytes 8 (if judged then l.badMask.toNat else 0)

/-- LANE_REPORT (R45). -/
def laneReport (h : Head) (body : List Byte) (s : State) : Applied :=
  let n := leAt body 0 1
  match s.ownLane h n with
  | .error e => .answered s (.no e)
  | .ok l =>
    match l.state with
    | .openFor _ | .digesting _ _ => .answered s (.no .badState)
    | .done => .answered (s.setLane n none) (.ok (l.reportBody n))

/-- LANE_REPORT taken by the port of `h`. -/
def execLaneReport (h : Head) (s : State) : Host.Outcome State Fault Refusal :=
  takeOrder h 20 (fun _ body => laneReport h body) s

/-- STALL_TIMER_EXPIRY (R35). Where the lane is not OPEN, its stall timer does not run. -/
def execStallTimerExpiry (lane : Nat) (s : State) : Host.Outcome State Fault Refusal :=
  match s.lane lane with
  | none => .next s
  | some l =>
    match l.state with
    | .openFor _ => .next ((s.endUnjudged lane l .stalled none).wakeRoom).settle
    | .digesting _ _ | .done => .next s

/-! ### Staging windows (R29) -/

/-- WINDOW_WRITE (R29): stored, discarded, or discarded with the window-conflict flag set. While the head's link is DOWN
its writes are not received (R202). -/
def execWindowWrite (h : Head) (lane offset : Nat) (bytes : List Byte) (s : State) :
    Host.Outcome State Fault Refusal :=
  if lane < Config.laneCount ∧ offset + bytes.length ≤ Config.windowBytes then
    if (s.port h).link = false ∨ bytes = [] then .next s
    else match s.lane lane with
      | none => .next s
      | some l =>
        if l.owner ≠ h then .next s
        else match l.state with
          | .openFor _ =>
            .next { s with windows := Memory.store s.windows (lane * Config.windowBytes + offset) bytes }
          | .digesting _ _ => .next (s.setLane lane (some { l with conflict := true }))
          | .done => .next s
  else .fault .noSuchWindowByte

end Sys2Proof.Machine
end

