-- ==== Sys2Proof/Machine/Pacer.lean ====
section
/-! DEFINITION. Pacer.lean: the Pacer (chapter 7): its settings, windows, starts and stops. -/

namespace Sys2Proof.Machine

/-- A staged set, if there is one, comes into force and none is staged any more (R131). -/
def Pacer.bringStaged (p : Pacer) : Pacer :=
  match p.staged with
  | some set => { p with inForce := set, staged := none }
  | none => p

/-- The grant of a work window (R135 steps 3 and 4): the fraction accumulates, and the budget with its carry is added up
to the cap. -/
def Pacer.grant (p : Pacer) : Pacer :=
  let sum := p.acc + p.inForce.fraction
  let carry : Nat := if 16 ≤ sum then 1 else 0
  { p with acc := sum - 16 * carry, credit := min (p.credit + (p.inForce.budget : Int) + (carry : Int)) p.cap }

/-- The Pacer after the start of a work window (R135 steps 1 to 5). -/
def Pacer.startWork (p : Pacer) : Pacer :=
  let q := p.bringStaged.clamp.grant
  { q with state := .work, window := some q.inForce.work }

/-- The Pacer after it enters STOPPED by a pending stop (R136). -/
def Pacer.enterStopped (p : Pacer) : Pacer :=
  let q := if p.staged.isSome then p.bringStaged.clamp else p
  { q with state := .stopped, window := none, stopPending := false }

/-- The start of a work window, waking the walker when credit is above 0 (R135, R139). -/
def State.startWorkWindow (s : State) : State :=
  let t := { s with pacer := s.pacer.startWork }
  if 0 < t.pacer.credit then t.wakeCredit else t

/-- PACE_SET (R131). -/
def paceSet (body : List Byte) (s : State) : Applied :=
  let set := paceOperand body
  if set.inRange then
    if s.pacer.state = .stopped then
      let t := { s with pacer := ({ s.pacer with inForce := set, staged := none }).clamp }
      .answered t (.ok (leBytes 1 0 ++ zeros 3 ++ leBytes 4 (t.pacer.credit % 4294967296).toNat))
    else
      .answered { s with pacer := { s.pacer with staged := some set } }
        (.ok (leBytes 1 1 ++ zeros 3 ++ leBytes 4 (s.pacer.credit % 4294967296).toNat))
  else .answered s (.no .badArgument)

/-- PACE_SET taken by the port of `h`. -/
def execPaceSet (h : Head) (s : State) : Host.Outcome State Fault Refusal :=
  takeOrder h 48 (fun _ body => paceSet body) s

/-- PACE_START (R133). -/
def paceStart (s : State) : Applied :=
  if s.pacer.state = .stopped then
    if 0 < s.pacer.inForce.delay then
      .answered { s with pacer := { s.pacer with state := .delay, window := some s.pacer.inForce.delay } } (.ok [])
    else .answered s.startWorkWindow (.ok [])
  else if s.pacer.stopPending then .answered { s with pacer := { s.pacer with stopPending := false } } (.ok [])
  else .answered s (.no .running)

/-- PACE_START taken by the port of `h`. -/
def execPaceStart (h : Head) (s : State) : Host.Outcome State Fault Refusal := takeOrder h 49 (fun _ _ => paceStart) s

/-- PACE_STOP (R137). -/
def paceStop (s : State) : Applied :=
  if s.pacer.state = .stopped then .answered s (.ok [])
  else .answered { s with pacer := { s.pacer with stopPending := true } } (.ok [])

/-- PACE_STOP taken by the port of `h`. -/
def execPaceStop (h : Head) (s : State) : Host.Outcome State Fault Refusal := takeOrder h 50 (fun _ _ => paceStop) s

/-- The Pacer after PACE_HALT and after a card reset (R138, R145). -/
def Pacer.halted (p : Pacer) : Pacer :=
  { p.bringStaged with state := .stopped, window := none, credit := 0, acc := 0, stopPending := false }

/-- PACE_HALT (R138). -/
def paceHalt (s : State) : Applied :=
  .answered { s with pacer := s.pacer.halted } (.ok (leBytes 4 (s.pacer.credit % 4294967296).toNat))

/-- PACE_HALT taken by the port of `h`. -/
def execPaceHalt (h : Head) (s : State) : Host.Outcome State Fault Refusal := takeOrder h 51 (fun _ _ => paceHalt) s

/-- DELAY_TIMER_EXPIRY (R134). Outside DELAY no delay timer runs. -/
def execDelayTimerExpiry (s : State) : Host.Outcome State Fault Refusal :=
  if s.pacer.state = .delay then
    if s.pacer.stopPending then .next { s with pacer := s.pacer.enterStopped } else .next s.startWorkWindow
  else .next s

/-- WORK_WINDOW_END (R136). Outside WORK no work window runs. -/
def execWorkWindowEnd (s : State) : Host.Outcome State Fault Refusal :=
  if s.pacer.state = .work then
    if s.pacer.stopPending then .next { s with pacer := s.pacer.enterStopped }
    else if 0 < s.pacer.inForce.yield then
      .next { s with pacer := { s.pacer with state := .yield, window := some s.pacer.inForce.yield } }
    else .next s.startWorkWindow
  else .next s

/-- YIELD_WINDOW_END (R136). Outside YIELD no yield window runs. -/
def execYieldWindowEnd (s : State) : Host.Outcome State Fault Refusal :=
  if s.pacer.state = .yield then
    if s.pacer.stopPending then .next { s with pacer := s.pacer.enterStopped } else .next s.startWorkWindow
  else .next s

end Sys2Proof.Machine
end

