-- ==== Sys2Proof/Machine/Health.lean ====
section
/-! DEFINITION. Health.lean: the medium orders and the health ladder (chapters 1.1 and 9). The charge itself stands in
`Machine/Ops.lean` (`State.chargeMedium`). -/

namespace Sys2Proof.Machine

/-- The body of a medium record in a reply (R175, R209). -/
def Medium.body (m : Medium) : List Byte :=
  leBytes 4 m.id ++ leBytes 2 m.points ++ leBytes 1 m.kind.code ++ leBytes 1 m.position ++
    leBytes 1 m.ladderState.rank ++ leBytes 1 m.health.rank ++ leBytes 1 m.marks ++ zeros 1 ++
    leBytes 2 m.copyCount ++ zeros 2

/-- A medium record with the starting values of R1. -/
def Medium.fresh (id : Nat) (kind : MediumKind) : Medium := ⟨id, kind, 0, false, 0, .sound, false, false, 0⟩

/-- MEDIUM_ADD (R2). -/
def mediumAdd (body : List Byte) (s : State) : Applied :=
  let id := leAt body 0 4
  match MediumKind.ofCode (leAt body 4 1) with
  | none => .answered s (.no .badArgument)
  | some kind =>
    if id = 0 then .answered s (.no .badArgument)
    else if (s.medium? id).isSome then .answered s (.no .inUse)
    else if Config.mediaMax ≤ s.media.length then .answered s (.no .noRoom)
    else .answered { s with media := s.media ++ [Medium.fresh id kind] } (.ok [])

/-- MEDIUM_ADD taken by the port of `h`. -/
def execMediumAdd (h : Head) (s : State) : Host.Outcome State Fault Refusal :=
  takeOrder h 1 (fun _ body => mediumAdd body) s

/-- MEDIUM_REMOVE (R3). -/
def mediumRemove (body : List Byte) (s : State) : Applied :=
  let id := leAt body 0 4
  match s.medium? id with
  | none => .answered s (.no .unknownMedium)
  | some m =>
    if 0 < m.copyCount ∨ s.reels.any (fun r => !r.isActive && r.copyMedia.contains id) then .answered s (.no .inUse)
    else .answered { s with media := s.media.filter fun m => m.id != id } (.ok [])

/-- MEDIUM_REMOVE taken by the port of `h`. -/
def execMediumRemove (h : Head) (s : State) : Host.Outcome State Fault Refusal :=
  takeOrder h 2 (fun _ body => mediumRemove body) s

/-- The shape of the three orders on one medium (R175): refused with UNKNOWN_MEDIUM, or applied and answered with the
medium record as it then stands. -/
def mediumOrder (f : Medium → Medium) (body : List Byte) (s : State) : Applied :=
  let id := leAt body 0 4
  match s.medium? id with
  | none => .answered s (.no .unknownMedium)
  | some m => .answered (s.modMedium id f) (.ok (f m).body)

/-- MEDIUM_WITHDRAW taken by the port of `h` (R175). -/
def execMediumWithdraw (h : Head) (s : State) : Host.Outcome State Fault Refusal :=
  takeOrder h 3 (fun _ body => mediumOrder (fun m => { m with withdrawnByHead := true }) body) s

/-- MEDIUM_RETURN taken by the port of `h` (R176). -/
def execMediumReturn (h : Head) (s : State) : Host.Outcome State Fault Refusal :=
  takeOrder h 4 (fun _ body => mediumOrder (fun m => { m with withdrawnByHead := false }) body) s

/-- MEDIUM_RESET_POINTS taken by the port of `h` (R177). -/
def execMediumResetPoints (h : Head) (s : State) : Host.Outcome State Fault Refusal :=
  takeOrder h 5 (fun _ body => mediumOrder (fun m => { m with resetPending := true }) body) s

/-- A pending reset applied at a pass start (R117 step 3, R177). -/
def Medium.applyReset (m : Medium) : Medium :=
  if m.resetPending then
    { m with points := 0, saturated := false, position := 0, ladderState := .sound, resetPending := false }
  else m

/-- The ladder position LADDER_SET gives a medium (R174): the first step whose threshold is greater than its points, or
the number of steps. -/
def ladderPosition (points : Nat) : List LadderStep → Nat
  | [] => 0
  | t :: ts => if points < t.threshold then 0 else ladderPosition points ts + 1

/-- Whether thresholds are strictly rising and above a bound. -/
def ladderRising (low : Nat) : List LadderStep → Bool
  | [] => true
  | t :: ts => low < t.threshold && ladderRising t.threshold ts

/-- LADDER_SET (R174). -/
def ladderSet (body : List Byte) (s : State) : Applied :=
  match ladderOperand body with
  | none => .answered s (.no .badArgument)
  | some steps =>
    if 1 ≤ steps.length ∧ steps.length ≤ 5 ∧ ladderRising 0 steps = true then
      .answered { s with
        ladder := steps, media := s.media.map fun m => { m with position := ladderPosition m.points steps } } (.ok [])
    else .answered s (.no .badArgument)

/-- LADDER_SET taken by the port of `h`. -/
def execLadderSet (h : Head) (s : State) : Host.Outcome State Fault Refusal :=
  takeOrder h 52 (fun _ body => ladderSet body) s

end Sys2Proof.Machine
end

