-- ==== Sys2Proof/Machine/Walker.lean ====
section
/-! DEFINITION. Walker.lean: the day clock, plan slots, the walker and its due filter (chapter 6). -/

namespace Sys2Proof.Machine

/-! ### The day clock (R107, R108) -/

/-- DAY_SET (R108). -/
def daySet (body : List Byte) (s : State) : Applied :=
  let v := leAt body 0 2
  let day (t : Nat) : List Byte := leBytes 2 t ++ zeros 2
  match s.day with
  | none => .answered { s with day := some v } (.ok (day v))
  | some today =>
    let ahead := (v + 65536 - today) % 65536
    if ahead = 0 then .answered s (.same (day today))
    else if ahead ≤ 32767 then .answered { s with day := some v } (.ok (day v))
    else .answered s (.refused .staleDay (day today))

/-- DAY_SET taken by the port of `h`. -/
def execDaySet (h : Head) (s : State) : Host.Outcome State Fault Refusal :=
  takeOrder h 47 (fun _ body => daySet body) s

/-! ### Plan slots (R109, R110) -/

/-- Plan slot `i`; a number that names no slot reads as EMPTY. -/
def State.slot (s : State) (i : Nat) : PlanSlot := (s.slots[i]?).getD .empty

/-- Set plan slot `i`. -/
def State.setPlanSlot (s : State) (i : Nat) (p : PlanSlot) : State := { s with slots := s.slots.setIfInBounds i p }

/-- The entries of a LOADED slot; none for an EMPTY or LOADING one. R109 says of a LOADING slot only that it has no usable
entries; that STATUS therefore shows an entry count of 0 for it is the model's choice (DESIGN CHOICE,
notes/assumptions/23.md). -/
def PlanSlot.entries : PlanSlot → List PlanEntry
  | .loaded es => es
  | .empty | .loading _ _ _ => []

/-- Whether a slot is LOADED. -/
def PlanSlot.isLoaded : PlanSlot → Bool
  | .loaded _ => true
  | .empty | .loading _ _ _ => false

/-- Whether a slot is LOADING. -/
def PlanSlot.isLoading : PlanSlot → Bool
  | .loading _ _ _ => true
  | .empty | .loaded _ => false

/-- PLAN_LOAD (R110). -/
def planLoad (h : Head) (tag : Half) (body : List Byte) (s : State) : Applied :=
  let i := leAt body 0 1
  let es := planEntries body
  if 2 ≤ i ∨ es.length = 0 ∨ Config.planEntriesMax < es.length then .answered s (.no .badArgument)
  else if (s.slot i).isLoading = true ∨ s.walker.running = some i ∨ s.walker.queued = some i then
    .answered s (.no .slotBusy)
  else if es.all PlanEntry.inRange then .begun (s.setPlanSlot i (.loading h tag es))
  else .answered s (.no .badArgument)

/-- PLAN_LOAD taken by the port of `h`. -/
def execPlanLoad (h : Head) (s : State) : Host.Outcome State Fault Refusal := takeOrder h 40 (planLoad h) s

/-- PLAN_LOAD_COMPLETION (R110). Where the slot is not LOADING, no load completes. -/
def execPlanLoadCompletion (slot : Nat) (s : State) : Host.Outcome State Fault Refusal :=
  match s.slot slot with
  | .loading h tag es =>
    .next ((((s.setPlanSlot slot (.loaded es)).release h).reply h 40 tag
      (.ok (leBytes 2 es.length ++ zeros 2))).settle)
  | .empty | .loaded _ => .next s

/-! ### Due scores and bands (R121 to R123) -/

/-- The due score of a copy (R121). -/
def dueScore (c : CopyRec) (today interval : Nat) (h : Health) : Nat :=
  if c.trust = .unverified ∨ (c.trust = .suspect ∧ c.deferred = true) then 65535
  else
    let age := (today + 65536 - c.lastDay) % 65536
    let base := min 65535 (age * 64 / interval)
    match h with
    | .watch => min 65535 (base + base / 2)
    | .degraded => min 65535 (2 * base)
    | .sound | .withdrawn => base

/-- The first band that contains a score (R122). -/
def findBand (bands : List Band) (score : Nat) : Option Band :=
  bands.find? fun b => b.low ≤ score && score ≤ b.high

/-- BANDS_SET (R123). -/
def bandsSet (body : List Byte) (s : State) : Applied :=
  match bandsOperand body with
  | none => .answered s (.no .badArgument)
  | some bands =>
    if 1 ≤ bands.length ∧ bands.length ≤ 6 ∧ (bands.all fun b => b.low ≤ b.high) = true then
      .answered { s with bands := bands } (.ok [])
    else .answered s (.no .badArgument)

/-- BANDS_SET taken by the port of `h`. -/
def execBandsSet (h : Head) (s : State) : Host.Outcome State Fault Refusal :=
  takeOrder h 46 (fun _ body => bandsSet body) s

/-! ### Entries, passes and the halt entry (R116 to R119) -/

/-- A finding of the walker about its plan (R127). -/
def State.planFinding (s : State) (kind : FindingKind) (reel segment : Option Nat) (detail : Nat) : Finding :=
  ⟨kind, false, s.today, reel, segment, none, none, none, none, detail⟩

/-- The entries of the running slot. -/
def State.planEntriesNow (s : State) : List PlanEntry := ((s.walker.running.map s.slot).map PlanSlot.entries).getD []

/-- The position at the start of entry `i` of the running slot. -/
def State.entryStart (s : State) (i : Nat) : Position :=
  ⟨i, ((s.planEntriesNow[i]?).map PlanEntry.firstSegment).getD 0, 0⟩

/-- Put the walker at the start of entry `i`, not yet taken up. -/
def State.gotoEntry (s : State) (i : Nat) : State :=
  { s with walker := { s.walker with position := some (s.entryStart i), entryPhase := .ahead } }

/-- PLAN_ENTRY_STALE for entry `i` with a cause (R119, R127). -/
def State.postStale (s : State) (i : Nat) (e : PlanEntry) (cause : Nat) : State :=
  s.post (s.planFinding .planEntryStale (some e.acc) (some e.firstSegment) (cause + 16 * i))

/-- An entry is found stale at its take-up (R119). -/
def State.foundStale (s : State) (i : Nat) (e : PlanEntry) (cause : Nat) : State :=
  let t := s.postStale i e cause
  { t with walker := { t.walker with entryPhase := .stale } }

/-- The walker takes up entry `i`, at whose start it stands (R116, R119): the halt entry, then the look-up of its reel. -/
def State.takeUpEntry (s : State) (i : Nat) (e : PlanEntry) : State :=
  if s.walker.haltEntry = some i then
    { s with walker := { s.walker with state := .halted, haltEntry := none } }
  else match s.activeReel? e.acc with
    | none => s.foundStale i e 1
    | some r =>
      if r.segCount ≤ e.firstSegment then s.foundStale i e 2
      else { s with walker := { s.walker with position := some ⟨i, e.firstSegment, 0⟩, entryPhase := .taken } }

/-- A pass start (R117): the pass number rises, the notice marks are cleared, the pending point resets are applied, and
the walker takes up entry 0 of the running slot. What follows a take-up that finds entry 0 stale is made by the next
WALKER_POSITION (DESIGN CHOICE, notes/assumptions/9.md). -/
def State.passStart (s : State) : State :=
  let t := ({ s with
    walker := { s.walker with pass := (s.walker.pass + 1) % 256, notices := [] },
    media := s.media.map Medium.applyReset }).gotoEntry 0
  match t.planEntriesNow[0]? with
  | some e => t.takeUpEntry 0 e
  | none => t

/-- The end of a pass (R118): PLAN_DONE, then the queued slot, a new pass of the same slot, or IDLE. -/
def State.passEnd (s : State) (slot : Nat) : State :=
  let t := s.post (s.planFinding .planDone none none (s.walker.pass + 256 * slot))
  match t.walker.queued with
  | some q =>
    ({ t with walker := { t.walker with running := some q, queued := none, haltEntry := none } }).passStart
  | none =>
    if t.walker.loop then t.passStart
    else { t with walker := { t.walker with
      state := .idle, running := none, position := none, entryPhase := .ahead } }

/-- Whether entry `i` ends its plan: LAST set, or the highest index (R109). -/
def endsPlan (es : List PlanEntry) (i : Nat) (e : PlanEntry) : Bool := e.last || i + 1 == es.length

/-- The walker finishes an entry, walked or stale (R119): NOTE, then LAST or the next entry, then HOLD. -/
def State.finishEntry (s : State) (slot i : Nat) (e : PlanEntry) : State :=
  let t := if e.note then s.post (s.planFinding .planMark (some e.acc) none (i + 512 * slot)) else s
  let u := if endsPlan t.planEntriesNow i e then t.passEnd slot else t.gotoEntry (i + 1)
  if e.hold && u.walker.state != .idle then { u with walker := { u.walker with state := .paused } } else u

/-- The rest of an entry under way is stale, with cause 3 (R119): the finding, then the entry's end. -/
def State.staleRest (s : State) (slot i : Nat) (e : PlanEntry) : State := (s.postStale i e 3).finishEntry slot i e

/-- The end segment of an entry's range (R119). -/
def PlanEntry.endSegment (e : PlanEntry) (r : Reel) : Nat :=
  if e.segmentCount = 0 then r.segCount - 1 else min (e.firstSegment + e.segmentCount - 1) (r.segCount - 1)

/-! ### One position (R120 to R126) -/

/-- The skip tests of a position (R120). -/
def State.skipped (s : State) (e : PlanEntry) (r : Reel) (c : CopyId) : Bool :=
  let rec_ := s.copy c
  !e.copyMask.testBit c.copy || r.copyCount ≤ c.copy ||
  rec_.trust == .bad || rec_.trust == .repairing ||
  (rec_.trust == .suspect && (s.dispute? c.seg).isSome) ||
  s.copyHealth c == .withdrawn ||
  rec_.itemTag.isSome ||
  (s.refDigest c.seg).isNone

/-- The walker moves to the next position of the entry, or finishes the entry (R119). -/
def State.advance (s : State) (slot : Nat) (p : Position) (e : PlanEntry) (r : Reel) : State :=
  if p.copy < 2 then { s with walker := { s.walker with position := some { p with copy := p.copy + 1 } } }
  else if p.segment < e.endSegment r then
    { s with walker := { s.walker with position := some ⟨p.entry, p.segment + 1, 0⟩ } }
  else s.finishEntry slot p.entry e

/-- DUE_NOTICE for a score in a notify band, once per entry and pass (R122, R127). -/
def State.notice (s : State) (p : Position) (c : CopyId) (score : Nat) (band : Band) : State :=
  if band.notify && !s.walker.notices.contains p.entry then
    { s.post (s.copyFinding .dueNotice false s.today c none none score) with
      walker := { s.walker with notices := s.walker.notices ++ [p.entry] } }
  else s

/-- A due position: released, or the walker waits (R124, R126). -/
def State.releaseOrWait (s : State) (slot : Nat) (p : Position) (e : PlanEntry) (r : Reel) (c : CopyId)
    (cls : ItemClass) : State :=
  if Config.scrubItemsMax ≤ s.queue.items.length then { s with walker := { s.walker with state := .waitRoom } }
  else if s.pacer.state = .work ∧ 0 < s.pacer.credit then
    (s.createItem .scrub cls c 0#64).advance slot p e r
  else { s with walker := { s.walker with state := .waitCredit } }

/-- The walker evaluates a position of a taken-up entry (R119 to R126). -/
def State.evaluate (s : State) (slot : Nat) (p : Position) (e : PlanEntry) : State :=
  match s.activeReel? e.acc with
  | none => s.staleRest slot p.entry e
  | some r =>
    if e.endSegment r < p.segment then s.staleRest slot p.entry e
    else
      let c : CopyId := ⟨e.acc, p.segment, p.copy⟩
      if s.skipped e r c then s.advance slot p e r
      else
        let score := dueScore (s.copy c) s.today r.scrubInterval (s.copyHealth c)
        match findBand s.bands score with
        | none => s.advance slot p e r
        | some band =>
          let t := s.notice p c score band
          match band.action with
          | .skip => t.advance slot p e r
          | .normal => t.releaseOrWait slot p e r c .normal
          | .priority => t.releaseOrWait slot p e r c .priority

/-- The take-up of an entry by a step of its own (R119): an entry found stale is finished in the same step. -/
def State.walkEntry (s : State) (slot i : Nat) (e : PlanEntry) : State :=
  let t := s.takeUpEntry i e
  if t.walker.entryPhase = .stale then t.finishEntry slot i e else t

/-- One step of a WALKING walker: it takes up the entry at its position, evaluates the position, or goes on after an entry
found stale at the pass start (R119; the grain is notes/assumptions/9.md). -/
def State.walk (s : State) : State :=
  match s.walker.running, s.walker.position with
  | some slot, some p =>
    match s.planEntriesNow[p.entry]? with
    | some e =>
      match s.walker.entryPhase with
      | .ahead => s.walkEntry slot p.entry e
      | .taken => s.evaluate slot p e
      | .stale => s.finishEntry slot p.entry e
    | none => s
  | _, _ => s

/-- WALKER_POSITION (R119). A walker that is not WALKING does not move. -/
def execWalkerPosition (s : State) : Host.Outcome State Fault Refusal :=
  if s.walker.state = .walking then .next s.walk.settle else .next s

/-! ### The plan orders (R112 to R115) -/

/-- PLAN_START (R112): a pass starts, and the reply carries its number. -/
def planStart (body : List Byte) (s : State) : Applied :=
  let i := leAt body 0 1
  let halt := optHalf (leAt body 2 2)
  match boolAt body 1 with
  | none => .answered s (.no .badArgument)
  | some loop =>
    let es := (s.slot i).entries
    if 2 ≤ i then .answered s (.no .badArgument)
    else if s.walker.state ≠ .idle then .answered s (.no .busy)
    else if (s.slot i).isLoaded = false then .answered s (.no .emptySlot)
    else if (halt.any fun n => es.length ≤ n) = true then .answered s (.no .badArgument)
    else if s.day = none then .answered s (.no .dayUnset)
    else
      let t := ({ s with walker := { s.walker with
        state := .walking, running := some i, queued := none, loop := loop, haltEntry := halt } }).passStart
      .answered t (.ok (leBytes 1 t.walker.pass ++ zeros 3))

/-- PLAN_START taken by the port of `h`. -/
def execPlanStart (h : Head) (s : State) : Host.Outcome State Fault Refusal :=
  takeOrder h 41 (fun _ body => planStart body) s

/-- PLAN_QUEUE (R113). -/
def planQueue (body : List Byte) (s : State) : Applied :=
  let i := leAt body 0 1
  if 2 ≤ i then .answered s (.no .badArgument)
  else if s.walker.state = .idle then .answered s (.no .badState)
  else if s.walker.running = some i then .answered s (.no .slotBusy)
  else if (s.slot i).isLoaded = false then .answered s (.no .emptySlot)
  else .answered { s with walker := { s.walker with queued := some i } } (.ok [])

/-- PLAN_QUEUE taken by the port of `h`. -/
def execPlanQueue (h : Head) (s : State) : Host.Outcome State Fault Refusal :=
  takeOrder h 42 (fun _ body => planQueue body) s

/-- PLAN_PAUSE (R114). -/
def planPause (s : State) : Applied :=
  match s.walker.state with
  | .walking | .waitCredit | .waitRoom =>
    .answered { s with walker := { s.walker with state := .paused } } (.ok [])
  | .paused | .halted => .answered s (.ok [])
  | .idle => .answered s (.no .badState)

/-- PLAN_PAUSE taken by the port of `h`. -/
def execPlanPause (h : Head) (s : State) : Host.Outcome State Fault Refusal := takeOrder h 43 (fun _ _ => planPause) s

/-- PLAN_RESUME (R114). -/
def planResume (s : State) : Applied :=
  match s.walker.state with
  | .paused | .halted => .answered { s with walker := { s.walker with state := .walking } } (.ok [])
  | .idle | .walking | .waitCredit | .waitRoom => .answered s (.no .badState)

/-- PLAN_RESUME taken by the port of `h`. -/
def execPlanResume (h : Head) (s : State) : Host.Outcome State Fault Refusal :=
  takeOrder h 44 (fun _ _ => planResume) s

/-- The walker after PLAN_STOP (R115 step 1): IDLE with nothing running; the pass number is kept. -/
def Walker.stopped (w : Walker) : Walker :=
  { w with state := .idle, running := none, queued := none, loop := false, haltEntry := none, position := none,
           entryPhase := .ahead }

/-- The QUEUED SCRUB items (R115 step 2), in list order. R115 and R151 give no order in which PLAN_STOP withdraws them; the
model takes the list's (DESIGN CHOICE, notes/assumptions/24.md). -/
def State.queuedScrubs (s : State) : List Item := s.queue.items.filter fun i => i.kind = .scrub && i.isQueued

/-- PLAN_STOP (R115). -/
def planStop (s : State) : Applied :=
  let swept := s.queuedScrubs
  let t := swept.foldl (fun u it => (u.withdrawItem it).leftoverGone it.target)
    { s with walker := s.walker.stopped }
  .answered t.wakeRoom (.ok (leBytes 1 swept.length ++ zeros 3))

/-- PLAN_STOP taken by the port of `h`. -/
def execPlanStop (h : Head) (s : State) : Host.Outcome State Fault Refusal := takeOrder h 45 (fun _ _ => planStop) s

end Sys2Proof.Machine
end

