-- ==== Sys2Proof/Machine/Ports.lean ====
section
/-! DEFINITION. Ports.lean: the head ports (chapter 10): the port area's writes, the timer limits, the Finding Queue's
order, the attention settings, the STATUS snapshot, unknown orders, port reset, and the links. -/

namespace Sys2Proof.Machine

/-! ### The port area (R205, R206) -/

/-- ORDER_POST_COUNT_WRITE (R206, R183): the order in the next place is posted, or the write is discarded and the overrun
indicator set. While the link is DOWN the write does not reach the part. -/
def execOrderPostCountWrite (h : Head) (value : Half) (s : State) : Host.Outcome State Fault Refusal :=
  let p := s.port h
  if p.link = false then .next s
  else if p.orders < Config.ordersMax ∧ value = p.orderPost + 1 then .next (s.setPort h { p with orderPost := value })
  else .next (s.setPort h { p with overrun := true })

/-- REPLY_READ_COUNT_WRITE (R206): the replies stepped over are read; a step past the reply post count is discarded. -/
def execReplyReadCountWrite (h : Head) (value : Half) (s : State) : Host.Outcome State Fault Refusal :=
  let p := s.port h
  if p.link = true ∧ (value - p.replyRead).toNat ≤ p.unread then .next (s.setPort h { p with replyRead := value })
  else .next s

/-- Whether a byte of the port area may be written by the head: it lies in an order place that holds no order posted and
not yet taken (R206). The reply places and the two counts after them are the part's to write (R205). -/
def Port.headMayWrite (p : Port) (offset : Nat) : Bool :=
  let place := offset / Config.orderPlaceBytes
  place < Config.ordersMax &&
    p.orders ≤ (place + Config.ordersMax - p.orderTake.toNat % Config.ordersMax) % Config.ordersMax

/-- Store a head's bytes, each kept or discarded by the place it falls in. -/
def Port.headStore (p : Port) (offset : Nat) : List Byte → List Host.Cell → List Host.Cell
  | [], m => m
  | b :: bs, m => p.headStore (offset + 1) bs (if p.headMayWrite offset then Memory.write m offset b else m)

/-- PORT_AREA_WRITE (R206). -/
def execPortAreaWrite (h : Head) (offset : Nat) (bytes : List Byte) (s : State) : Host.Outcome State Fault Refusal :=
  let p := s.port h
  if offset + bytes.length ≤ Config.countsBase ∨
      (Config.partCountsBase ≤ offset ∧ offset + bytes.length ≤ Config.areaBytes) then
    if p.link = false then .next s
    else .next (s.setPort h { p with area := p.headStore offset bytes p.area })
  else .fault .noSuchAreaByte

/-! ### Orders of the port (R186, R188, R189, R195, R197) -/

/-- An order with an unknown code (R186): taken and refused with UNKNOWN_ORDER. -/
def execUnknownOrder (h : Head) (s : State) : Host.Outcome State Fault Refusal :=
  let p := s.port h
  let o := p.frontOrder
  if p.canTake = true ∧ bodyLength o.body o.code = none then
    .next ((Applied.answered (s.popOrder h) (.no .unknownOrder)).finish h o)
  else .next s

/-- TIMERS_SET (R188). -/
def timersSet (body : List Byte) (s : State) : Applied :=
  let l : Limits := ⟨leAt body 0 2, leAt body 2 2, leAt body 4 4⟩
  if 1 ≤ l.claim ∧ l.claim ≤ 600 ∧ 1 ≤ l.stall ∧ l.stall ≤ 600 ∧ 60 ≤ l.confirm ∧ l.confirm ≤ 86400 then
    .answered { s with limits := l } (.ok (leBytes 2 l.claim ++ leBytes 2 l.stall ++ leBytes 4 l.confirm))
  else .answered s (.no .badArgument)

/-- TIMERS_SET taken by the port of `h`. -/
def execTimersSet (h : Head) (s : State) : Host.Outcome State Fault Refusal :=
  takeOrder h 53 (fun _ body => timersSet body) s

/-- A finding record (R210). -/
def Finding.body (f : Finding) : List Byte :=
  leBytes 1 f.kind.code ++ leBytes 1 (boolNat f.critical) ++ leBytes 1 f.flags ++ leBytes 1 (f.copy.getD 255) ++
    leBytes 2 f.day ++ leBytes 2 (f.segment.getD 65535) ++ leBytes 6 (f.reel.getD 0) ++ zeros 2 ++
    leBytes 4 (f.medium.getD 0) ++ leBytes 4 f.detail ++ leBytes 8 ((f.digest.map BitVec.toNat).getD 0) ++
    leBytes 8 ((f.mask.map BitVec.toNat).getD 0)

/-- FINDING_TAKE (R195, R196). -/
def findingTake (body : List Byte) (s : State) : Applied :=
  let limit := leAt body 0 1
  if limit = 0 ∨ 8 < limit then .answered s (.no .badArgument)
  else if s.fq.findings = [] then .answered s .empty
  else
    let taken := s.fq.findings.take limit
    let left := s.fq.findings.drop limit
    let q : FindingQueue := ⟨left, s.fq.overflow && !left.isEmpty, s.fq.dropped⟩
    .answered { s with fq := q } (.ok (leBytes 1 taken.length ++ leBytes 1 (boolNat q.overflow) ++
      leBytes 2 left.length ++ leBytes 2 q.dropped ++ zeros 2 ++ taken.flatMap Finding.body))

/-- FINDING_TAKE taken by the port of `h`. -/
def execFindingTake (h : Head) (s : State) : Host.Outcome State Fault Refusal :=
  takeOrder h 56 (fun _ body => findingTake body) s

/-- ATTENTION_SET (R197). -/
def attentionSet (h : Head) (body : List Byte) (s : State) : Applied :=
  let t := leAt body 0 2
  let enables := leAt body 2 1
  if 1 ≤ t ∧ t ≤ 256 then
    let p := { s.port h with
      threshold := t, routineEnable := enables.testBit 0, criticalEnable := enables.testBit 1,
      laneEnable := enables.testBit 2 }
    .answered (s.setPort h p) (.ok (leBytes 2 p.threshold ++ leBytes 1 p.enables ++ zeros 1))
  else .answered s (.no .badArgument)

/-- ATTENTION_SET taken by the port of `h`. -/
def execAttentionSet (h : Head) (s : State) : Host.Outcome State Fault Refusal :=
  takeOrder h 57 (fun _ body => attentionSet h body) s

/-! ### STATUS (R189, R190, R210) -/

/-- The byte of a lane in the snapshot (R210): state, owner and purpose; 0 for a FREE lane. -/
def laneByte : Option LaneCtx → Nat
  | none => 0
  | some l => l.state.code + 4 * (match l.owner with | .a => 0 | .b => 1) + 8 * l.purpose.code

/-- The three counts of a class: QUEUED, CLAIMED, BOUND (R166). -/
def State.classCounts (s : State) (c : ItemClass) : List Byte :=
  let items := s.queue.items.filter fun i => i.cls = c
  let claimed := items.filter fun i => i.isClaimedBy .a || i.isClaimedBy .b
  let queued := items.filter Item.isQueued
  leBytes 1 queued.length ++ leBytes 1 claimed.length ++ leBytes 1 (items.length - queued.length - claimed.length)

/-- The walker's part of the snapshot, bytes 20 to 37 (R210). -/
def State.walkerBody (s : State) : List Byte :=
  let w := s.walker
  leBytes 1 w.state.code ++ leBytes 1 (w.running.getD 255) ++ leBytes 1 (w.queued.getD 255) ++
    leBytes 1 (boolNat w.loop) ++ leBytes 2 (w.haltEntry.getD 65535) ++
    (match w.position with
      | some p => leBytes 2 p.entry ++ leBytes 2 p.segment ++ leBytes 1 p.copy
      | none => leBytes 2 65535 ++ zeros 3) ++
    leBytes 1 w.pass ++ leBytes 1 (s.slot 0).code ++ leBytes 1 (s.slot 1).code ++
    leBytes 2 (s.slot 0).entries.length ++ leBytes 2 (s.slot 1).entries.length

/-- The body of a STATUS reply to head `h` (R189, R210). -/
def State.statusBody (s : State) (h : Head) : List Byte :=
  let p := s.pacer
  let set := p.inForce
  leBytes 1 (s.statusFlags h) ++ leBytes 1 p.state.code ++ leBytes 2 s.today ++
    leBytes 4 (p.credit % 4294967296).toNat ++ leBytes 1 p.acc ++ leBytes 1 p.flags ++
    leBytes 2 set.budget ++ leBytes 1 set.fraction ++ zeros 1 ++ leBytes 2 set.work ++ leBytes 2 set.yield ++
    leBytes 2 set.delay ++ s.walkerBody ++ zeros 2 ++
    leBytes 2 s.media.length ++ leBytes 2 (s.reels.filter Reel.isActive).length ++
    leBytes 2 (s.reels.filter fun r => !r.isActive).length ++ zeros 2 ++
    leBytes 4 s.freeRecords ++ leBytes 4 s.longestRun ++
    s.classCounts .urgent ++ s.classCounts .priority ++ s.classCounts .normal ++
    leBytes 1 (s.queue.items.filter fun i => i.isClaimedBy .a).length ++
    leBytes 1 (s.queue.items.filter fun i => i.isClaimedBy .b).length ++ leBytes 1 s.queue.waiters.length ++
    leBytes 2 s.queue.lastTag ++ zeros 2 ++ (s.lanes.toList.flatMap fun l => leBytes 1 (laneByte l)) ++
    leBytes 1 (s.disputes.filter Dispute.isCollecting).length ++
    leBytes 1 (s.disputes.filter fun d => !d.isCollecting).length ++
    leBytes 1 (s.repairs.filter fun r => r.state = .waitingPlace).length ++
    leBytes 1 (s.repairs.filter fun r => r.state ≠ .waitingPlace).length ++
    ([RepairOrigin.vote, .adopt, .reject, .head].flatMap fun o =>
      leBytes 1 (s.repairs.filter fun r => r.origin = o).length) ++
    leBytes 2 s.fq.findings.length ++ leBytes 2 (s.fq.findings.filter Finding.critical).length ++
    leBytes 2 s.fq.dropped ++ leBytes 2 s.limits.claim ++ leBytes 2 s.limits.stall ++ zeros 2 ++
    leBytes 4 s.limits.confirm

/-- STATUS (R189, R190): the snapshot, and what its posting clears. -/
def status (h : Head) (s : State) : Applied :=
  .answered (({ s with fq := { s.fq with dropped := 0 } }).setPort h { s.port h with overrun := false })
    (.ok (s.statusBody h))

/-- STATUS taken by the port of `h`. -/
def execStatus (h : Head) (s : State) : Host.Outcome State Fault Refusal := takeOrder h 58 (fun _ _ => status h) s

/-! ### Port reset and link loss (R200 to R202) -/

/-- The counts aligned, as the discarding of a port's orders and replies (R206), with no reserved place and the overrun
indicator clear. -/
def Port.cleared (p : Port) : Port :=
  { p with orderTake := p.orderPost, replyPost := p.replyRead, reserved := 0, overrun := false }

/-- Abandon a head's registrations and plan loads in progress (R9, R110). Its feeds are abandoned with their lanes. -/
def State.abandonOperations (s : State) (h : Head) : State :=
  let reels := s.reels.filter fun r => match r.state with
    | .adding h' _ => h' != h
    | .active => true
  let clear (p : PlanSlot) : PlanSlot := match p with
    | .loading h' _ _ => if h' = h then .empty else p
    | .empty | .loaded _ => p
  (({ s with reels := reels }).setPlanSlot 0 (clear (s.slot 0))).setPlanSlot 1 (clear (s.slot 1))

/-- Whether an item is held by a head: CLAIMED by it, or the item of a lane it owns that has not ended (R46, R168). -/
def State.heldBy (s : State) (h : Head) (it : Item) : Bool :=
  it.isClaimedBy h || (List.range Config.laneCount).any fun n => (s.lane n).any fun l =>
    l.owner == h && l.state != .done && l.itemTag == some it.tag

/-- An item of a reset head goes back without a raise of its requeue count, or is withdrawn when it has lost its purpose
(R46, R164, R168). Its place is settled once all have gone back. -/
def State.returnHeld (s : State) (it : Item) : State :=
  if s.isPurposeless it then s.withdrawPurposeless it
  else s.modItem it.tag fun i => { i with state := .queued, source := none }

/-- One lane ends by PORT_RESET (R46): its item goes back, an unfinished RESTORE or INGEST lane is charged, the lane is
FREE. -/
def State.resetLane (h : Head) (s : State) (n : Nat) : State :=
  match s.lane n with
  | none => s
  | some l =>
    if l.owner ≠ h then s
    else if l.state = .done then s.setLane n none
    else
      let t := match l.itemTag.bind s.item? with
        | some it => s.returnHeld it
        | none => s
      (t.chargeLane l).setLane n none

/-- Steps 1 to 3 of a port reset (R201): operations abandoned, lanes ended, claims returned. The items that go back
stand at the front of their classes in the order they had in the list (R149). R46, R168 and R201 give no order among the
head's lanes or among its CLAIMED items: here the lanes end in ascending number, and then the CLAIMED items go back or are
withdrawn in list order (DESIGN CHOICE, notes/assumptions/22.md); the order fixes the waiting starts and the tags of the
repair entries whose leftover items are withdrawn. -/
def State.resetWork (s : State) (h : Head) : State :=
  let back := (s.queue.items.filter fun it => s.heldBy h it && !s.isPurposeless it).map Item.tag
  let t := (List.range Config.laneCount).foldl (State.resetLane h) (s.abandonOperations h)
  let u := (t.queue.items.filter fun it => it.isClaimedBy h).foldl State.returnHeld t
  ({ u with queue := { u.queue with items := placeFront (fun i => back.contains i.tag) u.queue.items } }).wakeRoom

/-- A port reset but for its reply (R201 steps 1 to 5). -/
def State.resetPort (s : State) (h : Head) : State :=
  let t := s.resetWork h
  t.setPort h (t.port h).cleared

/-- PORT_RESET taken by the port of `h` (R200, R201): the reply is the first of the emptied queue. -/
def execPortReset (h : Head) (s : State) : Host.Outcome State Fault Refusal :=
  takeOrder h 59 (fun _ _ t => .answered (t.resetPort h) (.ok [])) s

/-- A port whose link has gone DOWN: no reserved place, the overrun indicator clear (R202), and the four counts left to be
zeroed when the link comes UP (R206). -/
def Port.lost (p : Port) : Port := { p with link := false, reserved := 0, overrun := false }

/-- LINK_LOSS (R202): the work of a port reset, with no reply, and the link DOWN. A link that is DOWN is not lost again. -/
def execLinkLoss (h : Head) (s : State) : Host.Outcome State Fault Refusal :=
  if (s.port h).link then
    let t := s.resetWork h
    .next (t.setPort h (t.port h).lost).settle
  else .next s

/-- LINK_UP (R202, R206): empty queues, all four counts 0, no reserved places, the indicator clear. A link that is UP does
not come up again. -/
def execLinkUp (h : Head) (s : State) : Host.Outcome State Fault Refusal :=
  let p := s.port h
  if p.link then .next s
  else .next (s.setPort h { p with
    link := true, orderPost := 0, orderTake := 0, replyPost := 0, replyRead := 0, reserved := 0,
    overrun := false }).settle

end Sys2Proof.Machine
end

