-- ==== Sys2Proof/Machine/Resets.lean ====
section
/-! DEFINITION. Resets.lean: power-on and card reset. -/

namespace Sys2Proof.Machine

/-- POWER_ON (R18, R47, R91, R106, R128, R145, R167, R181, R182, R203): every block at its power-on state. The order and
reply places keep their contents (R206 with chapter 0.8: notes/assumptions/3.md). -/
def execPowerOn (s : State) : Host.Outcome State Fault Refusal :=
  .next { State.reset with
    portA := { Port.powerOn with area := s.portA.area }
    portB := { Port.powerOn with area := s.portB.area }
    pending := s.pending }

/-- A copy record after a card reset (R20). -/
def CopyRec.cardReset (c : CopyRec) : CopyRec :=
  match c.trust with
  | .suspect => { c with trust := .unverified, lastDay := 0, deferred := false, itemTag := none }
  | .repairing => { c with trust := .bad, deferred := false, itemTag := none }
  | .unverified | .good | .bad => { c with deferred := false, itemTag := none }

/-- A segment record after a card reset (R19, R20). -/
def SegRec.cardReset (g : SegRec) : SegRec := { g with copies := g.copies.map CopyRec.cardReset }

/-- A reel record after a card reset (R19, R20). -/
def Reel.cardReset (r : Reel) : Reel := { r with segs := r.segs.map fun p => (p.1, p.2.cardReset) }

/-- A plan slot after a card reset (R109, R110). -/
def PlanSlot.cardReset : PlanSlot → PlanSlot
  | .loading _ _ _ => .empty
  | .loaded es => .loaded es
  | .empty => .empty

/-- CARD_RESET (R203 and the reset rules of every chapter). -/
def execCardReset (s : State) : Host.Outcome State Fault Refusal :=
  .next ({ s with
    reels := (s.reels.filter Reel.isActive).map Reel.cardReset
    lanes := Vector.replicate 12 none
    disputes := []
    repairs := []
    queue := ⟨[], s.queue.lastTag, [], 0⟩
    walker := Walker.initial
    slots := (Vector.replicate 2 PlanSlot.empty).setIfInBounds 0 (s.slot 0).cardReset |>.setIfInBounds 1 (s.slot 1).cardReset
    pacer := s.pacer.halted
    fq := ⟨[], false, 0⟩
    portA := s.portA.cleared
    portB := s.portB.cleared }).settle

end Sys2Proof.Machine
end

