-- ==== Sys2Proof/Machine/Dispatch.lean ====
section
/-! DEFINITION. Dispatch.lean: one arm per command, each a call of its meaning. -/

namespace Sys2Proof.Machine

def exec (i : Instr) (s : State) : Host.Outcome State Fault Refusal :=
  match i with
  | .powerOn => Sys2Proof.Machine.execPowerOn s
  | .cardReset => Sys2Proof.Machine.execCardReset s
  | .linkLoss h => Sys2Proof.Machine.execLinkLoss h s
  | .linkUp h => Sys2Proof.Machine.execLinkUp h s
  | .windowWrite h lane offset bytes => Sys2Proof.Machine.execWindowWrite h lane offset bytes s
  | .orderPostCountWrite h value => Sys2Proof.Machine.execOrderPostCountWrite h value s
  | .replyReadCountWrite h value => Sys2Proof.Machine.execReplyReadCountWrite h value s
  | .portAreaWrite h offset bytes => Sys2Proof.Machine.execPortAreaWrite h offset bytes s
  | .unknownOrder h => Sys2Proof.Machine.execUnknownOrder h s
  | .mediumAdd h => Sys2Proof.Machine.execMediumAdd h s
  | .mediumRemove h => Sys2Proof.Machine.execMediumRemove h s
  | .mediumWithdraw h => Sys2Proof.Machine.execMediumWithdraw h s
  | .mediumReturn h => Sys2Proof.Machine.execMediumReturn h s
  | .mediumResetPoints h => Sys2Proof.Machine.execMediumResetPoints h s
  | .reelAdd h => Sys2Proof.Machine.execReelAdd h s
  | .reelAddCompletion reel => Sys2Proof.Machine.execReelAddCompletion reel s
  | .reelRemove h => Sys2Proof.Machine.execReelRemove h s
  | .referenceLoad h => Sys2Proof.Machine.execReferenceLoad h s
  | .segmentRead h => Sys2Proof.Machine.execSegmentRead h s
  | .copySelect h => Sys2Proof.Machine.execCopySelect h s
  | .laneOpen h => Sys2Proof.Machine.execLaneOpen h s
  | .laneFeed h => Sys2Proof.Machine.execLaneFeed h s
  | .laneFeedCompletion lane => Sys2Proof.Machine.execLaneFeedCompletion lane s
  | .laneEnd h => Sys2Proof.Machine.execLaneEnd h s
  | .laneAbort h => Sys2Proof.Machine.execLaneAbort h s
  | .laneReport h => Sys2Proof.Machine.execLaneReport h s
  | .stallTimerExpiry lane => Sys2Proof.Machine.execStallTimerExpiry lane s
  | .itemClaim h => Sys2Proof.Machine.execItemClaim h s
  | .itemReturn h => Sys2Proof.Machine.execItemReturn h s
  | .claimTimerExpiry tag => Sys2Proof.Machine.execClaimTimerExpiry tag s
  | .disputeAdopt h => Sys2Proof.Machine.execDisputeAdopt h s
  | .disputeReject h => Sys2Proof.Machine.execDisputeReject h s
  | .confirmTimerExpiry reel segment => Sys2Proof.Machine.execConfirmTimerExpiry reel segment s
  | .repairRequest h => Sys2Proof.Machine.execRepairRequest h s
  | .planLoad h => Sys2Proof.Machine.execPlanLoad h s
  | .planLoadCompletion slot => Sys2Proof.Machine.execPlanLoadCompletion slot s
  | .planStart h => Sys2Proof.Machine.execPlanStart h s
  | .planQueue h => Sys2Proof.Machine.execPlanQueue h s
  | .planPause h => Sys2Proof.Machine.execPlanPause h s
  | .planResume h => Sys2Proof.Machine.execPlanResume h s
  | .planStop h => Sys2Proof.Machine.execPlanStop h s
  | .bandsSet h => Sys2Proof.Machine.execBandsSet h s
  | .daySet h => Sys2Proof.Machine.execDaySet h s
  | .walkerPosition => Sys2Proof.Machine.execWalkerPosition s
  | .paceSet h => Sys2Proof.Machine.execPaceSet h s
  | .paceStart h => Sys2Proof.Machine.execPaceStart h s
  | .paceStop h => Sys2Proof.Machine.execPaceStop h s
  | .paceHalt h => Sys2Proof.Machine.execPaceHalt h s
  | .delayTimerExpiry => Sys2Proof.Machine.execDelayTimerExpiry s
  | .workWindowEnd => Sys2Proof.Machine.execWorkWindowEnd s
  | .yieldWindowEnd => Sys2Proof.Machine.execYieldWindowEnd s
  | .ladderSet h => Sys2Proof.Machine.execLadderSet h s
  | .timersSet h => Sys2Proof.Machine.execTimersSet h s
  | .findingTake h => Sys2Proof.Machine.execFindingTake h s
  | .attentionSet h => Sys2Proof.Machine.execAttentionSet h s
  | .status h => Sys2Proof.Machine.execStatus h s
  | .portReset h => Sys2Proof.Machine.execPortReset h s

end Sys2Proof.Machine
end

