-- ==== Sys2Proof/Safety.lean ====
section
/-! DEFINITION. Safety.lean: what counts as a sound state of the part, one predicate per piece of state, each from the
rule that promises it; and the words the statements use for an order that a port takes. -/

namespace Sys2Proof.Machine

/-! ### Sound states -/

/-- The staging windows and both port areas are in canonical form. -/
def State.memoryOk (s : State) : Prop :=
  Memory.wf s.windows = true ∧ Memory.wf s.portA.area = true ∧ Memory.wf s.portB.area = true

/-- The Pacer's numbers: credit within [-4B, 2B] for the budget in force, the accumulator in 0..15, and both settings
sets in their ranges (R129, R130). -/
def Pacer.ok (p : Pacer) : Prop :=
  p.floor ≤ p.credit ∧ p.credit ≤ p.cap ∧ p.acc ≤ 15 ∧ p.inForce.inRange = true ∧
    ∀ q, p.staged = some q → q.inRange = true

/-- The Finding Queue: at most 256 findings, the dropped count held at 65535, and no overflow flag on an empty queue
(R191, R194, R196). -/
def FindingQueue.ok (q : FindingQueue) : Prop :=
  q.findings.length ≤ 256 ∧ q.dropped ≤ 65535 ∧ (q.overflow = true → q.findings ≠ [])

/-- Both attention lines stand as the conditions of R198 call for. -/
def State.linesOk (s : State) : Prop := s.portA.line = s.lineOf .a ∧ s.portB.line = s.lineOf .b

/-- A medium stands on the ladder as R169 says: its position equals the number of steps, or the step it names has a
threshold greater than the medium's points; and the points are in their range. -/
def Medium.placedOn (ladder : List LadderStep) (m : Medium) : Prop :=
  m.points ≤ 65535 ∧
    (m.position = ladder.length ∨ ∃ t, ladder[m.position]? = some t ∧ m.points < t.threshold)

/-- The ladder is one of R173, and every medium stands on it as R169 says. -/
def State.ladderOk (s : State) : Prop :=
  1 ≤ s.ladder.length ∧ s.ladder.length ≤ 5 ∧ ladderRising 0 s.ladder = true ∧
    ∀ m ∈ s.media, m.placedOn s.ladder

/-- The Work Item Queue: at most 40 items, tags in 1..65535 with none held twice, 40 items whenever an owner waits, and
the list in class order, URGENT before PRIORITY before NORMAL (R147, R149, R150, R152). -/
def Queue.ok (q : Queue) : Prop :=
  q.items.length ≤ 40 ∧ (q.items.map Item.tag).Nodup ∧ (∀ i ∈ q.items, 1 ≤ i.tag ∧ i.tag ≤ 65535) ∧
    q.lastTag ≤ 65535 ∧ (q.waiters ≠ [] → q.items.length = 40) ∧
    q.items.Pairwise fun i j => i.cls.rank ≤ j.cls.rank

/-- A copy is involved in a dispute: it is the trigger, its slot is anything but NOT_WANTED, or the vote lists it. -/
def Dispute.involves (d : Dispute) (i : Nat) : Prop :=
  i = d.trigger ∨ i ∈ d.agreeing ∨ i ∈ d.rejected ∨ ∃ st, d.slots[i]? = some st ∧ st ≠ .notWanted

/-- What waits for a place has its entry: a dispute slot that is not NOT_WANTED, or a repair entry (R152). -/
def State.ownerStands (s : State) : Owner → Prop
  | .slot c => ∃ d ∈ s.disputes, d.seg = c.seg ∧ ∃ st, d.slots[c.copy]? = some st ∧ st ≠ .notWanted
  | .repair c => ∃ r ∈ s.repairs, r.target = c

/-- The Dispute Table and the Repair Table: at most 24 disputes, one for a segment (R64); at most 16 repairs, one for a
copy (R92); a copy is REPAIRING exactly when it has a repair entry (R93), and then no dispute involves it (R67, R94,
R95); what a lane, an item, a dispute or a repair entry refers to lies on an ACTIVE reel (R10), one reel for an accession id
(R4); and every waiting owner has its entry (R152). -/
structure State.tablesOk (s : State) : Prop where
  reelsApart : (s.reels.map Reel.acc).Nodup
  disputesMax : s.disputes.length ≤ 24
  disputesApart : (s.disputes.map Dispute.seg).Nodup
  repairsMax : s.repairs.length ≤ 16
  repairsApart : (s.repairs.map Repair.target).Nodup
  repairing : ∀ c, (s.copy c).trust = .repairing ↔ ∃ r ∈ s.repairs, r.target = c
  involved : ∀ d ∈ s.disputes, ∀ i, d.involves i → (s.copy (d.seg.copy i)).trust ≠ .repairing
  laneReels : ∀ n l, s.lane n = some l → (s.activeReel? l.target.reel).isSome = true
  itemReels : ∀ i ∈ s.queue.items, (s.activeReel? i.target.reel).isSome = true
  disputeReels : ∀ d ∈ s.disputes, (s.activeReel? d.seg.reel).isSome = true
  repairReels : ∀ r ∈ s.repairs, (s.activeReel? r.target.reel).isSome = true
  waiting : ∀ w ∈ s.queue.waiters, s.ownerStands w.owner

/-- A lane's byte counts: bytes taken never exceed the expected length, and neither do they with a feed in progress added
(R21, R30). -/
def LaneCtx.ok (l : LaneCtx) : Prop :=
  l.bytesTaken ≤ l.expected ∧
    ∀ len tag, l.state = .digesting len tag → 1 ≤ len ∧ len ≤ 1048576 ∧ l.bytesTaken + len ≤ l.expected

/-- Every lane that is not FREE has sound byte counts. -/
def State.lanesOk (s : State) : Prop := ∀ n l, s.lane n = some l → l.ok

/-- The walker's shape (R109, R111, R113): IDLE exactly when no slot runs and exactly when there is no position; the
running and the queued slot are different LOADED slots; the position names an entry of the running slot; a slot that is
not EMPTY holds 1..512 entries; and today is a day of R107. -/
def State.walkerOk (s : State) : Prop :=
  (s.walker.state = .idle ↔ s.walker.running = none) ∧ (s.walker.running = none ↔ s.walker.position = none) ∧
  (∀ i, s.walker.running = some i → (s.slot i).isLoaded = true ∧ s.walker.queued ≠ some i) ∧
  (∀ i, s.walker.queued = some i → (s.slot i).isLoaded = true) ∧
  (∀ p, s.walker.position = some p → p.entry < s.planEntriesNow.length) ∧
  (∀ i es, s.slot i = .loaded es → 1 ≤ es.length ∧ es.length ≤ 512) ∧
  (∀ i h tag es, s.slot i = .loading h tag es → 1 ≤ es.length ∧ es.length ≤ 512) ∧
  ∀ d, s.day = some d → d ≤ 65535

/-- A sound state of the part: every predicate above holds. -/
def State.ok (s : State) : Prop :=
  s.memoryOk ∧ s.pacer.ok ∧ s.fq.ok ∧ s.linesOk ∧ s.ladderOk ∧ s.queue.ok ∧ s.lanesOk ∧ s.walkerOk ∧
    s.tablesOk

/-- A safe run of the part: from a sound state, every step it takes gives a next state, and a sound one. -/
def State.safeRun (s : State) : Prop :=
  ∀ n, ∃ t, Sys2Proof.core.run n s = .next t ∧ t.ok

/-! ### Orders -/

/-- The order code of R207 that a command takes, with the head whose port takes it; `none` for a command that is not the
taking of an order of a known code. -/
def orderTaken : Instr → Option (Head × Nat)
  | .mediumAdd h => some (h, 1)
  | .mediumRemove h => some (h, 2)
  | .mediumWithdraw h => some (h, 3)
  | .mediumReturn h => some (h, 4)
  | .mediumResetPoints h => some (h, 5)
  | .reelAdd h => some (h, 6)
  | .reelRemove h => some (h, 7)
  | .referenceLoad h => some (h, 8)
  | .segmentRead h => some (h, 9)
  | .copySelect h => some (h, 10)
  | .laneOpen h => some (h, 16)
  | .laneFeed h => some (h, 17)
  | .laneEnd h => some (h, 18)
  | .laneAbort h => some (h, 19)
  | .laneReport h => some (h, 20)
  | .itemClaim h => some (h, 24)
  | .itemReturn h => some (h, 25)
  | .disputeAdopt h => some (h, 32)
  | .disputeReject h => some (h, 33)
  | .repairRequest h => some (h, 34)
  | .planLoad h => some (h, 40)
  | .planStart h => some (h, 41)
  | .planQueue h => some (h, 42)
  | .planPause h => some (h, 43)
  | .planResume h => some (h, 44)
  | .planStop h => some (h, 45)
  | .bandsSet h => some (h, 46)
  | .daySet h => some (h, 47)
  | .paceSet h => some (h, 48)
  | .paceStart h => some (h, 49)
  | .paceStop h => some (h, 50)
  | .paceHalt h => some (h, 51)
  | .ladderSet h => some (h, 52)
  | .timersSet h => some (h, 53)
  | .findingTake h => some (h, 56)
  | .attentionSet h => some (h, 57)
  | .status h => some (h, 58)
  | .portReset h => some (h, 59)
  | .powerOn | .cardReset | .linkLoss _ | .linkUp _ | .windowWrite _ _ _ _ | .orderPostCountWrite _ _
  | .replyReadCountWrite _ _ | .portAreaWrite _ _ _ | .unknownOrder _ | .reelAddCompletion _ | .laneFeedCompletion _
  | .stallTimerExpiry _ | .claimTimerExpiry _ | .confirmTimerExpiry _ _ | .planLoadCompletion _ | .walkerPosition
  | .delayTimerExpiry | .workWindowEnd | .yieldWindowEnd => none

/-- The end of an order that completes when it is taken: its reply is posted and the lines are driven (R185, R198). -/
def State.answer (s : State) (h : Head) (code : Nat) (tag : Half) (a : Answer) : State := (s.reply h code tag a).settle

/-- The parts of a state that the work inside an event leaves alone: lanes, windows, plan slots, settings, the ports and
the commands still to be given. -/
def State.sameParts (s t : State) : Prop :=
  t.lanes = s.lanes ∧ t.windows = s.windows ∧ t.slots = s.slots ∧ t.bands = s.bands ∧ t.day = s.day ∧
    t.ladder = s.ladder ∧ t.limits = s.limits ∧ t.portA = s.portA ∧ t.portB = s.portB ∧ t.pending = s.pending

/-- What a port reset or a link loss of head `h` leaves, from state `s` to state `t` (R201, R202): the port's orders,
reservations and overrun indicator gone and its settings kept; no lane, claim, registration or plan load of the head; the
other head's port (but for its line) and lanes as they were; media, findings, windows, settings and pending commands as
they were; both lines as the conditions call for. -/
def State.portGivenBack (s : State) (h : Head) (t : State) : Prop :=
  (t.port h).orders = 0 ∧ (t.port h).reserved = 0 ∧ (t.port h).overrun = false ∧
    (t.port h).threshold = (s.port h).threshold ∧ (t.port h).routineEnable = (s.port h).routineEnable ∧
    (t.port h).criticalEnable = (s.port h).criticalEnable ∧ (t.port h).laneEnable = (s.port h).laneEnable ∧
    (∀ n l, t.lane n = some l → l.owner ≠ h) ∧
    (∀ n l, s.lane n = some l → l.owner ≠ h → t.lane n = some l) ∧
    (∀ it ∈ t.queue.items, it.isClaimedBy h = false) ∧
    (∀ r ∈ t.reels, ∀ tag, r.state ≠ .adding h tag) ∧ (∀ i tag es, t.slot i ≠ .loading h tag es) ∧
    (∀ k, k ≠ h → t.port k = { s.port k with line := (t.port k).line }) ∧
    t.media = s.media ∧ t.fq = s.fq ∧ t.windows = s.windows ∧ t.bands = s.bands ∧ t.day = s.day ∧
    t.ladder = s.ladder ∧ t.limits = s.limits ∧ t.pending = s.pending ∧ t.linesOk

/-- The port of `h` takes its oldest order now (R184), and that order has this code, this tag and this body, whose length
is the one its format allows (R186, R207). -/
def State.takes (s : State) (h : Head) (code : Nat) (tag : Half) (body : List Byte) : Prop :=
  (s.port h).canTake = true ∧ (s.port h).frontOrder = ⟨code, tag, body.length, body⟩ ∧
    (s.port h).frontOrder.lengthOk = true

/-! ### Completed reads -/

/-- The feed in progress on lane `n`, with its order's tag, brings the lane's read to its expected length (R36): `l` is the
lane's context as it stands, `l1` the context with the feed's bytes taken (R24, R25), `d` the observed digest. -/
def State.completes (s : State) (n : Nat) (l l1 : LaneCtx) (tag : Half) (d : Digest) : Prop :=
  n < 12 ∧ s.lane n = some l ∧ ∃ len r, l.state = .digesting len tag ∧ l.bytesTaken + len = l.expected ∧
    s.reel? l.target.reel = some r ∧
    l1 = l.takeBytes r.frameSize (s.seg l.target.seg).frameList (Memory.load s.windows (n * 1048576) len) ∧
    d = crcFinal ((Memory.load s.windows (n * 1048576) len).foldl crcByte l.segCrc)

/-- The last acts of a completed read: the lane is DONE with its result, its observed digest and its routing, and with the
copy's trust as it then stands (R42); a walker that waited for a place goes on; the reserved reply place is released and
the reply posted (R31, R187). -/
def State.readDone (u : State) (n : Nat) (l1 : LaneCtx) (tag : Half) (result : Result) (observed : Option Digest)
    (routing : Routing) : State :=
  ((u.setLane n (some { l1 with
      state := .done, endReason := some .completed, result := some result, observed := observed,
      routing := some routing, trustAfter := some (u.copy l1.target).trust })).wakeRoom.release l1.owner).answer l1.owner 17 tag
    (.ok (leBytes 4 l1.expected ++ leBytes 1 3 ++ zeros 3))

/-- The state in which a judged read is routed (R39, R41): a MATCH whose mask is not empty has posted FRAME_LIST_SUSPECT
(R38), and the item of an ITEM lane has left the queue, with the service of waiting owners and the repair entry that
waited for it (R40, R151, R97). -/
def State.readyToRoute (s : State) (n : Nat) (l l1 : LaneCtx) (d : Digest) (v : State) : Prop :=
  ∃ p, p = (if s.refDigest l.target.seg = some d ∧ l1.badMask ≠ 0#64 then
      s.post ⟨.frameListSuspect, false, s.day.getD 0, some l.target.reel, some l.target.segment, some l.target.copy,
        some (s.mediumOf l.target), some d, some l1.badMask, n⟩ else s) ∧
    (l.purpose ≠ .item ∧ l.itemTag = none ∧ v = p ∨
      ∃ it, l.purpose = .item ∧ l.itemTag = some it.tag ∧ s.item? it.tag = some it ∧
        v = ((({ p with queue := { p.queue with items := p.queue.items.filter fun i => i.tag != it.tag } }).setItemTag
          it.target none).serve).leftoverGone l.target)

/-! ### Claims -/

/-- The claim turns the item `it` away in state `s` and leaves `t` (R154, R99): its medium is WITHDRAWN, or it is a REPAIR
item without a source; it is withdrawn, and its owner acts. -/
def State.turnsAway (s : State) (it : Item) (t : State) : Prop :=
  (it.kind = .repair ∧ s.copyHealth it.target = .withdrawn ∧
      t = (s.withdrawItem it).closeRepair it.target .repairAbandoned false 2) ∨
    (it.kind = .repair ∧ s.copyHealth it.target ≠ .withdrawn ∧ s.source? it.target = none ∧
      t = (s.withdrawItem it).closeRepair it.target .repairNoSource true 2) ∨
    (it.kind ≠ .repair ∧ s.copyHealth it.target = .withdrawn ∧ t = (s.withdrawItem it).ownerLost it 0)

/-- The claim that finds state `s` turns these items away one after the other, each the first QUEUED item of the list as the
one before left it, and comes to state `t` (R153). -/
def State.turnsAwayAll (s : State) : List Item → State → Prop
  | [], t => t = s
  | it :: l, t => s.queue.items.find? Item.isQueued = some it ∧ ∃ u, s.turnsAway it u ∧ u.turnsAwayAll l t

/-! ### Items that go without a judgement -/

/-- The item has lost its purpose (R164): another lane has filled the dispute slot it serves, or it is left over on the
target of a repair entry. -/
def State.lostPurpose (s : State) (it : Item) : Prop :=
  (∃ d o n, s.collecting? it.target.seg = some d ∧ d.slots[it.target.copy]? = some (.observed o n (some it.tag))) ∨
    it.kind ≠ .repair ∧ ∃ r, s.repair? it.target = some r

/-- The owner of an item that is withdrawn acts in state `s` and leaves `t`, a repair entry with this cause: the entry is
abandoned (R103); a slot that the item serves becomes UNREAD, and the entry tests for its decision (R73, R77); a slot that
another lane has filled loses the tag (R72); a repair entry that waited for the item goes on (R97). -/
def State.ownerActs (s : State) (it : Item) (cause : Nat) (t : State) : Prop :=
  (it.kind = .repair → t = s.closeRepair it.target .repairAbandoned false cause) ∧
  (it.kind ≠ .repair →
    (∀ d, s.collecting? it.target.seg = some d → d.slots[it.target.copy]? = some (.issued it.tag) →
      t = (s.setSlot it.target .unread).testDecision it.target.seg) ∧
    (∀ d o n, s.collecting? it.target.seg = some d → d.slots[it.target.copy]? = some (.observed o n (some it.tag)) →
      t = s.setSlot it.target (.observed o n none)) ∧
    ((∀ d st, s.collecting? it.target.seg = some d → d.slots[it.target.copy]? = some st → st.tag ≠ some it.tag) →
      t = s.leftoverGone it.target))

/-- An item that has lost its purpose goes in state `s` and leaves `t` (R164, R72, R97): it is withdrawn, without a finding,
its slot loses the tag, and the repair entry that waited for it goes on. -/
def State.purposeGone (s : State) (it : Item) (t : State) : Prop :=
  ∃ v, t = v.leftoverGone it.target ∧
    (∀ d o n, (s.withdrawItem it).collecting? it.target.seg = some d →
      d.slots[it.target.copy]? = some (.observed o n (some it.tag)) →
      v = (s.withdrawItem it).setSlot it.target (.observed o n none)) ∧
    ((∀ d o n, (s.withdrawItem it).collecting? it.target.seg = some d →
      d.slots[it.target.copy]? ≠ some (.observed o n (some it.tag))) → v = s.withdrawItem it)

/-- The item goes in state `s`, where its requeue count was to be raised, and leaves `t`. One that has lost its purpose is
withdrawn for that (R164). Any other is withdrawn as its fourth raise calls for, ITEM_ABANDONED is posted with the cause, and
its owner acts (R163, R166). -/
def State.itemGone (s : State) (it : Item) (cause : Nat) (t : State) : Prop :=
  (s.lostPurpose it → s.purposeGone it t) ∧
  (¬s.lostPurpose it →
    ((s.withdrawItem it).post ⟨.itemAbandoned, false, s.day.getD 0, some it.target.reel, some it.target.segment,
      some it.target.copy, some (s.mediumOf it.target), none, none, it.tag + 65536 * cause⟩).ownerActs it 4 t)

/-! ### What a head gives back -/

/-- Head `h` holds the item: it is CLAIMED by the head, or it is the item of a lane of the head that has not ended (R46,
R168). -/
def State.holds (s : State) (h : Head) (it : Item) : Prop :=
  it.isClaimedBy h = true ∨
    ∃ n l, s.lane n = some l ∧ l.owner = h ∧ l.state ≠ .done ∧ l.itemTag = some it.tag

/-- The item as a port reset leaves it: QUEUED, its requeue count as it was, its source ABSENT (R168). -/
def Item.backAgain (it : Item) : Item := { it with state := .queued, source := none }

/-- The item of a reset head goes back in state `s` and leaves `t` (R168, R164): QUEUED again, without a raise of its
requeue count, or withdrawn when it has lost its purpose. -/
def State.goesBack (s : State) (it : Item) (t : State) : Prop :=
  (s.lostPurpose it → s.purposeGone it t) ∧
  (¬s.lostPurpose it → t = { s with queue := { s.queue with
    items := s.queue.items.map fun (i : Item) => if i.tag = it.tag then i.backAgain else i } })

/-- The items go back one after the other, from state `s` to state `t`. -/
def State.goBack (s : State) : List Item → State → Prop
  | [], t => t = s
  | it :: l, t => ∃ u, s.goesBack it u ∧ u.goBack l t

/-- Lane `n` ends by PORT_RESET in state `s`, if head `h` owns it, and leaves `t` (R46): a lane that has not ended gives its
item back, or charges its bytes taken when it reads no item (R44); then it is FREE, as is one that is DONE. -/
def State.laneGoesBack (s : State) (h : Head) (n : Nat) (t : State) : Prop :=
  ((∀ l, s.lane n = some l → l.owner ≠ h) → t = s) ∧
  ∀ l, s.lane n = some l → l.owner = h →
    (l.state = .done → t = s.setLane n none) ∧
    (l.state ≠ .done → ∃ u, s.goBack (l.itemTag.bind s.item?).toList u ∧
      t = (if l.purpose = .item then u else u.chargeCredit (chargeOf l.bytesTaken)).setLane n none)

/-- The lanes end one after the other, from state `s` to state `t`. -/
def State.lanesGoBack (s : State) (h : Head) : List Nat → State → Prop
  | [], t => t = s
  | n :: l, t => ∃ u, s.laneGoesBack h n u ∧ u.lanesGoBack h l t

/-- The items of `l` with those of the tags `back` at the front of their classes, in the order they had (R149). -/
def fronted (back : List Nat) (l : List Item) : List Item :=
  [ItemClass.urgent, .priority, .normal].flatMap fun cls =>
    (l.filter fun i => decide (i.cls = cls ∧ i.tag ∈ back)) ++ l.filter fun i => decide (i.cls = cls ∧ i.tag ∉ back)

/-- Steps 1 to 3 of a port reset of head `h`, from state `s` to state `t` (R201): its registrations and plan loads are
abandoned (R9, R110); its lanes end; the items it has CLAIMED go back; and those that went back QUEUED stand at the front of
their classes. A walker that waited for a place goes on (R125). -/
def State.workGoesBack (s : State) (h : Head) (t : State) : Prop :=
  ∃ (a u v : State) (back : List Nat),
    a = { s with reels := a.reels, slots := a.slots } ∧
    a.reels = (s.reels.filter fun r => match r.state with
      | .adding k _ => k != h
      | .active => true) ∧
    (∀ i, (∀ tag es, s.slot i ≠ .loading h tag es) → a.slot i = s.slot i) ∧
    (∀ i tag es, s.slot i = .loading h tag es → a.slot i = .empty) ∧
    a.lanesGoBack h (List.range 12) u ∧
    u.goBack (u.queue.items.filter fun i => i.isClaimedBy h) v ∧
    (∀ x, x ∈ back ↔ ∃ it ∈ s.queue.items, s.holds h it ∧ ¬s.lostPurpose it ∧ it.tag = x) ∧
    t = ({ v with queue := { v.queue with items := fronted back v.queue.items } }).wakeRoom

/-- Where no item that the head holds has lost its purpose, this is what `t` holds of the rest of the part: every held item
QUEUED at the front of its class, as it was but for its state and its source, and every other item, tag and waiting owner as
it was; the Dispute and the Repair Table as they were (R74, R106); nothing charged or refunded but the bytes taken of the
head's RESTORE and INGEST lanes that have not ended, down to the floor (R44, R140). -/
def State.headGivesBack (s : State) (h : Head) (t : State) : Prop :=
  (∀ it ∈ s.queue.items, s.holds h it → ¬s.lostPurpose it) →
  t.disputes = s.disputes ∧ t.repairs = s.repairs ∧
  (s.walker.state ≠ .waitRoom → t.walker = s.walker) ∧
  t.pacer = (List.range 12).foldl (fun p n => match s.lane n with
    | some l => if l.owner = h ∧ l.state ≠ .done ∧ l.purpose ≠ .item then p.charge (chargeOf l.bytesTaken) else p
    | none => p) s.pacer ∧
  ∃ back, (∀ x, x ∈ back ↔ ∃ it ∈ s.queue.items, s.holds h it ∧ it.tag = x) ∧
    t.queue = { s.queue with
      items := fronted back (s.queue.items.map fun i => if i.tag ∈ back then i.backAgain else i) }

/-! ### The walker's entries -/

/-- The walker in state `s` takes up entry `i` of its plan, `e`, and leaves `t` (R116, R119): HALTED before the halt entry,
which is then ABSENT; else at the entry's first position; else, its reel not ACTIVE or too short, finding it stale. -/
def State.takesUp (s : State) (i : Nat) (e : PlanEntry) (t : State) : Prop :=
  (s.walker.haltEntry = some i → t = { s with walker := { s.walker with state := .halted, haltEntry := none } }) ∧
  (s.walker.haltEntry ≠ some i →
    (∀ r, s.activeReel? e.acc = some r → e.firstSegment < r.segCount →
      t = { s with walker := { s.walker with position := some ⟨i, e.firstSegment, 0⟩, entryPhase := .taken } }) ∧
    ∀ cause, (s.activeReel? e.acc = none ∧ cause = 1 ∨
        cause = 2 ∧ ∃ r, s.activeReel? e.acc = some r ∧ r.segCount ≤ e.firstSegment) →
      t = { s with
        fq := s.fq.post ⟨.planEntryStale, false, s.day.getD 0, some e.acc, some e.firstSegment, none, none, none, none,
          cause + 16 * i⟩,
        walker := { s.walker with entryPhase := .stale } })

/-- A pass of the running slot, whose entry 0 is `e`, starts in state `s` and leaves `t` (R117): the pass number rises, the
notice marks clear, the pending point resets are applied, and entry 0 is taken up. -/
def State.startsPass (s : State) (e : PlanEntry) (t : State) : Prop :=
  ({ s with
    media := s.media.map fun (m : Medium) => if m.resetPending = true then
      ({ m with points := 0, saturated := false, position := 0, ladderState := .sound, resetPending := false } : Medium)
      else m,
    walker := { s.walker with
      pass := (s.walker.pass + 1) % 256, notices := [], position := some ⟨0, e.firstSegment, 0⟩,
      entryPhase := .ahead } }).takesUp 0 e t

/-- The walker finishes entry `i` of `slot`, `e`, walked or stale, in state `s` and leaves `t` (R118, R119): NOTE posts
PLAN_MARK; then it stands at the next entry; or, at the plan's end, PLAN_DONE is posted, and a pass of the queued slot
starts, which then is the running one without a halt entry, or one of the same slot when the plan loops, or the walker is
IDLE; then HOLD leaves it PAUSED, unless it is IDLE. -/
def State.endsEntry (s : State) (slot i : Nat) (e : PlanEntry) (t : State) : Prop :=
  ∃ v u w : State,
    v = (if e.note = true then { s with fq := s.fq.post ⟨.planMark, false, s.day.getD 0, some e.acc, none, none, none,
      none, none, i + 512 * slot⟩ } else s) ∧
    w = { v with fq := v.fq.post ⟨.planDone, false, s.day.getD 0, none, none, none, none, none, none,
      s.walker.pass + 256 * slot⟩ } ∧
    (∀ next, e.last = false → (s.slot slot).entries[i + 1]? = some next →
      u = { v with walker := { v.walker with position := some ⟨i + 1, next.firstSegment, 0⟩, entryPhase := .ahead } }) ∧
    ((e.last = true ∨ i + 1 = (s.slot slot).entries.length) →
      (∀ q first, s.walker.queued = some q → (s.slot q).entries[0]? = some first →
        ({ w with walker := { w.walker with running := some q, queued := none, haltEntry := none } }).startsPass first u) ∧
      (∀ first, s.walker.queued = none → s.walker.loop = true → (s.slot slot).entries[0]? = some first →
        w.startsPass first u) ∧
      (s.walker.queued = none → s.walker.loop = false → u = { w with walker := { w.walker with
        state := .idle, running := none, position := none, entryPhase := .ahead } })) ∧
    t = (if e.hold = true ∧ u.walker.state ≠ .idle then { u with walker := { u.walker with state := .paused } } else u)

/-- The walker leaves position `p` of entry `e` on reel `r` in state `s`, and stands as in `t` (R119): at the next copy, at
copy 0 of the next segment, or at the entry's end. -/
def State.movesOn (s : State) (slot : Nat) (p : Position) (e : PlanEntry) (r : Reel) (t : State) : Prop :=
  (p.copy < 2 → t = { s with walker := { s.walker with position := some ⟨p.entry, p.segment, p.copy + 1⟩ } }) ∧
  (2 ≤ p.copy → p.segment < e.endSegment r →
    t = { s with walker := { s.walker with position := some ⟨p.entry, p.segment + 1, 0⟩ } }) ∧
  (2 ≤ p.copy → e.endSegment r ≤ p.segment → s.endsEntry slot p.entry e t)

end Sys2Proof.Machine
end

