-- ==== Sys2Proof/WellFormed.lean ====
section
/-! DEFINITION. WellFormed.lean: the ranges of a command's operands. A command that is not well formed names a place,
a lane, a slot, a reel, a segment or a tag that the part does not have. -/

namespace Sys2Proof

/-- The operands of a command lie in the ranges the spec gives them. -/
def Instr.wellFormed : Instr → Bool
  | .windowWrite _ lane offset bytes => lane < Config.laneCount && offset + bytes.length ≤ Config.windowBytes
  | .portAreaWrite _ offset bytes =>
      (offset + bytes.length ≤ Config.countsBase) ||
      (Config.partCountsBase ≤ offset && offset + bytes.length ≤ Config.areaBytes)
  | .reelAddCompletion reel => 1 ≤ reel && reel ≤ Config.accessionMax
  | .laneFeedCompletion lane => lane < Config.laneCount
  | .stallTimerExpiry lane => lane < Config.laneCount
  | .claimTimerExpiry tag => 1 ≤ tag && tag ≤ 65535
  | .confirmTimerExpiry reel segment => 1 ≤ reel && reel ≤ Config.accessionMax && segment < Config.segmentsMax
  | .planLoadCompletion slot => slot < 2
  | .powerOn | .cardReset | .linkLoss _ | .linkUp _ | .orderPostCountWrite _ _ | .replyReadCountWrite _ _
  | .unknownOrder _ | .mediumAdd _ | .mediumRemove _ | .mediumWithdraw _ | .mediumReturn _ | .mediumResetPoints _
  | .reelAdd _ | .reelRemove _ | .referenceLoad _ | .segmentRead _ | .copySelect _ | .laneOpen _ | .laneFeed _
  | .laneEnd _ | .laneAbort _ | .laneReport _ | .itemClaim _ | .itemReturn _ | .disputeAdopt _ | .disputeReject _
  | .repairRequest _ | .planLoad _ | .planStart _ | .planQueue _ | .planPause _ | .planResume _ | .planStop _
  | .bandsSet _ | .daySet _ | .walkerPosition | .paceSet _ | .paceStart _ | .paceStop _ | .paceHalt _
  | .delayTimerExpiry | .workWindowEnd | .yieldWindowEnd | .ladderSet _ | .timersSet _ | .findingTake _
  | .attentionSet _ | .status _ | .portReset _ => true

end Sys2Proof
end

