-- ==== Sys2Proof/Certificates/Slice0/Obligations.lean ====
section
/-! DEFINITION. Certificates/Slice0/Obligations.lean: the statements for the provers. A statement about an order speaks of
a state in which the head's port takes that order (`State.takes`), and of the state after the order has left its place
(`State.popOrder`), with the order's own effect applied, its reply posted and the lines driven (`State.answer`). -/

open Sys2Proof Sys2Proof.Machine

/-! ### The machine -/

/-- A step runs the command at the front of the queue with the queue's rest; on an empty queue the part idles (the
model's choice, notes/assumptions/6.md). -/
def Obligations.StepRunsFrontCommand : Prop :=
  (∀ (c : Instr) (rest : List Instr) (s : State),
    step { s with pending := c :: rest } = exec c { s with pending := rest }) ∧
  ∀ s : State, s.pending = [] → step s = .next s

/-- Every well-formed command has a next state in every state, which leaves the commands still to be given as they are; a
window write outside the window, or a port area write
outside the area or on the two counts that have commands of their own, stops with its fault (the model's choice,
notes/assumptions/12.md). -/
def Obligations.WellFormedCommandsRun : Prop :=
  (∀ (c : Instr) (s : State), c.wellFormed = true → ∃ t, exec c s = .next t ∧ t.pending = s.pending) ∧
  (∀ (h : Head) (lane offset : Nat) (bytes : List Byte) (s : State),
    (12 ≤ lane ∨ 1048576 < offset + bytes.length) →
      exec (.windowWrite h lane offset bytes) s = .fault .noSuchWindowByte) ∧
  ∀ (h : Head) (offset : Nat) (bytes : List Byte) (s : State),
    164096 < offset + bytes.length → (offset < 164100 ∨ 164104 < offset + bytes.length) →
      exec (.portAreaWrite h offset bytes) s = .fault .noSuchAreaByte

/-! ### Invariants that every step keeps -/

/-- Every step keeps the windows and both port areas in canonical form. -/
def Obligations.MemoryCanonicalKept : Prop := ∀ s t : State, s.memoryOk → step s = .next t → t.memoryOk

/-- Every step keeps credit within [-4B, 2B] for the budget in force, the accumulator in 0..15 and the settings in their
ranges. -/
def Obligations.CreditRangeKept : Prop := ∀ s t : State, s.pacer.ok → step s = .next t → t.pacer.ok

/-- Every step keeps the Finding Queue at 256 findings at most, the dropped count at 65535 at most, and the overflow flag
clear on an empty queue. -/
def Obligations.FindingQueueKept : Prop := ∀ s t : State, s.fq.ok → step s = .next t → t.fq.ok

/-- Every step leaves both attention lines at the levels R198 calls for. -/
def Obligations.AttentionLinesKept : Prop := ∀ s t : State, s.linesOk → step s = .next t → t.linesOk

/-- Every step keeps the condition of R169 between the ladder and every medium's position and points. -/
def Obligations.LadderConditionKept : Prop := ∀ s t : State, s.ladderOk → step s = .next t → t.ladderOk

/-- Every step keeps the Work Item Queue at 40 items at most, its tags in 1..65535 and apart from each other, full
whenever an owner waits, and its list in class order: URGENT before PRIORITY before NORMAL. -/
def Obligations.WorkItemQueueKept : Prop := ∀ s t : State, s.queue.ok → step s = .next t → t.queue.ok

/-- Every step keeps each lane's bytes taken, with a feed in progress added, within its expected length. -/
def Obligations.LaneBytesKept : Prop := ∀ s t : State, s.lanesOk → step s = .next t → t.lanesOk

/-- Every step keeps the walker's shape: IDLE without a running slot and a position, else at an entry of a LOADED slot; and
today in 0..65535. -/
def Obligations.WalkerShapeKept : Prop := ∀ s t : State, s.walkerOk → step s = .next t → t.walkerOk

/-- The state after power-on is sound in every respect the invariants name. -/
def Obligations.ResetIsSound : Prop := State.reset.ok

/-- Every step keeps the Dispute Table and the Repair Table: at most 24 disputes, one for a segment, and at most 16
repairs, one for a copy; a copy is REPAIRING exactly when it has a repair entry, and then no dispute involves it; what a
lane, an item, a dispute or a repair entry refers to lies on an ACTIVE reel, one reel for an accession id; and every
waiting owner has its entry. -/
def Obligations.TablesKept : Prop := ∀ s t : State, s.tablesOk → step s = .next t → t.tablesOk

/-! ### Resets and links -/

/-- POWER_ON: every block at its power-on values; that the order and reply places keep their contents is the model's
reading (notes/assumptions/3.md). CARD_RESET: the catalogue, the settings, the day and the windows are kept, work in
flight is cleared, copies change as R20 says, and with thresholds of at least 1 both lines are low. -/
def Obligations.PowerOnAndCardReset : Prop :=
  (∀ s : State, ∃ t, exec .powerOn s = .next t ∧
    t.media = [] ∧ t.reels = [] ∧ (∀ n, t.lane n = none) ∧ (∀ a, Memory.read t.windows a = 0#8) ∧
    t.disputes = [] ∧ t.repairs = [] ∧
    t.queue.items = [] ∧ t.queue.lastTag = 0 ∧ t.queue.waiters = [] ∧ t.queue.waitCount = 0 ∧
    t.walker.state = .idle ∧ t.walker.running = none ∧ t.walker.queued = none ∧ t.walker.loop = false ∧
    t.walker.haltEntry = none ∧ t.walker.position = none ∧ t.walker.pass = 0 ∧ t.walker.notices = [] ∧
    (∀ i, t.slot i = .empty) ∧ t.bands = [⟨0, 63, .skip, false⟩, ⟨64, 65535, .normal, false⟩] ∧ t.day = none ∧
    t.pacer = ⟨.stopped, 0, 0, none, false, ⟨64, 0, 100, 100, 0⟩, none⟩ ∧
    t.ladder = [⟨16, .watch, false⟩, ⟨64, .degraded, true⟩, ⟨256, .withdrawn, true⟩] ∧ t.limits = ⟨30, 20, 7200⟩ ∧
    t.fq.findings = [] ∧ t.fq.overflow = false ∧ t.fq.dropped = 0 ∧ t.pending = s.pending ∧
    ∀ h, t.port h = ⟨false, (s.port h).area, 0, 0, 0, 0, 0, false, 1, true, true, true, false⟩) ∧
  (∀ s : State, ∃ t, exec .cardReset s = .next t ∧
    t.media = s.media ∧ t.windows = s.windows ∧ t.bands = s.bands ∧ t.day = s.day ∧ t.ladder = s.ladder ∧
    t.limits = s.limits ∧ t.queue.lastTag = s.queue.lastTag ∧ t.pending = s.pending ∧
    t.reels = (s.reels.filter Reel.isActive).map (fun r =>
      { r with segs := r.segs.map fun p => (p.1, { p.2 with copies := p.2.copies.map CopyRec.cardReset }) }) ∧
    (∀ n, t.lane n = none) ∧ t.disputes = [] ∧ t.repairs = [] ∧ t.queue.items = [] ∧ t.queue.waiters = [] ∧
    t.queue.waitCount = 0 ∧ t.walker = ⟨.idle, none, none, false, none, none, .ahead, 0, []⟩ ∧
    (∀ i es, i < 2 → s.slot i = .loaded es → t.slot i = .loaded es) ∧
    (∀ i, (s.slot i).isLoaded = false → t.slot i = .empty) ∧
    t.pacer = ⟨.stopped, 0, 0, none, false, s.pacer.staged.getD s.pacer.inForce, none⟩ ∧
    t.fq.findings = [] ∧ t.fq.overflow = false ∧ t.fq.dropped = 0 ∧ t.linesOk ∧
    ∀ h, (t.port h).link = (s.port h).link ∧ (t.port h).area = (s.port h).area ∧ (t.port h).orders = 0 ∧
      (t.port h).orderPost = (s.port h).orderPost ∧ (t.port h).unread = 0 ∧
      (t.port h).replyRead = (s.port h).replyRead ∧ (t.port h).reserved = 0 ∧ (t.port h).overrun = false ∧
      (t.port h).threshold = (s.port h).threshold ∧ (t.port h).routineEnable = (s.port h).routineEnable ∧
      (t.port h).criticalEnable = (s.port h).criticalEnable ∧ (t.port h).laneEnable = (s.port h).laneEnable ∧
      (1 ≤ (s.port h).threshold → (t.port h).line = false)) ∧
  (∀ c : CopyRec, c.trust = .suspect → c.cardReset = { c with trust := .unverified, lastDay := 0, deferred := false, itemTag := none }) ∧
  (∀ c : CopyRec, c.trust = .repairing → c.cardReset = { c with trust := .bad, deferred := false, itemTag := none }) ∧
  ∀ c : CopyRec, c.trust ≠ .suspect → c.trust ≠ .repairing → c.cardReset = { c with deferred := false, itemTag := none }

/-- PORT_RESET and LINK_LOSS, and what they leave of the head's port, lanes, claims and operations, and of the other head's
port and lanes: no order, no reservation, no reply but PORT_RESET's own, no overrun; none of the head's lanes, claims,
registrations and plan loads is left; the other head's port and lanes, the windows, the settings, the media and the
findings stand. The work itself, step by step, is `State.workGoesBack` (R46, R168, R164): the items that the head has CLAIMED
and those of its lanes are QUEUED at the front of their classes, in the order they had, with their requeue counts, or are
withdrawn when they have lost their purpose; its RESTORE and INGEST lanes are charged their bytes taken. Where no item has
lost its purpose, `State.headGivesBack` says what is left in full: the queue, the Pacer, and both tables as they were. That
the returned items also stand ahead of CLAIMED and BOUND ones of their class is the model's choice (notes/assumptions/8.md).
That the media and the Finding Queue stand is read from R201, which speaks of votes and repair closings
alone (notes/assumptions/13.md). A LINK_LOSS leaves the four counts as they stand, to be zeroed when the link comes UP (R206);
that the orders and the replies not read number 0 until then is the model's reading (notes/assumptions/10.md). That a
LINK_LOSS on a link that is DOWN changes nothing is its choice (notes/assumptions/1.md).
That the head's lanes end in ascending number, and its claims then go back in list order, is its choice
(notes/assumptions/22.md). -/
def Obligations.PortResetGivesBack : Prop :=
  ∀ (h : Head) (s : State),
    (∀ tag, s.takes h 59 tag [] → ∃ x t, (s.popOrder h).workGoesBack h x ∧
      t = (x.setPort h { x.port h with
        orderTake := (x.port h).orderPost, replyPost := (x.port h).replyRead, reserved := 0,
        overrun := false }).answer h 59 tag (.ok []) ∧
      exec (.portReset h) s = .next t ∧ (t.port h).link = true ∧
      (t.port h).unread = 1 ∧ s.portGivenBack h t ∧ s.headGivesBack h t) ∧
    ((s.port h).link = true → ∃ x t, s.workGoesBack h x ∧
      t = (x.setPort h { x.port h with link := false, reserved := 0, overrun := false }).settle ∧
      exec (.linkLoss h) s = .next t ∧ s.headGivesBack h t ∧ (t.port h).link = false ∧
      (t.port h).unread = 0 ∧ (t.port h).orderPost = (s.port h).orderPost ∧ (t.port h).orderTake = (s.port h).orderTake ∧
      (t.port h).replyPost = (s.port h).replyPost ∧ (t.port h).replyRead = (s.port h).replyRead ∧ s.portGivenBack h t) ∧
    ((s.port h).link = false → exec (.linkLoss h) s = .next s)

/-- LINK_UP: the port starts with all four counts 0, no reserved place and the overrun indicator clear; that a LINK_UP on a
link that is UP changes nothing is the model's choice (notes/assumptions/1.md). The two counts a head writes (R206):
posting one order, a discarded post with the overrun indicator set, and reading replies up to the reply post count; a head
whose link is DOWN reaches neither. -/
def Obligations.PortCounts : Prop :=
  (∀ (h : Head) (s : State),
    ((s.port h).link = false → exec (.linkUp h) s = .next (s.setPort h { s.port h with
      link := true, orderPost := 0, orderTake := 0, replyPost := 0, replyRead := 0, reserved := 0,
      overrun := false }).settle) ∧
    ((s.port h).link = true → exec (.linkUp h) s = .next s)) ∧
  ∀ (h : Head) (value : Half) (s : State),
    ((s.port h).link = true → (s.port h).orders < 16 → value = (s.port h).orderPost + 1 →
      exec (.orderPostCountWrite h value) s = .next (s.setPort h { s.port h with orderPost := value })) ∧
    ((s.port h).link = true → (16 ≤ (s.port h).orders ∨ value ≠ (s.port h).orderPost + 1) →
      exec (.orderPostCountWrite h value) s = .next (s.setPort h { s.port h with overrun := true })) ∧
    ((s.port h).link = true → (value - (s.port h).replyRead).toNat ≤ (s.port h).unread →
      exec (.replyReadCountWrite h value) s = .next (s.setPort h { s.port h with replyRead := value })) ∧
    ((s.port h).link = true → (s.port h).unread < (value - (s.port h).replyRead).toNat →
      exec (.replyReadCountWrite h value) s = .next s) ∧
    ((s.port h).link = false → exec (.orderPostCountWrite h value) s = .next s ∧
      exec (.replyReadCountWrite h value) s = .next s)

/-! ### The windows and the port area -/

/-- WINDOW_WRITE by the owner of an OPEN lane: every written byte is stored, every other byte of every window reads as
before, and nothing else changes. WINDOW_WRITE that stores nothing: discarded on a FREE or DONE lane, on a lane of the other
head and while the link is DOWN; discarded with the window-conflict flag set when the owner writes while the lane is
DIGESTING. -/
def Obligations.WindowWriteResult : Prop :=
  (∀ (h : Head) (lane offset : Nat) (bytes : List Byte) (s : State) (l : LaneCtx) (limit : Nat),
    lane < 12 → offset + bytes.length ≤ 1048576 → (s.port h).link = true → s.lane lane = some l → l.owner = h →
    l.state = .openFor limit → Memory.wf s.windows = true →
    ∃ w, exec (.windowWrite h lane offset bytes) s = .next { s with windows := w } ∧ Memory.wf w = true ∧
      ∀ a, Memory.read w a =
        if lane * 1048576 + offset ≤ a ∧ a < lane * 1048576 + offset + bytes.length then
          (bytes[a - (lane * 1048576 + offset)]?).getD 0#8
        else Memory.read s.windows a) ∧
  ∀ (h : Head) (lane offset : Nat) (bytes : List Byte) (s : State),
    lane < 12 → offset + bytes.length ≤ 1048576 →
    ((s.port h).link = false → exec (.windowWrite h lane offset bytes) s = .next s) ∧
    (s.lane lane = none → exec (.windowWrite h lane offset bytes) s = .next s) ∧
    (∀ l, s.lane lane = some l → (l.owner ≠ h ∨ l.state = .done) → exec (.windowWrite h lane offset bytes) s = .next s) ∧
    ∀ l len tag, (s.port h).link = true → bytes ≠ [] → s.lane lane = some l → l.owner = h → l.state = .digesting len tag →
      exec (.windowWrite h lane offset bytes) s = .next (s.setLane lane (some { l with conflict := true }))

/-- PORT_AREA_WRITE: a byte in an order place that holds no order is stored, every other byte of the area reads as
before, and nothing else changes. R206 says that an order place must not be written while it holds an order; that a write
is judged byte by byte, and that a byte in a taken order place, in a reply place or in one of the part's own counts is
discarded, is the model's reading (notes/assumptions/12.md, DEDUCED, unsafe). -/
def Obligations.PortAreaWriteStored : Prop :=
  ∀ (h : Head) (offset : Nat) (bytes : List Byte) (s : State),
    (offset + bytes.length ≤ 164096 ∨ 164100 ≤ offset ∧ offset + bytes.length ≤ 164104) →
    ((s.port h).link = false → exec (.portAreaWrite h offset bytes) s = .next s) ∧
    ((s.port h).link = true → Memory.wf (s.port h).area = true →
      ∃ m, exec (.portAreaWrite h offset bytes) s = .next (s.setPort h { s.port h with area := m }) ∧
        Memory.wf m = true ∧
        ∀ a, Memory.read m a =
          if offset ≤ a ∧ a < offset + bytes.length ∧ a < 131328 ∧
              (s.port h).orders ≤ (a / 8208 + 16 - (s.port h).orderTake.toNat % 16) % 16 then
            (bytes[a - offset]?).getD 0#8
          else Memory.read (s.port h).area a)

/-! ### Taking orders and posting replies -/

/-- The common checks of a taken order: a code that names no order is refused with UNKNOWN_ORDER, its code and tag
echoed; a record of the wrong length is refused with BAD_ARGUMENT, whatever order it is; neither has another effect. The
command of an order that the head's port does not take now changes nothing (the model's choice, notes/assumptions/1.md). -/
def Obligations.OrdersRefusedOrNotTaken : Prop :=
  ((∀ (h : Head) (s : State), (s.port h).canTake = true →
    bodyLength (s.port h).frontOrder.body (s.port h).frontOrder.code = none →
    exec (.unknownOrder h) s = .next ((s.popOrder h).answer h (s.port h).frontOrder.code (s.port h).frontOrder.tag
      (.refused .unknownOrder []))) ∧
  ∀ (c : Instr) (h : Head) (code : Nat) (s : State), orderTaken c = some (h, code) → (s.port h).canTake = true →
    (s.port h).frontOrder.code = code → (s.port h).frontOrder.lengthOk = false →
    exec c s = .next ((s.popOrder h).answer h code (s.port h).frontOrder.tag (.refused .badArgument []))) ∧
  (∀ (c : Instr) (h : Head) (code : Nat) (s : State), orderTaken c = some (h, code) →
    ((s.port h).canTake = false ∨ (s.port h).frontOrder.code ≠ code) → exec c s = .next s) ∧
  ∀ (h : Head) (s : State),
    ((s.port h).canTake = false ∨ bodyLength (s.port h).frontOrder.body (s.port h).frontOrder.code ≠ none) →
    exec (.unknownOrder h) s = .next s

/-- Posting a reply: the record of R209 goes into the place of the reply post count, the count rises by 1, every other
byte of the port area reads as before, and nothing else changes. That the bytes of the place behind the record read as
before is the model's choice (notes/assumptions/17.md, DESIGN CHOICE, unsafe). -/
def Obligations.ReplyPosted : Prop :=
  ∀ (s : State) (h : Head) (code : Nat) (tag : Half) (a : Answer), Memory.wf (s.port h).area = true →
    ∃ m, s.reply h code tag a = s.setPort h { s.port h with area := m, replyPost := (s.port h).replyPost + 1 } ∧
      Memory.wf m = true ∧
      ∀ x, Memory.read m x =
        if 131328 + 1024 * ((s.port h).replyPost.toNat % 32) ≤ x ∧
            x < 131328 + 1024 * ((s.port h).replyPost.toNat % 32) + (8 + a.body.length) then
          ((leBytes 2 code ++ leBytes 2 tag.toNat ++ leBytes 1 a.outcome ++ leBytes 1 a.detail ++
            leBytes 2 a.body.length ++ a.body)[x - (131328 + 1024 * ((s.port h).replyPost.toNat % 32))]?).getD 0#8
        else Memory.read (s.port h).area x

/-- Driving the lines: each head's line is raised exactly when a condition of R198 holds, and nothing else changes. -/
def Obligations.LinesDriven : Prop :=
  ∀ s : State, ∃ a b : Bool,
    s.settle = { s with portA := { s.portA with line := a }, portB := { s.portB with line := b } } ∧
    ∀ h, (match h with | .a => a | .b => b) = true ↔
      ((s.port h).routineEnable = true ∧ (s.port h).threshold ≤ s.fq.findings.length) ∨
      ((s.port h).criticalEnable = true ∧ ∃ f ∈ s.fq.findings, f.critical = true) ∨ s.fq.overflow = true ∨
      ((s.port h).laneEnable = true ∧ ∃ n l, s.lane n = some l ∧ l.owner = h ∧ l.state = .done)

/-! ### The catalogue -/

/-- MEDIUM_ADD: its three refusals in their order, and its acceptance. -/
def Obligations.MediumAddResult : Prop :=
  ∀ (h : Head) (tag : Half) (body : List Byte) (s : State), s.takes h 1 tag body →
    ((leAt body 0 4 = 0 ∨ 2 < leAt body 4 1) →
      exec (.mediumAdd h) s = .next ((s.popOrder h).answer h 1 tag (.refused .badArgument []))) ∧
    (leAt body 0 4 ≠ 0 → leAt body 4 1 ≤ 2 → (∃ m ∈ s.media, m.id = leAt body 0 4) →
      exec (.mediumAdd h) s = .next ((s.popOrder h).answer h 1 tag (.refused .inUse []))) ∧
    (leAt body 0 4 ≠ 0 → leAt body 4 1 ≤ 2 → (∀ m ∈ s.media, m.id ≠ leAt body 0 4) → 2048 ≤ s.media.length →
      exec (.mediumAdd h) s = .next ((s.popOrder h).answer h 1 tag (.refused .noRoom []))) ∧
    ∀ kind, MediumKind.ofCode (leAt body 4 1) = some kind → leAt body 0 4 ≠ 0 →
      (∀ m ∈ s.media, m.id ≠ leAt body 0 4) → s.media.length < 2048 →
      exec (.mediumAdd h) s = .next (({ s.popOrder h with
        media := s.media ++ [(⟨leAt body 0 4, kind, 0, false, 0, .sound, false, false, 0⟩ : Medium)] }).answer h 1 tag (.ok []))

/-- MEDIUM_REMOVE is refused for an unknown medium and for one that holds copies or is named by an ADDING reel, and else
removes the record. MEDIUM_WITHDRAW, MEDIUM_RETURN and MEDIUM_RESET_POINTS each set or clear one mark of the medium and
answer with the record as it then stands; an unknown medium is refused. -/
def Obligations.MediumRecordOrders : Prop :=
  (∀ (h : Head) (tag : Half) (body : List Byte) (s : State), s.takes h 2 tag body →
    ((∀ m ∈ s.media, m.id ≠ leAt body 0 4) →
      exec (.mediumRemove h) s = .next ((s.popOrder h).answer h 2 tag (.refused .unknownMedium []))) ∧
    ∀ m, s.medium? (leAt body 0 4) = some m →
      ((0 < m.copyCount ∨ ∃ r ∈ s.reels, r.isActive = false ∧ leAt body 0 4 ∈ r.copyMedia) →
        exec (.mediumRemove h) s = .next ((s.popOrder h).answer h 2 tag (.refused .inUse []))) ∧
      (m.copyCount = 0 → (∀ r ∈ s.reels, r.isActive = false → leAt body 0 4 ∉ r.copyMedia) →
        exec (.mediumRemove h) s = .next (({ s.popOrder h with
          media := s.media.filter fun (n : Medium) => n.id != leAt body 0 4 }).answer h 2 tag (.ok [])))) ∧
  ∀ (h : Head) (tag : Half) (body : List Byte) (s : State),
    (s.takes h 3 tag body →
      (∀ m, s.medium? (leAt body 0 4) = some m → exec (.mediumWithdraw h) s = .next (({ s.popOrder h with
        media := s.media.map fun (n : Medium) => if n.id = leAt body 0 4 then ({ n with withdrawnByHead := true } : Medium) else n }).answer
          h 3 tag (.ok (Medium.body { m with withdrawnByHead := true })))) ∧
      (s.medium? (leAt body 0 4) = none →
        exec (.mediumWithdraw h) s = .next ((s.popOrder h).answer h 3 tag (.refused .unknownMedium [])))) ∧
    (s.takes h 4 tag body →
      (∀ m, s.medium? (leAt body 0 4) = some m → exec (.mediumReturn h) s = .next (({ s.popOrder h with
        media := s.media.map fun (n : Medium) => if n.id = leAt body 0 4 then ({ n with withdrawnByHead := false } : Medium) else n }).answer
          h 4 tag (.ok (Medium.body { m with withdrawnByHead := false })))) ∧
      (s.medium? (leAt body 0 4) = none →
        exec (.mediumReturn h) s = .next ((s.popOrder h).answer h 4 tag (.refused .unknownMedium [])))) ∧
    (s.takes h 5 tag body →
      (∀ m, s.medium? (leAt body 0 4) = some m → exec (.mediumResetPoints h) s = .next (({ s.popOrder h with
        media := s.media.map fun (n : Medium) => if n.id = leAt body 0 4 then ({ n with resetPending := true } : Medium) else n }).answer
          h 5 tag (.ok (Medium.body { m with resetPending := true })))) ∧
      (s.medium? (leAt body 0 4) = none →
        exec (.mediumResetPoints h) s = .next ((s.popOrder h).answer h 5 tag (.refused .unknownMedium []))))

/-- REEL_ADD: an acceptable registration is placed first-fit and begun, with a reply place reserved; the first-fit start
is the lowest start of a free run of that length, and there is none only when no run is free. REEL_ADD_COMPLETION: the
ADDING reel becomes ACTIVE with every segment record at its values of R12, its media's copy counts rise, and the reply goes
to the head that sent the order; for a reel that is not ADDING nothing happens (the model's choice,
notes/assumptions/1.md). -/
def Obligations.ReelAddResult : Prop :=
  ((∀ (h : Head) (tag : Half) (body : List Byte) (s : State) (start : Nat), s.takes h 6 tag body →
    (reelOperand h tag body).argumentsOk (leAt body 6 1) = true →
    (∀ id ∈ (reelOperand h tag body).copyMedia, ∃ m ∈ s.media, m.id = id) →
    (∀ r ∈ s.reels, r.acc ≠ leAt body 0 6) → s.reels.length < 4096 →
    s.firstFit (reelOperand h tag body).segCount = some start →
    exec (.reelAdd h) s = .next ((({ s.popOrder h with
      reels := s.reels ++ [{ reelOperand h tag body with firstIndex := start }] }).reserve h).settle)) ∧
  (∀ (s : State) (n start : Nat), s.firstFit n = some start →
    s.runFree start n = true ∧ ∀ b, b < start → s.runFree b n = false) ∧
  ∀ (s : State) (n : Nat), s.firstFit n = none → ∀ b, s.runFree b n = false) ∧
  ∀ (reel : Nat) (s : State),
    (∀ r h tag, s.reel? reel = some r → r.state = .adding h tag →
      exec (.reelAddCompletion reel) s = .next ((({ s with
        reels := s.reels.map (fun (q : Reel) => if q.acc = r.acc then ({ q with state := .active, segs := [] } : Reel) else q),
        media := s.media.map (fun (m : Medium) =>
          if r.copyMedia.contains m.id then ({ m with copyCount := m.copyCount + 1 } : Medium) else m) }).release h).answer h 6 tag
        (.ok (leBytes 4 r.firstIndex ++ leBytes 2 r.segCount ++ zeros 2)))) ∧
    ((∀ r, s.reel? reel = some r → r.state = .active) → exec (.reelAddCompletion reel) s = .next s)

/-- REEL_REMOVE: an unknown or ADDING reel is refused, one that a lane, an item, a dispute or a repair refers to is
refused with IN_USE, else the record goes and its media's copy counts fall. -/
def Obligations.ReelRemoveResult : Prop :=
  ∀ (h : Head) (tag : Half) (body : List Byte) (s : State), s.takes h 7 tag body →
    (s.activeReel? (leAt body 0 6) = none →
      exec (.reelRemove h) s = .next ((s.popOrder h).answer h 7 tag (.refused .unknownReel []))) ∧
    ∀ r, s.activeReel? (leAt body 0 6) = some r →
      (((∃ n l, s.lane n = some l ∧ l.target.reel = leAt body 0 6) ∨
          (∃ i ∈ s.queue.items, i.target.reel = leAt body 0 6) ∨ (∃ d ∈ s.disputes, d.seg.reel = leAt body 0 6) ∨
          ∃ p ∈ s.repairs, p.target.reel = leAt body 0 6) →
        exec (.reelRemove h) s = .next ((s.popOrder h).answer h 7 tag (.refused .inUse []))) ∧
      ((∀ n l, s.lane n = some l → l.target.reel ≠ leAt body 0 6) →
          (∀ i ∈ s.queue.items, i.target.reel ≠ leAt body 0 6) → (∀ d ∈ s.disputes, d.seg.reel ≠ leAt body 0 6) →
          (∀ p ∈ s.repairs, p.target.reel ≠ leAt body 0 6) →
        exec (.reelRemove h) s = .next (({ s.popOrder h with
          reels := s.reels.filter fun (q : Reel) => q.acc != leAt body 0 6,
          media := s.media.map fun (m : Medium) =>
            if r.copyMedia.contains m.id then ({ m with copyCount := m.copyCount - 1 } : Medium) else m }).answer h 7 tag (.ok [])))

/-- REFERENCE_LOAD: a first load sets the reference and the list and no copy record; a replacement also takes every copy
record to UNVERIFIED, day 0 and clear marks; a present reference without the replace flag refuses with PRESENT. -/
def Obligations.ReferenceLoadResult : Prop :=
  ∀ (h : Head) (tag : Half) (body : List Byte) (s : State) (r : Reel), s.takes h 8 tag body →
    leAt body 16 1 ≤ 1 → s.checkSeg (segOperand body) = .ok r →
    (leAt body 17 1 = 0 ∨ leAt body 17 1 = r.frameCount (leAt body 6 2)) →
    ((s.seg (segOperand body)).reference = none →
      exec (.referenceLoad h) s = .next (((s.popOrder h).modSeg (segOperand body) fun q => { q with
        reference := some ⟨BitVec.ofNat 64 (leAt body 8 8), .loaded⟩,
        frameList := if leAt body 17 1 = 0 then none else some (digestsAt body 24 (leAt body 17 1)) }).answer h 8 tag
          (.ok []))) ∧
    ((s.seg (segOperand body)).reference ≠ none → leAt body 16 1 = 0 →
      exec (.referenceLoad h) s = .next ((s.popOrder h).answer h 8 tag (.refused .present []))) ∧
    ((s.seg (segOperand body)).reference ≠ none → leAt body 16 1 = 1 →
      s.refersTo (fun q => q == segOperand body) = true →
      exec (.referenceLoad h) s = .next ((s.popOrder h).answer h 8 tag (.refused .inUse []))) ∧
    ((s.seg (segOperand body)).reference ≠ none → leAt body 16 1 = 1 →
      s.refersTo (fun q => q == segOperand body) = false →
      exec (.referenceLoad h) s = .next (((s.popOrder h).modSeg (segOperand body) fun q => {
        reference := some ⟨BitVec.ofNat 64 (leAt body 8 8), .loaded⟩,
        frameList := if leAt body 17 1 = 0 then none else some (digestsAt body 24 (leAt body 17 1)),
        copies := q.copies.map fun c =>
          { c with trust := .unverified, lastDay := 0, deferred := false, exhausted := false } }).answer h 8 tag (.ok [])))

/-- SEGMENT_READ: it answers with the segment record and changes no state but the hand-over; the record is 96 bytes and 8
for each frame digest. -/
def Obligations.SegmentReadResult : Prop :=
  ∀ (h : Head) (tag : Half) (body : List Byte) (s : State), s.takes h 9 tag body →
    (∀ e, s.checkSeg (segOperand body) = .error e →
      exec (.segmentRead h) s = .next ((s.popOrder h).answer h 9 tag (.refused e []))) ∧
    ∀ r, s.checkSeg (segOperand body) = .ok r →
      exec (.segmentRead h) s = .next ((s.popOrder h).answer h 9 tag (.ok (s.segmentBody (segOperand body) r))) ∧
      (s.segmentBody (segOperand body) r).length = 96 + 8 * (((s.seg (segOperand body)).frameList).getD []).length

/-- COPY_SELECT: the answer is a candidate of the lowest tier, and the lowest copy index within it; with no candidate it
is NO_COPY with the first cause that holds; no state changes but the hand-over. -/
def Obligations.CopySelectResult : Prop :=
  ∀ (h : Head) (tag : Half) (body : List Byte) (s : State) (r : Reel), s.takes h 10 tag body →
    (leAt body 8 1 = 255 → s.checkSeg (segOperand body) = .ok r) →
    (leAt body 8 1 ≠ 255 → s.checkCopy ((segOperand body).copy (leAt body 8 1)) = .ok r) →
    (∀ c ∈ s.copiesOf (segOperand body), ∀ tier, (leAt body 8 1 = 255 ∨ c.copy ≠ leAt body 8 1) →
      tierOf (s.copy c).trust (s.copyHealth c) = some tier →
      (∀ d ∈ s.copiesOf (segOperand body), ∀ other, (leAt body 8 1 = 255 ∨ d.copy ≠ leAt body 8 1) →
        tierOf (s.copy d).trust (s.copyHealth d) = some other → tier < other ∨ tier = other ∧ c.copy ≤ d.copy) →
      exec (.copySelect h) s = .next ((s.popOrder h).answer h 10 tag (.ok (leBytes 1 c.copy ++
        leBytes 1 (s.copy c).trust.code ++ leBytes 1 tier ++ leBytes 1 (s.copyHealth c).rank ++
        leBytes 4 (s.mediumOf c))))) ∧
    ((∀ d ∈ s.copiesOf (segOperand body), (leAt body 8 1 = 255 ∨ d.copy ≠ leAt body 8 1) →
        tierOf (s.copy d).trust (s.copyHealth d) = none) →
      ∃ cause, exec (.copySelect h) s = .next ((s.popOrder h).answer h 10 tag (.noCopy cause)) ∧
        (cause = .lost ↔ s.isLost (segOperand body) = true) ∧
        (cause = .withdrawn ↔ s.isLost (segOperand body) = false ∧
          (∃ d ∈ s.copiesOf (segOperand body), (leAt body 8 1 = 255 ∨ d.copy ≠ leAt body 8 1) ∧
            (s.copy d).trust ≠ .bad ∧ (s.copy d).trust ≠ .repairing) ∧
          ∀ d ∈ s.copiesOf (segOperand body), (leAt body 8 1 = 255 ∨ d.copy ≠ leAt body 8 1) →
            (s.copy d).trust ≠ .bad → (s.copy d).trust ≠ .repairing → s.copyHealth d = .withdrawn))

/-! ### Lanes -/

/-- LANE_OPEN: the lowest FREE lane is taken with the context of R26, for a RESTORE or INGEST read of a named copy or for
an item CLAIMED by the head, which becomes BOUND; with no FREE lane the order is refused and the item stays. LANE_FEED: an
acceptable feed makes the lane DIGESTING with its stall timer stopped and reserves a reply place; a feed at another offset,
or past the expected length, is refused and leaves the lane as it was. -/
def Obligations.LaneOpenAndFeed : Prop :=
  (∀ (h : Head) (tag : Half) (body : List Byte) (s : State), s.takes h 16 tag body →
    (∀ (purpose : Purpose) (r : Reel) (n : Nat), Purpose.ofCode (leAt body 0 1) = some purpose → purpose ≠ .item →
      s.checkCopy ⟨leAt body 8 6, leAt body 14 2, leAt body 4 1⟩ = .ok r →
      (purpose = .restore → s.refDigest ⟨leAt body 8 6, leAt body 14 2⟩ ≠ none) →
      n < 12 → s.lane n = none → (∀ m, m < n → s.lane m ≠ none) →
      exec (.laneOpen h) s = .next (((s.popOrder h).setLane n (some (LaneCtx.opened h purpose none
        ⟨leAt body 8 6, leAt body 14 2, leAt body 4 1⟩ (r.byteLength (leAt body 14 2)) s.limits.stall))).answer h 16 tag
        (.ok (leBytes 1 n ++ zeros 3 ++ leBytes 4 (r.byteLength (leAt body 14 2)) ++ leBytes 4 r.frameSize ++
          leBytes 4 (r.firstFrame (leAt body 14 2)) ++ leBytes 1 (r.frameCount (leAt body 14 2)) ++ zeros 3)))) ∧
    (∀ (it : Item) (limit : Nat) (r : Reel) (n : Nat), leAt body 0 1 = 0 → s.item? (leAt body 2 2) = some it →
      it.state = .claimed h limit → s.reel? it.target.reel = some r →
      n < 12 → s.lane n = none → (∀ m, m < n → s.lane m ≠ none) →
      exec (.laneOpen h) s = .next ((((s.popOrder h).modItem it.tag fun i =>
        { i with state := .bound n, everBound := true }).setLane n (some (LaneCtx.opened h .item (some it.tag) it.target
          (r.byteLength it.target.segment) s.limits.stall))).answer h 16 tag
        (.ok (leBytes 1 n ++ zeros 3 ++ leBytes 4 (r.byteLength it.target.segment) ++ leBytes 4 r.frameSize ++
          leBytes 4 (r.firstFrame it.target.segment) ++ leBytes 1 (r.frameCount it.target.segment) ++ zeros 3)))) ∧
    ∀ (it : Item) (limit : Nat) (r : Reel), leAt body 0 1 = 0 → s.item? (leAt body 2 2) = some it →
      it.state = .claimed h limit → s.reel? it.target.reel = some r → (∀ n, n < 12 → s.lane n ≠ none) →
      exec (.laneOpen h) s = .next ((s.popOrder h).answer h 16 tag (.refused .noLane []))) ∧
  ∀ (h : Head) (tag : Half) (body : List Byte) (s : State) (l : LaneCtx) (limit : Nat), s.takes h 17 tag body →
    leAt body 0 1 < 12 → s.lane (leAt body 0 1) = some l → l.owner = h → l.state = .openFor limit →
    1 ≤ leAt body 4 4 → leAt body 4 4 ≤ 1048576 →
    (leAt body 8 4 = l.bytesTaken → leAt body 8 4 + leAt body 4 4 ≤ l.expected →
      exec (.laneFeed h) s = .next ((((s.popOrder h).setLane (leAt body 0 1)
        (some { l with state := .digesting (leAt body 4 4) tag })).reserve h).settle)) ∧
    (leAt body 8 4 ≠ l.bytesTaken →
      exec (.laneFeed h) s = .next ((s.popOrder h).answer h 17 tag
        (.refused .offsetMismatch (leBytes 4 l.bytesTaken)))) ∧
    (leAt body 8 4 = l.bytesTaken → l.expected < leAt body 8 4 + leAt body 4 4 →
      exec (.laneFeed h) s = .next ((s.popOrder h).answer h 17 tag (.refused .tooLong [])))

/-- LANE_FEED_COMPLETION that completes a RESTORE or INGEST lane. With the window-conflict flag set, or in a RESTORE lane
without a reference, the read is INCONCLUSIVE: no observation, routing NOT_USED, trust and disputes as they were. An INGEST
lane without a reference LEARNS: its digest and its frame digests become the segment's, and the copy is GOOD. Else the read
MATCHes the reference or MISMATCHes it, a MATCH with a nonzero mask posts FRAME_LIST_SUSPECT, and where no entry of the
segment COLLECTS the result goes to the plain rules. In each case the bytes are charged, the lane is DONE with its outcome
and the reply is posted. Last, the plain rules themselves (R51, R52, R55, R56; MismatchOpensDispute has R53 and R54). The MATCH of
an UNVERIFIED or GOOD copy, every frame agreeing and no dispute on its segment, stands first, in full: the copy is GOOD with
today's day, and the lane's report says so. -/
def Obligations.FeedCompletionJudges : Prop :=
  (∀ (n : Nat) (s : State) (l l1 : LaneCtx) (r : Reel) (len : Nat) (tag : Half) (d : Digest), n < 12 →
    s.lane n = some l → l.state = .digesting len tag → l.bytesTaken + len = l.expected → l.purpose ≠ .item →
    l.itemTag = none → l.conflict = false → s.reel? l.target.reel = some r →
    l1 = l.takeBytes r.frameSize (s.seg l.target.seg).frameList (Memory.load s.windows (n * 1048576) len) →
    d = crcFinal ((Memory.load s.windows (n * 1048576) len).foldl crcByte l.segCrc) →
    s.refDigest l.target.seg = some d → l1.badMask = 0#64 → s.dispute? l.target.seg = none →
    ((s.copy l.target).trust = .unverified ∨ (s.copy l.target).trust = .good) →
    l.target.copy < (s.seg l.target.seg).copies.length →
    exec (.laneFeedCompletion n) s = .next ((((s.setGood l.target s.today).chargeCredit (chargeOf l.expected)).setLane n
      (some { l1 with
        state := .done, endReason := some .completed, result := some .matched, observed := some d,
        routing := some .plain, trustAfter := some .good })).wakeRoom.release l.owner |>.answer l.owner 17 tag
          (.ok (leBytes 4 l.expected ++ leBytes 1 3 ++ zeros 3)))) ∧
  (∀ (n : Nat) (s : State) (l l1 : LaneCtx) (tag : Half) (d : Digest), s.completes n l l1 tag d → l.purpose ≠ .item →
    l.itemTag = none →
    ((l.conflict = true ∨ l.purpose = .restore ∧ s.refDigest l.target.seg = none) →
      exec (.laneFeedCompletion n) s =
        .next ((s.chargeCredit (chargeOf l.expected)).readDone n l1 tag .inconclusive none .notUsed)) ∧
    (l.conflict = false → l.purpose = .ingest → s.refDigest l.target.seg = none → s.dispute? l.target.seg = none →
      ((s.copy l.target).trust = .unverified ∨ (s.copy l.target).trust = .good) →
      exec (.laneFeedCompletion n) s = .next ((((s.modSeg l.target.seg fun r => { r with
        reference := some ⟨d, .learned⟩, frameList := some l1.frameDigests }).setGood l.target s.today).chargeCredit
          (chargeOf l.expected)).readDone n l1 tag .learned (some d) .plain)) ∧
    ∀ (v : State) (ref : Digest) (result : Result), l.conflict = false → s.refDigest l.target.seg = some ref →
      result = (if d = ref then .matched else .mismatch) → s.readyToRoute n l l1 d v → s.collecting? l.target.seg = none →
      exec (.laneFeedCompletion n) s = .next (((v.plain l.target result ⟨d, l1.badMask, l1.compared⟩ n).chargeCredit
        (chargeOf l.expected)).readDone n l1 tag result (some d) .plain)) ∧
  ∀ (s : State) (c : CopyId) (o : Obs) (lane : Nat),
    (s.awaiting? c.seg = none → ((s.copy c).trust = .unverified ∨ (s.copy c).trust = .good) →
      s.plain c .matched o lane = s.setGood c s.today) ∧
    (s.awaiting? c.seg = none → (s.copy c).trust = .suspect → (s.copy c).deferred = true →
      s.plain c .matched o lane = ((s.setGood c s.today).post ⟨.transientRead, false, s.day.getD 0, some c.reel,
        some c.segment, some c.copy, some (s.mediumOf c), some o.digest, none, lane⟩).chargeMedium c 1) ∧
    (s.awaiting? c.seg = none → ((s.copy c).trust = .bad ∨ (s.copy c).trust = .repairing) →
      ∀ result, s.plain c result o lane = s) ∧
    ∀ a, s.awaiting? c.seg = some a → s.plain c .matched o lane = s ∧
      s.plain c .mismatch o lane = s.post ⟨.copyMismatch, true, s.day.getD 0, some c.reel, some c.segment, some c.copy,
        some (s.mediumOf c), some o.digest, if o.compared then some o.mask else none, lane⟩

/-- LANE_FEED_COMPLETION short of the segment's end: the lane takes the feed's bytes from its window in order, is OPEN again
under the stall limit in force, and the reply is posted with the bytes taken so far. What the taking of the bytes does: the
bytes are taken one after the other; each advances both registers and the bytes taken; and where it completes its frame,
the frame CRC is finalised into the frame's digest, which is appended and compared against the frame digest list as it
stands, the frame CRC restarts and the frame index advances. -/
def Obligations.FeedCompletionContinues : Prop :=
  (∀ (n : Nat) (s : State) (l l1 : LaneCtx) (r : Reel) (len : Nat) (tag : Half), n < 12 → s.lane n = some l →
    l.state = .digesting len tag → l.bytesTaken + len < l.expected → s.reel? l.target.reel = some r →
    l1 = l.takeBytes r.frameSize (s.seg l.target.seg).frameList (Memory.load s.windows (n * 1048576) len) →
    exec (.laneFeedCompletion n) s = .next (((s.setLane n (some { l1 with
      state := .openFor s.limits.stall })).wakeRoom.release l.owner).answer l.owner 17 tag
        (.ok (leBytes 4 (l.bytesTaken + len) ++ leBytes 1 1 ++ zeros 3)))) ∧
  (∀ (size : Nat) (list : Option (List Digest)) (l : LaneCtx) (bytes : List Byte),
    l.takeBytes size list bytes = bytes.foldl (LaneCtx.takeByte size list) l ∧
    (l.takeBytes size list bytes).bytesTaken = l.bytesTaken + bytes.length ∧
    (l.takeBytes size list bytes).segCrc = bytes.foldl crcByte l.segCrc) ∧
  ∀ (size : Nat) (list : Option (List Digest)) (l : LaneCtx) (b : Byte),
    (l.bytesTaken + 1 ≠ (l.frameIndex + 1) * size → l.takeByte size list b = { l with
      segCrc := crcByte l.segCrc b, frameCrc := crcByte l.frameCrc b, bytesTaken := l.bytesTaken + 1 }) ∧
    ∀ d, d = crcFinal (crcByte l.frameCrc b) → l.bytesTaken + 1 = (l.frameIndex + 1) * size →
      l.takeByte size list b = { l with
        segCrc := crcByte l.segCrc b, frameCrc := 0xFFFFFFFFFFFFFFFF#64, bytesTaken := l.bytesTaken + 1,
        frameDigests := l.frameDigests ++ [d], frameIndex := l.frameIndex + 1,
        compared := l.compared && list.isSome,
        badMask := match list with
          | none => l.badMask
          | some ds => if ds[l.frameIndex]? = some d then l.badMask else l.badMask ||| BitVec.ofNat 64 (2 ^ l.frameIndex) }

/-- LANE_END, LANE_ABORT and the stall timer's expiry end a RESTORE or INGEST lane without a judgement: DONE with its end
reason and no result, routing NOT_USED, the bytes taken charged; LANE_ABORT of a DIGESTING lane also releases the feed's
reply place. Each of them of an ITEM lane whose item has not lost its purpose and has a requeue count below 3 (ItemsThatGo has
the others): the lane is DONE with its end reason and without a result, nothing is charged, and the item is QUEUED again with
its requeue count raised, ahead of every other item of its class (that it also stands ahead of CLAIMED and BOUND ones is the
model's choice, notes/assumptions/8.md). -/
def Obligations.LaneEndsUnjudged : Prop :=
  (∀ (h : Head) (tag : Half) (body : List Byte) (s : State) (n : Nat) (l : LaneCtx), n < 12 → s.lane n = some l →
    l.purpose ≠ .item → l.itemTag = none →
    (∀ limit, s.takes h 18 tag body → leAt body 0 1 = n → l.owner = h → l.state = .openFor limit →
      exec (.laneEnd h) s = .next ((((s.popOrder h).chargeCredit (chargeOf l.bytesTaken)).setLane n (some { l with
        state := .done, endReason := some .short, result := none, observed := none, routing := some .notUsed,
        trustAfter := some (s.copy l.target).trust })).wakeRoom.answer h 18 tag (.ok []))) ∧
    (∀ limit, s.takes h 19 tag body → leAt body 0 1 = n → l.owner = h → l.state = .openFor limit →
      exec (.laneAbort h) s = .next ((((s.popOrder h).chargeCredit (chargeOf l.bytesTaken)).setLane n (some { l with
        state := .done, endReason := some .aborted, result := none, observed := none, routing := some .notUsed,
        trustAfter := some (s.copy l.target).trust })).wakeRoom.answer h 19 tag (.ok []))) ∧
    (∀ len t, s.takes h 19 tag body → leAt body 0 1 = n → l.owner = h → l.state = .digesting len t →
      exec (.laneAbort h) s = .next (((((s.popOrder h).release h).chargeCredit (chargeOf l.bytesTaken)).setLane n
        (some { l with
          state := .done, endReason := some .aborted, result := none, observed := none, routing := some .notUsed,
          trustAfter := some (s.copy l.target).trust })).wakeRoom.answer h 19 tag (.ok []))) ∧
    ∀ limit, l.state = .openFor limit →
      exec (.stallTimerExpiry n) s = .next ((s.chargeCredit (chargeOf l.bytesTaken)).setLane n (some { l with
        state := .done, endReason := some .stalled, result := none, observed := none, routing := some .notUsed,
        trustAfter := some (s.copy l.target).trust })).wakeRoom.settle) ∧
  ∀ (s : State) (n : Nat) (l : LaneCtx) (it : Item) (ended : EndReason → State → State), n < 12 → s.lane n = some l →
    l.purpose = .item → l.itemTag = some it.tag → s.item? it.tag = some it → ¬s.lostPurpose it → it.requeue < 3 →
    (s.queue.items.map Item.tag).Nodup →
    ended = (fun reason t => (t.setLane n (some { l with
      state := .done, endReason := some reason, result := none, observed := none, routing := some .notUsed,
      trustAfter := some (s.copy l.target).trust })).wakeRoom) →
    ∃ items,
      (∀ cls, items.filter (fun i => i.cls = cls) =
        (if it.cls = cls then [{ it with state := .queued, requeue := it.requeue + 1, source := none }] else []) ++
          s.queue.items.filter fun i => i.cls = cls && i.tag != it.tag) ∧
      (∀ tag body limit, s.takes l.owner 18 tag body → leAt body 0 1 = n → l.state = .openFor limit →
        exec (.laneEnd l.owner) s = .next ((ended .short { s.popOrder l.owner with
          queue := { s.queue with items := items } }).answer l.owner 18 tag (.ok []))) ∧
      (∀ tag body limit, s.takes l.owner 19 tag body → leAt body 0 1 = n → l.state = .openFor limit →
        exec (.laneAbort l.owner) s = .next ((ended .aborted { s.popOrder l.owner with
          queue := { s.queue with items := items } }).answer l.owner 19 tag (.ok []))) ∧
      (∀ tag body len feed, s.takes l.owner 19 tag body → leAt body 0 1 = n → l.state = .digesting len feed →
        exec (.laneAbort l.owner) s = .next ((ended .aborted { (s.popOrder l.owner).release l.owner with
          queue := { s.queue with items := items } }).answer l.owner 19 tag (.ok []))) ∧
      ∀ limit, l.state = .openFor limit →
        exec (.stallTimerExpiry n) s = .next (ended .stalled { s with
          queue := { s.queue with items := items } }).settle

/-- LANE_FEED_COMPLETION that completes an ITEM lane. INCONCLUSIVE: the item is QUEUED again at the front of its class with
its requeue count raised (its place before CLAIMED and BOUND ones is the model's choice, notes/assumptions/8.md). Else the
item leaves the queue. A SCRUB or CONFIRM item's result goes to the plain rules where no entry of the segment COLLECTS. A
REPAIR item's result is its entry's read-back: a MATCH makes the target GOOD, posts REPAIRED and removes the entry; a
MISMATCH at attempt 1 or 2 raises the attempt, replaces the mask, and gives the entry a new item or, with 40 items, a
waiting start; a MISMATCH at attempt 3 makes the target BAD with the exhausted mark, posts REPAIR_FAILED, charges its medium
8 points and removes the entry. Nothing is charged to the Pacer by the lane itself. -/
def Obligations.ItemFeedCompletions : Prop :=
  ∀ (n : Nat) (s v : State) (l l1 : LaneCtx) (tag : Half) (d : Digest) (it : Item), s.completes n l l1 tag d →
    l.purpose = .item → l.itemTag = some it.tag → s.item? it.tag = some it →
    (l.conflict = true → s.isPurposeless it = false → it.requeue < 3 → (s.queue.items.map Item.tag).Nodup →
      ∃ items, exec (.laneFeedCompletion n) s = .next (({ s with queue := { s.queue with items := items } }).readDone
          n l1 tag .inconclusive none .notUsed) ∧
        ∀ cls, items.filter (fun i => i.cls = cls) =
          (if it.cls = cls then [{ it with state := .queued, requeue := it.requeue + 1, source := none }] else []) ++
            s.queue.items.filter fun i => i.cls = cls && i.tag != it.tag) ∧
    ∀ (ref : Digest) (result : Result), l.conflict = false → s.refDigest l.target.seg = some ref →
      result = (if d = ref then .matched else .mismatch) → s.readyToRoute n l l1 d v →
      (it.kind ≠ .repair → s.collecting? l.target.seg = none →
        exec (.laneFeedCompletion n) s = .next ((v.plain l.target result ⟨d, l1.badMask, l1.compared⟩ n).readDone
          n l1 tag result (some d) .plain)) ∧
      ∀ q, it.kind = .repair → s.repair? l.target = some q →
        (d = ref → exec (.laneFeedCompletion n) s = .next ((((v.setGood l.target s.today).post ⟨.repaired, false,
          s.day.getD 0, some l.target.reel, some l.target.segment, some l.target.copy, some (s.mediumOf l.target), some d,
          some q.mask, q.attempt⟩).removeRepair l.target).readDone n l1 tag .matched (some d) .plain)) ∧
        (d ≠ ref → q.attempt < 3 → ∀ w, w = (v.modRepair l.target fun e => { e with
            attempt := q.attempt + 1, state := .waitingPlace,
            mask := if l1.compared = true ∧ l1.badMask ≠ 0#64 then l1.badMask
              else fullMask (s.frameCount l.target.seg) }) →
          (v.queue.items.length < 40 → exec (.laneFeedCompletion n) s = .next ((w.issue (.repair l.target)).readDone
            n l1 tag .mismatch (some d) .plain)) ∧
          (40 ≤ v.queue.items.length → exec (.laneFeedCompletion n) s = .next
            ((w.startWaiting (.repair l.target)).readDone n l1 tag .mismatch (some d) .plain))) ∧
        (d ≠ ref → 3 ≤ q.attempt → exec (.laneFeedCompletion n) s = .next ((((((
          (v.setTrust l.target .bad).setExhausted l.target true).post ⟨.repairFailed, true, s.day.getD 0,
            some l.target.reel, some l.target.segment, some l.target.copy, some (s.mediumOf l.target), some d,
            if l1.compared then some l1.badMask else none, 3⟩).chargeMedium l.target 8).removeRepair l.target).postIfLost
              l.target.seg).readDone n l1 tag .mismatch (some d) .plain))

/-- LANE_REPORT of a DONE lane answers with its 40-byte report and frees the lane; a lane still OPEN or DIGESTING is
refused with BAD_STATE, a lane of the other head or a FREE one with NOT_OWNER. -/
def Obligations.LaneReportResult : Prop :=
  ∀ (h : Head) (tag : Half) (body : List Byte) (s : State), s.takes h 20 tag body → leAt body 0 1 < 12 →
    (∀ l, s.lane (leAt body 0 1) = some l → l.owner = h → l.state = .done →
      exec (.laneReport h) s = .next (((s.popOrder h).setLane (leAt body 0 1) none).answer h 20 tag
        (.ok (l.reportBody (leAt body 0 1)))) ∧ (l.reportBody (leAt body 0 1)).length = 40) ∧
    (∀ l, s.lane (leAt body 0 1) = some l → l.owner = h → l.state ≠ .done →
      exec (.laneReport h) s = .next ((s.popOrder h).answer h 20 tag (.refused .badState []))) ∧
    ((∀ l, s.lane (leAt body 0 1) = some l → l.owner ≠ h) →
      exec (.laneReport h) s = .next ((s.popOrder h).answer h 20 tag (.refused .notOwner [])))

/-! ### Work items -/

/-- ITEM_CLAIM walks the QUEUED items in list order. An item whose medium is WITHDRAWN, or a REPAIR item without a source,
is turned away: withdrawn, and its owner acts, before the next item is looked at. The first QUEUED item of the list as
those left it whose medium is in service, and for a REPAIR item whose source is chosen, becomes CLAIMED by the head under
the claim limit in force, and the reply carries it; when no QUEUED item is left, the reply is EMPTY. -/
def Obligations.ItemClaimResult : Prop :=
  ∀ (h : Head) (tag : Half) (s u : State) (gone : List Item), s.takes h 24 tag [] →
    (s.popOrder h).turnsAwayAll gone u →
    (∀ (it : Item) (source : Option Nat) (r : Reel), u.queue.items.find? Item.isQueued = some it →
      u.copyHealth it.target ≠ .withdrawn → (it.kind ≠ .repair → source = none) →
      (it.kind = .repair → source = u.source? it.target ∧ source ≠ none) → u.reel? it.target.reel = some r →
      exec (.itemClaim h) s = .next ((u.modItem it.tag fun _ =>
        { it with state := .claimed h u.limits.claim, source := source }).wakeRoom.answer h 24 tag
        (.ok (u.claimBody { it with state := .claimed h u.limits.claim, source := source } r)))) ∧
    ((∀ i ∈ u.queue.items, i.isQueued = false) →
      exec (.itemClaim h) s = .next (u.wakeRoom.answer h 24 tag .empty))

/-- ITEM_RETURN: RETRY raises the requeue count and puts the item, QUEUED again, behind every item of its class;
UNREADABLE withdraws the item, with its refund, and charges its medium 2 points, and then its owner acts (R162): the slot of
a CONFIRM or SCRUB item becomes UNREAD and the entry tests for its decision (R73); the entry of a REPAIR item is abandoned,
its target BAD and REPAIR_ABANDONED posted with cause 3 (R103, RepairRequests); an item that serves no slot or entry is
just gone. A tag that names no item claimed by the head is refused. CLAIM_TIMER_EXPIRY: a lapsed item returns to QUEUED with its requeue count raised, ahead of every
other item of its class (that it also stands ahead of CLAIMED and BOUND ones is the model's choice,
notes/assumptions/8.md), every other item keeping its order within its class; where no CLAIMED item has the tag nothing
happens (notes/assumptions/1.md). -/
def Obligations.ItemReturnAndLapse : Prop :=
  (∀ (h : Head) (tag : Half) (body : List Byte) (s : State), s.takes h 25 tag body →
    (∀ (it : Item) (limit : Nat), leAt body 2 1 = 1 → s.item? (leAt body 0 2) = some it → it.state = .claimed h limit →
      s.isPurposeless it = false → it.requeue < 3 →
      exec (.itemReturn h) s = .next (({ s.popOrder h with queue := { s.queue with
        items := (s.queue.items.filter fun (i : Item) => i.tag != it.tag && i.cls.rank ≤ it.cls.rank) ++
          ({ it with state := .queued, requeue := it.requeue + 1, source := none } : Item) ::
          (s.queue.items.filter fun (i : Item) => i.tag != it.tag && it.cls.rank < i.cls.rank) } }).wakeRoom.answer h 25 tag (.ok []))) ∧
    (∀ (it : Item) (limit : Nat), leAt body 2 1 = 2 → s.item? (leAt body 0 2) = some it → it.state = .claimed h limit →
      it.kind = .scrub → s.dispute? it.target.seg = none → s.repair? it.target = none →
      exec (.itemReturn h) s = .next (((((s.popOrder h).withdrawItem it).chargeMedium it.target 2).wakeRoom).answer
        h 25 tag (.ok []))) ∧
    (∀ (it : Item) (limit : Nat), leAt body 2 1 = 2 → s.item? (leAt body 0 2) = some it → it.state = .claimed h limit →
      ∃ t, (((s.popOrder h).withdrawItem it).chargeMedium it.target 2).ownerActs it 3 t ∧
        exec (.itemReturn h) s = .next (t.wakeRoom.answer h 25 tag (.ok []))) ∧
    ((leAt body 2 1 = 0 ∨ 2 < leAt body 2 1) →
      exec (.itemReturn h) s = .next ((s.popOrder h).answer h 25 tag (.refused .badArgument []))) ∧
    ((leAt body 2 1 = 1 ∨ leAt body 2 1 = 2) →
      (∀ it, s.item? (leAt body 0 2) = some it → it.isClaimedBy h = false) →
      exec (.itemReturn h) s = .next ((s.popOrder h).answer h 25 tag (.refused .notClaimed [])))) ∧
  ∀ (tag : Nat) (s : State),
    (∀ it h limit, s.item? tag = some it → it.state = .claimed h limit → s.isPurposeless it = false → it.requeue < 3 →
      (s.queue.items.map Item.tag).Nodup →
      ∃ items, exec (.claimTimerExpiry tag) s = .next ({ s with queue := { s.queue with items := items } }).wakeRoom.settle ∧
        ∀ cls, items.filter (fun i => i.cls = cls) =
          (if it.cls = cls then [{ it with state := .queued, requeue := it.requeue + 1, source := none }] else []) ++
            s.queue.items.filter fun i => i.cls = cls && i.tag != tag) ∧
    ((∀ it, s.item? tag = some it → it.isQueued = true ∨ ∃ n, it.state = .bound n) →
      exec (.claimTimerExpiry tag) s = .next s)

/-- What a charge does to a medium (R171, R172, R179). One that is saturated is not counted. Else its points rise by the
weight, up to 65535 with the saturated mark when the sum is greater; and every step of the ladder from its position on
whose threshold the points have reached is passed, in order: the ladder state becomes the higher of itself and the step's,
the position rises by 1, and one MEDIUM_STEP is posted, of the step's class, with the points, the step's index and the
ladder state after it. Nothing else changes. -/
def Obligations.MediumCharge : Prop :=
  ∀ (s : State) (c : CopyId) (w : Nat) (m : Medium), s.medium? (s.mediumOf c) = some m →
    (m.saturated = true → s.chargeMedium c w = s) ∧
    ∀ (points : Nat) (saturated : Bool), m.saturated = false →
      (m.points + w ≤ 65535 ∧ points = m.points + w ∧ saturated = false ∨
        65535 < m.points + w ∧ points = 65535 ∧ saturated = true) →
      ∃ passed : List (LadderStep × Health),
        passed.map Prod.fst = (s.ladder.drop m.position).take passed.length ∧
        (∀ p ∈ passed, p.1.threshold ≤ points) ∧
        (∀ next, s.ladder[m.position + passed.length]? = some next → points < next.threshold) ∧
        (∀ (i : Nat) (p : LadderStep × Health) (before : Health), passed[i]? = some p → (m.ladderState :: passed.map Prod.snd)[i]? = some before →
          p.2.rank = max before.rank p.1.state.rank) ∧
        s.chargeMedium c w = { s with
          media := s.media.map fun (q : Medium) => if q.id = s.mediumOf c then ({ m with
            points := points, saturated := saturated, position := m.position + passed.length,
            ladderState := (passed.map Prod.snd).getLastD m.ladderState } : Medium) else q,
          fq := passed.zipIdx.foldl (fun q p => q.post ⟨.mediumStep, p.1.1.attention, s.day.getD 0, some c.reel,
            some c.segment, some c.copy, some (s.mediumOf c), none, none,
            points + 65536 * (m.position + p.2) + 524288 * p.1.2.rank⟩) s.fq }

/-- What the departure of an item does (R151), by withdrawal and by removal. The item leaves the list and its copy's work
item tag is ABSENT; a withdrawal gives the recorded charge back, up to the cap, exactly when the item was never bound
(R142), and wakes a walker that waits for credit when credit rises above 0 in WORK (R125, R139); then the waiting owners are
served. Serving: the oldest waiting owner gets its item while the queue holds fewer than 40, and then the next (R152). An
owner's item is a CONFIRM item for a slot, which becomes ISSUED (R69), or a REPAIR item with its entry's mask, which becomes
ISSUED (R98). A new item takes the next tag, stands behind its class, sets its copy's tag and is charged, down to the floor
(R140, R141, R149). A repair entry whose leftover item is gone takes a waiting start, and the waiting owners are served
(R97). A walker that waits for a place goes on when the queue holds fewer than 32 items (R125). -/
def Obligations.ItemDepartures : Prop :=
  (∀ (s out back : State) (it : Item) (c : Int),
    out = ({ s with queue := { s.queue with
      items := s.queue.items.filter fun (i : Item) => i.tag != it.tag } }).setItemTag it.target none →
    c = min (s.pacer.credit + it.charge) (2 * (s.pacer.inForce.budget : Int)) →
    back = { out with
      pacer := { s.pacer with credit := c },
      walker := if s.walker.state = .waitCredit ∧ s.pacer.state = .work ∧ s.pacer.credit ≤ 0 ∧ 0 < c then
        { s.walker with state := .walking } else s.walker } →
    (out.copy it.target).itemTag = none ∧ (∀ k, k ≠ it.target → out.copy k = s.copy k) ∧
    (it.everBound = true → s.withdrawItem it = out.serve) ∧ (it.everBound = false → s.withdrawItem it = back.serve) ∧
    s.removeItem it = out.serve) ∧
  (∀ s : State,
    ((s.queue.waiters = [] ∨ 40 ≤ s.queue.items.length) → s.serve = s) ∧
    ∀ w ws, s.queue.waiters = w :: ws → s.queue.items.length < 40 →
      s.serve = (({ s with queue := { s.queue with waiters := ws } }).issue w.owner).serve) ∧
  (∀ (s : State) (c : CopyId),
    s.issue (.slot c) = (s.createItem .confirm .urgent c 0#64).setSlot c (.issued s.queue.nextTag) ∧
    ∀ r, s.repair? c = some r →
      s.issue (.repair c) = (s.createItem .repair .urgent c r.mask).modRepair c
        fun (q : Repair) => { q with state := .issued s.queue.nextTag }) ∧
  (∀ (s t : State) (kind : ItemKind) (cls : ItemClass) (c : CopyId) (mask : Mask), t = s.createItem kind cls c mask →
    t.queue = { s.queue with
      items := (s.queue.items.filter fun i => i.cls.rank ≤ cls.rank) ++
        (⟨s.queue.nextTag, kind, cls, c, chargeOf (s.byteLength c.seg), .queued, 0, false, mask, none⟩ : Item) ::
        (s.queue.items.filter fun i => cls.rank < i.cls.rank),
      lastTag := s.queue.nextTag } ∧
    t.pacer = { s.pacer with
      credit := max (s.pacer.credit - chargeOf (s.byteLength c.seg)) (-4 * (s.pacer.inForce.budget : Int)) } ∧
    (c.copy < (s.seg c.seg).copies.length → t.copy c = { s.copy c with itemTag := some s.queue.nextTag }) ∧
    (∀ k, k ≠ c → t.copy k = s.copy k) ∧
    t = { s with queue := t.queue, pacer := t.pacer, reels := t.reels }) ∧
  ∀ (s : State) (c : CopyId),
    (∀ r, s.repair? c = some r → r.state = .waitingPlace → s.isWaiting (.repair c) = false →
      s.leftoverGone c = ({ s with queue := { s.queue with
        waiters := s.queue.waiters ++ [(⟨s.queue.waitCount + 1, .repair c⟩ : Waiter)],
        waitCount := s.queue.waitCount + 1 } }).serve) ∧
    ((∀ r, s.repair? c = some r → r.state ≠ .waitingPlace ∨ s.isWaiting (.repair c) = true) → s.leftoverGone c = s) ∧
    s.wakeRoom = { s with walker := if s.walker.state = .waitRoom ∧ s.queue.items.length < 32 then
      { s.walker with state := .walking } else s.walker }

/-- The items that go where their requeue count was to be raised: at the lapse of a claim, at a RETRY return, and at an
unjudged end of a lane, by LANE_END, LANE_ABORT, a stall or an INCONCLUSIVE read. One that has lost its purpose is withdrawn
(R164). At the fourth raise the item is withdrawn, ITEM_ABANDONED is posted with cause 1, 2 or 3, and its owner acts (R163,
R166). `State.itemGone` and `State.ownerActs` say what that does. -/
def Obligations.ItemsThatGo : Prop :=
  ∀ (s : State) (it : Item), (s.lostPurpose it ∨ 3 ≤ it.requeue) → s.item? it.tag = some it →
    (∀ h limit, it.state = .claimed h limit →
      (∃ t, s.itemGone it 1 t ∧ exec (.claimTimerExpiry it.tag) s = .next t.wakeRoom.settle) ∧
      ∀ tag body, s.takes h 25 tag body → leAt body 0 2 = it.tag → leAt body 2 1 = 1 →
        ∃ t, (s.popOrder h).itemGone it 2 t ∧ exec (.itemReturn h) s = .next (t.wakeRoom.answer h 25 tag (.ok []))) ∧
    ∀ (n : Nat) (l : LaneCtx) (ended : EndReason → State → State), n < 12 → s.lane n = some l → l.purpose = .item →
      l.itemTag = some it.tag →
      ended = (fun reason t => (t.setLane n (some { l with
        state := .done, endReason := some reason, result := none, observed := none, routing := some .notUsed,
        trustAfter := some (t.copy l.target).trust })).wakeRoom) →
      (∀ tag body limit, s.takes l.owner 18 tag body → leAt body 0 1 = n → l.state = .openFor limit →
        ∃ t, (s.popOrder l.owner).itemGone it 3 t ∧
          exec (.laneEnd l.owner) s = .next ((ended .short t).answer l.owner 18 tag (.ok []))) ∧
      (∀ tag body limit, s.takes l.owner 19 tag body → leAt body 0 1 = n → l.state = .openFor limit →
        ∃ t, (s.popOrder l.owner).itemGone it 3 t ∧
          exec (.laneAbort l.owner) s = .next ((ended .aborted t).answer l.owner 19 tag (.ok []))) ∧
      (∀ tag body len feed, s.takes l.owner 19 tag body → leAt body 0 1 = n → l.state = .digesting len feed →
        ∃ t, ((s.popOrder l.owner).release l.owner).itemGone it 3 t ∧
          exec (.laneAbort l.owner) s = .next ((ended .aborted t).answer l.owner 19 tag (.ok []))) ∧
      (∀ limit, l.state = .openFor limit →
        ∃ t, s.itemGone it 3 t ∧ exec (.stallTimerExpiry n) s = .next (ended .stalled t).settle) ∧
      ∀ l1 tag d, s.completes n l l1 tag d → l.conflict = true →
        ∃ t, s.itemGone it 3 t ∧
          exec (.laneFeedCompletion n) s = .next (t.readDone n l1 tag .inconclusive none .notUsed)

/-! ### Disputes and repair -/

/-- LANE_FEED_COMPLETION whose judged result, of a RESTORE, INGEST, SCRUB or CONFIRM read, is routed to the segment's
COLLECTING entry: a WANTED slot is filled and stops waiting; an ISSUED slot is filled, by its own item or by another lane,
and then its own item is withdrawn if it is QUEUED and goes on if it is not; each time the entry tests for its decision. A
slot already OBSERVED discards the result, as SUPERSEDED (and gives up its tag) when the lane read the slot's own item and
as NOT_USED otherwise; so does, as NOT_USED, a slot that is UNREAD or NOT_WANTED. -/
def Obligations.DisputeTakesResults : Prop :=
  ∀ (n : Nat) (s v : State) (l l1 : LaneCtx) (tag : Half) (d ref : Digest) (result : Result) (e : Dispute) (st : Slot)
      (done : State → Routing → State) (o : Obs),
    s.completes n l l1 tag d → l.conflict = false → s.refDigest l.target.seg = some ref →
    result = (if d = ref then .matched else .mismatch) → s.readyToRoute n l l1 d v →
    (∀ it, l.itemTag.bind s.item? = some it → it.kind ≠ .repair) →
    v.collecting? l.target.seg = some e → e.slots[l.target.copy]? = some st → o = ⟨d, l1.badMask, l1.compared⟩ →
    done = (fun w routing => (if l.purpose = .item then w else w.chargeCredit (chargeOf l.expected)).readDone
      n l1 tag result (some d) routing) →
    (st = .wanted → exec (.laneFeedCompletion n) s = .next (done
      (((v.stopWaiting (.slot l.target)).setSlot l.target (.observed o n none)).testDecision l.target.seg) .dispute)) ∧
    (∀ t, st = .issued t → l.itemTag = some t → exec (.laneFeedCompletion n) s = .next (done
      ((v.setSlot l.target (.observed o n none)).testDecision l.target.seg) .dispute)) ∧
    (∀ t own, st = .issued t → l.itemTag ≠ some t → v.item? t = some own →
      (own.isQueued = true → exec (.laneFeedCompletion n) s = .next (done
        ((((v.setSlot l.target (.observed o n (some t))).withdrawItem own).setSlot l.target (.observed o n none)).testDecision
          l.target.seg) .dispute)) ∧
      (own.isQueued = false → exec (.laneFeedCompletion n) s = .next (done
        ((v.setSlot l.target (.observed o n (some t))).testDecision l.target.seg) .dispute))) ∧
    (∀ o' n' t, st = .observed o' n' (some t) → l.itemTag = some t → exec (.laneFeedCompletion n) s = .next (done
      (v.setSlot l.target (.observed o' n' none)) .superseded)) ∧
    ((st = .unread ∨ st = .notWanted ∨ ∃ o' n' t, st = .observed o' n' t ∧ (t = none ∨ l.itemTag ≠ t)) →
      exec (.laneFeedCompletion n) s = .next (done v .notUsed))

/-- A plain MISMATCH on an UNVERIFIED, GOOD or SUSPECT copy of a segment without a dispute (R53, R54, R67): the copy is
SUSPECT and COPY_MISMATCH is posted; with a place in the Dispute Table an entry is opened that COLLECTS under the confirm
limit in force, triggered by the copy, and the media, every reference and the parts outside the tables stand. The entry's
slots start WANTED for the trigger, and for a copy that is UNVERIFIED, GOOD or SUSPECT on a medium that is not WITHDRAWN,
and NOT_WANTED for any other copy; the WANTED slots are served in ascending copy index; then the trigger's dispute-deferred
mark is clear. Serving (R68, R69): a WANTED slot whose copy has an item that is not a REPAIR item takes it over, at the end
of class URGENT as a CONFIRM item; one without gets a new CONFIRM item while the queue holds fewer than 40, and else starts
waiting; any other slot is left alone. With the table full the copy carries the dispute-deferred mark, DISPUTE_DEFERRED is
posted as well, and nothing else changes. -/
def Obligations.MismatchOpensDispute : Prop :=
  (∀ (s : State) (c : CopyId) (o : Obs) (lane : Nat) (f : Finding), s.dispute? c.seg = none →
    (s.copy c).trust ≠ .bad → (s.copy c).trust ≠ .repairing → c.copy < (s.seg c.seg).copies.length →
    f = ⟨.copyMismatch, true, s.day.getD 0, some c.reel, some c.segment, some c.copy, some (s.mediumOf c), some o.digest,
      if o.compared then some o.mask else none, lane⟩ →
    ((s.plain c .mismatch o lane).copy c).trust = .suspect ∧ s.sameParts (s.plain c .mismatch o lane) ∧
    (s.plain c .mismatch o lane).media = s.media ∧
    (∀ g, ((s.plain c .mismatch o lane).seg g).reference = (s.seg g).reference) ∧
    (s.disputes.length < 24 → (s.plain c .mismatch o lane).fq = s.fq.post f ∧
      ((s.plain c .mismatch o lane).copy c).deferred = false ∧
      ∃ d, (s.plain c .mismatch o lane).dispute? c.seg = some d ∧ d.trigger = c.copy ∧
        d.phase = .collecting s.limits.confirm ∧ d.first = o ∧
        d.slots.length = (s.seg c.seg).copies.length) ∧
    (s.disputes.length < 24 → ∃ slots : List Slot, slots.length = (s.seg c.seg).copies.length ∧
      (∀ i st, slots[i]? = some st → (st = .wanted ↔ i = c.copy ∨
        ((s.copy (c.seg.copy i)).trust = .unverified ∨ (s.copy (c.seg.copy i)).trust = .good ∨
          (s.copy (c.seg.copy i)).trust = .suspect) ∧ s.copyHealth (c.seg.copy i) ≠ .withdrawn) ∧
        (st ≠ .wanted → st = .notWanted)) ∧
      s.plain c .mismatch o lane = (((List.range (s.seg c.seg).copies.length).map c.seg.copy).foldl State.serveSlot
        { s.setTrust c .suspect with
          fq := s.fq.post f,
          disputes := s.disputes ++ [⟨c.seg, c.copy, .collecting s.limits.confirm, o, slots, [], []⟩] }).setDeferred c
            false) ∧
    (24 ≤ s.disputes.length → s.plain c .mismatch o lane =
      { (s.setTrust c .suspect).setDeferred c true with
        fq := (s.fq.post f).post { f with kind := .disputeDeferred, critical := false } })) ∧
  ∀ (s : State) (c : CopyId) (st : Slot), (s.dispute? c.seg).bind (fun d => d.slots[c.copy]?) = some st →
    (st ≠ .wanted → s.serveSlot c = s) ∧
    (st = .wanted →
      (∀ it, (s.copy c).itemTag.bind s.item? = some it → it.kind ≠ .repair →
        s.serveSlot c = ({ s with queue := { s.queue with
          items := (s.queue.items.filter fun (i : Item) => i.tag != it.tag && i.cls = ItemClass.urgent) ++
            ({ it with kind := .confirm, cls := .urgent } : Item) ::
            (s.queue.items.filter fun (i : Item) => i.tag != it.tag && i.cls ≠ ItemClass.urgent) } }).setSlot c (.issued it.tag)) ∧
      ((∀ it, (s.copy c).itemTag.bind s.item? = some it → it.kind = .repair) →
        (s.queue.items.length < 40 → s.serveSlot c = s.issue (.slot c)) ∧
        (40 ≤ s.queue.items.length → s.serveSlot c = { s with queue := { s.queue with
          waiters := s.queue.waiters ++ [(⟨s.queue.waitCount + 1, .slot c⟩ : Waiter)],
          waitCount := s.queue.waitCount + 1 } })))

/-- The copy vote (R79 to R84). AGREED, when a voted copy agrees with the reference: the agreeing copies are GOOD with
today's day, every other voted copy was judged BAD (and may already be REPAIRING), the entry is gone. DISPUTED, else, when
two voted copies share a digest: the entry awaits resolution of such a digest, the copies that hold it are SUSPECT and
every other voted copy is BAD. UNAGREED, else: every voted copy was judged BAD and the entry is gone. The reference stands
in each. What each outcome does, act by act: TRANSIENT_READ and 1 point for a trigger whose re-read has the reference's
digest (R80); COPY_BAD and 8 points for each rejected copy in ascending index (R81 to R83, R88); for DISPUTED
REFERENCE_DISPUTED (R82); then the deferred marks of the voted copies cleared, VOTE_DECIDED, its number 16 higher on expiry,
and SEGMENT_LOST when every copy is BAD; then, but for DISPUTED, the entry removed and, unless the segment is LOST, a repair
requested for each rejected copy with the mask of R85 (R84; RepairRequests says what a request does). Who is voted, and on
which observation (R79); and the decision test, which takes the vote when no slot is open (R77). That a DISPUTED
entry's slots keep the item tags they hold is the model's choice (notes/assumptions/25.md). -/
def Obligations.VoteOutcomes : Prop :=
  (∀ (s : State) (g : SegId) (expired : Bool) (d : Dispute), s.dispute? g = some d →
    ((s.takeVote g expired).seg g).reference = (s.seg g).reference ∧ s.sameParts (s.takeVote g expired) ∧
    ((∃ p ∈ d.votes, s.refDigest g = some p.2.digest) →
      (s.takeVote g expired).dispute? g = none ∧ ∀ p ∈ d.votes, p.1 < (s.seg g).copies.length →
        (s.refDigest g = some p.2.digest → ((s.takeVote g expired).copy (g.copy p.1)).trust = .good ∧
          ((s.takeVote g expired).copy (g.copy p.1)).lastDay = s.day.getD 0) ∧
        (s.refDigest g ≠ some p.2.digest → ((s.takeVote g expired).copy (g.copy p.1)).trust = .bad ∨
          ((s.takeVote g expired).copy (g.copy p.1)).trust = .repairing)) ∧
    ((∀ p ∈ d.votes, s.refDigest g ≠ some p.2.digest) →
      ((∃ p ∈ d.votes, ∃ q ∈ d.votes, p.1 ≠ q.1 ∧ p.2.digest = q.2.digest) →
        ∃ dd e, (s.takeVote g expired).dispute? g = some e ∧ e.phase = .awaiting dd ∧
          e.agreeing = (d.votes.filter fun p => p.2.digest == dd).map Prod.fst ∧
          e.rejected = (d.votes.filter fun p => p.2.digest != dd).map Prod.fst ∧ 2 ≤ e.agreeing.length ∧
          (∀ i ∈ e.agreeing, i < (s.seg g).copies.length →
            ((s.takeVote g expired).copy (g.copy i)).trust = .suspect) ∧
          ∀ i ∈ e.rejected, i < (s.seg g).copies.length → ((s.takeVote g expired).copy (g.copy i)).trust = .bad) ∧
      ((∀ p ∈ d.votes, ∀ q ∈ d.votes, p.1 ≠ q.1 → p.2.digest ≠ q.2.digest) →
        (s.takeVote g expired).dispute? g = none ∧ ∀ p ∈ d.votes, p.1 < (s.seg g).copies.length →
          ((s.takeVote g expired).copy (g.copy p.1)).trust = .bad ∨
            ((s.takeVote g expired).copy (g.copy p.1)).trust = .repairing))) ∧
  (∀ (s t : State) (g : SegId) (expired : Bool) (d : Dispute) (R : Option Digest) (find : FindingKind → Bool → Option Digest → Nat → Finding)
      (bad : Nat → State → Nat × Obs → State) (closed : State → Nat → Option Digest → State)
      (ended : State → List (Nat × Obs) → State), s.dispute? g = some d → R = s.refDigest g →
    find = (fun kind critical digest detail =>
      ⟨kind, critical, s.day.getD 0, some g.reel, some g.segment, none, none, digest, none, detail⟩) →
    t = (match d.slots[d.trigger]? with
      | some (.observed o lane _) => if some o.digest = R then
          (s.post ⟨.transientRead, false, s.day.getD 0, some g.reel, some g.segment, some d.trigger,
            some (s.mediumOf (g.copy d.trigger)), some o.digest, none, lane⟩).chargeMedium (g.copy d.trigger) 1
        else s
      | _ => s) →
    bad = (fun outcome u p => ((u.setTrust (g.copy p.1) .bad).post ⟨.copyBad, true, s.day.getD 0, some g.reel,
      some g.segment, some p.1, some (s.mediumOf (g.copy p.1)), some p.2.digest,
      if p.2.compared then some p.2.mask else none, outcome⟩).chargeMedium (g.copy p.1) 8) →
    closed = (fun u outcome digest => ((d.votes.foldl (fun w p => w.setDeferred (g.copy p.1) false) u).post
      (find .voteDecided false digest (outcome + if expired then 16 else 0))).postIfLost g) →
    ended = (fun u rejected =>
      if (u.removeDispute g).isLost g then u.removeDispute g else (u.removeDispute g).requestRepairs .vote
        (rejected.map fun p => (g.copy p.1, if p.2.compared = true ∧ p.2.mask ≠ 0#64 then p.2.mask
          else fullMask (s.frameCount g)))) →
    ((∃ p ∈ d.votes, R = some p.2.digest) → ∀ good rejected,
      good = d.votes.filter (fun p => some p.2.digest = R) → rejected = d.votes.filter (fun p => some p.2.digest ≠ R) →
      s.takeVote g expired = ended (closed (rejected.foldl (bad 1)
        (good.foldl (fun u p => u.setGood (g.copy p.1) (s.day.getD 0)) t)) 1 R) rejected) ∧
    ((∀ p ∈ d.votes, R ≠ some p.2.digest) →
      (∀ dd agreeing rejected, (∃ p ∈ d.votes, ∃ q ∈ d.votes, p.1 ≠ q.1 ∧ p.2.digest = dd ∧ q.2.digest = dd) →
        (∀ other, (∃ p ∈ d.votes, ∃ q ∈ d.votes, p.1 ≠ q.1 ∧ p.2.digest = other ∧ q.2.digest = other) → other = dd) →
        agreeing = d.votes.filter (fun p => p.2.digest = dd) → rejected = d.votes.filter (fun p => p.2.digest ≠ dd) →
        s.takeVote g expired = closed (((rejected.foldl (bad 2)
          (agreeing.foldl (fun u p => u.setTrust (g.copy p.1) .suspect) t)).post
            (find .referenceDisputed true (some dd) agreeing.length)).modDispute g fun (e : Dispute) => { e with
              phase := .awaiting dd, agreeing := agreeing.map Prod.fst, rejected := rejected.map Prod.fst }) 2 (some dd)) ∧
      ((∀ p ∈ d.votes, ∀ q ∈ d.votes, p.1 ≠ q.1 → p.2.digest ≠ q.2.digest) →
        s.takeVote g expired = ended (closed (d.votes.foldl (bad 3) t) 3 R) d.votes))) ∧
  (∀ d : Dispute, (d.votes.map Prod.fst).Pairwise (· < ·) ∧ ∀ i o, (i, o) ∈ d.votes ↔ i < d.slots.length ∧
    ((∃ lane own, d.slots[i]? = some (.observed o lane own)) ∨
      i = d.trigger ∧ o = d.first ∧ ∀ o' lane own, d.slots[i]? ≠ some (.observed o' lane own))) ∧
  ∀ (s : State) (g : SegId),
    (∀ d, s.collecting? g = some d → (∀ st ∈ d.slots, st ≠ .wanted ∧ ∀ tag, st ≠ .issued tag) →
      s.testDecision g = s.takeVote g false) ∧
    (∀ d, s.collecting? g = some d → (∃ st ∈ d.slots, st = .wanted ∨ ∃ tag, st = .issued tag) → s.testDecision g = s) ∧
    (s.collecting? g = none → s.testDecision g = s)

/-- DISPUTE_ADOPT of an entry that awaits resolution: the agreed digest becomes the reference, ADOPTED and without a
frame list; the agreeing copies are GOOD with today's day; VOTE_DECIDED is posted with number 4 and the digest; the entry is
gone; and a repair is requested for each rejected copy with every frame of the segment in its mask (RepairRequests says what
a request does). Without an entry awaiting resolution the order is refused. -/
def Obligations.DisputeAdoptResult : Prop :=
  ∀ (h : Head) (tag : Half) (body : List Byte) (s : State) (r : Reel), s.takes h 32 tag body →
    s.checkSeg (segOperand body) = .ok r →
    (∀ d dd, s.awaiting? (segOperand body) = some (d, dd) →
      ∃ u, exec (.disputeAdopt h) s = .next (u.answer h 32 tag (.ok [])) ∧ (s.popOrder h).sameParts u ∧
        u.dispute? (segOperand body) = none ∧
        (u.seg (segOperand body)).reference = some ⟨dd, .adopted⟩ ∧ (u.seg (segOperand body)).frameList = none ∧
        ∀ i ∈ d.agreeing, i < (s.seg (segOperand body)).copies.length →
          (u.copy ((segOperand body).copy i)).trust = .good ∧
            (u.copy ((segOperand body).copy i)).lastDay = s.day.getD 0 ∧
            (u.copy ((segOperand body).copy i)).deferred = false) ∧
    (∀ d dd g, s.awaiting? g = some (d, dd) → g = segOperand body →
      exec (.disputeAdopt h) s = .next ((((((d.agreeing.foldl (fun u i => u.setGood (g.copy i) (s.day.getD 0))
        ((s.popOrder h).modSeg g fun (q : SegRec) => { q with reference := some ⟨dd, .adopted⟩, frameList := none })).post
          ⟨.voteDecided, false, s.day.getD 0, some g.reel, some g.segment, none, none, some dd, none, 4⟩).removeDispute
            g).requestRepairs .adopt (d.rejected.map fun i =>
              (g.copy i, fullMask (r.frameCount g.segment)))).wakeRoom).answer h 32 tag (.ok []))) ∧
    (s.awaiting? (segOperand body) = none →
      exec (.disputeAdopt h) s = .next ((s.popOrder h).answer h 32 tag (.refused .notDisputed [])))

/-- DISPUTE_REJECT of an entry that awaits resolution: the reference and the frame list stand, every agreeing copy was
judged BAD (and may already be REPAIRING by the requests that follow), and the entry is gone. Each agreeing copy, in ascending
index, has COPY_BAD posted with number 5 and its medium charged 8 points; VOTE_DECIDED is posted with number 5 and the
reference's digest, and SEGMENT_LOST when every copy is BAD; and unless the segment is LOST a repair is requested for each
agreeing and each rejected copy with the mask of R85 (RepairRequests says what a request does). Without an entry awaiting
resolution the order is refused. -/
def Obligations.DisputeRejectResult : Prop :=
  ∀ (h : Head) (tag : Half) (body : List Byte) (s : State) (r : Reel), s.takes h 33 tag body →
    s.checkSeg (segOperand body) = .ok r →
    (∀ d dd, s.awaiting? (segOperand body) = some (d, dd) →
      ∃ u, exec (.disputeReject h) s = .next (u.answer h 33 tag (.ok [])) ∧ (s.popOrder h).sameParts u ∧
        u.dispute? (segOperand body) = none ∧
        (u.seg (segOperand body)).reference = (s.seg (segOperand body)).reference ∧
        (u.seg (segOperand body)).frameList = (s.seg (segOperand body)).frameList ∧
        ∀ i ∈ d.agreeing, (d.effective i).isSome = true → i < d.slots.length →
          i < (s.seg (segOperand body)).copies.length →
          (u.copy ((segOperand body).copy i)).trust = .bad ∨ (u.copy ((segOperand body).copy i)).trust = .repairing) ∧
    (∀ d dd g u v, s.awaiting? g = some (d, dd) → g = segOperand body →
      u = ((d.votes.filter fun p => p.1 ∈ d.agreeing).foldl (fun u p => ((u.setTrust (g.copy p.1) .bad).post ⟨.copyBad,
        true, s.day.getD 0, some g.reel, some g.segment, some p.1, some (s.mediumOf (g.copy p.1)), some p.2.digest,
        if p.2.compared then some p.2.mask else none, 5⟩).chargeMedium (g.copy p.1) 8) (s.popOrder h)) →
      v = ((u.post ⟨.voteDecided, false, s.day.getD 0, some g.reel, some g.segment, none, none, s.refDigest g, none,
        5⟩).postIfLost g).removeDispute g →
      exec (.disputeReject h) s = .next ((if v.isLost g then v else v.requestRepairs .reject
        ((d.votes.filter fun p => p.1 ∈ d.agreeing ∨ p.1 ∈ d.rejected).map fun p => (g.copy p.1,
          if p.2.compared = true ∧ p.2.mask ≠ 0#64 then p.2.mask
          else fullMask (r.frameCount g.segment)))).wakeRoom.answer h 33 tag (.ok []))) ∧
    (s.awaiting? (segOperand body) = none →
      exec (.disputeReject h) s = .next ((s.popOrder h).answer h 33 tag (.refused .notDisputed [])))

/-- CONFIRM_TIMER_EXPIRY of a COLLECTING entry: every slot that is WANTED or ISSUED becomes UNREAD and a waiting one leaves
the waiting owners; then each own item that is QUEUED is withdrawn; then the vote is taken with what was observed
(VoteOutcomes says what it does), marked as taken on expiry, so that no entry of the segment collects any more. The
reference stands, and so do the parts outside the tables but for the lines. That all the slots are given up before the
first withdrawal is the model's reading (notes/assumptions/5.md). Where no entry collects, nothing happens (the model's
choice, notes/assumptions/1.md). -/
def Obligations.ConfirmExpiryDecides : Prop :=
  ∀ (reel segment : Nat) (s : State) (g : SegId), g = ⟨reel, segment⟩ →
    (∀ d, s.collecting? g = some d →
      ∃ w u, w.dispute? g = some { d with slots := d.slots.map fun st => match st with
            | .wanted | .issued _ => .unread
            | .notWanted | .unread | .observed _ _ _ => st } ∧
        (∀ k, k ≠ g → w.dispute? k = s.dispute? k) ∧
        (∀ x, x ∈ w.queue.waiters ↔ x ∈ s.queue.waiters ∧
          ∀ i, d.slots[i]? = some .wanted → x.owner ≠ .slot (g.copy i)) ∧
        w = { s with disputes := w.disputes, queue := { s.queue with waiters := w.queue.waiters } } ∧
        u = ((((s.openItems d).filter Item.isQueued).foldl State.withdrawItem w).takeVote g true).wakeRoom ∧
        exec (.confirmTimerExpiry reel segment) s = .next u.settle ∧ s.sameParts u ∧ u.collecting? g = none ∧
        (u.seg g).reference = (s.seg g).reference) ∧
    (s.collecting? g = none → exec (.confirmTimerExpiry reel segment) s = .next s)

/-- What the part's own requests and endings do. The requests of one decision are made in the order given, each for a copy
that is still BAD (R84, R89, R90). A request (R94) ends with REPAIR_ABANDONED on a WITHDRAWN medium, with REPAIR_NO_SOURCE
without a source, with REPAIR_DEFERRED on a full table; else it creates an entry at attempt 1, and the copy is REPAIRING
(R96): a QUEUED item left over on the copy is withdrawn, a CLAIMED or BOUND one goes on (R97), and without one the entry gets
its REPAIR item or starts waiting. An entry that is closed without success (R99, R103, R105) is removed with its waiting
start, its target BAD, its finding posted with its mask and cause. SEGMENT_LOST (R58) is posted when every copy is BAD. -/
def Obligations.RepairRequests : Prop :=
  (∀ (s : State) (origin : RepairOrigin) (c : CopyId) (mask : Mask) (l : List (CopyId × Mask)),
    s.requestRepairs origin [] = s ∧
    ((s.copy c).trust = .bad →
      s.requestRepairs origin ((c, mask) :: l) = (s.requestRepair c mask origin).requestRepairs origin l) ∧
    ((s.copy c).trust ≠ .bad → s.requestRepairs origin ((c, mask) :: l) = s.requestRepairs origin l)) ∧
  (∀ (s entry : State) (c : CopyId) (mask : Mask) (origin : RepairOrigin)
      (find : FindingKind → Bool → Nat → Finding),
    find = (fun kind critical detail => ⟨kind, critical, s.day.getD 0, some c.reel, some c.segment, some c.copy,
      some (s.mediumOf c), none, some mask, detail⟩) →
    entry = ({ s with repairs := s.repairs ++ [(⟨c, mask, 1, .waitingPlace, origin⟩ : Repair)] }).setTrust c .repairing →
    (s.copyHealth c = .withdrawn → s.requestRepair c mask origin = s.post (find .repairAbandoned false 1)) ∧
    (s.copyHealth c ≠ .withdrawn →
      (s.source? c = none → s.requestRepair c mask origin = s.post (find .repairNoSource true 1)) ∧
      (s.source? c ≠ none → 16 ≤ s.repairs.length →
        s.requestRepair c mask origin = s.post (find .repairDeferred false 16)) ∧
      (s.source? c ≠ none → s.repairs.length < 16 →
        (∀ it, (s.copy c).itemTag.bind s.item? = some it →
          (it.isQueued = true → s.requestRepair c mask origin = (entry.withdrawItem it).leftoverGone c) ∧
          (it.isQueued = false → s.requestRepair c mask origin = entry)) ∧
        ((s.copy c).itemTag.bind s.item? = none →
          (s.queue.items.length < 40 → s.requestRepair c mask origin = entry.issue (.repair c)) ∧
          (40 ≤ s.queue.items.length → s.requestRepair c mask origin = entry.startWaiting (.repair c)))))) ∧
  (∀ (s : State) (c : CopyId) (kind : FindingKind) (critical : Bool) (cause : Nat),
    s.closeRepair c kind critical cause = ((({ s with
      repairs := s.repairs.filter fun (r : Repair) => r.target != c,
      queue := { s.queue with waiters := s.queue.waiters.filter fun (w : Waiter) => w.owner != Owner.repair c } }).setTrust c
        .bad).post ⟨kind, critical, s.day.getD 0, some c.reel, some c.segment, some c.copy, some (s.mediumOf c), none,
          (s.repair? c).map Repair.mask, cause⟩).postIfLost c.seg) ∧
  ∀ (s : State) (g : SegId),
    ((∀ r ∈ (s.seg g).copies, r.trust = .bad) → s.isLost g = true ∧
      s.postIfLost g = s.post ⟨.segmentLost, true, s.day.getD 0, some g.reel, some g.segment, none, none, s.refDigest g,
        none, (s.seg g).copies.length⟩) ∧
    ((∃ r ∈ (s.seg g).copies, r.trust ≠ .bad) → s.isLost g = false ∧ s.postIfLost g = s)

/-- REPAIR_REQUEST. Its refusals, in the order of R95: the checks of R5, IN_USE with a dispute on the segment, NOT_BAD,
WITHDRAWN, NO_SOURCE and NO_ROOM; none has another effect. Accepted, every form: an entry at attempt 1 with every frame in its
mask and origin HEAD, the copy REPAIRING with its exhausted mark clear. With no other item on the copy and a place free the
entry is ISSUED with a new URGENT REPAIR item that is charged, and the reply carries the state and the tag; with 40 items it
starts waiting; with a CLAIMED or BOUND item left over on the copy it waits for that item to go, and in both the reply carries
WAITING_PLACE (R97). A QUEUED item left over is withdrawn at once, the entry goes on (ItemDepartures says how), and the reply
carries the state in which that leaves it. -/
def Obligations.RepairRequestResult : Prop :=
  ∀ (h : Head) (tag : Half) (body : List Byte) (s : State) (c : CopyId) (no : Reason → Prop), s.takes h 34 tag body →
    c = (segOperand body).copy (leAt body 8 1) →
    no = (fun e => exec (.repairRequest h) s = .next ((s.popOrder h).answer h 34 tag (.refused e []))) →
    (s.activeReel? c.reel = none → no .unknownReel) ∧
    (∀ r, s.activeReel? c.reel = some r → (r.segCount ≤ c.segment ∨ r.copyCount ≤ c.copy) → no .badArgument) ∧
    ∀ r, s.checkCopy c = .ok r →
      ((∃ d, s.dispute? c.seg = some d) → no .inUse) ∧
      (s.dispute? c.seg = none → (s.copy c).trust ≠ .bad → no .notBad) ∧
      (s.dispute? c.seg = none → (s.copy c).trust = .bad →
        (s.copyHealth c = .withdrawn → no .withdrawn) ∧
        (s.copyHealth c ≠ .withdrawn → s.source? c = none → no .noSource) ∧
        (s.copyHealth c ≠ .withdrawn → s.source? c ≠ none → 16 ≤ s.repairs.length → no .noRoom) ∧
        (s.copyHealth c ≠ .withdrawn → s.source? c ≠ none → s.repairs.length < 16 → s.repair? c = none →
          ((s.copy c).itemTag.bind s.item? = none → s.queue.items.length < 40 →
            ∃ u, exec (.repairRequest h) s =
                .next (u.answer h 34 tag (.ok (leBytes 1 1 ++ zeros 1 ++ leBytes 2 s.queue.nextTag))) ∧
              (s.popOrder h).sameParts u ∧ u.media = s.media ∧ u.disputes = s.disputes ∧ u.fq = s.fq ∧
              (s.walker.state ≠ .waitRoom → u.walker = s.walker) ∧
              u.repairs = s.repairs ++ [⟨c, fullMask (r.frameCount c.segment), 1, .issued s.queue.nextTag, .head⟩] ∧
              u.queue.items = placeLast ⟨s.queue.nextTag, .repair, .urgent, c, chargeOf (s.byteLength c.seg), .queued, 0,
                false, fullMask (r.frameCount c.segment), none⟩ s.queue.items ∧
              u.pacer = s.pacer.charge (chargeOf (s.byteLength c.seg)) ∧
              (u.copy c).trust = .repairing ∧ (u.copy c).exhausted = false ∧
              (u.copy c).itemTag = some s.queue.nextTag ∧ (u.copy c).lastDay = (s.copy c).lastDay) ∧
          ∀ entry : State, entry = ({ s.popOrder h with repairs := s.repairs ++
              [(⟨c, fullMask (r.frameCount c.segment), 1, .waitingPlace, .head⟩ : Repair)] }).modCopy c
                (fun q => { q with trust := .repairing, exhausted := false, deferred := false }) →
            ((s.copy c).itemTag.bind s.item? = none → 40 ≤ s.queue.items.length →
              exec (.repairRequest h) s = .next (({ entry with queue := { s.queue with
                waiters := s.queue.waiters ++ [(⟨s.queue.waitCount + 1, .repair c⟩ : Waiter)],
                waitCount := s.queue.waitCount + 1 } }).wakeRoom.answer h 34 tag (.ok (zeros 4)))) ∧
            ∀ it, (s.copy c).itemTag.bind s.item? = some it →
              (it.isQueued = false →
                exec (.repairRequest h) s = .next (entry.wakeRoom.answer h 34 tag (.ok (zeros 4)))) ∧
              (it.isQueued = true → ∀ (u : State) (q : Repair), u = (entry.withdrawItem it).leftoverGone c →
                u.repair? c = some q →
                (q.state = .waitingPlace →
                  exec (.repairRequest h) s = .next (u.wakeRoom.answer h 34 tag (.ok (zeros 4)))) ∧
                ∀ n, q.state = .issued n → exec (.repairRequest h) s =
                  .next (u.wakeRoom.answer h 34 tag (.ok (leBytes 1 1 ++ zeros 1 ++ leBytes 2 n))))))

/-! ### Plans and the walker -/

/-- PLAN_LOAD and PLAN_LOAD_COMPLETION: an acceptable list makes a slot that is neither LOADING, running nor queued
LOADING for the head; its completion makes the slot LOADED with those entries and posts the reply; a slot in use is
refused with SLOT_BUSY; where no load is in progress nothing completes (notes/assumptions/1.md). -/
def Obligations.PlanLoadResult : Prop :=
  (∀ (h : Head) (tag : Half) (body : List Byte) (s : State), s.takes h 40 tag body → leAt body 0 1 < 2 →
    1 ≤ leAt body 2 2 → leAt body 2 2 ≤ 512 →
    ((s.slot (leAt body 0 1)).isLoading = false → s.walker.running ≠ some (leAt body 0 1) →
      s.walker.queued ≠ some (leAt body 0 1) →
      (∀ e ∈ planEntries body, e.acc ≠ 0 ∧ 1 ≤ e.copyMask ∧ e.copyMask ≤ 7 ∧ e.firstSegment ≤ 16383 ∧
        e.segmentCount ≤ 16384) →
      exec (.planLoad h) s = .next ((((s.popOrder h).setPlanSlot (leAt body 0 1)
        (.loading h tag (planEntries body))).reserve h).settle)) ∧
    (((s.slot (leAt body 0 1)).isLoading = true ∨ s.walker.running = some (leAt body 0 1) ∨
      s.walker.queued = some (leAt body 0 1)) →
      exec (.planLoad h) s = .next ((s.popOrder h).answer h 40 tag (.refused .slotBusy [])))) ∧
  ∀ (slot : Nat) (s : State),
    (∀ h tag es, s.slot slot = .loading h tag es →
      exec (.planLoadCompletion slot) s = .next (((s.setPlanSlot slot (.loaded es)).release h).answer h 40 tag
        (.ok (leBytes 2 es.length ++ zeros 2)))) ∧
    ((s.slot slot).isLoading = false → exec (.planLoadCompletion slot) s = .next s)

/-- PLAN_START: with the walker IDLE, the slot LOADED and the day set, a pass starts: the pass number rises, the notice
marks clear, the pending point resets are applied, and entry 0 is taken up: HALTED before it when it is the halt entry,
else WALKING at its first position when its reel is ACTIVE and reaches its first segment, else found stale with
PLAN_ENTRY_STALE. That entry 0 is taken up within the order, that the going on after a stale entry 0 is left to the next
WALKER_POSITION (`entryPhase`), and that the reply carries the number of the pass the order starts, is
notes/assumptions/9.md (DEDUCED and DESIGN CHOICE, unsafe for what other events see). -/
def Obligations.PlanStartResult : Prop :=
  ∀ (h : Head) (tag : Half) (body : List Byte) (s : State) (es : List PlanEntry) (e : PlanEntry)
      (start : WalkerState → Option Nat → EntryPhase → State), s.takes h 41 tag body →
    leAt body 1 1 ≤ 1 → leAt body 0 1 < 2 →
    start = (fun st halt phase => { s.popOrder h with
      media := s.media.map Medium.applyReset,
      walker := ⟨st, some (leAt body 0 1), none, leAt body 1 1 == 1, halt, some ⟨0, e.firstSegment, 0⟩, phase,
        (s.walker.pass + 1) % 256, []⟩ }) →
    (s.walker.state ≠ .idle → exec (.planStart h) s = .next ((s.popOrder h).answer h 41 tag (.refused .busy []))) ∧
    (s.walker.state = .idle → s.slot (leAt body 0 1) = .loaded es → es[0]? = some e → s.day = none →
      (leAt body 2 2 = 65535 ∨ leAt body 2 2 < es.length) →
      exec (.planStart h) s = .next ((s.popOrder h).answer h 41 tag (.refused .dayUnset []))) ∧
    (s.walker.state = .idle → s.slot (leAt body 0 1) = .loaded es → es[0]? = some e → s.day ≠ none →
      (leAt body 2 2 = 0 → exec (.planStart h) s = .next ((start .halted none .ahead).answer h 41 tag
        (.ok (leBytes 1 ((s.walker.pass + 1) % 256) ++ zeros 3)))) ∧
      ∀ halt, (leAt body 2 2 = 65535 ∧ halt = none ∨
          1 ≤ leAt body 2 2 ∧ leAt body 2 2 < es.length ∧ leAt body 2 2 ≠ 65535 ∧ halt = some (leAt body 2 2)) →
        (∀ r, s.activeReel? e.acc = some r → e.firstSegment < r.segCount →
          exec (.planStart h) s = .next ((start .walking halt .taken).answer h 41 tag
            (.ok (leBytes 1 ((s.walker.pass + 1) % 256) ++ zeros 3)))) ∧
        ∀ cause, (s.activeReel? e.acc = none ∧ cause = 1 ∨
            cause = 2 ∧ ∃ r, s.activeReel? e.acc = some r ∧ r.segCount ≤ e.firstSegment) →
          exec (.planStart h) s = .next (({ start .walking halt .stale with fq := s.fq.post ⟨.planEntryStale, false,
            s.day.getD 0, some e.acc, some e.firstSegment, none, none, none, none, cause⟩ }).answer h 41 tag
              (.ok (leBytes 1 ((s.walker.pass + 1) % 256) ++ zeros 3))))

/-- PLAN_QUEUE, PLAN_PAUSE and PLAN_RESUME: each walker state's outcome. -/
def Obligations.PlanQueuePauseResume : Prop :=
  ∀ (h : Head) (tag : Half) (body : List Byte) (s : State),
    (s.takes h 42 tag body → leAt body 0 1 < 2 →
      (s.walker.state = .idle → exec (.planQueue h) s = .next ((s.popOrder h).answer h 42 tag (.refused .badState []))) ∧
      (s.walker.state ≠ .idle → s.walker.running = some (leAt body 0 1) →
        exec (.planQueue h) s = .next ((s.popOrder h).answer h 42 tag (.refused .slotBusy []))) ∧
      (s.walker.state ≠ .idle → s.walker.running ≠ some (leAt body 0 1) → (s.slot (leAt body 0 1)).isLoaded = false →
        exec (.planQueue h) s = .next ((s.popOrder h).answer h 42 tag (.refused .emptySlot []))) ∧
      (s.walker.state ≠ .idle → s.walker.running ≠ some (leAt body 0 1) → (s.slot (leAt body 0 1)).isLoaded = true →
        exec (.planQueue h) s = .next (({ s.popOrder h with
          walker := { s.walker with queued := some (leAt body 0 1) } }).answer h 42 tag (.ok [])))) ∧
    (s.takes h 43 tag [] →
      ((s.walker.state = .walking ∨ s.walker.state = .waitCredit ∨ s.walker.state = .waitRoom) →
        exec (.planPause h) s = .next (({ s.popOrder h with walker := { s.walker with state := .paused } }).answer
          h 43 tag (.ok []))) ∧
      ((s.walker.state = .paused ∨ s.walker.state = .halted) →
        exec (.planPause h) s = .next ((s.popOrder h).answer h 43 tag (.ok []))) ∧
      (s.walker.state = .idle →
        exec (.planPause h) s = .next ((s.popOrder h).answer h 43 tag (.refused .badState [])))) ∧
    (s.takes h 44 tag [] →
      ((s.walker.state = .paused ∨ s.walker.state = .halted) →
        exec (.planResume h) s = .next (({ s.popOrder h with walker := { s.walker with state := .walking } }).answer
          h 44 tag (.ok []))) ∧
      (s.walker.state ≠ .paused → s.walker.state ≠ .halted →
        exec (.planResume h) s = .next ((s.popOrder h).answer h 44 tag (.refused .badState []))))

/-- PLAN_STOP: in every walker state the walker becomes IDLE with nothing running and its pass number kept; every QUEUED
SCRUB item leaves the queue and every other item stays in it; the reply carries the number withdrawn. Each is withdrawn
with the refund and the service of ItemDepartures, one after the other in list order (the order is the model's choice,
notes/assumptions/24.md), a repair entry that waited for it going on; last, a walker that waited for a place would go on. -/
def Obligations.PlanStopResult : Prop :=
  ∀ (h : Head) (tag : Half) (s : State), s.takes h 45 tag [] → (s.queue.items.map Item.tag).Nodup →
    ∃ u, exec (.planStop h) s = .next (u.answer h 45 tag (.ok (leBytes 1
        (s.queue.items.filter fun i => i.kind = .scrub && i.isQueued).length ++ zeros 3))) ∧
      u = ((s.queue.items.filter fun (i : Item) => i.kind = .scrub && i.isQueued).foldl
        (fun (v : State) (it : Item) => (v.withdrawItem it).leftoverGone it.target) { s.popOrder h with walker := ⟨.idle, none, none, false,
          none, none, .ahead, s.walker.pass, s.walker.notices⟩ }).wakeRoom ∧
      (s.popOrder h).sameParts u ∧
      u.walker = ⟨.idle, none, none, false, none, none, .ahead, s.walker.pass, s.walker.notices⟩ ∧
      (∀ i ∈ u.queue.items, ¬(i.kind = .scrub ∧ i.isQueued = true)) ∧
      ∀ i ∈ s.queue.items, ¬(i.kind = .scrub ∧ i.isQueued = true) → i ∈ u.queue.items

/-- WALKER_POSITION, by the phase of the entry at the walker's position. One not yet taken up is taken up (`State.takesUp`):
the walker is HALTED before it, stands at its first position, or finds it stale and goes on after it. One found stale before
is gone on after. One taken up whose reel is no longer ACTIVE or no longer reaches the position posts PLAN_ENTRY_STALE with
cause 3 and is gone on after. Else the position is taken: one that a skip test removes, or whose score no band contains or a
SKIP band, is passed over; a score in a notify band posts DUE_NOTICE once for the entry and pass; a due position is released
as a SCRUB item when the queue holds fewer than 32 items and the Pacer is in WORK with credit above 0, makes the walker wait
in WAIT_ROOM when the queue is that full, and else in WAIT_CREDIT. From a position passed over or released the walker moves
on (`State.movesOn`), to the next position or to the entry's end with its NOTE, LAST and HOLD (`State.endsEntry`), where
PLAN_DONE and a new pass of the same or the queued slot, or IDLE, follow a plan's last entry. One position for each command,
and the take-up of entry 0 within the pass start (`entryPhase`), are notes/assumptions/9.md (DEDUCED and DESIGN CHOICE,
unsafe for what other events see); that a walker that is not WALKING does not move is notes/assumptions/1.md. -/
def Obligations.WalkerPositionResult : Prop :=
  ∀ s : State,
    (s.walker.state ≠ .walking → exec .walkerPosition s = .next s) ∧
    ∀ (slot : Nat) (p : Position) (e : PlanEntry), s.walker.state = .walking →
      s.walker.running = some slot → s.walker.position = some p → (s.slot slot).entries[p.entry]? = some e →
      (s.walker.entryPhase = .ahead → ∃ t, s.takesUp p.entry e t ∧
        (t.walker.entryPhase ≠ .stale → exec .walkerPosition s = .next t.settle) ∧
        (t.walker.entryPhase = .stale →
          ∃ u, t.endsEntry slot p.entry e u ∧ exec .walkerPosition s = .next u.settle)) ∧
      (s.walker.entryPhase = .stale →
        ∃ t, s.endsEntry slot p.entry e t ∧ exec .walkerPosition s = .next t.settle) ∧
      (s.walker.entryPhase = .taken → (∀ r, s.activeReel? e.acc = some r → e.endSegment r < p.segment) →
        ∃ t, ({ s with fq := s.fq.post ⟨.planEntryStale, false, s.day.getD 0, some e.acc, some e.firstSegment, none, none,
          none, none, 3 + 16 * p.entry⟩ }).endsEntry slot p.entry e t ∧ exec .walkerPosition s = .next t.settle) ∧
      ∀ (r : Reel) (c : CopyId), s.walker.entryPhase = .taken → s.activeReel? e.acc = some r →
        p.segment ≤ e.endSegment r → c = ⟨e.acc, p.segment, p.copy⟩ →
        ((s.skipped e r c = true ∨
            findBand s.bands (dueScore (s.copy c) s.today r.scrubInterval (s.copyHealth c)) = none) →
          ∃ t, s.movesOn slot p e r t ∧ exec .walkerPosition s = .next t.settle) ∧
        ∀ (b : Band) (v : State), s.skipped e r c = false →
          findBand s.bands (dueScore (s.copy c) s.today r.scrubInterval (s.copyHealth c)) = some b →
          v = (if b.notify = true ∧ p.entry ∉ s.walker.notices then { s with
            fq := s.fq.post ⟨.dueNotice, false, s.day.getD 0, some c.reel, some c.segment, some c.copy,
              some (s.mediumOf c), none, none, dueScore (s.copy c) s.today r.scrubInterval (s.copyHealth c)⟩,
            walker := { s.walker with notices := s.walker.notices ++ [p.entry] } } else s) →
          (b.action = .skip → ∃ t, v.movesOn slot p e r t ∧ exec .walkerPosition s = .next t.settle) ∧
          ∀ cls : ItemClass, (b.action = .normal ∧ cls = .normal ∨ b.action = .priority ∧ cls = .priority) →
            (32 ≤ s.queue.items.length → exec .walkerPosition s = .next ({ v with
              walker := { v.walker with state := .waitRoom } }).settle) ∧
            (s.queue.items.length < 32 → (s.pacer.state ≠ .work ∨ s.pacer.credit ≤ 0) →
              exec .walkerPosition s = .next ({ v with walker := { v.walker with state := .waitCredit } }).settle) ∧
            (s.queue.items.length < 32 → s.pacer.state = .work → 0 < s.pacer.credit →
              ∃ x t, x.movesOn slot p e r t ∧ exec .walkerPosition s = .next t.settle ∧
                x.queue = { s.queue with
                  items := placeLast ⟨s.queue.nextTag, .scrub, cls, c, chargeOf (s.byteLength c.seg), .queued, 0, false,
                    0#64, none⟩ s.queue.items,
                  lastTag := s.queue.nextTag } ∧
                x.pacer = s.pacer.charge (chargeOf (s.byteLength c.seg)) ∧
                (p.copy < (s.seg c.seg).copies.length → (x.copy c).itemTag = some s.queue.nextTag) ∧
                (∀ k, k ≠ c → x.copy k = s.copy k) ∧ x.walker = v.walker ∧ x.media = s.media ∧
                x.disputes = s.disputes ∧ x.repairs = s.repairs ∧ x.fq = v.fq ∧ s.sameParts x)

/-- DAY_SET: accepted on an unset clock and for 1..32767 days ahead on the ring, SAME for today, refused as stale beyond;
each reply carries today as it stands after the order. -/
def Obligations.DaySetResult : Prop :=
  ∀ (h : Head) (tag : Half) (body : List Byte) (s : State), s.takes h 47 tag body →
    (s.day = none → exec (.daySet h) s = .next (({ s.popOrder h with day := some (leAt body 0 2) }).answer h 47 tag
      (.ok (leBytes 2 (leAt body 0 2) ++ zeros 2)))) ∧
    ∀ today, s.day = some today → today ≤ 65535 →
      (leAt body 0 2 = today →
        exec (.daySet h) s = .next ((s.popOrder h).answer h 47 tag (.same (leBytes 2 today ++ zeros 2)))) ∧
      (1 ≤ ((leAt body 0 2 : Int) - today) % 65536 → ((leAt body 0 2 : Int) - today) % 65536 ≤ 32767 →
        exec (.daySet h) s = .next (({ s.popOrder h with day := some (leAt body 0 2) }).answer h 47 tag
          (.ok (leBytes 2 (leAt body 0 2) ++ zeros 2)))) ∧
      (32768 ≤ ((leAt body 0 2 : Int) - today) % 65536 →
        exec (.daySet h) s = .next ((s.popOrder h).answer h 47 tag
          (.refused .staleDay (leBytes 2 today ++ zeros 2))))

/-! ### The Pacer -/

/-- PACE_SET: on a STOPPED Pacer the set comes into force at once and credit is clamped to its range; otherwise it is
staged and nothing else of the Pacer changes; a value outside its range refuses the order. (That the STAGED reply carries
credit as well is the format's word.) -/
def Obligations.PaceSetResult : Prop :=
  ∀ (h : Head) (tag : Half) (body : List Byte) (s : State) (set : PaceSettings), s.takes h 48 tag body →
    set = ⟨leAt body 0 2, leAt body 2 1, leAt body 4 2, leAt body 6 2, leAt body 8 2⟩ →
    ((set.budget = 0 ∨ 15 < set.fraction ∨ set.work = 0 ∨ 4095 < set.work ∨ 4095 < set.yield) →
      exec (.paceSet h) s = .next ((s.popOrder h).answer h 48 tag (.refused .badArgument []))) ∧
    (1 ≤ set.budget → set.fraction ≤ 15 → 1 ≤ set.work → set.work ≤ 4095 → set.yield ≤ 4095 →
      (s.pacer.state = .stopped → ∀ c : Int, c = max (-4 * (set.budget : Int)) (min s.pacer.credit (2 * set.budget)) →
        exec (.paceSet h) s = .next (({ s.popOrder h with
          pacer := { s.pacer with inForce := set, staged := none, credit := c } }).answer h 48 tag
            (.ok (leBytes 1 0 ++ zeros 3 ++ leBytes 4 (c % 4294967296).toNat)))) ∧
      (s.pacer.state ≠ .stopped →
        exec (.paceSet h) s = .next (({ s.popOrder h with pacer := { s.pacer with staged := some set } }).answer h 48 tag
          (.ok (leBytes 1 1 ++ zeros 3 ++ leBytes 4 (s.pacer.credit % 4294967296).toNat)))))

/-- PACE_START: a STOPPED Pacer goes into DELAY for the ticks in force, or at once into a work window (what its start does
stands in WorkWindowStart); a running one has its stop cancelled, or the order is refused with RUNNING. -/
def Obligations.PaceStartResult : Prop :=
  ∀ (h : Head) (tag : Half) (s : State), s.takes h 49 tag [] →
    (s.pacer.state = .stopped → 0 < s.pacer.inForce.delay →
      exec (.paceStart h) s = .next (({ s.popOrder h with
        pacer := { s.pacer with state := .delay, window := some s.pacer.inForce.delay } }).answer h 49 tag (.ok []))) ∧
    (s.pacer.state = .stopped → s.pacer.inForce.delay = 0 →
      exec (.paceStart h) s = .next ((s.popOrder h).startWorkWindow.answer h 49 tag (.ok []))) ∧
    (s.pacer.state ≠ .stopped → s.pacer.stopPending = true →
      exec (.paceStart h) s = .next (({ s.popOrder h with pacer := { s.pacer with stopPending := false } }).answer h 49 tag
        (.ok []))) ∧
    (s.pacer.state ≠ .stopped → s.pacer.stopPending = false →
      exec (.paceStart h) s = .next ((s.popOrder h).answer h 49 tag (.refused .running [])))

/-- The start of a work window (R135) makes a staged set the one in force, clamps credit to its range, accumulates the
fraction with its carry, and grants the budget up to the cap; it wakes a walker waiting for credit when credit is then
above 0. -/
def Obligations.WorkWindowStart : Prop :=
  ∀ s : State, s.pacer.acc ≤ 15 → ∀ set, set = s.pacer.staged.getD s.pacer.inForce → set.fraction ≤ 15 →
    ∃ (acc carry : Nat) (c : Int), carry ≤ 1 ∧ acc ≤ 15 ∧ acc + 16 * carry = s.pacer.acc + set.fraction ∧
      c = min (max (-4 * (set.budget : Int)) (min s.pacer.credit (2 * set.budget)) + set.budget + carry) (2 * set.budget) ∧
      s.startWorkWindow = { s with
        pacer := { s.pacer with
          state := .work, credit := c, acc := acc, window := some set.work, inForce := set, staged := none },
        walker := if 0 < c ∧ s.walker.state = .waitCredit then { s.walker with state := .walking } else s.walker }

/-- PACE_STOP: stop pending is set on a running Pacer, a STOPPED one is unchanged, and the reply is OK in every state. The
ends of the start delay, of a work window and of a yield window: a work window starts, a yield window starts, or with a
stop pending the Pacer is STOPPED with credit and accumulator kept (but for the clamp where a staged set comes into
force); outside its state no timer runs (the model's choice, notes/assumptions/1.md). -/
def Obligations.StopAtWindowEnd : Prop :=
  (∀ (h : Head) (tag : Half) (s : State), s.takes h 50 tag [] →
    (s.pacer.state = .stopped → exec (.paceStop h) s = .next ((s.popOrder h).answer h 50 tag (.ok []))) ∧
    (s.pacer.state ≠ .stopped → exec (.paceStop h) s = .next (({ s.popOrder h with
      pacer := { s.pacer with stopPending := true } }).answer h 50 tag (.ok [])))) ∧
  ∀ s : State,
    (s.pacer.state = .delay → s.pacer.stopPending = false → exec .delayTimerExpiry s = .next s.startWorkWindow) ∧
    (s.pacer.state = .yield → s.pacer.stopPending = false → exec .yieldWindowEnd s = .next s.startWorkWindow) ∧
    (s.pacer.state = .work → s.pacer.stopPending = false → s.pacer.inForce.yield = 0 →
      exec .workWindowEnd s = .next s.startWorkWindow) ∧
    (s.pacer.state = .work → s.pacer.stopPending = false → 0 < s.pacer.inForce.yield →
      exec .workWindowEnd s = .next { s with
        pacer := { s.pacer with state := .yield, window := some s.pacer.inForce.yield } }) ∧
    (∀ c, (c = .delayTimerExpiry ∧ s.pacer.state = .delay ∨ c = .workWindowEnd ∧ s.pacer.state = .work ∨
        c = .yieldWindowEnd ∧ s.pacer.state = .yield) → s.pacer.stopPending = true → s.pacer.staged = none →
      exec c s = .next { s with pacer := { s.pacer with state := .stopped, window := none, stopPending := false } }) ∧
    (∀ c set, (c = .delayTimerExpiry ∧ s.pacer.state = .delay ∨ c = .workWindowEnd ∧ s.pacer.state = .work ∨
        c = .yieldWindowEnd ∧ s.pacer.state = .yield) → s.pacer.stopPending = true → s.pacer.staged = some set →
      exec c s = .next { s with pacer := { s.pacer with
        state := .stopped, window := none, stopPending := false, inForce := set, staged := none,
        credit := max (-4 * (set.budget : Int)) (min s.pacer.credit (2 * set.budget)) } }) ∧
    ∀ c, (c = .delayTimerExpiry ∧ s.pacer.state ≠ .delay ∨ c = .workWindowEnd ∧ s.pacer.state ≠ .work ∨
        c = .yieldWindowEnd ∧ s.pacer.state ≠ .yield) → exec c s = .next s

/-- PACE_HALT: in every state the Pacer is STOPPED at once with credit and accumulator 0, stop pending clear and a staged
set in force; the reply carries credit as it stood before. -/
def Obligations.PaceHaltResult : Prop :=
  ∀ (h : Head) (tag : Half) (s : State), s.takes h 51 tag [] →
    exec (.paceHalt h) s = .next (({ s.popOrder h with
      pacer := ⟨.stopped, 0, 0, none, false, s.pacer.staged.getD s.pacer.inForce, none⟩ }).answer h 51 tag
        (.ok (leBytes 4 (s.pacer.credit % 4294967296).toNat)))

/-! ### Settings, findings and the snapshot -/

/-- BANDS_SET and LADDER_SET replace their tables whole when the list is in range, the ladder moving each medium to the
first step above its points; a list of no band or step, or too long a one, is refused and leaves its table. TIMERS_SET and
ATTENTION_SET put all their settings in force at once, the latter for the sender's own port alone, and refuse a value out
of range. -/
def Obligations.SettingsOrders : Prop :=
  (∀ (h : Head) (tag : Half) (body : List Byte) (s : State),
    (s.takes h 46 tag body →
      (∀ bands, bandsOperand body = some bands → 1 ≤ bands.length → bands.length ≤ 6 →
        (∀ b ∈ bands, b.low ≤ b.high) →
        exec (.bandsSet h) s = .next (({ s.popOrder h with bands := bands }).answer h 46 tag (.ok []))) ∧
      ((leAt body 0 1 = 0 ∨ 6 < leAt body 0 1) →
        exec (.bandsSet h) s = .next ((s.popOrder h).answer h 46 tag (.refused .badArgument [])))) ∧
    (s.takes h 52 tag body →
      (∀ steps, ladderOperand body = some steps → 1 ≤ steps.length → steps.length ≤ 5 →
        (∀ t ∈ steps, 1 ≤ t.threshold) → (steps.map LadderStep.threshold).Pairwise (· < ·) →
        ∃ media, exec (.ladderSet h) s = .next (({ s.popOrder h with ladder := steps, media := media }).answer h 52 tag
            (.ok [])) ∧
          media = s.media.map (fun m => { m with position := ladderPosition m.points steps }) ∧
          ∀ m ∈ media, m.position ≤ steps.length ∧
            (∀ t, steps[m.position]? = some t → m.points < t.threshold) ∧
            ∀ i t, i < m.position → steps[i]? = some t → t.threshold ≤ m.points) ∧
      ((leAt body 0 1 = 0 ∨ 5 < leAt body 0 1) →
        exec (.ladderSet h) s = .next ((s.popOrder h).answer h 52 tag (.refused .badArgument []))))) ∧
  ∀ (h : Head) (tag : Half) (body : List Byte) (s : State),
    (s.takes h 53 tag body →
      (1 ≤ leAt body 0 2 ∧ leAt body 0 2 ≤ 600 ∧ 1 ≤ leAt body 2 2 ∧ leAt body 2 2 ≤ 600 ∧ 60 ≤ leAt body 4 4 ∧
        leAt body 4 4 ≤ 86400 →
        exec (.timersSet h) s = .next (({ s.popOrder h with
          limits := ⟨leAt body 0 2, leAt body 2 2, leAt body 4 4⟩ }).answer h 53 tag
            (.ok (leBytes 2 (leAt body 0 2) ++ leBytes 2 (leAt body 2 2) ++ leBytes 4 (leAt body 4 4))))) ∧
      ((leAt body 0 2 = 0 ∨ 600 < leAt body 0 2 ∨ leAt body 2 2 = 0 ∨ 600 < leAt body 2 2 ∨ leAt body 4 4 < 60 ∨
        86400 < leAt body 4 4) →
        exec (.timersSet h) s = .next ((s.popOrder h).answer h 53 tag (.refused .badArgument [])))) ∧
    (s.takes h 57 tag body →
      (1 ≤ leAt body 0 2 → leAt body 0 2 ≤ 256 →
        exec (.attentionSet h) s = .next (((s.popOrder h).setPort h { (s.popOrder h).port h with
          threshold := leAt body 0 2, routineEnable := (leAt body 2 1).testBit 0,
          criticalEnable := (leAt body 2 1).testBit 1, laneEnable := (leAt body 2 1).testBit 2 }).answer h 57 tag
            (.ok (leBytes 2 (leAt body 0 2) ++ leBytes 1 (flagsOf [(leAt body 2 1).testBit 0, (leAt body 2 1).testBit 1,
              (leAt body 2 1).testBit 2]) ++ zeros 1)))) ∧
      ((leAt body 0 2 = 0 ∨ 256 < leAt body 0 2) →
        exec (.attentionSet h) s = .next ((s.popOrder h).answer h 57 tag (.refused .badArgument []))))

/-- Posting a finding (R194): appended while the queue holds fewer than 256; else the oldest ROUTINE finding gives way;
else, all being CRITICAL, the new one is dropped, and a dropped CRITICAL one sets the overflow flag. FINDING_TAKE: the
oldest findings, up to the limit, leave the queue for the reply; the overflow flag clears when none is left; an empty
queue answers EMPTY, a limit outside 1..8 is refused. -/
def Obligations.FindingQueueResult : Prop :=
  (∀ (s : State) (f : Finding),
    (s.fq.findings.length < 256 → s.post f = { s with fq := { s.fq with findings := s.fq.findings ++ [f] } }) ∧
    (∀ before g after, 256 ≤ s.fq.findings.length → s.fq.findings = before ++ g :: after → g.critical = false →
      (∀ x ∈ before, x.critical = true) →
      s.post f = { s with fq := { s.fq with
        findings := before ++ after ++ [f], dropped := min (s.fq.dropped + 1) 65535 } }) ∧
    (256 ≤ s.fq.findings.length → (∀ x ∈ s.fq.findings, x.critical = true) →
      s.post f = { s with fq := { s.fq with
        dropped := min (s.fq.dropped + 1) 65535, overflow := s.fq.overflow || f.critical } })) ∧
  ∀ (h : Head) (tag : Half) (body : List Byte) (s : State), s.takes h 56 tag body →
    ((leAt body 0 1 = 0 ∨ 8 < leAt body 0 1) →
      exec (.findingTake h) s = .next ((s.popOrder h).answer h 56 tag (.refused .badArgument []))) ∧
    (1 ≤ leAt body 0 1 → leAt body 0 1 ≤ 8 →
      (s.fq.findings = [] → exec (.findingTake h) s = .next ((s.popOrder h).answer h 56 tag .empty)) ∧
      ∀ taken left overflow, taken ≠ [] → s.fq.findings = taken ++ left →
        (taken.length = leAt body 0 1 ∨ taken.length ≤ leAt body 0 1 ∧ left = []) →
        overflow = (s.fq.overflow && !left.isEmpty) →
        exec (.findingTake h) s = .next (({ s.popOrder h with fq := ⟨left, overflow, s.fq.dropped⟩ }).answer h 56 tag
          (.ok (leBytes 1 taken.length ++ leBytes 1 (boolNat overflow) ++ leBytes 2 left.length ++
            leBytes 2 s.fq.dropped ++ zeros 2 ++ taken.flatMap Finding.body))))

/-- STATUS: it answers with the 108-byte snapshot of the moment and clears the head's own overrun indicator and the
dropped count, and nothing else. -/
def Obligations.StatusResult : Prop :=
  ∀ (h : Head) (tag : Half) (s : State), s.takes h 58 tag [] →
    exec (.status h) s = .next ((({ s.popOrder h with fq := { s.fq with dropped := 0 } }).setPort h
      { (s.popOrder h).port h with overrun := false }).answer h 58 tag (.ok ((s.popOrder h).statusBody h))) ∧
    ((s.popOrder h).statusBody h).length = 108
end

