-- ==== Sys2Proof/Laws/State.lean ====
section
/-! SUPPORT. Laws/State.lean: the small lemmas of the state's updates: what each one leaves, field by field, what the port
updates make of a port, and what sound states there are at the start. -/

namespace Sys2Proof.Machine

/-! ### post -/

section

variable (s : State) (f : Finding)

@[simp] theorem State.post_media : (s.post f).media = s.media := rfl
@[simp] theorem State.post_reels : (s.post f).reels = s.reels := rfl
@[simp] theorem State.post_lanes : (s.post f).lanes = s.lanes := rfl
@[simp] theorem State.post_windows : (s.post f).windows = s.windows := rfl
@[simp] theorem State.post_disputes : (s.post f).disputes = s.disputes := rfl
@[simp] theorem State.post_repairs : (s.post f).repairs = s.repairs := rfl
@[simp] theorem State.post_queue : (s.post f).queue = s.queue := rfl
@[simp] theorem State.post_walker : (s.post f).walker = s.walker := rfl
@[simp] theorem State.post_slots : (s.post f).slots = s.slots := rfl
@[simp] theorem State.post_bands : (s.post f).bands = s.bands := rfl
@[simp] theorem State.post_day : (s.post f).day = s.day := rfl
@[simp] theorem State.post_pacer : (s.post f).pacer = s.pacer := rfl
@[simp] theorem State.post_ladder : (s.post f).ladder = s.ladder := rfl
@[simp] theorem State.post_limits : (s.post f).limits = s.limits := rfl
@[simp] theorem State.post_portA : (s.post f).portA = s.portA := rfl
@[simp] theorem State.post_portB : (s.post f).portB = s.portB := rfl
@[simp] theorem State.post_pending : (s.post f).pending = s.pending := rfl

end

/-! ### modMedium -/

section

variable (s : State) (id : Nat) (f : Medium → Medium)

@[simp] theorem State.modMedium_reels : (s.modMedium id f).reels = s.reels := rfl
@[simp] theorem State.modMedium_lanes : (s.modMedium id f).lanes = s.lanes := rfl
@[simp] theorem State.modMedium_windows : (s.modMedium id f).windows = s.windows := rfl
@[simp] theorem State.modMedium_disputes : (s.modMedium id f).disputes = s.disputes := rfl
@[simp] theorem State.modMedium_repairs : (s.modMedium id f).repairs = s.repairs := rfl
@[simp] theorem State.modMedium_queue : (s.modMedium id f).queue = s.queue := rfl
@[simp] theorem State.modMedium_walker : (s.modMedium id f).walker = s.walker := rfl
@[simp] theorem State.modMedium_slots : (s.modMedium id f).slots = s.slots := rfl
@[simp] theorem State.modMedium_bands : (s.modMedium id f).bands = s.bands := rfl
@[simp] theorem State.modMedium_day : (s.modMedium id f).day = s.day := rfl
@[simp] theorem State.modMedium_pacer : (s.modMedium id f).pacer = s.pacer := rfl
@[simp] theorem State.modMedium_ladder : (s.modMedium id f).ladder = s.ladder := rfl
@[simp] theorem State.modMedium_limits : (s.modMedium id f).limits = s.limits := rfl
@[simp] theorem State.modMedium_fq : (s.modMedium id f).fq = s.fq := rfl
@[simp] theorem State.modMedium_portA : (s.modMedium id f).portA = s.portA := rfl
@[simp] theorem State.modMedium_portB : (s.modMedium id f).portB = s.portB := rfl
@[simp] theorem State.modMedium_pending : (s.modMedium id f).pending = s.pending := rfl

end

/-! ### modSeg -/

section

variable (s : State) (g : SegId) (f : SegRec → SegRec)

@[simp] theorem State.modSeg_media : (s.modSeg g f).media = s.media := rfl
@[simp] theorem State.modSeg_lanes : (s.modSeg g f).lanes = s.lanes := rfl
@[simp] theorem State.modSeg_windows : (s.modSeg g f).windows = s.windows := rfl
@[simp] theorem State.modSeg_disputes : (s.modSeg g f).disputes = s.disputes := rfl
@[simp] theorem State.modSeg_repairs : (s.modSeg g f).repairs = s.repairs := rfl
@[simp] theorem State.modSeg_queue : (s.modSeg g f).queue = s.queue := rfl
@[simp] theorem State.modSeg_walker : (s.modSeg g f).walker = s.walker := rfl
@[simp] theorem State.modSeg_slots : (s.modSeg g f).slots = s.slots := rfl
@[simp] theorem State.modSeg_bands : (s.modSeg g f).bands = s.bands := rfl
@[simp] theorem State.modSeg_day : (s.modSeg g f).day = s.day := rfl
@[simp] theorem State.modSeg_pacer : (s.modSeg g f).pacer = s.pacer := rfl
@[simp] theorem State.modSeg_ladder : (s.modSeg g f).ladder = s.ladder := rfl
@[simp] theorem State.modSeg_limits : (s.modSeg g f).limits = s.limits := rfl
@[simp] theorem State.modSeg_fq : (s.modSeg g f).fq = s.fq := rfl
@[simp] theorem State.modSeg_portA : (s.modSeg g f).portA = s.portA := rfl
@[simp] theorem State.modSeg_portB : (s.modSeg g f).portB = s.portB := rfl
@[simp] theorem State.modSeg_pending : (s.modSeg g f).pending = s.pending := rfl

end

/-! ### chargeCredit -/

section

variable (s : State) (n : Nat)

@[simp] theorem State.chargeCredit_media : (s.chargeCredit n).media = s.media := rfl
@[simp] theorem State.chargeCredit_reels : (s.chargeCredit n).reels = s.reels := rfl
@[simp] theorem State.chargeCredit_lanes : (s.chargeCredit n).lanes = s.lanes := rfl
@[simp] theorem State.chargeCredit_windows : (s.chargeCredit n).windows = s.windows := rfl
@[simp] theorem State.chargeCredit_disputes : (s.chargeCredit n).disputes = s.disputes := rfl
@[simp] theorem State.chargeCredit_repairs : (s.chargeCredit n).repairs = s.repairs := rfl
@[simp] theorem State.chargeCredit_queue : (s.chargeCredit n).queue = s.queue := rfl
@[simp] theorem State.chargeCredit_walker : (s.chargeCredit n).walker = s.walker := rfl
@[simp] theorem State.chargeCredit_slots : (s.chargeCredit n).slots = s.slots := rfl
@[simp] theorem State.chargeCredit_bands : (s.chargeCredit n).bands = s.bands := rfl
@[simp] theorem State.chargeCredit_day : (s.chargeCredit n).day = s.day := rfl
@[simp] theorem State.chargeCredit_ladder : (s.chargeCredit n).ladder = s.ladder := rfl
@[simp] theorem State.chargeCredit_limits : (s.chargeCredit n).limits = s.limits := rfl
@[simp] theorem State.chargeCredit_fq : (s.chargeCredit n).fq = s.fq := rfl
@[simp] theorem State.chargeCredit_portA : (s.chargeCredit n).portA = s.portA := rfl
@[simp] theorem State.chargeCredit_portB : (s.chargeCredit n).portB = s.portB := rfl
@[simp] theorem State.chargeCredit_pending : (s.chargeCredit n).pending = s.pending := rfl

end

/-! ### startWaiting -/

section

variable (s : State) (o : Owner)

@[simp] theorem State.startWaiting_media : (s.startWaiting o).media = s.media := rfl
@[simp] theorem State.startWaiting_reels : (s.startWaiting o).reels = s.reels := rfl
@[simp] theorem State.startWaiting_lanes : (s.startWaiting o).lanes = s.lanes := rfl
@[simp] theorem State.startWaiting_windows : (s.startWaiting o).windows = s.windows := rfl
@[simp] theorem State.startWaiting_disputes : (s.startWaiting o).disputes = s.disputes := rfl
@[simp] theorem State.startWaiting_repairs : (s.startWaiting o).repairs = s.repairs := rfl
@[simp] theorem State.startWaiting_walker : (s.startWaiting o).walker = s.walker := rfl
@[simp] theorem State.startWaiting_slots : (s.startWaiting o).slots = s.slots := rfl
@[simp] theorem State.startWaiting_bands : (s.startWaiting o).bands = s.bands := rfl
@[simp] theorem State.startWaiting_day : (s.startWaiting o).day = s.day := rfl
@[simp] theorem State.startWaiting_pacer : (s.startWaiting o).pacer = s.pacer := rfl
@[simp] theorem State.startWaiting_ladder : (s.startWaiting o).ladder = s.ladder := rfl
@[simp] theorem State.startWaiting_limits : (s.startWaiting o).limits = s.limits := rfl
@[simp] theorem State.startWaiting_fq : (s.startWaiting o).fq = s.fq := rfl
@[simp] theorem State.startWaiting_portA : (s.startWaiting o).portA = s.portA := rfl
@[simp] theorem State.startWaiting_portB : (s.startWaiting o).portB = s.portB := rfl
@[simp] theorem State.startWaiting_pending : (s.startWaiting o).pending = s.pending := rfl

end

/-! ### stopWaiting -/

section

variable (s : State) (o : Owner)

@[simp] theorem State.stopWaiting_media : (s.stopWaiting o).media = s.media := rfl
@[simp] theorem State.stopWaiting_reels : (s.stopWaiting o).reels = s.reels := rfl
@[simp] theorem State.stopWaiting_lanes : (s.stopWaiting o).lanes = s.lanes := rfl
@[simp] theorem State.stopWaiting_windows : (s.stopWaiting o).windows = s.windows := rfl
@[simp] theorem State.stopWaiting_disputes : (s.stopWaiting o).disputes = s.disputes := rfl
@[simp] theorem State.stopWaiting_repairs : (s.stopWaiting o).repairs = s.repairs := rfl
@[simp] theorem State.stopWaiting_walker : (s.stopWaiting o).walker = s.walker := rfl
@[simp] theorem State.stopWaiting_slots : (s.stopWaiting o).slots = s.slots := rfl
@[simp] theorem State.stopWaiting_bands : (s.stopWaiting o).bands = s.bands := rfl
@[simp] theorem State.stopWaiting_day : (s.stopWaiting o).day = s.day := rfl
@[simp] theorem State.stopWaiting_pacer : (s.stopWaiting o).pacer = s.pacer := rfl
@[simp] theorem State.stopWaiting_ladder : (s.stopWaiting o).ladder = s.ladder := rfl
@[simp] theorem State.stopWaiting_limits : (s.stopWaiting o).limits = s.limits := rfl
@[simp] theorem State.stopWaiting_fq : (s.stopWaiting o).fq = s.fq := rfl
@[simp] theorem State.stopWaiting_portA : (s.stopWaiting o).portA = s.portA := rfl
@[simp] theorem State.stopWaiting_portB : (s.stopWaiting o).portB = s.portB := rfl
@[simp] theorem State.stopWaiting_pending : (s.stopWaiting o).pending = s.pending := rfl

end

/-! ### modItem -/

section

variable (s : State) (tag : Nat) (f : Item → Item)

@[simp] theorem State.modItem_media : (s.modItem tag f).media = s.media := rfl
@[simp] theorem State.modItem_reels : (s.modItem tag f).reels = s.reels := rfl
@[simp] theorem State.modItem_lanes : (s.modItem tag f).lanes = s.lanes := rfl
@[simp] theorem State.modItem_windows : (s.modItem tag f).windows = s.windows := rfl
@[simp] theorem State.modItem_disputes : (s.modItem tag f).disputes = s.disputes := rfl
@[simp] theorem State.modItem_repairs : (s.modItem tag f).repairs = s.repairs := rfl
@[simp] theorem State.modItem_walker : (s.modItem tag f).walker = s.walker := rfl
@[simp] theorem State.modItem_slots : (s.modItem tag f).slots = s.slots := rfl
@[simp] theorem State.modItem_bands : (s.modItem tag f).bands = s.bands := rfl
@[simp] theorem State.modItem_day : (s.modItem tag f).day = s.day := rfl
@[simp] theorem State.modItem_pacer : (s.modItem tag f).pacer = s.pacer := rfl
@[simp] theorem State.modItem_ladder : (s.modItem tag f).ladder = s.ladder := rfl
@[simp] theorem State.modItem_limits : (s.modItem tag f).limits = s.limits := rfl
@[simp] theorem State.modItem_fq : (s.modItem tag f).fq = s.fq := rfl
@[simp] theorem State.modItem_portA : (s.modItem tag f).portA = s.portA := rfl
@[simp] theorem State.modItem_portB : (s.modItem tag f).portB = s.portB := rfl
@[simp] theorem State.modItem_pending : (s.modItem tag f).pending = s.pending := rfl

end

/-! ### modDispute -/

section

variable (s : State) (g : SegId) (f : Dispute → Dispute)

@[simp] theorem State.modDispute_media : (s.modDispute g f).media = s.media := rfl
@[simp] theorem State.modDispute_reels : (s.modDispute g f).reels = s.reels := rfl
@[simp] theorem State.modDispute_lanes : (s.modDispute g f).lanes = s.lanes := rfl
@[simp] theorem State.modDispute_windows : (s.modDispute g f).windows = s.windows := rfl
@[simp] theorem State.modDispute_repairs : (s.modDispute g f).repairs = s.repairs := rfl
@[simp] theorem State.modDispute_queue : (s.modDispute g f).queue = s.queue := rfl
@[simp] theorem State.modDispute_walker : (s.modDispute g f).walker = s.walker := rfl
@[simp] theorem State.modDispute_slots : (s.modDispute g f).slots = s.slots := rfl
@[simp] theorem State.modDispute_bands : (s.modDispute g f).bands = s.bands := rfl
@[simp] theorem State.modDispute_day : (s.modDispute g f).day = s.day := rfl
@[simp] theorem State.modDispute_pacer : (s.modDispute g f).pacer = s.pacer := rfl
@[simp] theorem State.modDispute_ladder : (s.modDispute g f).ladder = s.ladder := rfl
@[simp] theorem State.modDispute_limits : (s.modDispute g f).limits = s.limits := rfl
@[simp] theorem State.modDispute_fq : (s.modDispute g f).fq = s.fq := rfl
@[simp] theorem State.modDispute_portA : (s.modDispute g f).portA = s.portA := rfl
@[simp] theorem State.modDispute_portB : (s.modDispute g f).portB = s.portB := rfl
@[simp] theorem State.modDispute_pending : (s.modDispute g f).pending = s.pending := rfl

end

/-! ### removeDispute -/

section

variable (s : State) (g : SegId)

@[simp] theorem State.removeDispute_media : (s.removeDispute g).media = s.media := rfl
@[simp] theorem State.removeDispute_reels : (s.removeDispute g).reels = s.reels := rfl
@[simp] theorem State.removeDispute_lanes : (s.removeDispute g).lanes = s.lanes := rfl
@[simp] theorem State.removeDispute_windows : (s.removeDispute g).windows = s.windows := rfl
@[simp] theorem State.removeDispute_repairs : (s.removeDispute g).repairs = s.repairs := rfl
@[simp] theorem State.removeDispute_queue : (s.removeDispute g).queue =
    { s.queue with waiters := s.queue.waiters.filter fun w => !w.owner.isSlotOf g } := rfl
@[simp] theorem State.removeDispute_walker : (s.removeDispute g).walker = s.walker := rfl
@[simp] theorem State.removeDispute_slots : (s.removeDispute g).slots = s.slots := rfl
@[simp] theorem State.removeDispute_bands : (s.removeDispute g).bands = s.bands := rfl
@[simp] theorem State.removeDispute_day : (s.removeDispute g).day = s.day := rfl
@[simp] theorem State.removeDispute_pacer : (s.removeDispute g).pacer = s.pacer := rfl
@[simp] theorem State.removeDispute_ladder : (s.removeDispute g).ladder = s.ladder := rfl
@[simp] theorem State.removeDispute_limits : (s.removeDispute g).limits = s.limits := rfl
@[simp] theorem State.removeDispute_fq : (s.removeDispute g).fq = s.fq := rfl
@[simp] theorem State.removeDispute_portA : (s.removeDispute g).portA = s.portA := rfl
@[simp] theorem State.removeDispute_portB : (s.removeDispute g).portB = s.portB := rfl
@[simp] theorem State.removeDispute_pending : (s.removeDispute g).pending = s.pending := rfl

end

/-! ### modRepair -/

section

variable (s : State) (c : CopyId) (f : Repair → Repair)

@[simp] theorem State.modRepair_media : (s.modRepair c f).media = s.media := rfl
@[simp] theorem State.modRepair_reels : (s.modRepair c f).reels = s.reels := rfl
@[simp] theorem State.modRepair_lanes : (s.modRepair c f).lanes = s.lanes := rfl
@[simp] theorem State.modRepair_windows : (s.modRepair c f).windows = s.windows := rfl
@[simp] theorem State.modRepair_disputes : (s.modRepair c f).disputes = s.disputes := rfl
@[simp] theorem State.modRepair_queue : (s.modRepair c f).queue = s.queue := rfl
@[simp] theorem State.modRepair_walker : (s.modRepair c f).walker = s.walker := rfl
@[simp] theorem State.modRepair_slots : (s.modRepair c f).slots = s.slots := rfl
@[simp] theorem State.modRepair_bands : (s.modRepair c f).bands = s.bands := rfl
@[simp] theorem State.modRepair_day : (s.modRepair c f).day = s.day := rfl
@[simp] theorem State.modRepair_pacer : (s.modRepair c f).pacer = s.pacer := rfl
@[simp] theorem State.modRepair_ladder : (s.modRepair c f).ladder = s.ladder := rfl
@[simp] theorem State.modRepair_limits : (s.modRepair c f).limits = s.limits := rfl
@[simp] theorem State.modRepair_fq : (s.modRepair c f).fq = s.fq := rfl
@[simp] theorem State.modRepair_portA : (s.modRepair c f).portA = s.portA := rfl
@[simp] theorem State.modRepair_portB : (s.modRepair c f).portB = s.portB := rfl
@[simp] theorem State.modRepair_pending : (s.modRepair c f).pending = s.pending := rfl

end

/-! ### removeRepair -/

section

variable (s : State) (c : CopyId)

@[simp] theorem State.removeRepair_media : (s.removeRepair c).media = s.media := rfl
@[simp] theorem State.removeRepair_reels : (s.removeRepair c).reels = s.reels := rfl
@[simp] theorem State.removeRepair_lanes : (s.removeRepair c).lanes = s.lanes := rfl
@[simp] theorem State.removeRepair_windows : (s.removeRepair c).windows = s.windows := rfl
@[simp] theorem State.removeRepair_disputes : (s.removeRepair c).disputes = s.disputes := rfl
@[simp] theorem State.removeRepair_queue : (s.removeRepair c).queue =
    { s.queue with waiters := s.queue.waiters.filter fun w => w.owner != .repair c } := rfl
@[simp] theorem State.removeRepair_walker : (s.removeRepair c).walker = s.walker := rfl
@[simp] theorem State.removeRepair_slots : (s.removeRepair c).slots = s.slots := rfl
@[simp] theorem State.removeRepair_bands : (s.removeRepair c).bands = s.bands := rfl
@[simp] theorem State.removeRepair_day : (s.removeRepair c).day = s.day := rfl
@[simp] theorem State.removeRepair_pacer : (s.removeRepair c).pacer = s.pacer := rfl
@[simp] theorem State.removeRepair_ladder : (s.removeRepair c).ladder = s.ladder := rfl
@[simp] theorem State.removeRepair_limits : (s.removeRepair c).limits = s.limits := rfl
@[simp] theorem State.removeRepair_fq : (s.removeRepair c).fq = s.fq := rfl
@[simp] theorem State.removeRepair_portA : (s.removeRepair c).portA = s.portA := rfl
@[simp] theorem State.removeRepair_portB : (s.removeRepair c).portB = s.portB := rfl
@[simp] theorem State.removeRepair_pending : (s.removeRepair c).pending = s.pending := rfl

end

/-! ### setLane -/

section

variable (s : State) (n : Nat) (l : Option LaneCtx)

@[simp] theorem State.setLane_media : (s.setLane n l).media = s.media := rfl
@[simp] theorem State.setLane_reels : (s.setLane n l).reels = s.reels := rfl
@[simp] theorem State.setLane_windows : (s.setLane n l).windows = s.windows := rfl
@[simp] theorem State.setLane_disputes : (s.setLane n l).disputes = s.disputes := rfl
@[simp] theorem State.setLane_repairs : (s.setLane n l).repairs = s.repairs := rfl
@[simp] theorem State.setLane_queue : (s.setLane n l).queue = s.queue := rfl
@[simp] theorem State.setLane_walker : (s.setLane n l).walker = s.walker := rfl
@[simp] theorem State.setLane_slots : (s.setLane n l).slots = s.slots := rfl
@[simp] theorem State.setLane_bands : (s.setLane n l).bands = s.bands := rfl
@[simp] theorem State.setLane_day : (s.setLane n l).day = s.day := rfl
@[simp] theorem State.setLane_pacer : (s.setLane n l).pacer = s.pacer := rfl
@[simp] theorem State.setLane_ladder : (s.setLane n l).ladder = s.ladder := rfl
@[simp] theorem State.setLane_limits : (s.setLane n l).limits = s.limits := rfl
@[simp] theorem State.setLane_fq : (s.setLane n l).fq = s.fq := rfl
@[simp] theorem State.setLane_portA : (s.setLane n l).portA = s.portA := rfl
@[simp] theorem State.setLane_portB : (s.setLane n l).portB = s.portB := rfl
@[simp] theorem State.setLane_pending : (s.setLane n l).pending = s.pending := rfl

end

/-! ### setPlanSlot -/

section

variable (s : State) (i : Nat) (p : PlanSlot)

@[simp] theorem State.setPlanSlot_media : (s.setPlanSlot i p).media = s.media := rfl
@[simp] theorem State.setPlanSlot_reels : (s.setPlanSlot i p).reels = s.reels := rfl
@[simp] theorem State.setPlanSlot_lanes : (s.setPlanSlot i p).lanes = s.lanes := rfl
@[simp] theorem State.setPlanSlot_windows : (s.setPlanSlot i p).windows = s.windows := rfl
@[simp] theorem State.setPlanSlot_disputes : (s.setPlanSlot i p).disputes = s.disputes := rfl
@[simp] theorem State.setPlanSlot_repairs : (s.setPlanSlot i p).repairs = s.repairs := rfl
@[simp] theorem State.setPlanSlot_queue : (s.setPlanSlot i p).queue = s.queue := rfl
@[simp] theorem State.setPlanSlot_walker : (s.setPlanSlot i p).walker = s.walker := rfl
@[simp] theorem State.setPlanSlot_bands : (s.setPlanSlot i p).bands = s.bands := rfl
@[simp] theorem State.setPlanSlot_day : (s.setPlanSlot i p).day = s.day := rfl
@[simp] theorem State.setPlanSlot_pacer : (s.setPlanSlot i p).pacer = s.pacer := rfl
@[simp] theorem State.setPlanSlot_ladder : (s.setPlanSlot i p).ladder = s.ladder := rfl
@[simp] theorem State.setPlanSlot_limits : (s.setPlanSlot i p).limits = s.limits := rfl
@[simp] theorem State.setPlanSlot_fq : (s.setPlanSlot i p).fq = s.fq := rfl
@[simp] theorem State.setPlanSlot_portA : (s.setPlanSlot i p).portA = s.portA := rfl
@[simp] theorem State.setPlanSlot_portB : (s.setPlanSlot i p).portB = s.portB := rfl
@[simp] theorem State.setPlanSlot_pending : (s.setPlanSlot i p).pending = s.pending := rfl

end

/-! ### setPort -/

section

variable (s : State) (h : Head) (p : Port)

@[simp] theorem State.setPort_media : (s.setPort h p).media = s.media := by cases h <;> rfl
@[simp] theorem State.setPort_reels : (s.setPort h p).reels = s.reels := by cases h <;> rfl
@[simp] theorem State.setPort_lanes : (s.setPort h p).lanes = s.lanes := by cases h <;> rfl
@[simp] theorem State.setPort_windows : (s.setPort h p).windows = s.windows := by cases h <;> rfl
@[simp] theorem State.setPort_disputes : (s.setPort h p).disputes = s.disputes := by cases h <;> rfl
@[simp] theorem State.setPort_repairs : (s.setPort h p).repairs = s.repairs := by cases h <;> rfl
@[simp] theorem State.setPort_queue : (s.setPort h p).queue = s.queue := by cases h <;> rfl
@[simp] theorem State.setPort_walker : (s.setPort h p).walker = s.walker := by cases h <;> rfl
@[simp] theorem State.setPort_slots : (s.setPort h p).slots = s.slots := by cases h <;> rfl
@[simp] theorem State.setPort_bands : (s.setPort h p).bands = s.bands := by cases h <;> rfl
@[simp] theorem State.setPort_day : (s.setPort h p).day = s.day := by cases h <;> rfl
@[simp] theorem State.setPort_pacer : (s.setPort h p).pacer = s.pacer := by cases h <;> rfl
@[simp] theorem State.setPort_ladder : (s.setPort h p).ladder = s.ladder := by cases h <;> rfl
@[simp] theorem State.setPort_limits : (s.setPort h p).limits = s.limits := by cases h <;> rfl
@[simp] theorem State.setPort_fq : (s.setPort h p).fq = s.fq := by cases h <;> rfl
@[simp] theorem State.setPort_pending : (s.setPort h p).pending = s.pending := by cases h <;> rfl

end

/-! ### popOrder -/

section

variable (s : State) (h : Head)

@[simp] theorem State.popOrder_media : (s.popOrder h).media = s.media := by cases h <;> rfl
@[simp] theorem State.popOrder_reels : (s.popOrder h).reels = s.reels := by cases h <;> rfl
@[simp] theorem State.popOrder_lanes : (s.popOrder h).lanes = s.lanes := by cases h <;> rfl
@[simp] theorem State.popOrder_windows : (s.popOrder h).windows = s.windows := by cases h <;> rfl
@[simp] theorem State.popOrder_disputes : (s.popOrder h).disputes = s.disputes := by cases h <;> rfl
@[simp] theorem State.popOrder_repairs : (s.popOrder h).repairs = s.repairs := by cases h <;> rfl
@[simp] theorem State.popOrder_queue : (s.popOrder h).queue = s.queue := by cases h <;> rfl
@[simp] theorem State.popOrder_walker : (s.popOrder h).walker = s.walker := by cases h <;> rfl
@[simp] theorem State.popOrder_slots : (s.popOrder h).slots = s.slots := by cases h <;> rfl
@[simp] theorem State.popOrder_bands : (s.popOrder h).bands = s.bands := by cases h <;> rfl
@[simp] theorem State.popOrder_day : (s.popOrder h).day = s.day := by cases h <;> rfl
@[simp] theorem State.popOrder_pacer : (s.popOrder h).pacer = s.pacer := by cases h <;> rfl
@[simp] theorem State.popOrder_ladder : (s.popOrder h).ladder = s.ladder := by cases h <;> rfl
@[simp] theorem State.popOrder_limits : (s.popOrder h).limits = s.limits := by cases h <;> rfl
@[simp] theorem State.popOrder_fq : (s.popOrder h).fq = s.fq := by cases h <;> rfl
@[simp] theorem State.popOrder_pending : (s.popOrder h).pending = s.pending := by cases h <;> rfl

end

/-! ### reply -/

section

variable (s : State) (h : Head) (code : Nat) (tag : Half) (a : Answer)

@[simp] theorem State.reply_media : (s.reply h code tag a).media = s.media := by cases h <;> rfl
@[simp] theorem State.reply_reels : (s.reply h code tag a).reels = s.reels := by cases h <;> rfl
@[simp] theorem State.reply_lanes : (s.reply h code tag a).lanes = s.lanes := by cases h <;> rfl
@[simp] theorem State.reply_windows : (s.reply h code tag a).windows = s.windows := by cases h <;> rfl
@[simp] theorem State.reply_disputes : (s.reply h code tag a).disputes = s.disputes := by cases h <;> rfl
@[simp] theorem State.reply_repairs : (s.reply h code tag a).repairs = s.repairs := by cases h <;> rfl
@[simp] theorem State.reply_queue : (s.reply h code tag a).queue = s.queue := by cases h <;> rfl
@[simp] theorem State.reply_walker : (s.reply h code tag a).walker = s.walker := by cases h <;> rfl
@[simp] theorem State.reply_slots : (s.reply h code tag a).slots = s.slots := by cases h <;> rfl
@[simp] theorem State.reply_bands : (s.reply h code tag a).bands = s.bands := by cases h <;> rfl
@[simp] theorem State.reply_day : (s.reply h code tag a).day = s.day := by cases h <;> rfl
@[simp] theorem State.reply_pacer : (s.reply h code tag a).pacer = s.pacer := by cases h <;> rfl
@[simp] theorem State.reply_ladder : (s.reply h code tag a).ladder = s.ladder := by cases h <;> rfl
@[simp] theorem State.reply_limits : (s.reply h code tag a).limits = s.limits := by cases h <;> rfl
@[simp] theorem State.reply_fq : (s.reply h code tag a).fq = s.fq := by cases h <;> rfl
@[simp] theorem State.reply_pending : (s.reply h code tag a).pending = s.pending := by cases h <;> rfl

end

/-! ### reserve -/

section

variable (s : State) (h : Head)

@[simp] theorem State.reserve_media : (s.reserve h).media = s.media := by cases h <;> rfl
@[simp] theorem State.reserve_reels : (s.reserve h).reels = s.reels := by cases h <;> rfl
@[simp] theorem State.reserve_lanes : (s.reserve h).lanes = s.lanes := by cases h <;> rfl
@[simp] theorem State.reserve_windows : (s.reserve h).windows = s.windows := by cases h <;> rfl
@[simp] theorem State.reserve_disputes : (s.reserve h).disputes = s.disputes := by cases h <;> rfl
@[simp] theorem State.reserve_repairs : (s.reserve h).repairs = s.repairs := by cases h <;> rfl
@[simp] theorem State.reserve_queue : (s.reserve h).queue = s.queue := by cases h <;> rfl
@[simp] theorem State.reserve_walker : (s.reserve h).walker = s.walker := by cases h <;> rfl
@[simp] theorem State.reserve_slots : (s.reserve h).slots = s.slots := by cases h <;> rfl
@[simp] theorem State.reserve_bands : (s.reserve h).bands = s.bands := by cases h <;> rfl
@[simp] theorem State.reserve_day : (s.reserve h).day = s.day := by cases h <;> rfl
@[simp] theorem State.reserve_pacer : (s.reserve h).pacer = s.pacer := by cases h <;> rfl
@[simp] theorem State.reserve_ladder : (s.reserve h).ladder = s.ladder := by cases h <;> rfl
@[simp] theorem State.reserve_limits : (s.reserve h).limits = s.limits := by cases h <;> rfl
@[simp] theorem State.reserve_fq : (s.reserve h).fq = s.fq := by cases h <;> rfl
@[simp] theorem State.reserve_pending : (s.reserve h).pending = s.pending := by cases h <;> rfl

end

/-! ### release -/

section

variable (s : State) (h : Head)

@[simp] theorem State.release_media : (s.release h).media = s.media := by cases h <;> rfl
@[simp] theorem State.release_reels : (s.release h).reels = s.reels := by cases h <;> rfl
@[simp] theorem State.release_lanes : (s.release h).lanes = s.lanes := by cases h <;> rfl
@[simp] theorem State.release_windows : (s.release h).windows = s.windows := by cases h <;> rfl
@[simp] theorem State.release_disputes : (s.release h).disputes = s.disputes := by cases h <;> rfl
@[simp] theorem State.release_repairs : (s.release h).repairs = s.repairs := by cases h <;> rfl
@[simp] theorem State.release_queue : (s.release h).queue = s.queue := by cases h <;> rfl
@[simp] theorem State.release_walker : (s.release h).walker = s.walker := by cases h <;> rfl
@[simp] theorem State.release_slots : (s.release h).slots = s.slots := by cases h <;> rfl
@[simp] theorem State.release_bands : (s.release h).bands = s.bands := by cases h <;> rfl
@[simp] theorem State.release_day : (s.release h).day = s.day := by cases h <;> rfl
@[simp] theorem State.release_pacer : (s.release h).pacer = s.pacer := by cases h <;> rfl
@[simp] theorem State.release_ladder : (s.release h).ladder = s.ladder := by cases h <;> rfl
@[simp] theorem State.release_limits : (s.release h).limits = s.limits := by cases h <;> rfl
@[simp] theorem State.release_fq : (s.release h).fq = s.fq := by cases h <;> rfl
@[simp] theorem State.release_pending : (s.release h).pending = s.pending := by cases h <;> rfl

end

/-! ### settle -/

section

variable (s : State)

@[simp] theorem State.settle_media : (s.settle).media = s.media := rfl
@[simp] theorem State.settle_reels : (s.settle).reels = s.reels := rfl
@[simp] theorem State.settle_lanes : (s.settle).lanes = s.lanes := rfl
@[simp] theorem State.settle_windows : (s.settle).windows = s.windows := rfl
@[simp] theorem State.settle_disputes : (s.settle).disputes = s.disputes := rfl
@[simp] theorem State.settle_repairs : (s.settle).repairs = s.repairs := rfl
@[simp] theorem State.settle_queue : (s.settle).queue = s.queue := rfl
@[simp] theorem State.settle_walker : (s.settle).walker = s.walker := rfl
@[simp] theorem State.settle_slots : (s.settle).slots = s.slots := rfl
@[simp] theorem State.settle_bands : (s.settle).bands = s.bands := rfl
@[simp] theorem State.settle_day : (s.settle).day = s.day := rfl
@[simp] theorem State.settle_pacer : (s.settle).pacer = s.pacer := rfl
@[simp] theorem State.settle_ladder : (s.settle).ladder = s.ladder := rfl
@[simp] theorem State.settle_limits : (s.settle).limits = s.limits := rfl
@[simp] theorem State.settle_fq : (s.settle).fq = s.fq := rfl
@[simp] theorem State.settle_pending : (s.settle).pending = s.pending := rfl

end

/-! ### gotoEntry -/

section

variable (s : State) (i : Nat)

@[simp] theorem State.gotoEntry_media : (s.gotoEntry i).media = s.media := rfl
@[simp] theorem State.gotoEntry_reels : (s.gotoEntry i).reels = s.reels := rfl
@[simp] theorem State.gotoEntry_lanes : (s.gotoEntry i).lanes = s.lanes := rfl
@[simp] theorem State.gotoEntry_windows : (s.gotoEntry i).windows = s.windows := rfl
@[simp] theorem State.gotoEntry_disputes : (s.gotoEntry i).disputes = s.disputes := rfl
@[simp] theorem State.gotoEntry_repairs : (s.gotoEntry i).repairs = s.repairs := rfl
@[simp] theorem State.gotoEntry_queue : (s.gotoEntry i).queue = s.queue := rfl
@[simp] theorem State.gotoEntry_slots : (s.gotoEntry i).slots = s.slots := rfl
@[simp] theorem State.gotoEntry_bands : (s.gotoEntry i).bands = s.bands := rfl
@[simp] theorem State.gotoEntry_day : (s.gotoEntry i).day = s.day := rfl
@[simp] theorem State.gotoEntry_pacer : (s.gotoEntry i).pacer = s.pacer := rfl
@[simp] theorem State.gotoEntry_ladder : (s.gotoEntry i).ladder = s.ladder := rfl
@[simp] theorem State.gotoEntry_limits : (s.gotoEntry i).limits = s.limits := rfl
@[simp] theorem State.gotoEntry_fq : (s.gotoEntry i).fq = s.fq := rfl
@[simp] theorem State.gotoEntry_portA : (s.gotoEntry i).portA = s.portA := rfl
@[simp] theorem State.gotoEntry_portB : (s.gotoEntry i).portB = s.portB := rfl
@[simp] theorem State.gotoEntry_pending : (s.gotoEntry i).pending = s.pending := rfl

end

/-! ### Reading back what an update wrote -/

@[simp] theorem State.port_setPort (s : State) (h : Head) (p : Port) : (s.setPort h p).port h = p := by cases h <;> rfl

theorem State.port_setPort_other (s : State) {h k : Head} (p : Port) (hk : k ≠ h) : (s.setPort h p).port k = s.port k := by
  cases h <;> cases k <;> simp_all [State.setPort, State.port]

@[simp] theorem State.setPort_setPort (s : State) (h : Head) (p q : Port) : (s.setPort h p).setPort h q = s.setPort h q := by
  cases h <;> rfl

@[simp] theorem State.setPort_port (s : State) (h : Head) : s.setPort h (s.port h) = s := by cases h <;> rfl

@[simp] theorem State.post_fq (s : State) (f : Finding) : (s.post f).fq = s.fq.post f := rfl

@[simp] theorem State.chargeCredit_pacer (s : State) (n : Nat) : (s.chargeCredit n).pacer = s.pacer.charge n := rfl

theorem State.lane_setLane (s : State) (n : Nat) (l : Option LaneCtx) (hn : n < 12) : (s.setLane n l).lane n = l := by
  simp [State.lane, State.setLane, hn]

theorem State.lane_setLane_other (s : State) {n m : Nat} (l : Option LaneCtx) (hm : m ≠ n) :
    (s.setLane n l).lane m = s.lane m := by
  simp [State.lane, State.setLane, Ne.symm hm]

theorem State.slot_setPlanSlot (s : State) (i : Nat) (p : PlanSlot) (hi : i < 2) : (s.setPlanSlot i p).slot i = p := by
  simp [State.slot, State.setPlanSlot, hi]

theorem State.slot_setPlanSlot_other (s : State) {i j : Nat} (p : PlanSlot) (hj : j ≠ i) :
    (s.setPlanSlot i p).slot j = s.slot j := by
  simp [State.slot, State.setPlanSlot, Ne.symm hj]

/-! ### What a port keeps -/

section

variable (p : Port) (code : Nat) (tag : Half) (a : Answer)

@[simp] theorem Port.postReply_link : (p.postReply code tag a).link = p.link := rfl
@[simp] theorem Port.postReply_orderPost : (p.postReply code tag a).orderPost = p.orderPost := rfl
@[simp] theorem Port.postReply_orderTake : (p.postReply code tag a).orderTake = p.orderTake := rfl
@[simp] theorem Port.postReply_replyPost : (p.postReply code tag a).replyPost = p.replyPost + 1 := rfl
@[simp] theorem Port.postReply_replyRead : (p.postReply code tag a).replyRead = p.replyRead := rfl
@[simp] theorem Port.postReply_reserved : (p.postReply code tag a).reserved = p.reserved := rfl
@[simp] theorem Port.postReply_overrun : (p.postReply code tag a).overrun = p.overrun := rfl
@[simp] theorem Port.postReply_threshold : (p.postReply code tag a).threshold = p.threshold := rfl
@[simp] theorem Port.postReply_routineEnable : (p.postReply code tag a).routineEnable = p.routineEnable := rfl
@[simp] theorem Port.postReply_criticalEnable : (p.postReply code tag a).criticalEnable = p.criticalEnable := rfl
@[simp] theorem Port.postReply_laneEnable : (p.postReply code tag a).laneEnable = p.laneEnable := rfl
@[simp] theorem Port.postReply_line : (p.postReply code tag a).line = p.line := rfl

end

end Sys2Proof.Machine
end

