-- ==== Sys2Proof/Laws/Memory.lean ====
section
/-! SUPPORT. Laws/Memory.lean: the byte memories: what a write and a store make of each byte, and that every operation
keeps the canonical form. -/

namespace Sys2Proof.Machine

/-! ### Canonical form -/

theorem Memory.wfFrom_mono {m : List Host.Cell} {a b : Nat} (hab : a ≤ b) (h : Memory.wfFrom b m = true) :
    Memory.wfFrom a m = true := by
  cases m with
  | nil => rfl
  | cons c m =>
    obtain ⟨k, v⟩ := c
    simp only [Memory.wfFrom, Bool.and_eq_true, decide_eq_true_eq] at h ⊢
    exact ⟨⟨by omega, h.1.2⟩, h.2⟩

theorem Memory.find?_of_lt {m : List Host.Cell} {a low : Nat} (h : Memory.wfFrom low m = true) (ha : a < low) :
    Sparse.find? a m = none := by
  cases m with
  | nil => rfl
  | cons c m =>
    obtain ⟨k, v⟩ := c
    simp only [Memory.wfFrom, Bool.and_eq_true, decide_eq_true_eq] at h
    simp [Sparse.find?, show a < k by omega]

theorem Memory.wfFrom_put {m : List Host.Cell} {low a : Nat} {b : Byte} (hb : b ≠ Memory.unlisted) (ha : low ≤ a)
    (h : Memory.wfFrom low m = true) : Memory.wfFrom low (Sparse.put a b m) = true := by
  induction m generalizing low with
  | nil => simp [Sparse.put, Memory.wfFrom, ha, hb]
  | cons c m ih =>
    obtain ⟨k, v⟩ := c
    simp only [Memory.wfFrom, Bool.and_eq_true, decide_eq_true_eq] at h
    unfold Sparse.put
    split
    · simp only [Memory.wfFrom, Bool.and_eq_true, decide_eq_true_eq]
      exact ⟨⟨ha, hb⟩, ⟨by omega, h.1.2⟩, h.2⟩
    · split
      · subst_vars
        simp only [Memory.wfFrom, Bool.and_eq_true, decide_eq_true_eq]
        exact ⟨⟨ha, hb⟩, h.2⟩
      · simp only [Memory.wfFrom, Bool.and_eq_true, decide_eq_true_eq]
        exact ⟨h.1, ih (by omega) h.2⟩

theorem Memory.wfFrom_erase {m : List Host.Cell} {low a : Nat} (h : Memory.wfFrom low m = true) :
    Memory.wfFrom low (Sparse.erase a m) = true := by
  induction m generalizing low with
  | nil => rfl
  | cons c m ih =>
    obtain ⟨k, v⟩ := c
    unfold Sparse.erase
    split
    · exact h
    · simp only [Memory.wfFrom, Bool.and_eq_true, decide_eq_true_eq] at h
      split
      · exact Memory.wfFrom_mono (by omega) h.2
      · simp only [Memory.wfFrom, Bool.and_eq_true, decide_eq_true_eq]
        exact ⟨h.1, ih h.2⟩

/-- A write keeps the canonical form. -/
theorem Memory.wf_write {m : List Host.Cell} (a : Nat) (b : Byte) (h : Memory.wf m = true) :
    Memory.wf (Memory.write m a b) = true := by
  unfold Memory.write
  split
  · exact Memory.wfFrom_erase h
  · exact Memory.wfFrom_put ‹_› (Nat.zero_le a) h

/-- A store keeps the canonical form. -/
theorem Memory.wf_store {m : List Host.Cell} (a : Nat) (bs : List Byte) (h : Memory.wf m = true) :
    Memory.wf (Memory.store m a bs) = true := by
  induction bs generalizing m a with
  | nil => exact h
  | cons b bs ih => exact ih (a + 1) (Memory.wf_write a b h)

/-- A head's writes keep the canonical form. -/
theorem Port.wf_headStore (p : Port) (off : Nat) (bs : List Byte) {m : List Host.Cell} (h : Memory.wf m = true) :
    Memory.wf (p.headStore off bs m) = true := by
  induction bs generalizing off m with
  | nil => exact h
  | cons b bs ih =>
    unfold Port.headStore
    split
    · exact ih (off + 1) (Memory.wf_write off b h)
    · exact ih (off + 1) h

/-! ### Reading after writing -/

theorem Sparse.find?_put {α : Type} (a k : Nat) (v : α) (m : List (Nat × α)) :
    Sparse.find? a (Sparse.put k v m) = if a = k then some v else Sparse.find? a m := by
  induction m with
  | nil =>
    by_cases h : a = k
    · simp [Sparse.put, Sparse.find?, h]
    · simp only [Sparse.put, Sparse.find?, h, if_false, ite_self]
  | cons c m ih =>
    obtain ⟨j, w⟩ := c
    unfold Sparse.put
    split
    · by_cases h : a = k
      · simp [Sparse.find?, h]
      · simp only [Sparse.find?, h, if_false]
        repeat' split
        all_goals first | rfl | omega
    · split
      · subst_vars
        by_cases h : a = j
        · simp [Sparse.find?, h]
        · simp [Sparse.find?, h]
      · by_cases h : a = k
        · subst h
          simp only [Sparse.find?, ih, if_true]
          repeat' split
          all_goals first | rfl | omega
        · simp only [Sparse.find?, ih, h, if_false]

theorem Memory.find?_erase {m : List Host.Cell} {low : Nat} (a k : Nat) (h : Memory.wfFrom low m = true) :
    Sparse.find? a (Sparse.erase k m) = if a = k then none else Sparse.find? a m := by
  induction m generalizing low with
  | nil => simp [Sparse.erase, Sparse.find?]
  | cons c m ih =>
    obtain ⟨j, w⟩ := c
    simp only [Memory.wfFrom, Bool.and_eq_true, decide_eq_true_eq] at h
    unfold Sparse.erase
    split
    · by_cases ha : a = k
      · simp [Sparse.find?, *]
      · simp [ha]
    · split
      · subst_vars
        by_cases ha : a = j
        · rw [if_pos ha, ha]; exact Memory.find?_of_lt h.2 (by omega)
        · simp only [Sparse.find?, ha, if_false]
          split
          · exact Memory.find?_of_lt h.2 (by omega)
          · rfl
      · by_cases ha : a = k
        · subst ha
          simp only [Sparse.find?, ih h.2, if_true]
          repeat' split
          all_goals rfl
        · simp only [Sparse.find?, ih h.2, ha, if_false]

/-- What each byte reads as after a write. -/
theorem Memory.read_write {m : List Host.Cell} (h : Memory.wf m = true) (a k : Nat) (b : Byte) :
    Memory.read (Memory.write m k b) a = if a = k then b else Memory.read m a := by
  unfold Memory.write Memory.read
  split
  · rw [Memory.find?_erase a k h]
    split <;> simp_all
  · rw [Sparse.find?_put]
    split <;> simp

/-- What each byte reads as after a store: the stored byte within the range, and what it was outside it. -/
theorem Memory.read_store {m : List Host.Cell} (h : Memory.wf m = true) (bs : List Byte) (k a : Nat) :
    Memory.read (Memory.store m k bs) a =
      if k ≤ a ∧ a < k + bs.length then (bs[a - k]?).getD 0#8 else Memory.read m a := by
  induction bs generalizing m k with
  | nil => simp only [Memory.store, List.length_nil]; split <;> first | rfl | omega
  | cons b bs ih =>
    rw [Memory.store, ih (Memory.wf_write k b h) (k + 1), Memory.read_write h]
    simp only [List.length_cons]
    by_cases h1 : a = k
    · subst h1
      simp
    · by_cases h2 : k + 1 ≤ a ∧ a < k + 1 + bs.length
      · rw [if_pos h2, if_pos (by omega), show a - k = (a - (k + 1)) + 1 by omega]
        simp
      · rw [if_neg h2, if_neg h1, if_neg (by omega)]

/-! ### Loading -/

@[simp] theorem Memory.load_length (m : List Host.Cell) (a n : Nat) : (Memory.load m a n).length = n := by
  induction n generalizing m a with
  | zero => rfl
  | succ n ih => simp [Memory.load, ih]

theorem Memory.find?_dropBelow (m : List Host.Cell) {a low : Nat} (ha : low ≤ a) :
    Sparse.find? a (Memory.dropBelow low m) = Sparse.find? a m := by
  induction m with
  | nil => rfl
  | cons c m ih =>
    obtain ⟨k, v⟩ := c
    unfold Memory.dropBelow
    split
    · rw [ih]
      simp [Sparse.find?, show ¬ a < k by omega, show ¬ a = k by omega]
    · rfl

/-- Each loaded byte is the byte read at its address. -/
theorem Memory.load_getElem? (m : List Host.Cell) (a n i : Nat) (hi : i < n) :
    (Memory.load m a n)[i]? = some (Memory.read m (a + i)) := by
  induction n generalizing m a i with
  | zero => omega
  | succ n ih =>
    cases i with
    | zero => simp [Memory.load]
    | succ i =>
      rw [Memory.load, List.getElem?_cons_succ, ih _ _ i (by omega), show a + 1 + i = a + (i + 1) by omega]
      simp only [Memory.read, Memory.find?_dropBelow m (show a + 1 ≤ a + (i + 1) by omega)]

end Sys2Proof.Machine
end

