-- ==== Sys2Proof/Laws/Works.lean ====
section
/-! SUPPORT. Laws/Works.lean: what the work inside an event can do. Charges, findings, items, disputes, repairs and trust
are worked by many shared operations; none of them touches lanes, windows, plan slots, ports, settings or the pending
commands; credit moves by charges and refunds only; findings are only posted; the walker is at most woken; and every medium
keeps its place on the ladder. `State.Works` says that once, and each operation has one lemma. -/

namespace Sys2Proof.Machine

/-- What the work inside an event can make of a state. -/
structure State.Works (s t : State) : Prop where
  lanes : t.lanes = s.lanes
  windows : t.windows = s.windows
  slots : t.slots = s.slots
  bands : t.bands = s.bands
  day : t.day = s.day
  ladder : t.ladder = s.ladder
  limits : t.limits = s.limits
  portA : t.portA = s.portA
  portB : t.portB = s.portB
  pending : t.pending = s.pending
  pacer : ∃ c, t.pacer = { s.pacer with credit := c } ∧
    (s.pacer.floor ≤ s.pacer.credit → s.pacer.credit ≤ s.pacer.cap → s.pacer.floor ≤ c ∧ c ≤ s.pacer.cap)
  fq : ∃ l : List Finding, t.fq = l.foldl (fun q f => q.post f) s.fq
  walker : t.walker = s.walker ∨
    ((s.walker.state = .waitCredit ∨ s.walker.state = .waitRoom) ∧ t.walker = { s.walker with state := .walking })
  media : (∀ m ∈ s.media, m.placedOn s.ladder) → ∀ m ∈ t.media, m.placedOn s.ladder

namespace State.Works

theorem refl (s : State) : s.Works s where
  lanes := rfl
  windows := rfl
  slots := rfl
  bands := rfl
  day := rfl
  ladder := rfl
  limits := rfl
  portA := rfl
  portB := rfl
  pending := rfl
  pacer := ⟨s.pacer.credit, rfl, fun h1 h2 => ⟨h1, h2⟩⟩
  fq := ⟨[], rfl⟩
  walker := .inl rfl
  media := fun h => h

theorem trans {s t u : State} (h1 : s.Works t) (h2 : t.Works u) : s.Works u where
  lanes := h2.lanes.trans h1.lanes
  windows := h2.windows.trans h1.windows
  slots := h2.slots.trans h1.slots
  bands := h2.bands.trans h1.bands
  day := h2.day.trans h1.day
  ladder := h2.ladder.trans h1.ladder
  limits := h2.limits.trans h1.limits
  portA := h2.portA.trans h1.portA
  portB := h2.portB.trans h1.portB
  pending := h2.pending.trans h1.pending
  pacer := by
    obtain ⟨c, hc, hc'⟩ := h1.pacer
    obtain ⟨d, hd, hd'⟩ := h2.pacer
    refine ⟨d, by rw [hd, hc], fun ha hb => ?_⟩
    have := hc' ha hb
    rw [hc] at hd'
    exact hd' this.1 this.2
  fq := by
    obtain ⟨l, hl⟩ := h1.fq
    obtain ⟨m, hm⟩ := h2.fq
    exact ⟨l ++ m, by rw [hm, hl, List.foldl_append]⟩
  walker := by
    rcases h1.walker with h | ⟨ha, h⟩
    · rw [← h]; exact h2.walker
    · rcases h2.walker with h' | ⟨ha', h'⟩
      · exact .inr ⟨ha, h'.trans h⟩
      · rw [h] at ha'
        simp at ha'
  media := fun h m hm => h1.ladder ▸ h2.media (fun m hm => h1.ladder ▸ h1.media h m hm) m hm

/-- A change of the reels, the disputes, the repairs and the queue alone is work. -/
theorem ofTables (s : State) (r : List Reel) (d : List Dispute) (p : List Repair) (q : Queue) :
    s.Works { s with reels := r, disputes := d, repairs := p, queue := q } :=
  { refl s with }

/-- A fold of work is work. -/
theorem foldl {α : Type} {f : State → α → State} (hf : ∀ (s : State) (a : α), s.Works (f s a)) (l : List α) (s : State) :
    s.Works (l.foldl f s) := by
  induction l generalizing s with
  | nil => exact refl s
  | cons a l ih => exact (hf s a).trans (ih _)

end State.Works

/-! ### Catalogue -/

section

variable (s : State)

theorem State.modSeg_works (g : SegId) (f : SegRec → SegRec) : s.Works (s.modSeg g f) :=
  State.Works.ofTables s _ s.disputes s.repairs s.queue

theorem State.modCopy_works (c : CopyId) (f : CopyRec → CopyRec) : s.Works (s.modCopy c f) := s.modSeg_works _ _

theorem State.setTrust_works (c : CopyId) (t : Trust) : s.Works (s.setTrust c t) := s.modCopy_works _ _

theorem State.setGood_works (c : CopyId) (d : Nat) : s.Works (s.setGood c d) := s.modCopy_works _ _

theorem State.setDeferred_works (c : CopyId) (b : Bool) : s.Works (s.setDeferred c b) := s.modCopy_works _ _

theorem State.setExhausted_works (c : CopyId) (b : Bool) : s.Works (s.setExhausted c b) := s.modCopy_works _ _

theorem State.setItemTag_works (c : CopyId) (t : Option Nat) : s.Works (s.setItemTag c t) := s.modCopy_works _ _

/-! ### Findings -/

theorem State.post_works (f : Finding) : s.Works (s.post f) :=
  { State.Works.refl s with fq := ⟨[f], rfl⟩ }

theorem State.postIfLost_works (g : SegId) : s.Works (s.postIfLost g) := by
  unfold State.postIfLost
  split
  · exact s.post_works _
  · exact State.Works.refl s

/-! ### Charges against media -/

/-- Climbing stops at the first step whose threshold is above the points, or at the end of the ladder. -/
theorem Medium.climb_placed (ladder : List LadderStep) (ts : List LadderStep) (m : Medium)
    (hts : ts = ladder.drop m.position) (hm : m.position ≤ ladder.length) :
    (m.climb ts).1.points = m.points ∧
      ((m.climb ts).1.position = ladder.length ∨
        ∃ t, ladder[(m.climb ts).1.position]? = some t ∧ m.points < t.threshold) := by
  induction ts generalizing m with
  | nil =>
    have h := congrArg List.length hts
    simp at h
    exact ⟨rfl, .inl (by simp only [Medium.climb]; omega)⟩
  | cons t ts ih =>
    have hlt : m.position < ladder.length := by
      by_contra hc
      have h := congrArg List.length hts
      simp at h
      omega
    have hget : ladder[m.position]? = some t := by
      have h := congrArg List.head? hts
      simpa [List.head?_drop] using h.symm
    have htail : ts = ladder.drop (m.position + 1) := by
      have h := congrArg List.tail hts
      simpa [List.tail_drop] using h
    unfold Medium.climb
    split
    · have := ih { m with ladderState := m.ladderState.higher t.state, position := m.position + 1 } htail
        (by simpa using hlt)
      simpa using this
    · exact ⟨rfl, .inr ⟨t, hget, by omega⟩⟩

theorem Medium.placedOn.position_le {ladder : List LadderStep} {m : Medium} (h : m.placedOn ladder) :
    m.position ≤ ladder.length := by
  rcases h.2 with h | ⟨t, h, -⟩
  · omega
  · have := (List.getElem?_eq_some_iff.1 h).1
    omega

theorem State.modMedium_works (id : Nat) (f : Medium → Medium)
    (hf : ∀ m ∈ s.media, m.id = id → m.placedOn s.ladder → (f m).placedOn s.ladder) : s.Works (s.modMedium id f) :=
  { State.Works.refl s with
    media := by
      intro h m hm
      obtain ⟨n, hn, rfl⟩ := List.mem_map.1 hm
      split
      · exact hf n hn ‹_› (h n hn)
      · exact h n hn }

theorem State.chargeMedium_works (c : CopyId) (w : Nat) : s.Works (s.chargeMedium c w) := by
  unfold State.chargeMedium
  split
  · exact State.Works.refl s
  · next m hm =>
    split
    · exact State.Works.refl s
    · dsimp only
      have hmem : m ∈ s.media := List.mem_of_find?_eq_some hm
      refine State.Works.trans (t := s.modMedium m.id fun _ => ((m.addPoints w).climb (s.ladder.drop (m.addPoints w).position)).1)
        ?_ (State.Works.foldl (fun t f => t.post_works f) _ _)
      refine { State.Works.refl s with media := ?_ }
      intro h n hn
      obtain ⟨k, hk, rfl⟩ := List.mem_map.1 hn
      split
      · have hp := h m hmem
        have hpos : (m.addPoints w).position = m.position := by
          unfold Medium.addPoints; split <;> [rfl; (split <;> rfl)]
        have hpts : (m.addPoints w).points ≤ 65535 := by
          have := hp.1
          unfold Medium.addPoints
          split
          · exact hp.1
          · split
            · assumption
            · exact Nat.le_refl _
        have := Medium.climb_placed s.ladder (s.ladder.drop (m.addPoints w).position) (m.addPoints w) rfl
          (by rw [hpos]; exact hp.position_le)
        exact ⟨by rw [this.1]; exact hpts, by rw [this.1]; exact this.2⟩
      · exact h k hk

/-! ### Credit and the walker's wakes -/

theorem State.chargeCredit_works (n : Nat) : s.Works (s.chargeCredit n) :=
  { State.Works.refl s with
    pacer := ⟨_, rfl, fun h1 h2 => by simp only [Pacer.floor, Pacer.cap] at *; omega⟩ }

theorem State.wakeCredit_works : s.Works s.wakeCredit := by
  unfold State.wakeCredit
  split
  · exact { State.Works.refl s with walker := .inr ⟨.inl ‹_›, rfl⟩ }
  · exact State.Works.refl s

theorem State.wakeRoom_works : s.Works s.wakeRoom := by
  unfold State.wakeRoom
  split
  · next h => exact { State.Works.refl s with walker := .inr ⟨.inr h.1, rfl⟩ }
  · exact State.Works.refl s

theorem State.refundCredit_works (n : Nat) : s.Works (s.refundCredit n) := by
  have h : s.Works { s with pacer := s.pacer.refund n } :=
    { State.Works.refl s with
      pacer := ⟨_, rfl, fun h1 h2 => by simp only [Pacer.floor, Pacer.cap] at *; omega⟩ }
  unfold State.refundCredit
  dsimp only
  split
  · exact h.trans (State.wakeCredit_works _)
  · exact h

/-! ### Disputes, repairs and the queue -/

theorem State.modDispute_works (g : SegId) (f : Dispute → Dispute) : s.Works (s.modDispute g f) :=
  State.Works.ofTables s s.reels _ s.repairs s.queue

theorem State.removeDispute_works (g : SegId) : s.Works (s.removeDispute g) :=
  State.Works.ofTables s s.reels _ s.repairs _

theorem State.setSlot_works (c : CopyId) (st : Slot) : s.Works (s.setSlot c st) := s.modDispute_works _ _

theorem State.modRepair_works (c : CopyId) (f : Repair → Repair) : s.Works (s.modRepair c f) :=
  State.Works.ofTables s s.reels s.disputes _ s.queue

theorem State.removeRepair_works (c : CopyId) : s.Works (s.removeRepair c) :=
  State.Works.ofTables s s.reels s.disputes _ _

theorem State.setQueue_works (q : Queue) : s.Works { s with queue := q } :=
  State.Works.ofTables s s.reels s.disputes s.repairs q

theorem State.modItem_works (tag : Nat) (f : Item → Item) : s.Works (s.modItem tag f) := s.setQueue_works _

theorem State.startWaiting_works (o : Owner) : s.Works (s.startWaiting o) := s.setQueue_works _

theorem State.stopWaiting_works (o : Owner) : s.Works (s.stopWaiting o) := s.setQueue_works _

theorem State.createItem_works (kind : ItemKind) (cls : ItemClass) (c : CopyId) (mask : Mask) :
    s.Works (s.createItem kind cls c mask) :=
  ((s.setQueue_works _).trans (State.setItemTag_works _ _ _)).trans (State.chargeCredit_works _ _)

theorem State.issue_works (o : Owner) : s.Works (s.issue o) := by
  cases o with
  | slot c => exact (s.createItem_works _ _ _ _).trans (State.setSlot_works _ _ _)
  | repair c => exact (s.createItem_works _ _ _ _).trans (State.modRepair_works _ _ _)

theorem State.serveList_works (ws : List Waiter) : s.Works (State.serveList ws s) := by
  induction ws generalizing s with
  | nil => exact State.Works.refl s
  | cons w ws ih =>
    unfold State.serveList
    split
    · exact ((s.setQueue_works _).trans (State.issue_works _ _)).trans (ih _)
    · exact State.Works.refl s

theorem State.serve_works : s.Works s.serve := s.serveList_works _

theorem State.issueOrWait_works (o : Owner) : s.Works (s.issueOrWait o) := by
  unfold State.issueOrWait
  split
  · exact s.issue_works o
  · exact s.startWaiting_works o

theorem State.takeOut_works (it : Item) : s.Works (s.takeOut it) :=
  (s.setQueue_works _).trans (State.setItemTag_works _ _ _)

theorem State.removeItem_works (it : Item) : s.Works (s.removeItem it) :=
  (s.takeOut_works it).trans (State.serve_works _)

theorem State.withdrawItem_works (it : Item) : s.Works (s.withdrawItem it) := by
  unfold State.withdrawItem
  refine State.Works.trans ?_ (State.serve_works _)
  split
  · exact s.takeOut_works it
  · exact (s.takeOut_works it).trans (State.refundCredit_works _ _)

theorem State.leftoverGone_works (c : CopyId) : s.Works (s.leftoverGone c) := by
  unfold State.leftoverGone
  split
  · split
    · exact (s.startWaiting_works _).trans (State.serve_works _)
    · exact State.Works.refl s
  · exact State.Works.refl s

theorem State.clearSlotTag_works (it : Item) : s.Works (s.clearSlotTag it) := by
  unfold State.clearSlotTag
  split
  · exact s.setSlot_works _ _
  · exact State.Works.refl s

theorem State.withdrawPurposeless_works (it : Item) : s.Works (s.withdrawPurposeless it) :=
  ((s.withdrawItem_works it).trans (State.clearSlotTag_works _ _)).trans (State.leftoverGone_works _ _)

theorem State.requeueFront_works (it : Item) (n : Nat) : s.Works (s.requeueFront it n) :=
  (s.modItem_works _ _).trans (State.setQueue_works _ _)

theorem State.requeueLast_works (it : Item) (n : Nat) : s.Works (s.requeueLast it n) := s.setQueue_works _

theorem State.chargeLane_works (l : LaneCtx) : s.Works (s.chargeLane l) := by
  unfold State.chargeLane
  split
  · exact State.Works.refl s
  · exact s.chargeCredit_works _
  · exact s.chargeCredit_works _

/-! ### Repair -/

theorem State.createRepair_works (c : CopyId) (m : Mask) (o : RepairOrigin) : s.Works (s.createRepair c m o) := by
  unfold State.createRepair
  have h : s.Works (({ s with repairs := s.repairs ++ [(⟨c, m, 1, .waitingPlace, o⟩ : Repair)] }).setTrust c .repairing) :=
    (State.Works.ofTables s s.reels s.disputes _ s.queue).trans (State.setTrust_works _ _ _)
  dsimp only
  split
  · split
    · exact (h.trans (State.withdrawItem_works _ _)).trans (State.leftoverGone_works _ _)
    · exact h
  · exact h.trans (State.issueOrWait_works _ _)

theorem State.requestRepair_works (c : CopyId) (m : Mask) (o : RepairOrigin) : s.Works (s.requestRepair c m o) := by
  unfold State.requestRepair
  repeat' split
  all_goals first | exact s.post_works _ | exact s.createRepair_works _ _ _

theorem State.requestRepairs_works (o : RepairOrigin) (l : List (CopyId × Mask)) : s.Works (s.requestRepairs o l) := by
  refine State.Works.foldl (fun t p => ?_) l s
  split
  · exact t.requestRepair_works _ _ _
  · exact State.Works.refl t

theorem State.closeRepair_works (c : CopyId) (k : FindingKind) (b : Bool) (n : Nat) : s.Works (s.closeRepair c k b n) :=
  (((s.removeRepair_works c).trans (State.setTrust_works _ _ _)).trans (State.post_works _ _)).trans
    (State.postIfLost_works _ _)

theorem State.abandonRepair_works (c : CopyId) (n : Nat) : s.Works (s.abandonRepair c n) := s.closeRepair_works _ _ _ _

theorem State.readBackMatch_works (c : CopyId) (r : Repair) (o : Obs) : s.Works (s.readBackMatch c r o) :=
  ((s.setGood_works _ _).trans (State.post_works _ _)).trans (State.removeRepair_works _ _)

theorem State.readBackMismatch_works (c : CopyId) (r : Repair) (o : Obs) : s.Works (s.readBackMismatch c r o) := by
  unfold State.readBackMismatch
  split
  · exact (s.modRepair_works _ _).trans (State.issueOrWait_works _ _)
  · exact (((((s.setTrust_works _ _).trans (State.setExhausted_works _ _ _)).trans (State.post_works _ _)).trans
      (State.chargeMedium_works _ _ _)).trans (State.removeRepair_works _ _)).trans (State.postIfLost_works _ _)

theorem State.readBack_works (c : CopyId) (r : Result) (o : Obs) : s.Works (s.readBack c r o) := by
  unfold State.readBack
  repeat' split
  · exact State.Works.refl s
  · exact s.readBackMismatch_works _ _ _
  · exact s.readBackMatch_works _ _ _

/-! ### The vote and the disputes -/

theorem State.transientTest_works (d : Dispute) (r : Option Digest) : s.Works (s.transientTest d r) := by
  unfold State.transientTest
  repeat' split
  · exact (s.post_works _).trans (State.chargeMedium_works _ _ _)
  · exact State.Works.refl s
  · exact State.Works.refl s

theorem State.judgeBad_works (g : SegId) (n : Nat) (p : Nat × Obs) : s.Works (s.judgeBad g n p) :=
  ((s.setTrust_works _ _).trans (State.post_works _ _)).trans (State.chargeMedium_works _ _ _)

theorem State.judgeAllBad_works (g : SegId) (n : Nat) (l : List (Nat × Obs)) : s.Works (s.judgeAllBad g n l) :=
  State.Works.foldl (fun t p => t.judgeBad_works g n p) l s

theorem State.judgeAllGood_works (g : SegId) (d : Nat) (l : List Nat) : s.Works (s.judgeAllGood g d l) :=
  State.Works.foldl (fun t i => t.setGood_works (g.copy i) d) l s

theorem State.closeVote_works (g : SegId) (v : List (Nat × Obs)) (n : Nat) (e : Bool) (d : Option Digest) :
    s.Works (s.closeVote g v n e d) := by
  unfold State.closeVote
  exact ((State.Works.foldl (fun t (p : Nat × Obs) => t.setDeferred_works (g.copy p.1) false) v s).trans
    (State.post_works _ _)).trans (State.postIfLost_works _ _)

theorem State.endVote_works (g : SegId) (l : List (Nat × Obs)) : s.Works (s.endVote g l) := by
  unfold State.endVote
  dsimp only
  split
  · exact s.removeDispute_works g
  · exact (s.removeDispute_works g).trans (State.requestRepairs_works _ _ _)

theorem State.voteAgreed_works (g : SegId) (v : List (Nat × Obs)) (r : Option Digest) (e : Bool) :
    s.Works (s.voteAgreed g v r e) :=
  (((s.judgeAllGood_works _ _ _).trans (State.judgeAllBad_works _ _ _ _)).trans (State.closeVote_works _ _ _ _ _ _)).trans
    (State.endVote_works _ _ _)

theorem State.voteDisputed_works (g : SegId) (v : List (Nat × Obs)) (d : Digest) (e : Bool) :
    s.Works (s.voteDisputed g v d e) :=
  ((((State.Works.foldl (fun t (p : Nat × Obs) => t.setTrust_works (g.copy p.1) .suspect) _ s).trans
    (State.judgeAllBad_works _ _ _ _)).trans (State.post_works _ _)).trans (State.modDispute_works _ _ _)).trans
    (State.closeVote_works _ _ _ _ _ _)

theorem State.voteUnagreed_works (g : SegId) (v : List (Nat × Obs)) (r : Option Digest) (e : Bool) :
    s.Works (s.voteUnagreed g v r e) :=
  ((s.judgeAllBad_works _ _ _).trans (State.closeVote_works _ _ _ _ _ _)).trans (State.endVote_works _ _ _)

theorem State.takeVote_works (g : SegId) (e : Bool) : s.Works (s.takeVote g e) := by
  unfold State.takeVote
  split
  · exact State.Works.refl s
  · dsimp only
    split
    · exact (s.transientTest_works _ _).trans (State.voteAgreed_works _ _ _ _ _)
    · split
      · exact (s.transientTest_works _ _).trans (State.voteDisputed_works _ _ _ _ _)
      · exact (s.transientTest_works _ _).trans (State.voteUnagreed_works _ _ _ _ _)

theorem State.testDecision_works (g : SegId) : s.Works (s.testDecision g) := by
  unfold State.testDecision
  repeat' split
  · exact s.takeVote_works _ _
  · exact State.Works.refl s
  · exact State.Works.refl s

theorem State.takeOver_works (c : CopyId) (it : Item) : s.Works (s.takeOver c it) :=
  (s.setQueue_works _).trans (State.setSlot_works _ _ _)

theorem State.serveSlot_works (c : CopyId) : s.Works (s.serveSlot c) := by
  unfold State.serveSlot
  repeat' split
  · exact s.takeOver_works _ _
  · exact s.issueOrWait_works _
  · exact State.Works.refl s

theorem State.openDispute_works (c : CopyId) (o : Obs) : s.Works (s.openDispute c o) :=
  ((State.Works.ofTables s s.reels _ s.repairs s.queue).trans
    (State.Works.foldl (fun t c => t.serveSlot_works c) _ _)).trans (State.setDeferred_works _ _ _)

theorem State.dealOwnItem_works (c : CopyId) (o : Obs) (n t : Nat) : s.Works (s.dealOwnItem c o n t) := by
  unfold State.dealOwnItem
  repeat' split
  · exact (s.withdrawItem_works _).trans (State.setSlot_works _ _ _)
  · exact State.Works.refl s
  · exact State.Works.refl s

theorem State.routeDispute_works (d : Dispute) (c : CopyId) (o : Obs) (n : Nat) (tag : Option Nat) :
    s.Works (s.routeDispute d c o n tag).2 := by
  unfold State.routeDispute
  repeat' split
  all_goals first
    | exact State.Works.refl s
    | exact s.setSlot_works _ _
    | exact ((s.stopWaiting_works _).trans (State.setSlot_works _ _ _)).trans (State.testDecision_works _ _)
    | exact (s.setSlot_works _ _).trans (State.testDecision_works _ _)
    | exact ((s.setSlot_works _ _).trans (State.dealOwnItem_works _ _ _ _ _)).trans (State.testDecision_works _ _)

theorem State.expireSlot_works (c : CopyId) : s.Works (s.expireSlot c) := by
  unfold State.expireSlot
  repeat' split
  · exact (s.stopWaiting_works _).trans (State.setSlot_works _ _ _)
  · exact s.setSlot_works _ _
  · exact State.Works.refl s

theorem State.expireDispute_works (g : SegId) (d : Dispute) : s.Works (s.expireDispute g d) :=
  (((State.Works.foldl (fun t c => t.expireSlot_works c) _ s).trans
    (State.Works.foldl (fun t it => t.withdrawItem_works it) _ _)).trans (State.takeVote_works _ _ _)).trans
    (State.wakeRoom_works _)

theorem State.adopt_works (g : SegId) (d : Dispute) (dd : Digest) : s.Works (s.adopt g d dd) :=
  ((((s.modSeg_works _ _).trans (State.judgeAllGood_works _ _ _ _)).trans (State.post_works _ _)).trans
    (State.removeDispute_works _ _)).trans (State.requestRepairs_works _ _ _)

theorem State.reject_works (g : SegId) (d : Dispute) : s.Works (s.reject g d) := by
  unfold State.reject
  dsimp only
  have h (f : Finding) : s.Works
      ((((s.judgeAllBad g 5 (d.votes.filter fun p => d.agreeing.contains p.1)).post f).postIfLost g).removeDispute g) :=
    (((s.judgeAllBad_works _ _ _).trans (State.post_works _ _)).trans (State.postIfLost_works _ _)).trans
      (State.removeDispute_works _ _)
  split
  · exact h _
  · exact (h _).trans (State.requestRepairs_works _ _ _)

/-! ### The plain rules -/

theorem State.postMismatch_works (c : CopyId) (o : Obs) (n : Nat) : s.Works (s.postMismatch c o n) := s.post_works _

theorem State.plainMismatch_works (c : CopyId) (o : Obs) (n : Nat) : s.Works (s.plainMismatch c o n) := by
  unfold State.plainMismatch
  dsimp only
  have h := (s.setTrust_works c .suspect).trans (State.postMismatch_works _ c o n)
  split
  · exact h.trans (State.openDispute_works _ _ _)
  · exact (h.trans (State.setDeferred_works _ _ _)).trans (State.post_works _ _)

theorem State.plainTransient_works (c : CopyId) (o : Obs) (n : Nat) : s.Works (s.plainTransient c o n) :=
  ((s.setGood_works _ _).trans (State.post_works _ _)).trans (State.chargeMedium_works _ _ _)

theorem State.plain_works (c : CopyId) (r : Result) (o : Obs) (n : Nat) : s.Works (s.plain c r o n) := by
  unfold State.plain
  repeat' split
  all_goals first
    | exact State.Works.refl s
    | exact s.postMismatch_works _ _ _
    | exact s.plainMismatch_works _ _ _
    | exact s.setGood_works _ _
    | exact s.plainTransient_works _ _ _

/-! ### Items that come back or leave -/

theorem State.ownerLost_works (it : Item) (n : Nat) : s.Works (s.ownerLost it n) := by
  unfold State.ownerLost
  repeat' split
  all_goals first
    | exact s.abandonRepair_works _ _
    | exact (s.setSlot_works _ _).trans (State.testDecision_works _ _)
    | exact s.clearSlotTag_works _
    | exact s.leftoverGone_works _

theorem State.abandonItem_works (it : Item) (n : Nat) : s.Works (s.abandonItem it n) :=
  ((s.withdrawItem_works it).trans (State.post_works _ _)).trans (State.ownerLost_works _ _ _)

theorem State.returnFront_works (it : Item) (n : Nat) : s.Works (s.returnFront it n) := by
  unfold State.returnFront
  repeat' split
  · exact s.withdrawPurposeless_works _
  · exact s.requeueFront_works _ _
  · exact s.abandonItem_works _ _

theorem State.returnRetry_works (it : Item) : s.Works (s.returnRetry it) := by
  unfold State.returnRetry
  repeat' split
  · exact s.withdrawPurposeless_works _
  · exact s.requeueLast_works _ _
  · exact s.abandonItem_works _ _

theorem State.returnUnreadable_works (it : Item) : s.Works (s.returnUnreadable it) :=
  ((s.withdrawItem_works it).trans (State.chargeMedium_works _ _ _)).trans (State.ownerLost_works _ _ _)

theorem State.claimFail_works (it : Item) (v : Verdict) : s.Works (s.claimFail it v) := by
  unfold State.claimFail
  dsimp only
  split
  all_goals first
    | exact (s.withdrawItem_works it).trans (State.closeRepair_works _ _ _ _ _)
    | exact (s.withdrawItem_works it).trans (State.ownerLost_works _ _ _)

theorem State.claimWalk_works (h : Head) (n : Nat) : s.Works (State.claimWalk h n s).1 := by
  induction n generalizing s with
  | zero => exact State.Works.refl s
  | succ n ih =>
    unfold State.claimWalk
    split
    · exact State.Works.refl s
    · split
      · exact s.modItem_works _ _
      · exact (s.claimFail_works _ _).trans (ih _)

theorem State.returnHeld_works (it : Item) : s.Works (s.returnHeld it) := by
  unfold State.returnHeld
  split
  · exact s.withdrawPurposeless_works _
  · exact s.modItem_works _ _

/-! ### The routing of a lane's result -/

theorem State.learn_works (g : SegId) (d : Digest) (l : List Digest) : s.Works (s.learn g d l) := s.modSeg_works _ _

theorem State.postFrameSuspect_works (n : Nat) (l : LaneCtx) (r : Result) (d : Digest) :
    s.Works (s.postFrameSuspect n l r d) := by
  unfold State.postFrameSuspect
  split
  · exact s.post_works _
  · exact State.Works.refl s

theorem State.route_works (n : Nat) (l : LaneCtx) (it : Option Item) (r : Result) (o : Obs) :
    s.Works (s.route n l it r o).2 := by
  unfold State.route
  repeat' split
  · exact s.readBack_works _ _ _
  · exact s.routeDispute_works _ _ _ _ _
  · exact s.plain_works _ _ _ _

end

end Sys2Proof.Machine
end

