-- ==== Sys2Proof/Laws/Orders.lean ====
section
/-! SUPPORT. Laws/Orders.lean: what taking an order can do, said once: it is left alone, refused for its length, or
applied to the state after it has left its place. -/

namespace Sys2Proof.Machine

/-- Everything `takeOrder` can do. -/
theorem takeOrder_cases {h : Head} {code : Nat} {act : Half → List Byte → State → Applied} {s t : State}
    (ht : takeOrder h code act s = .next t) :
    t = s ∨ t = ((s.popOrder h).answer h (s.port h).frontOrder.code (s.port h).frontOrder.tag (.no .badArgument)) ∨
      t = (act (s.port h).frontOrder.tag (s.port h).frontOrder.body (s.popOrder h)).finish h (s.port h).frontOrder := by
  unfold takeOrder at ht
  dsimp only at ht
  split at ht
  · split at ht <;> cases ht
    · exact .inr (.inr rfl)
    · exact .inr (.inl rfl)
  · cases ht
    exact .inl rfl

/-- Taking an order always has a next state. -/
theorem takeOrder_next (h : Head) (code : Nat) (act : Half → List Byte → State → Applied) (s : State) :
    ∃ t, takeOrder h code act s = .next t := by
  unfold takeOrder
  dsimp only
  split <;> exact ⟨_, rfl⟩

/-- An order that the port takes is applied to the state after it has left its place. -/
theorem takeOrder_takes {h : Head} {code : Nat} {tag : Half} {body : List Byte} {s : State}
    (ht : s.takes h code tag body) (act : Half → List Byte → State → Applied) :
    takeOrder h code act s = .next ((act tag body (s.popOrder h)).finish h ⟨code, tag, body.length, body⟩) := by
  obtain ⟨h1, h2, h3⟩ := ht
  simp [takeOrder, h1, h3]
  simp [h2]

/-- An order that the port does not take now changes nothing. -/
theorem takeOrder_not {h : Head} {code : Nat} {s : State} (act : Half → List Byte → State → Applied)
    (hn : (s.port h).canTake = false ∨ (s.port h).frontOrder.code ≠ code) : takeOrder h code act s = .next s := by
  unfold takeOrder
  rcases hn with hn | hn <;> simp [hn]

/-- An order whose record has the wrong length is refused. -/
theorem takeOrder_badLength {h : Head} {code : Nat} {s : State} (act : Half → List Byte → State → Applied)
    (h1 : (s.port h).canTake = true) (h2 : (s.port h).frontOrder.code = code)
    (h3 : (s.port h).frontOrder.lengthOk = false) :
    takeOrder h code act s =
      .next ((s.popOrder h).answer h code (s.port h).frontOrder.tag (.refused .badArgument [])) := by
  simp [takeOrder, h1, h2, h3, Applied.finish, State.answer, Answer.no]

/-! The command of each order, as the taking of that order. -/

theorem exec_mediumAdd (h : Head) (s : State) :
    exec (.mediumAdd h) s = takeOrder h 1 (fun _ body => mediumAdd body) s := rfl

theorem exec_mediumRemove (h : Head) (s : State) :
    exec (.mediumRemove h) s = takeOrder h 2 (fun _ body => mediumRemove body) s := rfl

theorem exec_mediumWithdraw (h : Head) (s : State) :
    exec (.mediumWithdraw h) s = takeOrder h 3 (fun _ body => mediumOrder (fun m => { m with withdrawnByHead := true }) body) s := rfl

theorem exec_mediumReturn (h : Head) (s : State) :
    exec (.mediumReturn h) s = takeOrder h 4 (fun _ body => mediumOrder (fun m => { m with withdrawnByHead := false }) body) s := rfl

theorem exec_mediumResetPoints (h : Head) (s : State) :
    exec (.mediumResetPoints h) s = takeOrder h 5 (fun _ body => mediumOrder (fun m => { m with resetPending := true }) body) s := rfl

theorem exec_reelAdd (h : Head) (s : State) :
    exec (.reelAdd h) s = takeOrder h 6 (reelAdd h) s := rfl

theorem exec_reelRemove (h : Head) (s : State) :
    exec (.reelRemove h) s = takeOrder h 7 (fun _ body => reelRemove body) s := rfl

theorem exec_referenceLoad (h : Head) (s : State) :
    exec (.referenceLoad h) s = takeOrder h 8 (fun _ body => referenceLoad body) s := rfl

theorem exec_segmentRead (h : Head) (s : State) :
    exec (.segmentRead h) s = takeOrder h 9 (fun _ body => segmentRead body) s := rfl

theorem exec_copySelect (h : Head) (s : State) :
    exec (.copySelect h) s = takeOrder h 10 (fun _ body => copySelect body) s := rfl

theorem exec_laneOpen (h : Head) (s : State) :
    exec (.laneOpen h) s = takeOrder h 16 (fun _ body => laneOpen h body) s := rfl

theorem exec_laneFeed (h : Head) (s : State) :
    exec (.laneFeed h) s = takeOrder h 17 (laneFeed h) s := rfl

theorem exec_laneEnd (h : Head) (s : State) :
    exec (.laneEnd h) s = takeOrder h 18 (fun _ body => laneEnd h body) s := rfl

theorem exec_laneAbort (h : Head) (s : State) :
    exec (.laneAbort h) s = takeOrder h 19 (fun _ body => laneAbort h body) s := rfl

theorem exec_laneReport (h : Head) (s : State) :
    exec (.laneReport h) s = takeOrder h 20 (fun _ body => laneReport h body) s := rfl

theorem exec_itemClaim (h : Head) (s : State) :
    exec (.itemClaim h) s = takeOrder h 24 (fun _ _ => itemClaim h) s := rfl

theorem exec_itemReturn (h : Head) (s : State) :
    exec (.itemReturn h) s = takeOrder h 25 (fun _ body => itemReturn h body) s := rfl

theorem exec_disputeAdopt (h : Head) (s : State) :
    exec (.disputeAdopt h) s = takeOrder h 32 (fun _ body => disputeAdopt body) s := rfl

theorem exec_disputeReject (h : Head) (s : State) :
    exec (.disputeReject h) s = takeOrder h 33 (fun _ body => disputeReject body) s := rfl

theorem exec_repairRequest (h : Head) (s : State) :
    exec (.repairRequest h) s = takeOrder h 34 (fun _ body => repairRequest body) s := rfl

theorem exec_planLoad (h : Head) (s : State) :
    exec (.planLoad h) s = takeOrder h 40 (planLoad h) s := rfl

theorem exec_planStart (h : Head) (s : State) :
    exec (.planStart h) s = takeOrder h 41 (fun _ body => planStart body) s := rfl

theorem exec_planQueue (h : Head) (s : State) :
    exec (.planQueue h) s = takeOrder h 42 (fun _ body => planQueue body) s := rfl

theorem exec_planPause (h : Head) (s : State) :
    exec (.planPause h) s = takeOrder h 43 (fun _ _ => planPause) s := rfl

theorem exec_planResume (h : Head) (s : State) :
    exec (.planResume h) s = takeOrder h 44 (fun _ _ => planResume) s := rfl

theorem exec_planStop (h : Head) (s : State) :
    exec (.planStop h) s = takeOrder h 45 (fun _ _ => planStop) s := rfl

theorem exec_bandsSet (h : Head) (s : State) :
    exec (.bandsSet h) s = takeOrder h 46 (fun _ body => bandsSet body) s := rfl

theorem exec_daySet (h : Head) (s : State) :
    exec (.daySet h) s = takeOrder h 47 (fun _ body => daySet body) s := rfl

theorem exec_paceSet (h : Head) (s : State) :
    exec (.paceSet h) s = takeOrder h 48 (fun _ body => paceSet body) s := rfl

theorem exec_paceStart (h : Head) (s : State) :
    exec (.paceStart h) s = takeOrder h 49 (fun _ _ => paceStart) s := rfl

theorem exec_paceStop (h : Head) (s : State) :
    exec (.paceStop h) s = takeOrder h 50 (fun _ _ => paceStop) s := rfl

theorem exec_paceHalt (h : Head) (s : State) :
    exec (.paceHalt h) s = takeOrder h 51 (fun _ _ => paceHalt) s := rfl

theorem exec_ladderSet (h : Head) (s : State) :
    exec (.ladderSet h) s = takeOrder h 52 (fun _ body => ladderSet body) s := rfl

theorem exec_timersSet (h : Head) (s : State) :
    exec (.timersSet h) s = takeOrder h 53 (fun _ body => timersSet body) s := rfl

theorem exec_findingTake (h : Head) (s : State) :
    exec (.findingTake h) s = takeOrder h 56 (fun _ body => findingTake body) s := rfl

theorem exec_attentionSet (h : Head) (s : State) :
    exec (.attentionSet h) s = takeOrder h 57 (fun _ body => attentionSet h body) s := rfl

theorem exec_status (h : Head) (s : State) :
    exec (.status h) s = takeOrder h 58 (fun _ _ => status h) s := rfl

theorem exec_portReset (h : Head) (s : State) :
    exec (.portReset h) s = takeOrder h 59 (fun _ _ t => .answered (t.resetPort h) (.ok [])) s := rfl

/-- The command of an order is the taking of that order. -/
theorem exec_order {c : Instr} {h : Head} {code : Nat} (hc : orderTaken c = some (h, code)) :
    ∃ act, ∀ s, exec c s = takeOrder h code act s := by
  cases c with
  | mediumAdd _ => cases hc; exact ⟨_, exec_mediumAdd h⟩
  | mediumRemove _ => cases hc; exact ⟨_, exec_mediumRemove h⟩
  | mediumWithdraw _ => cases hc; exact ⟨_, exec_mediumWithdraw h⟩
  | mediumReturn _ => cases hc; exact ⟨_, exec_mediumReturn h⟩
  | mediumResetPoints _ => cases hc; exact ⟨_, exec_mediumResetPoints h⟩
  | reelAdd _ => cases hc; exact ⟨_, exec_reelAdd h⟩
  | reelRemove _ => cases hc; exact ⟨_, exec_reelRemove h⟩
  | referenceLoad _ => cases hc; exact ⟨_, exec_referenceLoad h⟩
  | segmentRead _ => cases hc; exact ⟨_, exec_segmentRead h⟩
  | copySelect _ => cases hc; exact ⟨_, exec_copySelect h⟩
  | laneOpen _ => cases hc; exact ⟨_, exec_laneOpen h⟩
  | laneFeed _ => cases hc; exact ⟨_, exec_laneFeed h⟩
  | laneEnd _ => cases hc; exact ⟨_, exec_laneEnd h⟩
  | laneAbort _ => cases hc; exact ⟨_, exec_laneAbort h⟩
  | laneReport _ => cases hc; exact ⟨_, exec_laneReport h⟩
  | itemClaim _ => cases hc; exact ⟨_, exec_itemClaim h⟩
  | itemReturn _ => cases hc; exact ⟨_, exec_itemReturn h⟩
  | disputeAdopt _ => cases hc; exact ⟨_, exec_disputeAdopt h⟩
  | disputeReject _ => cases hc; exact ⟨_, exec_disputeReject h⟩
  | repairRequest _ => cases hc; exact ⟨_, exec_repairRequest h⟩
  | planLoad _ => cases hc; exact ⟨_, exec_planLoad h⟩
  | planStart _ => cases hc; exact ⟨_, exec_planStart h⟩
  | planQueue _ => cases hc; exact ⟨_, exec_planQueue h⟩
  | planPause _ => cases hc; exact ⟨_, exec_planPause h⟩
  | planResume _ => cases hc; exact ⟨_, exec_planResume h⟩
  | planStop _ => cases hc; exact ⟨_, exec_planStop h⟩
  | bandsSet _ => cases hc; exact ⟨_, exec_bandsSet h⟩
  | daySet _ => cases hc; exact ⟨_, exec_daySet h⟩
  | paceSet _ => cases hc; exact ⟨_, exec_paceSet h⟩
  | paceStart _ => cases hc; exact ⟨_, exec_paceStart h⟩
  | paceStop _ => cases hc; exact ⟨_, exec_paceStop h⟩
  | paceHalt _ => cases hc; exact ⟨_, exec_paceHalt h⟩
  | ladderSet _ => cases hc; exact ⟨_, exec_ladderSet h⟩
  | timersSet _ => cases hc; exact ⟨_, exec_timersSet h⟩
  | findingTake _ => cases hc; exact ⟨_, exec_findingTake h⟩
  | attentionSet _ => cases hc; exact ⟨_, exec_attentionSet h⟩
  | status _ => cases hc; exact ⟨_, exec_status h⟩
  | portReset _ => cases hc; exact ⟨_, exec_portReset h⟩
  | _ => cases hc

/-- The end of an order that completes when it is taken. -/
theorem Applied.finish_answered (h : Head) (o : OrderRec) (s : State) (a : Answer) :
    (Applied.answered s a).finish h o = s.answer h o.code o.tag a := rfl

/-- The end of an order that takes time: a reply place is reserved. -/
theorem Applied.finish_begun (h : Head) (o : OrderRec) (s : State) :
    (Applied.begun s).finish h o = (s.reserve h).settle := rfl

end Sys2Proof.Machine
end

