-- ==== Sys2Proof/Laws/Acts.lean ====
section
/-! SUPPORT. Laws/Acts.lean: the state an order's application leaves, before its reply; which orders only do work inside
their event (`State.Works`); and one lemma that carries a property of states through the taking of any order. -/

namespace Sys2Proof.Machine

/-- The state an application leaves. -/
def Applied.state : Applied → State
  | .answered s _ => s
  | .begun s => s

@[simp] theorem Applied.state_answered (s : State) (a : Answer) : (Applied.answered s a).state = s := rfl

@[simp] theorem Applied.state_begun (s : State) : (Applied.begun s).state = s := rfl

/-- A property that the hand-over of orders and replies keeps, and the application of this order, is kept by the taking of
this order. -/
theorem takeOrder_keeps {P : State → Prop} {h : Head} {code : Nat} {act : Half → List Byte → State → Applied}
    (hpop : ∀ s, P s → P (s.popOrder h)) (hreply : ∀ s c t a, P s → P (s.answer h c t a))
    (hreserve : ∀ s, P s → P (s.reserve h).settle) (hact : ∀ tag body s, P s → P (act tag body s).state)
    {s t : State} (hs : P s) (ht : takeOrder h code act s = .next t) : P t := by
  rcases takeOrder_cases ht with rfl | rfl | rfl
  · exact hs
  · exact hreply _ _ _ _ (hpop _ hs)
  · have := hact (s.port h).frontOrder.tag (s.port h).frontOrder.body _ (hpop _ hs)
    revert this
    cases act (s.port h).frontOrder.tag (s.port h).frontOrder.body (s.popOrder h) with
    | answered u a => exact hreply _ _ _ _
    | begun u => exact hreserve _

variable (s : State)

/-- A change of the media that keeps every medium on the ladder is work. -/
theorem State.setMedia_works (l : List Medium)
    (h : (∀ m ∈ s.media, m.placedOn s.ladder) → ∀ m ∈ l, m.placedOn s.ladder) : s.Works { s with media := l } :=
  { State.Works.refl s with media := h }

theorem mediumRemove_works (body : List Byte) : s.Works (mediumRemove body s).state := by
  unfold mediumRemove
  dsimp only
  repeat' split
  · exact State.Works.refl s
  · exact State.Works.refl s
  · exact s.setMedia_works _ fun h m hm => h m (List.mem_of_mem_filter hm)

theorem mediumOrder_works (f : Medium → Medium) (hf : ∀ m, (f m).points = m.points ∧ (f m).position = m.position)
    (body : List Byte) : s.Works (mediumOrder f body s).state := by
  unfold mediumOrder
  dsimp only
  split
  · exact State.Works.refl s
  · refine s.modMedium_works _ f fun m _ _ hm => ?_
    obtain ⟨h1, h2⟩ := hf m
    simpa only [Medium.placedOn, h1, h2] using hm

theorem State.countCopies_works (ids : List Nat) (f : Nat → Nat) : s.Works (s.countCopies ids f) := by
  refine s.setMedia_works _ fun h m hm => ?_
  obtain ⟨n, hn, rfl⟩ := List.mem_map.1 hm
  have := h n hn
  split <;> simpa only [Medium.placedOn] using this

theorem State.setReels_works (l : List Reel) : s.Works { s with reels := l } :=
  State.Works.ofTables s l s.disputes s.repairs s.queue

theorem reelAdd_works (h : Head) (tag : Half) (body : List Byte) : s.Works (reelAdd h tag body s).state := by
  unfold reelAdd
  dsimp only
  repeat' split
  all_goals first | exact State.Works.refl s | exact s.setReels_works _

theorem State.activate_works (r : Reel) : s.Works (s.activate r) :=
  (s.setReels_works _).trans (State.countCopies_works _ _ _)

theorem reelRemove_works (body : List Byte) : s.Works (reelRemove body s).state := by
  unfold reelRemove
  dsimp only
  repeat' split
  · exact State.Works.refl s
  · exact State.Works.refl s
  · rw [Applied.state_answered]
    exact (s.setReels_works _).trans (State.countCopies_works _ _ _)

theorem referenceLoad_works (body : List Byte) : s.Works (referenceLoad body s).state := by
  unfold referenceLoad
  dsimp only
  repeat' split
  all_goals first | exact State.Works.refl s | exact s.modSeg_works _ _

theorem segmentRead_works (body : List Byte) : s.Works (segmentRead body s).state := by
  unfold segmentRead
  dsimp only
  split <;> exact State.Works.refl s

theorem copySelect_works (body : List Byte) : s.Works (copySelect body s).state := by
  unfold copySelect
  dsimp only
  repeat' split
  all_goals exact State.Works.refl s

theorem itemClaim_works (h : Head) : s.Works (itemClaim h s).state := by
  unfold itemClaim
  have hw := s.claimWalk_works h s.claimBound
  dsimp only
  repeat' split
  all_goals exact hw.trans (State.wakeRoom_works _)

theorem itemReturn_works (h : Head) (body : List Byte) : s.Works (itemReturn h body s).state := by
  unfold itemReturn
  dsimp only
  repeat' split
  all_goals first
    | exact State.Works.refl s
    | exact (s.returnRetry_works _).trans (State.wakeRoom_works _)
    | exact (s.returnUnreadable_works _).trans (State.wakeRoom_works _)

theorem disputeAdopt_works (body : List Byte) : s.Works (disputeAdopt body s).state := by
  unfold disputeAdopt
  dsimp only
  repeat' split
  all_goals first | exact State.Works.refl s | exact (s.adopt_works _ _ _).trans (State.wakeRoom_works _)

theorem disputeReject_works (body : List Byte) : s.Works (disputeReject body s).state := by
  unfold disputeReject
  dsimp only
  repeat' split
  all_goals first | exact State.Works.refl s | exact (s.reject_works _ _).trans (State.wakeRoom_works _)

theorem repairRequest_works (body : List Byte) : s.Works (repairRequest body s).state := by
  unfold repairRequest
  dsimp only
  repeat' split
  all_goals first
    | exact State.Works.refl s
    | exact ((s.setExhausted_works _ _).trans (State.createRepair_works _ _ _ _)).trans (State.wakeRoom_works _)

end Sys2Proof.Machine
end

