-- ==== Sys2Proof/Laws/Moves.lean ====
section
/-! SUPPORT. Laws/Moves.lean: what a command can do, said once. A command's effect is a chain of moves: work inside the
event, a change of one port, one lane, one plan slot, the windows, the walker, the Pacer, the findings, the day, the
settings or the ladder, each under the condition the invariants of Safety.lean need. `exec_moves` gives the chain for every
command but the two resets; an invariant is then one lemma per move. -/

namespace Sys2Proof.Machine

/-- The walker and the plan slots are in shape: `State.walkerOk` of the walker, the slots and the day. -/
def shapeOk (w : Walker) (slots : Vector PlanSlot 2) (day : Option Nat) : Prop :=
  State.walkerOk { State.reset with walker := w, slots := slots, day := day }

theorem State.walkerOk_iff (s : State) : s.walkerOk ↔ shapeOk s.walker s.slots s.day := Iff.rfl

/-- One move of a command's effect. -/
inductive Move (s : State) : State → Prop where
  /-- Work inside the event. -/
  | works {t : State} (h : s.Works t) : Move s t
  /-- A change of one port that keeps its area in canonical form. -/
  | port (h : Head) (p : Port) (ha : Memory.wf (s.port h).area = true → Memory.wf p.area = true) : Move s (s.setPort h p)
  /-- The lines are driven. -/
  | settle : Move s s.settle
  /-- A change of one lane that keeps its byte counts sound. -/
  | lane (n : Nat) (x : Option LaneCtx) (hx : ∀ l, x = some l → (∀ k, s.lane n = some k → k.ok) → l.ok) :
      Move s (s.setLane n x)
  /-- The windows are written. -/
  | windows (w : List Host.Cell) (hw : Memory.wf s.windows = true → Memory.wf w = true) : Move s { s with windows := w }
  /-- The walker, the plan slots and the day move in shape. -/
  | plan (w : Walker) (slots : Vector PlanSlot 2) (day : Option Nat)
      (h : shapeOk s.walker s.slots s.day → shapeOk w slots day) :
      Move s { s with walker := w, slots := slots, day := day }
  /-- The Pacer moves within its ranges. -/
  | pacer (p : Pacer) (h : s.pacer.ok → p.ok) : Move s { s with pacer := p }
  /-- The Finding Queue changes within its bounds. -/
  | findings (q : FindingQueue) (h : s.fq.ok → q.ok) : Move s { s with fq := q }
  /-- Bands or limits are set. -/
  | settings (b : List Band) (l : Limits) : Move s { s with bands := b, limits := l }
  /-- The ladder and the media move together. -/
  | ladder (steps : List LadderStep) (media : List Medium)
      (h : s.ladderOk → State.ladderOk { s with ladder := steps, media := media }) :
      Move s { s with ladder := steps, media := media }

/-- A chain of moves. -/
inductive Moves : State → State → Prop where
  | refl (s : State) : Moves s s
  | tail {s t u : State} (h : Moves s t) (m : Move t u) : Moves s u

namespace Moves

theorem one {s t : State} (m : Move s t) : Moves s t := .tail (.refl s) m

theorem trans {s t u : State} (h1 : Moves s t) (h2 : Moves t u) : Moves s u := by
  induction h2 with
  | refl => exact h1
  | tail _ m ih => exact .tail ih m

/-- A property that every move keeps is kept by a chain. -/
theorem keeps {P : State → Prop} (hP : ∀ s t, P s → Move s t → P t) {s t : State} (h : Moves s t) : P s → P t := by
  induction h with
  | refl => exact id
  | tail _ m ih => exact fun hs => hP _ _ (ih hs) m

theorem works {s t : State} (h : s.Works t) : Moves s t := one (.works h)

end Moves

variable (s : State)

theorem State.setPort_moves (h : Head) (p : Port) (ha : p.area = (s.port h).area) : Moves s (s.setPort h p) :=
  .one (.port h p fun hw => ha ▸ hw)

theorem State.popOrder_moves (h : Head) : Moves s (s.popOrder h) := s.setPort_moves h _ rfl

theorem State.release_moves (h : Head) : Moves s (s.release h) := s.setPort_moves h _ rfl

theorem State.reserve_moves (h : Head) : Moves s (s.reserve h).settle :=
  .tail (s.setPort_moves h { s.port h with reserved := (s.port h).reserved + 1 } rfl) .settle

theorem State.answer_moves (h : Head) (c : Nat) (t : Half) (a : Answer) : Moves s (s.answer h c t a) :=
  .tail (.one (.port h ((s.port h).postReply c t a) fun hw => Memory.wf_store _ _ hw)) .settle

/-- An order's taking is a chain of moves when its application is. -/
theorem takeOrder_moves {h : Head} {code : Nat} {act : Half → List Byte → State → Applied}
    (hact : ∀ tag body s, Moves s (act tag body s).state) {s t : State} (ht : takeOrder h code act s = .next t) :
    Moves s t :=
  takeOrder_keeps (P := Moves s) (fun u hu => hu.trans (u.popOrder_moves h))
    (fun u _ _ _ hu => hu.trans (u.answer_moves h _ _ _)) (fun u hu => hu.trans (u.reserve_moves h))
    (fun _ _ u hu => hu.trans (hact _ _ u)) (.refl s) ht

/-! ### The orders that do more than work -/

theorem mediumAdd_moves (body : List Byte) : Moves s (mediumAdd body s).state := by
  unfold mediumAdd
  dsimp only
  repeat' split
  · exact .refl s
  · exact .refl s
  · exact .refl s
  · exact .refl s
  · refine .one (.ladder s.ladder _ fun ⟨h1, h2, h3, h4⟩ => ⟨h1, h2, h3, fun m hm => ?_⟩)
    rcases List.mem_append.1 hm with hm | hm
    · exact h4 m hm
    · obtain rfl := List.mem_singleton.1 hm
      refine ⟨Nat.zero_le _, ?_⟩
      cases hl : s.ladder with
      | nil => rw [hl] at h1; exact absurd h1 (by decide)
      | cons t ts =>
        rw [hl] at h3
        simp only [ladderRising, Bool.and_eq_true, decide_eq_true_eq] at h3
        exact .inr ⟨t, by rw [Medium.fresh]; rfl, h3.1⟩

theorem State.setOpen_moves (n : Nat) (h : Head) (p : Purpose) (tag : Option Nat) (c : CopyId) (e st : Nat) :
    Moves s (s.setLane n (some (LaneCtx.opened h p tag c e st))) :=
  .one (.lane n _ fun l hl _ => by cases hl; exact ⟨Nat.zero_le _, fun _ _ h => by cases h⟩)

theorem State.openLane_moves (h : Head) (p : Purpose) (it : Option Item) (c : CopyId) (r : Reel) :
    Moves s (s.openLane h p it c r).state := by
  unfold State.openLane
  split
  · exact .refl s
  · split
    · exact (Moves.works (s.modItem_works _ _)).trans (State.setOpen_moves _ _ _ _ _ _ _ _)
    · exact s.setOpen_moves _ _ _ _ _ _ _

theorem laneOpen_moves (h : Head) (body : List Byte) : Moves s (laneOpen h body s).state := by
  unfold laneOpen laneOpenItem laneOpenCopy
  repeat' split
  all_goals first | exact .refl s | exact s.openLane_moves _ _ _ _ _

theorem State.ownLane_ok {s : State} {h : Head} {n : Nat} {l : LaneCtx} (hl : s.ownLane h n = .ok l) :
    s.lane n = some l ∧ l.owner = h ∧ n < 12 := by
  unfold State.ownLane at hl
  split at hl
  · split at hl
    · cases hl
    · split at hl
      · cases hl
        exact ⟨‹_›, ‹_›, ‹_›⟩
      · cases hl
  · cases hl

theorem laneFeed_moves (h : Head) (tag : Half) (body : List Byte) : Moves s (laneFeed h tag body s).state := by
  unfold laneFeed
  dsimp only
  split
  · exact .refl s
  · next l hl =>
    have hown := State.ownLane_ok hl
    repeat' split
    all_goals first | exact .refl s | skip
    next h1 h2 h3 =>
    refine .one (.lane _ _ fun k hk hok => ?_)
    cases hk
    have h4 := hok l hown.1
    refine ⟨h4.1, fun len t ht => ?_⟩
    cases ht
    dsimp only
    have : Config.windowBytes = 1048576 := rfl
    omega

theorem State.finishLane_moves (n : Nat) (l : LaneCtx) (e : EndReason) (r : Option Result) (o : Option Digest) (q : Routing)
    (hl : (∀ k, s.lane n = some k → k.ok) → l.bytesTaken ≤ l.expected) : Moves s (s.finishLane n l e r o q) :=
  .one (.lane n _ fun k hk hok => by cases hk; exact ⟨hl hok, fun _ _ h => by cases h⟩)

theorem State.Works.lane_eq {s t : State} (h : s.Works t) (n : Nat) : t.lane n = s.lane n := by
  unfold State.lane
  rw [h.lanes]

theorem State.endUnjudged_moves (n : Nat) (l : LaneCtx) (e : EndReason) (r : Option Result)
    (hl : (∀ k, s.lane n = some k → k.ok) → l.bytesTaken ≤ l.expected) : Moves s (s.endUnjudged n l e r) := by
  unfold State.endUnjudged
  dsimp only
  have key (t : State) (hw : s.Works t) : Moves s ((t.chargeLane l).finishLane n l e r none .notUsed) := by
    have hw' := hw.trans (t.chargeLane_works l)
    exact (Moves.works hw').trans (State.finishLane_moves _ _ _ _ _ _ _ fun hk => hl fun k hs => hk k ((hw'.lane_eq n).trans hs))
  split
  · exact key _ (s.returnFront_works _ _)
  · exact key _ (State.Works.refl s)

theorem laneEnd_moves (h : Head) (body : List Byte) : Moves s (laneEnd h body s).state := by
  unfold laneEnd
  dsimp only
  split
  · exact .refl s
  · next l hl =>
    split
    all_goals first | exact .refl s | skip
    exact (s.endUnjudged_moves _ l _ _ fun hk => (hk l (State.ownLane_ok hl).1).1).trans (.works (State.wakeRoom_works _))

theorem laneAbort_moves (h : Head) (body : List Byte) : Moves s (laneAbort h body s).state := by
  unfold laneAbort
  dsimp only
  split
  · exact .refl s
  · next l hl =>
    have hlane := (State.ownLane_ok hl).1
    split
    · exact .refl s
    · exact (s.endUnjudged_moves _ l _ _ fun hk => (hk l hlane).1).trans (.works (State.wakeRoom_works _))
    · refine ((s.release_moves h).trans (State.endUnjudged_moves _ _ l _ _ fun hk => (hk l ?_).1)).trans
        (.works (State.wakeRoom_works _))
      rw [← hlane]
      cases h <;> rfl

theorem laneReport_moves (h : Head) (body : List Byte) : Moves s (laneReport h body s).state := by
  unfold laneReport
  dsimp only
  repeat' split
  all_goals first | exact .refl s | skip
  exact .one (.lane _ _ fun _ hk => by cases hk)

theorem bandsSet_moves (body : List Byte) : Moves s (bandsSet body s).state := by
  unfold bandsSet
  repeat' split
  all_goals first | exact .refl s | exact .one (.settings _ s.limits)

theorem timersSet_moves (body : List Byte) : Moves s (timersSet body s).state := by
  unfold timersSet
  dsimp only
  split
  · exact .one (.settings s.bands _)
  · exact .refl s

/-! ### The day, the plan slots and the walker -/

theorem shapeOk.setDay {w : Walker} {slots : Vector PlanSlot 2} {d d' : Option Nat} (h : shapeOk w slots d)
    (hd : ∀ x, d' = some x → x ≤ 65535) : shapeOk w slots d' := by
  obtain ⟨h1, h2, h3, h4, h5, h6, h7, -⟩ := h
  exact ⟨h1, h2, h3, h4, h5, h6, h7, hd⟩

theorem leAt_lt (body : List Byte) (off n : Nat) : leAt body off n < 256 ^ n := by
  have key : ∀ (n : Nat) (l : List Byte), l.length ≤ n → leNat l < 256 ^ n := by
    intro n
    induction n with
    | zero => intro l hl; simp [List.length_eq_zero_iff.1 (Nat.le_zero.1 hl), leNat]
    | succ n ih =>
      intro l hl
      cases l with
      | nil => simp [leNat]
      | cons b l =>
        have h1 := ih l (by simpa using hl)
        have h2 := b.isLt
        simp only [leNat, Nat.pow_succ]
        omega
  exact key n _ (by simp)

theorem State.setDay_moves (v : Nat) (hv : v ≤ 65535) : Moves s { s with day := some v } :=
  .one (.plan s.walker s.slots (some v) fun h => h.setDay fun _ hx => by cases hx; exact hv)

theorem daySet_moves (body : List Byte) : Moves s (daySet body s).state := by
  have hv : leAt body 0 2 ≤ 65535 := Nat.le_of_lt_succ (leAt_lt body 0 2)
  unfold daySet
  dsimp only
  repeat' split
  all_goals first | exact .refl s | exact s.setDay_moves _ hv

/-- The walker's state changes among the states that are not IDLE. -/
theorem shapeOk.setState {w : Walker} {slots : Vector PlanSlot 2} {d : Option Nat} (h : shapeOk w slots d)
    {x : WalkerState} (hw : w.state ≠ .idle) (hx : x ≠ .idle) : shapeOk { w with state := x } slots d := by
  obtain ⟨h1, h2, h3, h4, h5, h6, h7, h8⟩ := h
  refine ⟨⟨fun hi => absurd hi hx, fun hi => absurd (h1.2 hi) hw⟩, h2, h3, h4, h5, h6, h7, h8⟩

theorem State.setWalkerState_moves (x : WalkerState) (hw : s.walker.state ≠ .idle) (hx : x ≠ .idle) :
    Moves s { s with walker := { s.walker with state := x } } :=
  .one (.plan { s.walker with state := x } s.slots s.day fun h => h.setState hw hx)

theorem planPause_moves : Moves s (planPause s).state := by
  unfold planPause
  split
  all_goals first | exact .refl s | exact s.setWalkerState_moves _ (by simp [*]) (by decide)

theorem planResume_moves : Moves s (planResume s).state := by
  unfold planResume
  split
  all_goals first | exact .refl s | exact s.setWalkerState_moves _ (by simp [*]) (by decide)

theorem planQueue_moves (body : List Byte) : Moves s (planQueue body s).state := by
  unfold planQueue
  dsimp only
  repeat' split
  all_goals first | exact .refl s | skip
  next h1 h2 h3 h4 =>
  refine .one (.plan { s.walker with queued := some (leAt body 0 1) } s.slots s.day fun h => ?_)
  obtain ⟨a1, a2, a3, a4, a5, a6, a7, a8⟩ := h
  refine ⟨a1, a2, fun i hi => ⟨(a3 i hi).1, fun hq => h3 ?_⟩, fun i hi => ?_, a5, a6, a7, a8⟩
  · cases hq; exact hi
  · cases hi
    cases hl : (s.slot (leAt body 0 1)).isLoaded with
    | true => exact hl
    | false => exact absurd hl h4

theorem State.slot_set {slots : Vector PlanSlot 2} {i j : Nat} {p : PlanSlot} :
    ((slots.setIfInBounds i p)[j]?).getD .empty = if i = j ∧ j < 2 then p else (slots[j]?).getD .empty := by
  rw [Vector.getElem?_setIfInBounds]
  by_cases h : i = j
  · subst h
    by_cases hb : i < 2 <;> simp [hb]
  · simp [h]

/-- A slot that neither runs nor is queued is changed. -/
theorem shapeOk.setSlot {w : Walker} {slots : Vector PlanSlot 2} {d : Option Nat} (h : shapeOk w slots d) {i : Nat}
    {p : PlanSlot} (hr : w.running ≠ some i) (hq : w.queued ≠ some i)
    (hl : ∀ es, p = .loaded es → 1 ≤ es.length ∧ es.length ≤ 512)
    (hl' : ∀ k t es, p = .loading k t es → 1 ≤ es.length ∧ es.length ≤ 512) :
    shapeOk w (slots.setIfInBounds i p) d := by
  obtain ⟨h1, h2, h3, h4, h5, h6, h7, h8⟩ := h
  have hs (j : Nat) : State.slot { State.reset with walker := w, slots := slots.setIfInBounds i p, day := d } j =
      if i = j ∧ j < 2 then p else State.slot { State.reset with walker := w, slots := slots, day := d } j :=
    State.slot_set
  have hne (j : Nat) (hj : j ≠ i) : State.slot { State.reset with walker := w, slots := slots.setIfInBounds i p, day := d } j =
      State.slot { State.reset with walker := w, slots := slots, day := d } j := by
    rw [hs, if_neg fun hc => hj hc.1.symm]
  refine ⟨h1, h2, fun j hj => ?_, fun j hj => ?_, fun q hq' => ?_, fun j es hj => ?_, fun j k t es hj => ?_, h8⟩
  · rw [hne j fun hc => hr (hc ▸ hj)]
    exact h3 j hj
  · rw [hne j fun hc => hq (hc ▸ hj)]
    exact h4 j hj
  · have h5' := h5 q hq'
    have he : State.planEntriesNow { State.reset with walker := w, slots := slots.setIfInBounds i p, day := d } =
        State.planEntriesNow { State.reset with walker := w, slots := slots, day := d } := by
      unfold State.planEntriesNow
      cases hw : w.running with
      | none => simp
      | some j =>
        simp only [Option.map_some, Option.getD_some]
        rw [hne j fun hc => hr (hc ▸ hw)]
    rw [he]
    exact h5'
  · rw [hs] at hj
    split at hj
    · exact hl es hj
    · exact h6 j es hj
  · rw [hs] at hj
    split at hj
    · exact hl' k t es hj
    · exact h7 j k t es hj

theorem planLoad_moves (h : Head) (tag : Half) (body : List Byte) : Moves s (planLoad h tag body s).state := by
  unfold planLoad
  dsimp only
  repeat' split
  all_goals first | exact .refl s | skip
  next h1 h2 h3 =>
  refine .one (.plan s.walker _ s.day fun hs => hs.setSlot (fun hc => h2 (.inr (.inl hc))) (fun hc => h2 (.inr (.inr hc)))
    (fun _ he => by cases he) fun k t es he => ?_)
  cases he
  have : Config.planEntriesMax = 512 := rfl
  omega

/-- The walker after PLAN_STOP is in shape. -/
theorem shapeOk.stopped {w : Walker} {slots : Vector PlanSlot 2} {d : Option Nat} (h : shapeOk w slots d) :
    shapeOk w.stopped slots d := by
  obtain ⟨h1, h2, h3, h4, h5, h6, h7, h8⟩ := h
  refine ⟨Iff.intro (fun _ => rfl) (fun _ => rfl), Iff.intro (fun _ => rfl) (fun _ => rfl), ?_, ?_, ?_, h6, h7, h8⟩
  all_goals intro i hi; cases hi

theorem planStop_moves : Moves s (planStop s).state := by
  unfold planStop
  dsimp only
  have h1 : Moves s { s with walker := s.walker.stopped } := .one (.plan s.walker.stopped s.slots s.day fun h => h.stopped)
  refine h1.trans (.works (State.Works.trans (State.Works.foldl (fun t it => ?_) _ _) (State.wakeRoom_works _)))
  exact (t.withdrawItem_works it).trans (State.leftoverGone_works _ _)

/-- The walker stands at the start of an entry of the running slot. -/
theorem State.gotoEntry_moves (i : Nat) (hi : s.walkerOk → i < s.planEntriesNow.length) (hr : s.walker.running ≠ none) :
    Moves s (s.gotoEntry i) := by
  refine .one (.plan { s.walker with position := some (s.entryStart i), entryPhase := .ahead } s.slots s.day fun h => ?_)
  have hi := hi h
  obtain ⟨h1, h2, h3, h4, h5, h6, h7, h8⟩ := h
  refine ⟨h1, ⟨fun hc => absurd hc hr, fun hc => by cases hc⟩, h3, h4, fun p hp => ?_, h6, h7, h8⟩
  cases hp
  exact hi

/-- PLAN_ENTRY_STALE is posted and the entry of the position is marked stale. -/
theorem State.foundStale_moves (i : Nat) (e : PlanEntry) (c : Nat) : Moves s (s.foundStale i e c) :=
  (Moves.works (s.post_works _)).tail
    (.plan { s.walker with entryPhase := .stale } s.slots s.day fun h => h)

/-- The walker takes a place at an entry of the running slot. -/
theorem State.setPosition_moves (p : Position) (b : EntryPhase) (hi : s.walkerOk → p.entry < s.planEntriesNow.length)
    (hr : s.walker.running ≠ none) :
    Moves s { s with walker := { s.walker with position := some p, entryPhase := b } } := by
  refine .one (.plan _ s.slots s.day fun h => ?_)
  have hi := hi h
  obtain ⟨h1, h2, h3, h4, h5, h6, h7, h8⟩ := h
  refine ⟨h1, ⟨fun hc => absurd hc hr, fun hc => by cases hc⟩, h3, h4, fun q hq => ?_, h6, h7, h8⟩
  cases hq
  exact hi

theorem State.takeUpEntry_moves (i : Nat) (e : PlanEntry) (hi : s.walkerOk → i < s.planEntriesNow.length)
    (hr : s.walker.running ≠ none) (hst : s.walker.state ≠ .idle) : Moves s (s.takeUpEntry i e) := by
  unfold State.takeUpEntry
  repeat' split
  · refine .one (.plan { s.walker with state := .halted, haltEntry := none } s.slots s.day fun h => ?_)
    have h' := h.setState (x := .halted) hst (by decide)
    exact h'
  · exact s.foundStale_moves _ _ _
  · exact s.foundStale_moves _ _ _
  · exact s.setPosition_moves _ _ hi hr

/-- What a take-up leaves of the walker, the slots and the day. -/
theorem State.takeUpEntry_shape (i : Nat) (e : PlanEntry) :
    (s.takeUpEntry i e).walker.running = s.walker.running ∧ (s.takeUpEntry i e).slots = s.slots ∧
      (s.takeUpEntry i e).day = s.day ∧
      ((s.takeUpEntry i e).walker.state = s.walker.state ∨ (s.takeUpEntry i e).walker.state = .halted) := by
  unfold State.takeUpEntry
  repeat' split
  · exact ⟨rfl, rfl, rfl, .inr rfl⟩
  · exact ⟨rfl, rfl, rfl, .inl rfl⟩
  · exact ⟨rfl, rfl, rfl, .inl rfl⟩
  · exact ⟨rfl, rfl, rfl, .inl rfl⟩

/-- The state of a pass start before entry 0 is taken up (R117 steps 1 to 3). -/
def State.passOpened (s : State) : State :=
  ({ s with
    walker := { s.walker with pass := (s.walker.pass + 1) % 256, notices := [] },
    media := s.media.map Medium.applyReset }).gotoEntry 0

theorem State.passStart_eq : s.passStart = match s.planEntriesNow[0]? with
    | some e => s.passOpened.takeUpEntry 0 e
    | none => s.passOpened := rfl

/-- A pass starts on a LOADED slot that becomes the running one: the walker goes on from `w`, a walker that runs. -/
theorem State.passStart_moves (w : Walker) (i : Nat) (hr : w.running = some i) (hst : w.state ≠ .idle)
    (hl : s.walkerOk → (s.slot i).isLoaded = true ∧ w.queued ≠ some i ∧ ∀ j, w.queued = some j → (s.slot j).isLoaded = true) :
    Moves s ({ s with walker := w } : State).passStart := by
  have hm : Moves s { s with media := s.media.map Medium.applyReset } := by
    refine .one (.ladder s.ladder _ fun ⟨h1, h2, h3, h4⟩ => ⟨h1, h2, h3, fun m hm => ?_⟩)
    obtain ⟨n, hn, rfl⟩ := List.mem_map.1 hm
    unfold Medium.applyReset
    split
    · refine ⟨Nat.zero_le _, ?_⟩
      cases hl : s.ladder with
      | nil => rw [hl] at h1; exact absurd h1 (by decide)
      | cons t ts =>
        rw [hl] at h3
        simp only [ladderRising, Bool.and_eq_true, decide_eq_true_eq] at h3
        exact .inr ⟨t, rfl, h3.1⟩
    · exact h4 n hn
  have ho : Moves s ({ s with walker := w } : State).passOpened := by
    refine hm.tail (.plan ({ s with walker := w } : State).passOpened.walker s.slots s.day fun h => ?_)
    have hl := hl h
    obtain ⟨h1, h2, h3, h4, h5, h6, h7, h8⟩ := h
    refine ⟨⟨fun hc => absurd hc hst, fun hc => ?_⟩, ⟨fun hc => ?_, fun hc => by cases hc⟩, fun j hj => ?_,
      fun j hj => hl.2.2 j hj, fun p hp => ?_, h6, h7, h8⟩
    · exact absurd (hr.symm.trans hc) (by simp)
    · exact absurd (hr.symm.trans hc) (by simp)
    · have : i = j := by simpa using hr.symm.trans hj
      exact this ▸ ⟨hl.1, hl.2.1⟩
    · cases hp
      show 0 < List.length (((w.running.map s.slot).map PlanSlot.entries).getD [])
      rw [hr]
      have hl := hl.1
      show 0 < (s.slot i).entries.length
      cases hs : s.slot i with
      | empty => rw [hs] at hl; cases hl
      | loading _ _ _ => rw [hs] at hl; cases hl
      | loaded es => exact (h6 i es hs).1
  rw [State.passStart_eq]
  split
  · next e he =>
    refine ho.trans (State.takeUpEntry_moves _ 0 e (fun _ => ?_) ?_ hst)
    · exact (List.getElem?_eq_some_iff.1 he).1
    · show w.running ≠ none
      rw [hr]
      simp
  · exact ho

theorem State.post_walkerOk (f : Finding) : (s.post f).walkerOk ↔ s.walkerOk := Iff.rfl

theorem State.passEnd_moves (slot : Nat) (hr : s.walker.running ≠ none) (hst : s.walker.state ≠ .idle) :
    Moves s (s.passEnd slot) := by
  unfold State.passEnd
  dsimp only
  generalize s.planFinding .planDone none none (s.walker.pass + 256 * slot) = f
  refine Moves.trans (Moves.works (s.post_works f)) ?_
  split
  · next q hq =>
    refine State.passStart_moves (s.post f) _ q rfl hst fun h => ⟨h.2.2.2.1 q hq, by simp, by simp⟩
  · next hq =>
    split
    · obtain ⟨i, hi⟩ := Option.ne_none_iff_exists'.1 hr
      refine State.passStart_moves (s.post f) s.walker i hi hst fun h => ⟨(h.2.2.1 i hi).1, (h.2.2.1 i hi).2, ?_⟩
      intro j hj
      exact h.2.2.2.1 j hj
    · refine .one (.plan _ s.slots s.day fun h => ?_)
      obtain ⟨h1, h2, h3, h4, h5, h6, h7, h8⟩ := h
      refine ⟨Iff.intro (fun _ => rfl) (fun _ => rfl), Iff.intro (fun _ => rfl) (fun _ => rfl), ?_, h4, ?_, h6, h7, h8⟩
      all_goals intro i hi; cases hi

theorem endsPlan_false {es : List PlanEntry} {i : Nat} {e : PlanEntry} (h : endsPlan es i e = false) : i + 1 ≠ es.length := by
  intro hc
  simp [endsPlan, hc] at h

theorem State.finishEntry_moves (slot i : Nat) (e : PlanEntry) (hi : s.walkerOk → i < s.planEntriesNow.length)
    (hr : s.walker.running ≠ none) (hst : s.walker.state ≠ .idle) : Moves s (s.finishEntry slot i e) := by
  unfold State.finishEntry
  extract_lets t u
  have ht : Moves s t ∧ t.walker = s.walker ∧ t.slots = s.slots ∧ t.day = s.day := by
    dsimp only [t]
    split
    · exact ⟨.works (s.post_works _), rfl, rfl, rfl⟩
    · exact ⟨.refl s, rfl, rfl, rfl⟩
  obtain ⟨h1, h2, h3, h4⟩ := ht
  have hu : Moves s u := by
    dsimp only [u]
    split
    · exact h1.trans (t.passEnd_moves slot (h2 ▸ hr) (h2 ▸ hst))
    · next hend =>
      refine h1.trans (t.gotoEntry_moves _ (fun hok => ?_) (h2 ▸ hr))
      have hne := endsPlan_false (Bool.eq_false_iff.2 hend)
      have hok' : s.walkerOk := by
        rw [State.walkerOk_iff, ← h2, ← h3, ← h4]
        exact hok
      have he : t.planEntriesNow = s.planEntriesNow := by
        unfold State.planEntriesNow State.slot
        rw [h2, h3]
      have := hi hok'
      rw [he] at hne ⊢
      omega
  split
  · next hh =>
    simp only [Bool.and_eq_true, bne_iff_ne] at hh
    exact hu.trans (u.setWalkerState_moves _ hh.2 (by decide))
  · exact hu

theorem State.staleRest_moves (slot i : Nat) (e : PlanEntry) (hi : s.walkerOk → i < s.planEntriesNow.length)
    (hr : s.walker.running ≠ none) (hst : s.walker.state ≠ .idle) : Moves s (s.staleRest slot i e) :=
  (Moves.works (s.post_works _)).trans (State.finishEntry_moves _ slot i e hi hr hst)

/-- A step that takes up an entry, and finishes it when it is stale. -/
theorem State.walkEntry_moves (slot i : Nat) (e : PlanEntry) (hi : i < s.planEntriesNow.length)
    (hr : s.walker.running ≠ none) (hst : s.walker.state ≠ .idle) : Moves s (s.walkEntry slot i e) := by
  unfold State.walkEntry
  have hm := s.takeUpEntry_moves i e (fun _ => hi) hr hst
  obtain ⟨h1, h2, -, h4⟩ := s.takeUpEntry_shape i e
  have h5 : (s.takeUpEntry i e).planEntriesNow = s.planEntriesNow := by
    unfold State.planEntriesNow State.slot
    rw [h1, h2]
  dsimp only
  split
  · refine hm.trans (State.finishEntry_moves _ slot i e (fun _ => h5 ▸ hi) (h1 ▸ hr) ?_)
    rcases h4 with h | h <;> rw [h]
    · exact hst
    · decide
  · exact hm

theorem State.advance_moves (slot : Nat) (p : Position) (e : PlanEntry) (r : Reel)
    (hi : s.walkerOk → p.entry < s.planEntriesNow.length) (hr : s.walker.running ≠ none) (hst : s.walker.state ≠ .idle) :
    Moves s (s.advance slot p e r) := by
  unfold State.advance
  split
  · exact s.setPosition_moves _ s.walker.entryPhase hi hr
  · split
    · exact s.setPosition_moves _ s.walker.entryPhase hi hr
    · exact s.finishEntry_moves _ _ _ hi hr hst

theorem State.createItem_walker (k : ItemKind) (cls : ItemClass) (c : CopyId) (m : Mask) :
    (s.createItem k cls c m).walker = s.walker := rfl

theorem State.createItem_slots (k : ItemKind) (cls : ItemClass) (c : CopyId) (m : Mask) :
    (s.createItem k cls c m).slots = s.slots := rfl

theorem State.createItem_day (k : ItemKind) (cls : ItemClass) (c : CopyId) (m : Mask) :
    (s.createItem k cls c m).day = s.day := rfl

theorem State.releaseOrWait_moves (slot : Nat) (p : Position) (e : PlanEntry) (r : Reel) (c : CopyId) (cls : ItemClass)
    (hi : s.walkerOk → p.entry < s.planEntriesNow.length) (hr : s.walker.running ≠ none) (hst : s.walker.state ≠ .idle) :
    Moves s (s.releaseOrWait slot p e r c cls) := by
  unfold State.releaseOrWait
  repeat' split
  · exact s.setWalkerState_moves _ hst (by decide)
  · exact (Moves.works (s.createItem_works _ _ _ _)).trans (State.advance_moves _ slot p e r hi hr hst)
  · exact s.setWalkerState_moves _ hst (by decide)

theorem State.notice_moves (p : Position) (c : CopyId) (score : Nat) (b : Band) : Moves s (s.notice p c score b) := by
  unfold State.notice
  split
  · exact (Moves.works (s.post_works (s.copyFinding .dueNotice false s.today c none none score))).tail
      (.plan { s.walker with notices := s.walker.notices ++ [p.entry] } s.slots s.day fun h => h)
  · exact .refl s

theorem State.notice_walker (p : Position) (c : CopyId) (score : Nat) (b : Band) :
    ∃ l, (s.notice p c score b).walker = { s.walker with notices := l } ∧ (s.notice p c score b).slots = s.slots ∧
      (s.notice p c score b).day = s.day := by
  unfold State.notice
  split
  · exact ⟨_, rfl, rfl, rfl⟩
  · exact ⟨_, rfl, rfl, rfl⟩

theorem State.evaluate_moves (slot : Nat) (p : Position) (e : PlanEntry)
    (hi : s.walkerOk → p.entry < s.planEntriesNow.length) (hr : s.walker.running ≠ none) (hst : s.walker.state ≠ .idle) :
    Moves s (s.evaluate slot p e) := by
  unfold State.evaluate
  dsimp only
  split
  · exact s.staleRest_moves _ _ _ hi hr hst
  · next r _ =>
    split
    · exact s.staleRest_moves _ _ _ hi hr hst
    · split
      · exact s.advance_moves _ _ _ _ hi hr hst
      · split
        · exact s.advance_moves _ _ _ _ hi hr hst
        · next b _ =>
          generalize dueScore (s.copy ⟨e.acc, p.segment, p.copy⟩) s.today r.scrubInterval
            (s.copyHealth ⟨e.acc, p.segment, p.copy⟩) = score
          have hm := s.notice_moves p ⟨e.acc, p.segment, p.copy⟩ score b
          obtain ⟨l, h1, h2, h3⟩ := s.notice_walker p ⟨e.acc, p.segment, p.copy⟩ score b
          revert hm h1 h2 h3
          generalize s.notice p ⟨e.acc, p.segment, p.copy⟩ score b = t
          intro hm h1 h2 h3
          have hi' : t.walkerOk → p.entry < t.planEntriesNow.length := by
            intro hok
            have he : t.planEntriesNow = s.planEntriesNow := by
              unfold State.planEntriesNow State.slot
              rw [h1, h2]
            rw [he]
            refine hi ?_
            rw [State.walkerOk_iff, h1, h2, h3] at hok
            exact hok
          have hr' : t.walker.running ≠ none := by rw [h1]; exact hr
          have hst' : t.walker.state ≠ .idle := by rw [h1]; exact hst
          split
          · exact hm.trans (t.advance_moves _ _ _ _ hi' hr' hst')
          · exact hm.trans (t.releaseOrWait_moves _ _ _ _ _ _ hi' hr' hst')
          · exact hm.trans (t.releaseOrWait_moves _ _ _ _ _ _ hi' hr' hst')

theorem State.walk_moves (hst : s.walker.state ≠ .idle) : Moves s s.walk := by
  unfold State.walk
  split
  · next slot p hr hp =>
    split
    · next e he =>
      have hi : s.walkerOk → p.entry < s.planEntriesNow.length := fun _ => (List.getElem?_eq_some_iff.1 he).1
      have hr' : s.walker.running ≠ none := by rw [hr]; simp
      split
      · exact s.walkEntry_moves _ _ _ (List.getElem?_eq_some_iff.1 he).1 hr' hst
      · exact s.evaluate_moves _ _ _ hi hr' hst
      · exact s.finishEntry_moves _ _ _ hi hr' hst
    · exact .refl s
  · exact .refl s

theorem planStart_moves (body : List Byte) : Moves s (planStart body s).state := by
  unfold planStart
  dsimp only
  repeat' split
  all_goals first | exact .refl s | skip
  next hl _ _ =>
  have hl' : (s.slot (leAt body 0 1)).isLoaded = true := by
    cases hc : (s.slot (leAt body 0 1)).isLoaded with
    | true => rfl
    | false => exact absurd hc hl
  rw [Applied.state_answered]
  exact s.passStart_moves _ (leAt body 0 1) rfl (by simp) fun _ => ⟨hl', by simp, by simp⟩

/-! ### The Pacer -/

theorem Pacer.clamp_ok {p : Pacer} (h1 : p.acc ≤ 15) (h2 : p.inForce.inRange = true)
    (h3 : ∀ q, p.staged = some q → q.inRange = true) : p.clamp.ok := by
  refine ⟨?_, ?_, h1, h2, h3⟩ <;> simp only [Pacer.clamp, Pacer.floor, Pacer.cap] <;> omega

theorem Pacer.bringStaged_cases (p : Pacer) :
    p.bringStaged.acc = p.acc ∧ p.bringStaged.staged = none ∧ p.bringStaged.credit = p.credit ∧
      p.bringStaged.inForce = p.staged.getD p.inForce := by
  unfold Pacer.bringStaged
  cases h : p.staged <;> simp [h]

theorem Pacer.ok.getD {p : Pacer} (h : p.ok) : (p.staged.getD p.inForce).inRange = true := by
  cases hs : p.staged with
  | none => exact h.2.2.2.1
  | some q => exact h.2.2.2.2 q hs

theorem Pacer.startWork_ok {p : Pacer} (h : p.ok) : p.startWork.ok := by
  obtain ⟨b1, b2, b3, b4⟩ := p.bringStaged_cases
  have hr := h.getD
  have hc : p.bringStaged.clamp.ok :=
    Pacer.clamp_ok (b1 ▸ h.2.2.1) (b4 ▸ hr) (by rw [b2]; intro q hq; cases hq)
  unfold Pacer.startWork
  revert hc
  generalize p.bringStaged.clamp = q
  intro hc
  obtain ⟨c1, c2, c3, c4, c5⟩ := hc
  have hf : q.inForce.fraction ≤ 15 := by
    simp only [PaceSettings.inRange, Bool.and_eq_true, decide_eq_true_eq] at c4
    exact c4.1.1.1.1.2
  refine ⟨?_, ?_, ?_, c4, c5⟩
  · simp only [Pacer.floor, Pacer.cap, Pacer.grant] at *
    split <;> omega
  · simp only [Pacer.floor, Pacer.cap, Pacer.grant] at *
    split <;> omega
  · simp only [Pacer.grant]
    split <;> omega

theorem Pacer.enterStopped_ok {p : Pacer} (h : p.ok) : p.enterStopped.ok := by
  obtain ⟨b1, b2, b3, b4⟩ := p.bringStaged_cases
  unfold Pacer.enterStopped
  dsimp only
  split
  · exact Pacer.clamp_ok (b1 ▸ h.2.2.1) (b4 ▸ h.getD) (by rw [b2]; intro q hq; cases hq)
  · exact h

theorem Pacer.halted_ok {p : Pacer} (h : p.ok) : p.halted.ok := by
  obtain ⟨b1, b2, b3, b4⟩ := p.bringStaged_cases
  refine ⟨?_, ?_, Nat.zero_le _, ?_, ?_⟩
  · simp only [Pacer.halted, Pacer.floor]; omega
  · simp only [Pacer.halted, Pacer.cap]; omega
  · exact b4 ▸ h.getD
  · show ∀ q, p.bringStaged.staged = some q → _
    rw [b2]
    intro q hq
    cases hq

theorem State.setPacer_moves (p : Pacer) (h : s.pacer.ok → p.ok) : Moves s { s with pacer := p } := .one (.pacer p h)

theorem State.startWorkWindow_moves : Moves s s.startWorkWindow := by
  unfold State.startWorkWindow
  dsimp only
  have h := s.setPacer_moves _ Pacer.startWork_ok
  split
  · exact h.trans (.works (State.wakeCredit_works _))
  · exact h

theorem paceSet_moves (body : List Byte) : Moves s (paceSet body s).state := by
  unfold paceSet
  dsimp only
  repeat' split
  · next h _ =>
    exact s.setPacer_moves _ fun hp => Pacer.clamp_ok hp.2.2.1 h (by intro q hq; cases hq)
  · next h _ =>
    exact s.setPacer_moves _ fun hp => ⟨hp.1, hp.2.1, hp.2.2.1, hp.2.2.2.1, by intro q hq; cases hq; exact h⟩
  · exact .refl s

theorem paceStart_moves : Moves s (paceStart s).state := by
  unfold paceStart
  repeat' split
  · exact s.setPacer_moves _ fun hp => hp
  · exact s.startWorkWindow_moves
  · exact s.setPacer_moves _ fun hp => hp
  · exact .refl s

theorem paceStop_moves : Moves s (paceStop s).state := by
  unfold paceStop
  split
  · exact .refl s
  · exact s.setPacer_moves _ fun hp => hp

theorem paceHalt_moves : Moves s (paceHalt s).state := s.setPacer_moves _ Pacer.halted_ok

/-! ### Ladder, findings and ports -/

theorem ladderPosition_le (points : Nat) (steps : List LadderStep) :
    ladderPosition points steps = steps.length ∨
      ∃ t, steps[ladderPosition points steps]? = some t ∧ points < t.threshold := by
  induction steps with
  | nil => exact .inl rfl
  | cons t ts ih =>
    unfold ladderPosition
    split
    · next h => exact .inr ⟨t, rfl, h⟩
    · rcases ih with h | ⟨u, h1, h2⟩
      · exact .inl (by simp [h])
      · exact .inr ⟨u, by simpa using h1, h2⟩

theorem ladderSet_moves (body : List Byte) : Moves s (ladderSet body s).state := by
  unfold ladderSet
  repeat' split
  · exact .refl s
  · next steps _ h =>
    refine .one (.ladder steps _ fun hs => ⟨h.1, h.2.1, h.2.2, fun m hm => ?_⟩)
    obtain ⟨n, hn, rfl⟩ := List.mem_map.1 hm
    exact ⟨(hs.2.2.2 n hn).1, ladderPosition_le _ _⟩
  · exact .refl s

theorem findingTake_moves (body : List Byte) : Moves s (findingTake body s).state := by
  unfold findingTake
  dsimp only
  repeat' split
  · exact .refl s
  · exact .refl s
  · refine .one (.findings _ fun h => ⟨?_, h.2.1, ?_⟩)
    · have := h.1
      simp only [List.length_drop]
      omega
    · intro ho
      simp only [Bool.and_eq_true, Bool.not_eq_true', List.isEmpty_eq_false_iff] at ho
      exact ho.2

theorem attentionSet_moves (h : Head) (body : List Byte) : Moves s (attentionSet h body s).state := by
  unfold attentionSet
  dsimp only
  split
  · exact s.setPort_moves h _ rfl
  · exact .refl s

theorem status_moves (h : Head) : Moves s (status h s).state := by
  unfold status
  rw [Applied.state_answered]
  refine Moves.trans (Moves.one (.findings { s.fq with dropped := 0 } fun hq => ⟨hq.1, Nat.zero_le _, hq.2.2⟩)) ?_
  exact State.setPort_moves _ h _ (by cases h <;> rfl)

/-! ### Port resets -/

theorem State.placeFront_works (p : Item → Bool) :
    s.Works { s with queue := { s.queue with items := placeFront p s.queue.items } } := s.setQueue_works _

theorem State.resetLane_moves (h : Head) (n : Nat) : Moves s (State.resetLane h s n) := by
  unfold State.resetLane
  have hfree (t : State) : Moves t (t.setLane n none) := .one (.lane n none fun _ hk => by cases hk)
  split
  · exact .refl s
  · next l hl =>
    split
    · exact .refl s
    · split
      · exact hfree s
      · dsimp only
        split
        · exact ((Moves.works (s.returnHeld_works _)).trans (.works (State.chargeLane_works _ l))).trans (hfree _)
        · exact (Moves.works (s.chargeLane_works l)).trans (hfree _)

theorem State.foldl_moves {α : Type} {f : State → α → State} (hf : ∀ s a, Moves s (f s a)) (l : List α) (s : State) :
    Moves s (l.foldl f s) := by
  induction l generalizing s with
  | nil => exact .refl s
  | cons a l ih => exact (hf s a).trans (ih _)

/-- A slot that is emptied when it is LOADING for a head. -/
def PlanSlot.clearFor (h : Head) : PlanSlot → PlanSlot
  | .loading h' a b => if h' = h then .empty else .loading h' a b
  | .empty => .empty
  | .loaded es => .loaded es

theorem State.slot_setIfInBounds_self {s : State} {i : Nat} : s.slots.setIfInBounds i (s.slot i) = s.slots := by
  ext j hj
  rw [Vector.getElem_setIfInBounds]
  split
  · next hij =>
    subst hij
    simp [State.slot, hj]
  · rfl

theorem State.clearSlot_moves (h : Head) (i : Nat) : Moves s (s.setPlanSlot i ((s.slot i).clearFor h)) := by
  refine .one (.plan s.walker _ s.day fun hs => ?_)
  cases hc : s.slot i with
  | empty =>
    rw [PlanSlot.clearFor, ← hc, State.slot_setIfInBounds_self]
    exact hs
  | loaded es =>
    rw [PlanSlot.clearFor, ← hc, State.slot_setIfInBounds_self]
    exact hs
  | loading h' a es =>
    have hne (j : Nat) (hj : (s.slot j).isLoaded = true) : i ≠ j := by
      rintro rfl
      rw [hc] at hj
      cases hj
    refine hs.setSlot (fun hr => hne i (hs.2.2.1 i hr).1 rfl) (fun hq => hne i (hs.2.2.2.1 i hq) rfl) ?_ ?_
    · intro es he
      by_cases hh : h' = h <;> simp [PlanSlot.clearFor, hh] at he
    · intro k t es' he
      by_cases hh : h' = h <;> simp [PlanSlot.clearFor, hh] at he
      exact he.2.2 ▸ hs.2.2.2.2.2.2.1 i _ _ _ hc

/-- The reels without the registrations of a head. -/
def notAddedBy (h : Head) (r : Reel) : Bool := match r.state with
  | .adding h' _ => h' != h
  | .active => true

theorem State.abandonOperations_eq (h : Head) : s.abandonOperations h =
    (({ s with reels := s.reels.filter (notAddedBy h) } : State).setPlanSlot 0 ((s.slot 0).clearFor h)).setPlanSlot 1
      ((s.slot 1).clearFor h) := by
  unfold State.abandonOperations
  dsimp only
  cases s.slot 0 <;> cases s.slot 1 <;> rfl

theorem State.abandonOperations_moves (h : Head) : Moves s (s.abandonOperations h) := by
  rw [State.abandonOperations_eq]
  have h1 : Moves s { s with reels := s.reels.filter (notAddedBy h) } := .works (s.setReels_works _)
  refine (h1.trans (State.clearSlot_moves _ h 0)).trans ?_
  have hs : (({ s with reels := s.reels.filter (notAddedBy h) } : State).setPlanSlot 0 ((s.slot 0).clearFor h)).slot 1 =
      s.slot 1 := by
    simp [State.slot, State.setPlanSlot]
  have := State.clearSlot_moves
    (({ s with reels := s.reels.filter (notAddedBy h) } : State).setPlanSlot 0 ((s.slot 0).clearFor h)) h 1
  rw [hs] at this
  exact this

theorem State.resetWork_moves (h : Head) : Moves s (s.resetWork h) := by
  unfold State.resetWork
  dsimp only
  refine Moves.trans ?_ (.works (State.wakeRoom_works _))
  refine Moves.trans ?_ (.works (State.placeFront_works _ _))
  refine Moves.trans ?_ (.works (State.Works.foldl (fun t it => t.returnHeld_works it) _ _))
  exact (s.abandonOperations_moves h).trans (State.foldl_moves (fun t n => t.resetLane_moves h n) _ _)

theorem State.resetPort_moves (h : Head) : Moves s (s.resetPort h) :=
  (s.resetWork_moves h).trans (State.setPort_moves _ h _ rfl)

/-! ### Every command -/

theorem LaneCtx.completeFrame_counts (list : Option (List Digest)) (l : LaneCtx) :
    (l.completeFrame list).bytesTaken = l.bytesTaken ∧ (l.completeFrame list).expected = l.expected := by
  unfold LaneCtx.completeFrame
  generalize crcFinal l.frameCrc = d
  cases list with
  | none => exact ⟨rfl, rfl⟩
  | some ds =>
    dsimp only
    split <;> exact ⟨rfl, rfl⟩

theorem LaneCtx.takeByte_counts (fs : Nat) (list : Option (List Digest)) (l : LaneCtx) (b : Byte) :
    (l.takeByte fs list b).bytesTaken = l.bytesTaken + 1 ∧ (l.takeByte fs list b).expected = l.expected := by
  unfold LaneCtx.takeByte
  generalize crcByte l.segCrc b = x
  generalize crcByte l.frameCrc b = y
  extract_lets l1
  split
  · exact l1.completeFrame_counts list
  · exact ⟨rfl, rfl⟩

/-- The byte counts after a feed's bytes. -/
theorem LaneCtx.takeBytes_counts (fs : Nat) (list : Option (List Digest)) (bytes : List Byte) (l : LaneCtx) :
    (l.takeBytes fs list bytes).bytesTaken = l.bytesTaken + bytes.length ∧
      (l.takeBytes fs list bytes).expected = l.expected := by
  unfold LaneCtx.takeBytes
  induction bytes generalizing l with
  | nil => exact ⟨rfl, rfl⟩
  | cons b bs ih =>
    obtain ⟨h1, h2⟩ := ih (l.takeByte fs list b)
    have hb := l.takeByte_counts fs list b
    rw [List.foldl_cons, h1, h2, hb.1, hb.2, List.length_cons]
    exact ⟨by omega, rfl⟩

theorem State.completeLane_moves (n : Nat) (l : LaneCtx)
    (hl : (∀ k, s.lane n = some k → k.ok) → l.bytesTaken ≤ l.expected) : Moves s (s.completeLane n l) := by
  unfold State.completeLane
  extract_lets d result s1 s2 it s3
  split
  · exact s.endUnjudged_moves _ _ _ _ hl
  · have h1 : s.Works s1 := by
      dsimp only [s1]
      split
      · exact s.learn_works _ _ _
      · exact State.Works.refl s
    have h2 : s.Works s2 := h1.trans (State.postFrameSuspect_works _ _ _ _ _)
    have h3 : s.Works s3 := by
      clear_value it
      dsimp only [s3]
      cases it with
      | some i =>
        exact h2.trans ((State.removeItem_works _ _).trans (State.leftoverGone_works _ _))
      | none => exact h2
    have h4 : s.Works (s3.route n l it result ⟨d, l.badMask, l.compared⟩).2 := h3.trans (State.route_works _ _ _ _ _ _)
    revert h4
    generalize s3.route n l it result ⟨d, l.badMask, l.compared⟩ = q
    intro h4
    have h5 : s.Works (q.2.chargeLane l) := h4.trans (State.chargeLane_works _ _)
    exact (Moves.works h5).trans (State.finishLane_moves _ n l .completed (some result) (some d) q.1
      fun hk => hl fun k hs => hk k ((h5.lane_eq n).trans hs))

theorem State.completeFeed_moves (n : Nat) (l : LaneCtx) (len : Nat) (tag : Half) (hn : s.lane n = some l)
    (hst : l.state = .digesting len tag) : Moves s (s.completeFeed n l len) := by
  unfold State.completeFeed
  extract_lets bytes fs l1
  have hc := LaneCtx.takeBytes_counts fs (s.seg l.target.seg).frameList bytes l
  have hlen : bytes.length = len := Memory.load_length _ _ _
  have hok : (∀ k, s.lane n = some k → k.ok) → l1.bytesTaken ≤ l1.expected := fun hk => by
    have h := (hk l hn).2 len tag hst
    rw [show l1.bytesTaken = _ from hc.1, show l1.expected = _ from hc.2, hlen]
    exact h.2.2
  split
  · exact s.completeLane_moves n l1 hok
  · exact .one (.lane n _ fun k hk hs => by cases hk; exact ⟨hok hs, fun _ _ h => by cases h⟩)

theorem execLaneFeedCompletion_moves (n : Nat) {t : State} (h : execLaneFeedCompletion n s = .next t) : Moves s t := by
  unfold execLaneFeedCompletion at h
  split at h
  · cases h; exact .refl s
  · next l hl =>
    split at h
    · next len tag hst =>
      cases h
      exact (((s.completeFeed_moves n l len tag hl hst).trans (.works (State.wakeRoom_works _))).trans
        (State.release_moves _ _)).trans (State.answer_moves _ _ _ _ _)
    · cases h; exact .refl s
    · cases h; exact .refl s

theorem execPlanLoadCompletion_moves (i : Nat) {t : State} (h : execPlanLoadCompletion i s = .next t) : Moves s t := by
  unfold execPlanLoadCompletion at h
  split at h
  · next k tag es hs =>
    cases h
    refine (Moves.one (.plan s.walker _ s.day fun hw => ?_)).trans ((State.release_moves _ k).trans (State.answer_moves _ _ _ _ _))
    have hne (j : Nat) (hj : (s.slot j).isLoaded = true) : i ≠ j := by
      rintro rfl
      rw [hs] at hj
      cases hj
    refine hw.setSlot (fun hr => hne i (hw.2.2.1 i hr).1 rfl) (fun hq => hne i (hw.2.2.2.1 i hq) rfl) ?_ (fun _ _ _ he => by cases he)
    intro es' he
    cases he
    exact hw.2.2.2.2.2.2.1 i _ _ _ hs
  · cases h; exact .refl s
  · cases h; exact .refl s

/-- Every command but the two resets is a chain of moves. -/
theorem exec_moves (c : Instr) (hp : c ≠ .powerOn) (hr : c ≠ .cardReset) {s t : State} (h : exec c s = .next t) :
    Moves s t := by
  cases c with
  | powerOn => exact absurd rfl hp
  | cardReset => exact absurd rfl hr
  | linkLoss k =>
    simp only [exec, execLinkLoss] at h
    split at h
    · cases h
      exact ((s.resetWork_moves k).trans (State.setPort_moves _ k ((s.resetWork k).port k).lost rfl)).tail .settle
    · cases h; exact .refl s
  | linkUp k =>
    simp only [exec, execLinkUp] at h
    split at h
    · cases h; exact .refl s
    · cases h
      exact (s.setPort_moves k { s.port k with
        link := true, orderPost := 0, orderTake := 0, replyPost := 0, replyRead := 0, reserved := 0, overrun := false } rfl).tail .settle
  | windowWrite k lane off bytes =>
    simp only [exec, execWindowWrite] at h
    split at h
    · split at h
      · cases h; exact .refl s
      · split at h
        · cases h; exact .refl s
        · next l hl =>
          split at h
          · cases h; exact .refl s
          · split at h
            · cases h
              exact .one (.windows _ fun hw => Memory.wf_store _ _ hw)
            · cases h
              exact .one (.lane lane _ fun q hq hk => by cases hq; exact hk l hl)
            · cases h; exact .refl s
    · cases h
  | orderPostCountWrite k v =>
    simp only [exec, execOrderPostCountWrite] at h
    repeat' split at h
    · cases h; exact .refl s
    · cases h; exact s.setPort_moves k _ rfl
    · cases h; exact s.setPort_moves k _ rfl
  | replyReadCountWrite k v =>
    simp only [exec, execReplyReadCountWrite] at h
    split at h
    · cases h; exact s.setPort_moves k _ rfl
    · cases h; exact .refl s
  | portAreaWrite k off bytes =>
    simp only [exec, execPortAreaWrite] at h
    repeat' split at h
    · cases h; exact .refl s
    · cases h; exact .one (.port k _ fun hw => Port.wf_headStore _ _ _ hw)
    · cases h
  | unknownOrder k =>
    simp only [exec, execUnknownOrder] at h
    split at h
    · cases h
      exact (s.popOrder_moves k).trans (State.answer_moves _ k _ _ _)
    · cases h; exact .refl s
  | reelAddCompletion reel =>
    simp only [exec, execReelAddCompletion] at h
    repeat' split at h
    · cases h; exact .refl s
    · cases h; exact .refl s
    · cases h
      exact (Moves.works (s.activate_works _)).trans ((State.release_moves _ _).trans (State.answer_moves _ _ _ _ _))
  | laneFeedCompletion n => exact execLaneFeedCompletion_moves s n h
  | stallTimerExpiry n =>
    simp only [exec, execStallTimerExpiry] at h
    split at h
    · cases h; exact .refl s
    · next l hl =>
      split at h
      · cases h
        exact ((s.endUnjudged_moves n l _ _ fun hk => (hk l hl).1).trans (.works (State.wakeRoom_works _))).tail .settle
      · cases h; exact .refl s
      · cases h; exact .refl s
  | claimTimerExpiry tag =>
    simp only [exec, execClaimTimerExpiry] at h
    split at h
    · cases h
      exact (Moves.works ((s.returnFront_works _ _).trans (State.wakeRoom_works _))).tail .settle
    · cases h; exact .refl s
  | confirmTimerExpiry reel segment =>
    simp only [exec, execConfirmTimerExpiry] at h
    split at h
    · cases h
      exact (Moves.works (s.expireDispute_works _ _)).tail .settle
    · cases h; exact .refl s
  | planLoadCompletion i => exact execPlanLoadCompletion_moves s i h
  | walkerPosition =>
    simp only [exec, execWalkerPosition] at h
    split at h
    · next hw =>
      cases h
      exact (s.walk_moves (by rw [hw]; decide)).tail .settle
    · cases h; exact .refl s
  | delayTimerExpiry =>
    simp only [exec, execDelayTimerExpiry] at h
    repeat' split at h
    all_goals cases h
    · exact s.setPacer_moves _ Pacer.enterStopped_ok
    · exact s.startWorkWindow_moves
    · exact .refl s
  | workWindowEnd =>
    simp only [exec, execWorkWindowEnd] at h
    repeat' split at h
    all_goals cases h
    · exact s.setPacer_moves _ Pacer.enterStopped_ok
    · exact s.setPacer_moves _ fun hp => hp
    · exact s.startWorkWindow_moves
    · exact .refl s
  | yieldWindowEnd =>
    simp only [exec, execYieldWindowEnd] at h
    repeat' split at h
    all_goals cases h
    · exact s.setPacer_moves _ Pacer.enterStopped_ok
    · exact s.startWorkWindow_moves
    · exact .refl s
  | mediumAdd k => exact takeOrder_moves (fun _ b u => mediumAdd_moves u b) h
  | mediumRemove k => exact takeOrder_moves (fun _ b u => .works (mediumRemove_works u b)) h
  | mediumWithdraw k =>
    exact takeOrder_moves (fun _ b u => .works
      (mediumOrder_works u (fun m => { m with withdrawnByHead := true }) (fun _ => ⟨rfl, rfl⟩) b)) h
  | mediumReturn k =>
    exact takeOrder_moves (fun _ b u => .works
      (mediumOrder_works u (fun m => { m with withdrawnByHead := false }) (fun _ => ⟨rfl, rfl⟩) b)) h
  | mediumResetPoints k =>
    exact takeOrder_moves (fun _ b u => .works
      (mediumOrder_works u (fun m => { m with resetPending := true }) (fun _ => ⟨rfl, rfl⟩) b)) h
  | reelAdd k => exact takeOrder_moves (fun t b u => .works (reelAdd_works u k t b)) h
  | reelRemove k => exact takeOrder_moves (fun _ b u => .works (reelRemove_works u b)) h
  | referenceLoad k => exact takeOrder_moves (fun _ b u => .works (referenceLoad_works u b)) h
  | segmentRead k => exact takeOrder_moves (fun _ b u => .works (segmentRead_works u b)) h
  | copySelect k => exact takeOrder_moves (fun _ b u => .works (copySelect_works u b)) h
  | laneOpen k => exact takeOrder_moves (fun _ b u => laneOpen_moves u k b) h
  | laneFeed k => exact takeOrder_moves (fun t b u => laneFeed_moves u k t b) h
  | laneEnd k => exact takeOrder_moves (fun _ b u => laneEnd_moves u k b) h
  | laneAbort k => exact takeOrder_moves (fun _ b u => laneAbort_moves u k b) h
  | laneReport k => exact takeOrder_moves (fun _ b u => laneReport_moves u k b) h
  | itemClaim k => exact takeOrder_moves (fun _ _ u => .works (itemClaim_works u k)) h
  | itemReturn k => exact takeOrder_moves (fun _ b u => .works (itemReturn_works u k b)) h
  | disputeAdopt k => exact takeOrder_moves (fun _ b u => .works (disputeAdopt_works u b)) h
  | disputeReject k => exact takeOrder_moves (fun _ b u => .works (disputeReject_works u b)) h
  | repairRequest k => exact takeOrder_moves (fun _ b u => .works (repairRequest_works u b)) h
  | planLoad k => exact takeOrder_moves (fun t b u => planLoad_moves u k t b) h
  | planStart k => exact takeOrder_moves (fun _ b u => planStart_moves u b) h
  | planQueue k => exact takeOrder_moves (fun _ b u => planQueue_moves u b) h
  | planPause k => exact takeOrder_moves (fun _ _ u => planPause_moves u) h
  | planResume k => exact takeOrder_moves (fun _ _ u => planResume_moves u) h
  | planStop k => exact takeOrder_moves (fun _ _ u => planStop_moves u) h
  | bandsSet k => exact takeOrder_moves (fun _ b u => bandsSet_moves u b) h
  | daySet k => exact takeOrder_moves (fun _ b u => daySet_moves u b) h
  | paceSet k => exact takeOrder_moves (fun _ b u => paceSet_moves u b) h
  | paceStart k => exact takeOrder_moves (fun _ _ u => paceStart_moves u) h
  | paceStop k => exact takeOrder_moves (fun _ _ u => paceStop_moves u) h
  | paceHalt k => exact takeOrder_moves (fun _ _ u => paceHalt_moves u) h
  | ladderSet k => exact takeOrder_moves (fun _ b u => ladderSet_moves u b) h
  | timersSet k => exact takeOrder_moves (fun _ b u => timersSet_moves u b) h
  | findingTake k => exact takeOrder_moves (fun _ b u => findingTake_moves u b) h
  | attentionSet k => exact takeOrder_moves (fun _ b u => attentionSet_moves u k b) h
  | status k => exact takeOrder_moves (fun _ _ u => status_moves u k) h
  | portReset k =>
    exact takeOrder_moves (act := fun _ _ t => .answered (t.resetPort k) (.ok []))
      (fun _ _ u => u.resetPort_moves k) h

end Sys2Proof.Machine
end

