-- ==== Sys2Proof/Laws/Keeps.lean ====
section
/-! SUPPORT. Laws/Keeps.lean: one walk over all commands for the properties of the tables (reels, lanes, disputes, repairs
and the queue). A `Keeper` of a property names what the operations on the tables have to be shown to keep; `exec_keeps`
then gives it for every command but the two resets. -/

namespace Sys2Proof.Machine

/-- Two states hold the same tables. -/
def State.sameTables (s t : State) : Prop :=
  t.reels = s.reels ∧ t.lanes = s.lanes ∧ t.disputes = s.disputes ∧ t.repairs = s.repairs ∧ t.queue = s.queue

theorem State.sameTables.refl (s : State) : s.sameTables s := ⟨rfl, rfl, rfl, rfl, rfl⟩

theorem State.sameTables.trans {s t u : State} (h : s.sameTables t) (k : t.sameTables u) : s.sameTables u :=
  ⟨k.1.trans h.1, k.2.1.trans h.2.1, k.2.2.1.trans h.2.2.1, k.2.2.2.1.trans h.2.2.2.1, k.2.2.2.2.trans h.2.2.2.2⟩

/-- What the operations on the tables have to keep of a property. -/
structure Keeper (P : State → Prop) : Prop where
  frame : ∀ {s t : State}, s.sameTables t → P s → P t
  setLane : ∀ (s : State) n (l k : LaneCtx), s.lane n = some k → l.target = k.target → P s → P (s.setLane n (some l))
  freeLane : ∀ (s : State) n, P s → P (s.setLane n none)
  laneOpen : ∀ h body s, P s → P (laneOpen h body s).state
  reelAdd : ∀ h tag body s, P s → P (reelAdd h tag body s).state
  activate : ∀ (s : State) acc r h tag, s.reel? acc = some r → r.state = .adding h tag → P s → P (s.activate r)
  reelRemove : ∀ body s, P s → P (reelRemove body s).state
  referenceLoad : ∀ body s, P s → P (referenceLoad body s).state
  abandonOperations : ∀ (s : State) h, P s → P (s.abandonOperations h)
  learn : ∀ (s : State) g d frames, P s → P (s.learn g d frames)
  removeItem : ∀ (s : State) it, P s → P (s.removeItem it)
  withdrawItem : ∀ (s : State) it, P s → P (s.withdrawItem it)
  leftoverGone : ∀ (s : State) c, P s → P (s.leftoverGone c)
  returnFront : ∀ (s : State) it cause, P s → P (s.returnFront it cause)
  returnRetry : ∀ (s : State) it, it ∈ s.queue.items → P s → P (s.returnRetry it)
  returnUnreadable : ∀ (s : State) it, P s → P (s.returnUnreadable it)
  returnHeld : ∀ (s : State) it, P s → P (s.returnHeld it)
  placeFront : ∀ (s : State) p, P s → P { s with queue := { s.queue with items := placeFront p s.queue.items } }
  claimWalk : ∀ h n s, P s → P (State.claimWalk h n s).1
  createScrub : ∀ (s : State) cls c, (s.activeReel? c.reel).isSome = true → s.queue.items.length < 32 → P s →
    P (s.createItem .scrub cls c 0#64)
  route : ∀ (s : State) n (l k : LaneCtx) it result o, s.lane n = some k → l.target = k.target → P s →
    P (s.route n l it result o).2
  expireDispute : ∀ (s : State) g d, s.collecting? g = some d → P s → P (s.expireDispute g d)
  disputeAdopt : ∀ body s, P s → P (disputeAdopt body s).state
  disputeReject : ∀ body s, P s → P (disputeReject body s).state
  repairRequest : ∀ body s, P s → P (repairRequest body s).state

theorem Keeper.same {P : State → Prop} (hP : Keeper P) {s t : State} (hs : P s)
    (h : s.sameTables t := by exact ⟨rfl, rfl, rfl, rfl, rfl⟩) : P t := hP.frame h hs

section

variable {P : State → Prop} (hP : Keeper P)

theorem State.setPort_sameTables (s : State) (h : Head) (p : Port) : s.sameTables (s.setPort h p) := by
  cases h <;> exact ⟨rfl, rfl, rfl, rfl, rfl⟩

theorem State.wakeRoom_sameTables (s : State) : s.sameTables s.wakeRoom := by
  unfold State.wakeRoom
  split <;> exact ⟨rfl, rfl, rfl, rfl, rfl⟩

theorem State.chargeLane_sameTables (s : State) (l : LaneCtx) : s.sameTables (s.chargeLane l) := by
  unfold State.chargeLane
  split <;> exact ⟨rfl, rfl, rfl, rfl, rfl⟩

theorem State.answer_sameTables (s : State) (h : Head) (c : Nat) (t : Half) (a : Answer) :
    s.sameTables (s.answer h c t a) := by
  cases h <;> exact ⟨rfl, rfl, rfl, rfl, rfl⟩

theorem State.startWorkWindow_sameTables (s : State) : s.sameTables s.startWorkWindow := by
  unfold State.startWorkWindow State.wakeCredit
  dsimp only
  repeat' split
  all_goals exact ⟨rfl, rfl, rfl, rfl, rfl⟩

/-! ### The walker leaves the tables, but for the item it releases -/

theorem State.takeUpEntry_sameTables (s : State) (i : Nat) (e : PlanEntry) : s.sameTables (s.takeUpEntry i e) := by
  unfold State.takeUpEntry
  repeat' split
  all_goals exact ⟨rfl, rfl, rfl, rfl, rfl⟩

theorem State.passStart_sameTables (s : State) : s.sameTables s.passStart := by
  rw [State.passStart_eq]
  split
  · exact State.sameTables.trans (t := s.passOpened) ⟨rfl, rfl, rfl, rfl, rfl⟩ (State.takeUpEntry_sameTables _ _ _)
  · exact ⟨rfl, rfl, rfl, rfl, rfl⟩

theorem State.passEnd_sameTables (s : State) (slot : Nat) : s.sameTables (s.passEnd slot) := by
  unfold State.passEnd
  dsimp only
  repeat' split
  · exact State.sameTables.trans ⟨rfl, rfl, rfl, rfl, rfl⟩ (State.passStart_sameTables _)
  · exact State.sameTables.trans ⟨rfl, rfl, rfl, rfl, rfl⟩ (State.passStart_sameTables _)
  · exact ⟨rfl, rfl, rfl, rfl, rfl⟩

theorem State.finishEntry_sameTables (s : State) (slot i : Nat) (e : PlanEntry) :
    s.sameTables (s.finishEntry slot i e) := by
  unfold State.finishEntry
  extract_lets t u
  have ht : s.sameTables t := by
    dsimp only [t]
    split <;> exact ⟨rfl, rfl, rfl, rfl, rfl⟩
  have hu : s.sameTables u := by
    dsimp only [u]
    split
    · exact ht.trans (State.passEnd_sameTables _ _)
    · exact ht
  split
  · exact hu
  · exact hu

theorem State.walkEntry_sameTables (s : State) (slot i : Nat) (e : PlanEntry) : s.sameTables (s.walkEntry slot i e) := by
  unfold State.walkEntry
  dsimp only
  split
  · exact (s.takeUpEntry_sameTables i e).trans (State.finishEntry_sameTables _ _ _ _)
  · exact s.takeUpEntry_sameTables i e

theorem State.advance_sameTables (s : State) (slot : Nat) (p : Position) (e : PlanEntry) (r : Reel) :
    s.sameTables (s.advance slot p e r) := by
  unfold State.advance
  repeat' split
  · exact ⟨rfl, rfl, rfl, rfl, rfl⟩
  · exact ⟨rfl, rfl, rfl, rfl, rfl⟩
  · exact s.finishEntry_sameTables _ _ _

theorem State.notice_sameTables (s : State) (p : Position) (c : CopyId) (score : Nat) (b : Band) :
    s.sameTables (s.notice p c score b) := by
  unfold State.notice
  split <;> exact ⟨rfl, rfl, rfl, rfl, rfl⟩

include hP

theorem State.evaluate_keeps (s : State) (slot : Nat) (p : Position) (e : PlanEntry) (hs : P s) :
    P (s.evaluate slot p e) := by
  have hstale : P (s.staleRest slot p.entry e) :=
    hP.frame (State.finishEntry_sameTables _ slot p.entry e) (hP.same (t := s.postStale p.entry e 3) hs)
  unfold State.evaluate
  split
  · exact hstale
  · next r hr =>
    split
    · exact hstale
    · dsimp only
      split
      · exact hP.frame (s.advance_sameTables _ _ _ _) hs
      · split
        · exact hP.frame (s.advance_sameTables _ _ _ _) hs
        · next b _ =>
          have hn := s.notice_sameTables p ⟨e.acc, p.segment, p.copy⟩
            (dueScore (s.copy ⟨e.acc, p.segment, p.copy⟩) s.today r.scrubInterval
              (s.copyHealth ⟨e.acc, p.segment, p.copy⟩)) b
          revert hn
          generalize s.notice p ⟨e.acc, p.segment, p.copy⟩ _ b = t
          intro hn
          have ht := hP.frame hn hs
          have hrow (cls : ItemClass) : P (t.releaseOrWait slot p e r ⟨e.acc, p.segment, p.copy⟩ cls) := by
            unfold State.releaseOrWait
            repeat' split
            · exact hP.same ht
            · next hlen _ =>
              refine hP.frame (State.advance_sameTables _ _ _ _ _) (hP.createScrub t cls _ ?_ ?_ ht)
              · show (t.activeReel? e.acc).isSome = true
                have : t.activeReel? e.acc = s.activeReel? e.acc := by
                  unfold State.activeReel? State.reel?
                  rw [hn.1]
                rw [this, hr]
                rfl
              · have : Config.scrubItemsMax = 32 := rfl
                omega
            · exact hP.same ht
          split
          · exact hP.frame (t.advance_sameTables _ _ _ _) ht
          · exact hrow _
          · exact hrow _

theorem State.walk_keeps (s : State) (hs : P s) : P s.walk := by
  unfold State.walk
  repeat' split
  · exact hP.frame (s.walkEntry_sameTables _ _ _) hs
  · exact State.evaluate_keeps hP s _ _ _ hs
  · exact hP.frame (s.finishEntry_sameTables _ _ _) hs
  · exact hs
  · exact hs

/-! ### Lanes and ports -/

theorem State.endUnjudged_keeps (s : State) (n : Nat) (l : LaneCtx) (reason : EndReason) (result : Option Result)
    (k : LaneCtx) (hk : s.lane n = some k) (hl : l.target = k.target) (hs : P s) :
    P (s.endUnjudged n l reason result) := by
  unfold State.endUnjudged State.finishLane
  dsimp only
  have key (t : State) (hw : s.Works t) (ht : P t) (x : LaneCtx) (hx : x.target = l.target) :
      P ((t.chargeLane l).setLane n (some x)) := by
    refine hP.setLane _ n x k ?_ (hx.trans hl) (hP.frame (t.chargeLane_sameTables l) ht)
    rw [(hw.trans (t.chargeLane_works l)).lane_eq, hk]
  split
  · exact key _ (s.returnFront_works _ _) (hP.returnFront _ _ _ hs) _ rfl
  · exact key _ (State.Works.refl s) hs _ rfl

omit hP in
theorem LaneCtx.takeBytes_target (fs : Nat) (list : Option (List Digest)) (bytes : List Byte) (l : LaneCtx) :
    (l.takeBytes fs list bytes).target = l.target := by
  have hf (l : LaneCtx) : (l.completeFrame list).target = l.target := by
    unfold LaneCtx.completeFrame
    generalize crcFinal l.frameCrc = d
    cases list with
    | none => rfl
    | some ds =>
      dsimp only
      split <;> rfl
  have hb (l : LaneCtx) (b : Byte) : (l.takeByte fs list b).target = l.target := by
    unfold LaneCtx.takeByte
    generalize crcByte l.segCrc b = x
    generalize crcByte l.frameCrc b = y
    extract_lets l1
    split
    · exact hf l1
    · rfl
  unfold LaneCtx.takeBytes
  induction bytes generalizing l with
  | nil => rfl
  | cons b bs ih => exact (ih _).trans (hb l b)

theorem State.completeLane_keeps (s : State) (n : Nat) (l k : LaneCtx) (hk : s.lane n = some k)
    (hl : l.target = k.target) (hs : P s) : P (s.completeLane n l) := by
  unfold State.completeLane
  extract_lets d result s1 s2 it s3
  split
  · exact State.endUnjudged_keeps hP s n l _ _ k hk hl hs
  · have h1 : P s1 ∧ s.Works s1 := by
      dsimp only [s1]
      split
      · exact ⟨hP.learn _ _ _ _ hs, s.learn_works _ _ _⟩
      · exact ⟨hs, State.Works.refl s⟩
    have h2 : P s2 ∧ s.Works s2 := by
      refine ⟨?_, h1.2.trans (State.postFrameSuspect_works _ _ _ _ _)⟩
      dsimp only [s2]
      unfold State.postFrameSuspect
      split
      · exact hP.same h1.1
      · exact h1.1
    have h3 : P s3 ∧ s.Works s3 := by
      clear_value it
      dsimp only [s3]
      cases it with
      | some i =>
        exact ⟨hP.leftoverGone _ _ (hP.removeItem _ _ h2.1),
          h2.2.trans ((State.removeItem_works _ _).trans (State.leftoverGone_works _ _))⟩
      | none => exact h2
    have h4 : P (s3.route n l it result ⟨d, l.badMask, l.compared⟩).2 ∧
        s.Works (s3.route n l it result ⟨d, l.badMask, l.compared⟩).2 :=
      ⟨hP.route s3 n l k it result _ (by rw [h3.2.lane_eq, hk]) hl h3.1, h3.2.trans (State.route_works _ _ _ _ _ _)⟩
    revert h4
    generalize s3.route n l it result ⟨d, l.badMask, l.compared⟩ = q
    intro h4
    refine hP.setLane _ n _ k ?_ hl (hP.frame (q.2.chargeLane_sameTables l) h4.1)
    rw [(h4.2.trans (q.2.chargeLane_works l)).lane_eq, hk]

theorem State.completeFeed_keeps (s : State) (n : Nat) (l : LaneCtx) (len : Nat) (hk : s.lane n = some l) (hs : P s) :
    P (s.completeFeed n l len) := by
  unfold State.completeFeed
  extract_lets bytes fs l1
  have ht : l1.target = l.target := LaneCtx.takeBytes_target fs _ bytes l
  split
  · exact State.completeLane_keeps hP s n l1 l hk ht hs
  · exact hP.setLane s n _ l hk ht hs

theorem State.resetLane_keeps (h : Head) (s : State) (n : Nat) (hs : P s) : P (State.resetLane h s n) := by
  unfold State.resetLane
  repeat' split
  · exact hs
  · exact hs
  · exact hP.freeLane s n hs
  · exact hP.freeLane _ n (hP.frame (State.chargeLane_sameTables _ _) (hP.returnHeld _ _ hs))
  · exact hP.freeLane _ n (hP.frame (State.chargeLane_sameTables _ _) hs)

omit hP in
theorem State.foldl_keeps {α : Type} {f : State → α → State} (hf : ∀ s a, P s → P (f s a)) (l : List α) (s : State)
    (hs : P s) : P (l.foldl f s) := by
  induction l generalizing s with
  | nil => exact hs
  | cons a l ih => exact ih _ (hf s a hs)

theorem State.resetWork_keeps (s : State) (h : Head) (hs : P s) : P (s.resetWork h) := by
  unfold State.resetWork
  dsimp only
  refine hP.frame (State.wakeRoom_sameTables _) (hP.placeFront _ _ ?_)
  refine State.foldl_keeps (fun t it ht => hP.returnHeld t it ht) _ _ ?_
  exact State.foldl_keeps (fun t n ht => State.resetLane_keeps hP h t n ht) _ _ (hP.abandonOperations s h hs)

theorem State.resetPort_keeps (s : State) (h : Head) (hs : P s) : P (s.resetPort h) :=
  hP.frame (State.setPort_sameTables _ _ _) (s.resetWork_keeps hP h hs)

/-! ### Every command -/

theorem takeOrder_keepsTables {h : Head} {code : Nat} {act : Half → List Byte → State → Applied}
    (hact : ∀ tag body s, P s → P (act tag body s).state) {s t : State} (hs : P s)
    (ht : takeOrder h code act s = .next t) : P t :=
  takeOrder_keeps (fun u hu => hP.frame (u.setPort_sameTables h _) hu)
    (fun u c t a hu => hP.frame (u.answer_sameTables h c t a) hu)
    (fun u hu => hP.frame (State.sameTables.trans (u.setPort_sameTables h _) ⟨rfl, rfl, rfl, rfl, rfl⟩) hu) hact hs ht

theorem exec_keeps (c : Instr) (hp : c ≠ .powerOn) (hr : c ≠ .cardReset) {s t : State} (hs : P s)
    (h : exec c s = .next t) : P t := by
  have hend (u : State) (n : Nat) (l : LaneCtx) (e : EndReason) (hl : u.lane n = some l) (hu : P u) :
      P (u.endUnjudged n l e none).wakeRoom :=
    hP.frame (State.wakeRoom_sameTables _) (State.endUnjudged_keeps hP u n l e none l hl rfl hu)
  have hrel (u : State) (k : Head) (code : Nat) (tag : Half) (a : Answer) (hu : P u) :
      P ((u.release k).reply k code tag a).settle :=
    hP.frame ((u.setPort_sameTables k _).trans (State.answer_sameTables _ k code tag a)) hu
  cases c with
  | powerOn => exact absurd rfl hp
  | cardReset => exact absurd rfl hr
  | linkLoss k =>
    simp only [exec, execLinkLoss] at h
    split at h
    · cases h
      exact hP.frame ((State.setPort_sameTables _ _ _).trans ⟨rfl, rfl, rfl, rfl, rfl⟩) (s.resetWork_keeps hP k hs)
    · cases h; exact hs
  | linkUp k =>
    simp only [exec, execLinkUp] at h
    split at h
    · cases h; exact hs
    · cases h; exact hP.frame ((s.setPort_sameTables k _).trans ⟨rfl, rfl, rfl, rfl, rfl⟩) hs
  | windowWrite k lane off bytes =>
    simp only [exec, execWindowWrite] at h
    repeat' split at h
    all_goals cases h
    all_goals first | exact hs | exact hP.same hs | skip
    next l hl _ _ _ _ _ => exact hP.setLane s lane _ l hl rfl hs
  | orderPostCountWrite k v =>
    simp only [exec, execOrderPostCountWrite] at h
    repeat' split at h
    all_goals cases h
    all_goals first | exact hs | exact hP.frame (s.setPort_sameTables k _) hs
  | replyReadCountWrite k v =>
    simp only [exec, execReplyReadCountWrite] at h
    split at h <;> cases h
    · exact hP.frame (s.setPort_sameTables k _) hs
    · exact hs
  | portAreaWrite k off bytes =>
    simp only [exec, execPortAreaWrite] at h
    repeat' split at h
    all_goals cases h
    all_goals first | exact hs | exact hP.frame (s.setPort_sameTables k _) hs
  | unknownOrder k =>
    simp only [exec, execUnknownOrder] at h
    split at h <;> cases h
    · exact hP.frame ((s.setPort_sameTables k _).trans (State.answer_sameTables _ k _ _ _)) hs
    · exact hs
  | reelAddCompletion reel =>
    simp only [exec, execReelAddCompletion] at h
    repeat' split at h
    all_goals cases h
    · exact hs
    · exact hs
    · exact hrel _ _ _ _ _ (hP.activate s reel _ _ _ (by assumption) (by assumption) hs)
  | laneFeedCompletion n =>
    simp only [exec, execLaneFeedCompletion] at h
    repeat' split at h
    all_goals cases h
    · exact hs
    · exact hrel _ _ _ _ _ (hP.frame (State.wakeRoom_sameTables _) (s.completeFeed_keeps hP n _ _ (by assumption) hs))
    · exact hrel _ _ _ _ _ (hP.frame (State.wakeRoom_sameTables _) (s.completeFeed_keeps hP n _ _ (by assumption) hs))
    · exact hs
    · exact hs
  | stallTimerExpiry n =>
    simp only [exec, execStallTimerExpiry] at h
    repeat' split at h
    all_goals cases h
    · exact hs
    · exact hP.same (hend s n _ .stalled (by assumption) hs)
    · exact hs
    · exact hs
  | claimTimerExpiry tag =>
    simp only [exec, execClaimTimerExpiry] at h
    split at h <;> cases h
    · exact hP.frame (State.sameTables.trans (State.wakeRoom_sameTables _) ⟨rfl, rfl, rfl, rfl, rfl⟩) (hP.returnFront s _ 1 hs)
    · exact hs
  | confirmTimerExpiry reel segment =>
    simp only [exec, execConfirmTimerExpiry] at h
    split at h <;> cases h
    · exact hP.same (hP.expireDispute s _ _ (by assumption) hs)
    · exact hs
  | planLoadCompletion i =>
    simp only [exec, execPlanLoadCompletion] at h
    repeat' split at h
    all_goals cases h
    · exact hrel _ _ _ _ _ (hP.same hs)
    · exact hs
    · exact hs
  | walkerPosition =>
    simp only [exec, execWalkerPosition] at h
    split at h <;> cases h
    · exact hP.same (s.walk_keeps hP hs)
    · exact hs
  | delayTimerExpiry =>
    simp only [exec, execDelayTimerExpiry] at h
    repeat' split at h
    all_goals cases h
    all_goals first | exact hs | exact hP.frame s.startWorkWindow_sameTables hs | exact hP.same hs
  | workWindowEnd =>
    simp only [exec, execWorkWindowEnd] at h
    repeat' split at h
    all_goals cases h
    all_goals first | exact hs | exact hP.frame s.startWorkWindow_sameTables hs | exact hP.same hs
  | yieldWindowEnd =>
    simp only [exec, execYieldWindowEnd] at h
    repeat' split at h
    all_goals cases h
    all_goals first | exact hs | exact hP.frame s.startWorkWindow_sameTables hs | exact hP.same hs
  | mediumAdd k =>
    refine takeOrder_keepsTables hP (act := fun _ b => mediumAdd b) (fun _ b u hu => hP.frame ?_ hu) hs h
    unfold mediumAdd
    dsimp only
    repeat' split
    all_goals exact ⟨rfl, rfl, rfl, rfl, rfl⟩
  | mediumRemove k =>
    refine takeOrder_keepsTables hP (act := fun _ b => mediumRemove b) (fun _ b u hu => hP.frame ?_ hu) hs h
    unfold mediumRemove
    dsimp only
    repeat' split
    all_goals exact ⟨rfl, rfl, rfl, rfl, rfl⟩
  | mediumWithdraw k =>
    refine takeOrder_keepsTables hP (act := fun _ b => mediumOrder (fun m => { m with withdrawnByHead := true }) b)
      (fun _ b u hu => hP.frame ?_ hu) hs h
    unfold mediumOrder
    dsimp only
    split <;> exact ⟨rfl, rfl, rfl, rfl, rfl⟩
  | mediumReturn k =>
    refine takeOrder_keepsTables hP (act := fun _ b => mediumOrder (fun m => { m with withdrawnByHead := false }) b)
      (fun _ b u hu => hP.frame ?_ hu) hs h
    unfold mediumOrder
    dsimp only
    split <;> exact ⟨rfl, rfl, rfl, rfl, rfl⟩
  | mediumResetPoints k =>
    refine takeOrder_keepsTables hP (act := fun _ b => mediumOrder (fun m => { m with resetPending := true }) b)
      (fun _ b u hu => hP.frame ?_ hu) hs h
    unfold mediumOrder
    dsimp only
    split <;> exact ⟨rfl, rfl, rfl, rfl, rfl⟩
  | reelAdd k => exact takeOrder_keepsTables hP (fun t b u hu => hP.reelAdd k t b u hu) hs h
  | reelRemove k => exact takeOrder_keepsTables hP (fun _ b u hu => hP.reelRemove b u hu) hs h
  | referenceLoad k => exact takeOrder_keepsTables hP (fun _ b u hu => hP.referenceLoad b u hu) hs h
  | segmentRead k =>
    refine takeOrder_keepsTables hP (act := fun _ b => segmentRead b) (fun _ b u hu => hP.frame ?_ hu) hs h
    unfold segmentRead
    dsimp only
    split <;> exact ⟨rfl, rfl, rfl, rfl, rfl⟩
  | copySelect k =>
    refine takeOrder_keepsTables hP (act := fun _ b => copySelect b) (fun _ b u hu => hP.frame ?_ hu) hs h
    unfold copySelect
    dsimp only
    repeat' split
    all_goals exact ⟨rfl, rfl, rfl, rfl, rfl⟩
  | laneOpen k => exact takeOrder_keepsTables hP (fun _ b u hu => hP.laneOpen k b u hu) hs h
  | laneFeed k =>
    refine takeOrder_keepsTables hP (act := laneFeed k) (fun _ b u hu => ?_) hs h
    unfold laneFeed
    dsimp only
    split
    · exact hu
    · next l hl =>
      repeat' split
      all_goals first | exact hu | exact hP.setLane u _ _ l (State.ownLane_ok hl).1 rfl hu
  | laneEnd k =>
    refine takeOrder_keepsTables hP (act := fun _ b => laneEnd k b) (fun _ b u hu => ?_) hs h
    unfold laneEnd
    dsimp only
    split
    · exact hu
    · next l hl =>
      split
      all_goals first | exact hu | exact hend u _ l _ (State.ownLane_ok hl).1 hu
  | laneAbort k =>
    refine takeOrder_keepsTables hP (act := fun _ b => laneAbort k b) (fun _ b u hu => ?_) hs h
    unfold laneAbort
    dsimp only
    split
    · exact hu
    · next l hl =>
      have hlane := (State.ownLane_ok hl).1
      split
      · exact hu
      · exact hend u _ l _ hlane hu
      · refine hend (u.release k) _ l _ ?_ (hP.frame (u.setPort_sameTables k _) hu)
        rw [← hlane]
        cases k <;> rfl
  | laneReport k =>
    refine takeOrder_keepsTables hP (act := fun _ b => laneReport k b) (fun _ b u hu => ?_) hs h
    unfold laneReport
    dsimp only
    repeat' split
    all_goals first | exact hu | exact hP.freeLane u _ hu
  | itemClaim k =>
    refine takeOrder_keepsTables hP (act := fun _ _ => itemClaim k) (fun _ _ u hu => ?_) hs h
    unfold itemClaim
    have hw := hP.claimWalk k u.claimBound u hu
    dsimp only
    repeat' split
    all_goals exact hP.frame (State.wakeRoom_sameTables _) hw
  | itemReturn k =>
    refine takeOrder_keepsTables hP (act := fun _ b => itemReturn k b) (fun _ b u hu => ?_) hs h
    unfold itemReturn
    split
    · exact hu
    · split
      · exact hu
      · next it hit =>
        have hmem := List.mem_of_find?_eq_some (Option.filter_eq_some_iff.1 hit).1
        dsimp only
        split
        · exact hP.frame (State.wakeRoom_sameTables _) (hP.returnRetry u it hmem hu)
        · exact hP.frame (State.wakeRoom_sameTables _) (hP.returnUnreadable u it hu)
  | disputeAdopt k => exact takeOrder_keepsTables hP (fun _ b u hu => hP.disputeAdopt b u hu) hs h
  | disputeReject k => exact takeOrder_keepsTables hP (fun _ b u hu => hP.disputeReject b u hu) hs h
  | repairRequest k => exact takeOrder_keepsTables hP (fun _ b u hu => hP.repairRequest b u hu) hs h
  | planLoad k =>
    refine takeOrder_keepsTables hP (act := planLoad k) (fun _ b u hu => hP.frame ?_ hu) hs h
    unfold planLoad
    dsimp only
    repeat' split
    all_goals exact ⟨rfl, rfl, rfl, rfl, rfl⟩
  | planStart k =>
    refine takeOrder_keepsTables hP (act := fun _ b => planStart b) (fun _ b u hu => hP.frame ?_ hu) hs h
    unfold planStart
    dsimp only
    repeat' split
    all_goals first | exact ⟨rfl, rfl, rfl, rfl, rfl⟩ | skip
    exact State.sameTables.trans ⟨rfl, rfl, rfl, rfl, rfl⟩ (State.passStart_sameTables _)
  | planQueue k =>
    refine takeOrder_keepsTables hP (act := fun _ b => planQueue b) (fun _ b u hu => hP.frame ?_ hu) hs h
    unfold planQueue
    dsimp only
    repeat' split
    all_goals exact ⟨rfl, rfl, rfl, rfl, rfl⟩
  | planPause k =>
    refine takeOrder_keepsTables hP (act := fun _ _ => planPause) (fun _ b u hu => hP.frame ?_ hu) hs h
    unfold planPause
    split <;> exact ⟨rfl, rfl, rfl, rfl, rfl⟩
  | planResume k =>
    refine takeOrder_keepsTables hP (act := fun _ _ => planResume) (fun _ b u hu => hP.frame ?_ hu) hs h
    unfold planResume
    split <;> exact ⟨rfl, rfl, rfl, rfl, rfl⟩
  | planStop k =>
    refine takeOrder_keepsTables hP (act := fun _ _ => planStop) (fun _ _ u hu => ?_) hs h
    unfold planStop
    dsimp only
    refine hP.frame (State.wakeRoom_sameTables _) (State.foldl_keeps (fun t it ht => ?_) _ _ (hP.same hu))
    exact hP.leftoverGone _ _ (hP.withdrawItem _ _ ht)
  | bandsSet k =>
    refine takeOrder_keepsTables hP (act := fun _ b => bandsSet b) (fun _ b u hu => hP.frame ?_ hu) hs h
    unfold bandsSet
    repeat' split
    all_goals exact ⟨rfl, rfl, rfl, rfl, rfl⟩
  | daySet k =>
    refine takeOrder_keepsTables hP (act := fun _ b => daySet b) (fun _ b u hu => hP.frame ?_ hu) hs h
    unfold daySet
    dsimp only
    repeat' split
    all_goals exact ⟨rfl, rfl, rfl, rfl, rfl⟩
  | paceSet k =>
    refine takeOrder_keepsTables hP (act := fun _ b => paceSet b) (fun _ b u hu => hP.frame ?_ hu) hs h
    unfold paceSet
    dsimp only
    repeat' split
    all_goals exact ⟨rfl, rfl, rfl, rfl, rfl⟩
  | paceStart k =>
    refine takeOrder_keepsTables hP (act := fun _ _ => paceStart) (fun _ b u hu => hP.frame ?_ hu) hs h
    unfold paceStart
    repeat' split
    all_goals first | exact ⟨rfl, rfl, rfl, rfl, rfl⟩ | exact u.startWorkWindow_sameTables
  | paceStop k =>
    refine takeOrder_keepsTables hP (act := fun _ _ => paceStop) (fun _ b u hu => hP.frame ?_ hu) hs h
    unfold paceStop
    split <;> exact ⟨rfl, rfl, rfl, rfl, rfl⟩
  | paceHalt k =>
    exact takeOrder_keepsTables hP (act := fun _ _ => paceHalt) (fun _ b u hu => hP.same hu) hs h
  | ladderSet k =>
    refine takeOrder_keepsTables hP (act := fun _ b => ladderSet b) (fun _ b u hu => hP.frame ?_ hu) hs h
    unfold ladderSet
    repeat' split
    all_goals exact ⟨rfl, rfl, rfl, rfl, rfl⟩
  | timersSet k =>
    refine takeOrder_keepsTables hP (act := fun _ b => timersSet b) (fun _ b u hu => hP.frame ?_ hu) hs h
    unfold timersSet
    dsimp only
    split <;> exact ⟨rfl, rfl, rfl, rfl, rfl⟩
  | findingTake k =>
    refine takeOrder_keepsTables hP (act := fun _ b => findingTake b) (fun _ b u hu => hP.frame ?_ hu) hs h
    unfold findingTake
    dsimp only
    repeat' split
    all_goals exact ⟨rfl, rfl, rfl, rfl, rfl⟩
  | attentionSet k =>
    refine takeOrder_keepsTables hP (act := fun _ b => attentionSet k b) (fun _ b u hu => hP.frame ?_ hu) hs h
    unfold attentionSet
    dsimp only
    split
    · exact u.setPort_sameTables k _
    · exact ⟨rfl, rfl, rfl, rfl, rfl⟩
  | status k =>
    refine takeOrder_keepsTables hP (act := fun _ _ => status k) (fun _ b u hu => hP.frame ?_ hu) hs h
    unfold status
    exact State.sameTables.trans ⟨rfl, rfl, rfl, rfl, rfl⟩ (State.setPort_sameTables _ k _)
  | portReset k =>
    exact takeOrder_keepsTables hP (act := fun _ _ t => .answered (t.resetPort k) (.ok []))
      (fun _ _ u hu => u.resetPort_keeps hP k hu) hs h

end

end Sys2Proof.Machine
end

