-- ==== Sys2Proof/Laws/Queue.lean ====
section
/-! SUPPORT. Laws/Queue.lean: the Work Item Queue's own condition (`Queue.ok`) through every operation on it. Between an
item's departure and the serving of the owners that wait, the list alone is in order (`Queue.listOk`); serving restores the
rest. The last lemma gathers the operations for `exec_keeps`. -/

namespace Sys2Proof.Machine

/-- From `s` to `t` the queue's condition is kept. -/
structure State.KeepsQueue (s t : State) : Prop where
  keep : s.queue.ok → t.queue.ok

namespace State.KeepsQueue

theorem refl (s : State) : s.KeepsQueue s := ⟨id⟩

theorem trans {s t u : State} (h1 : s.KeepsQueue t) (h2 : t.KeepsQueue u) : s.KeepsQueue u := ⟨h2.keep ∘ h1.keep⟩

theorem foldl {α : Type} {f : State → α → State} (hf : ∀ (s : State) a, s.KeepsQueue (f s a)) (l : List α) (s : State) :
    s.KeepsQueue (l.foldl f s) := by
  induction l generalizing s with
  | nil => exact ⟨id⟩
  | cons a l ih => exact (hf s a).trans (ih _)

end State.KeepsQueue

/-- The queue's condition, but for the owners that wait. -/
def Queue.listOk (q : Queue) : Prop :=
  q.items.length ≤ 40 ∧ (q.items.map Item.tag).Nodup ∧ (∀ i ∈ q.items, 1 ≤ i.tag ∧ i.tag ≤ 65535) ∧ q.lastTag ≤ 65535 ∧
    q.items.Pairwise fun i j => i.cls.rank ≤ j.cls.rank

theorem Queue.ok.listOk {q : Queue} (h : q.ok) : q.listOk := ⟨h.1, h.2.1, h.2.2.1, h.2.2.2.1, h.2.2.2.2.2⟩

theorem Queue.listOk.ok {q : Queue} (h : q.listOk) (hw : q.waiters ≠ [] → q.items.length = 40) : q.ok :=
  ⟨h.1, h.2.1, h.2.2.1, h.2.2.2.1, hw, h.2.2.2.2⟩

/-- In a queue in order, an item is known by its tag. -/
theorem Queue.ok.tag_inj {q : Queue} (h : q.ok) {i j : Item} (hi : i ∈ q.items) (hj : j ∈ q.items) (ht : i.tag = j.tag) :
    i = j := List.inj_on_of_nodup_map h.2.1 hi hj ht

/-- The same list with fewer owners waiting. -/
theorem Queue.ok.fewerWaiters {q q' : Queue} (h : q.ok) (hi : q'.items = q.items) (hl : q'.lastTag = q.lastTag)
    (hw : q'.waiters.Sublist q.waiters) : q'.ok := by
  refine ⟨hi ▸ h.1, hi ▸ h.2.1, hi ▸ h.2.2.1, hl ▸ h.2.2.2.1, fun hn => hi ▸ h.2.2.2.2.1 fun hc => hn ?_, hi ▸ h.2.2.2.2.2⟩
  rw [hc] at hw
  exact List.sublist_nil.1 hw

/-- The same items' tags in another order that is a class order. -/
theorem Queue.ok.reordered {q q' : Queue} (h : q.ok) (ht : (q'.items.map Item.tag).Perm (q.items.map Item.tag))
    (hl : q'.lastTag = q.lastTag) (hw : q'.waiters = q.waiters)
    (ho : q'.items.Pairwise fun i j => i.cls.rank ≤ j.cls.rank) : q'.ok := by
  have hlen : q'.items.length = q.items.length := by simpa using ht.length_eq
  refine ⟨hlen ▸ h.1, ht.nodup_iff.2 h.2.1, fun i hi => ?_, hl ▸ h.2.2.2.1, ?_, ho⟩
  · obtain ⟨j, hj, e⟩ := List.mem_map.1 (ht.subset (List.mem_map_of_mem hi))
    rw [← e]
    exact h.2.2.1 j hj
  · rw [hw, hlen]
    exact h.2.2.2.2.1

/-! ### Places in the list -/

theorem placeLast_perm (it : Item) (l : List Item) : (placeLast it l).Perm (it :: l) := by
  unfold placeLast
  refine List.perm_middle.trans (List.Perm.cons _ ?_)
  have := List.filter_append_perm (fun i : Item => decide (i.cls.rank ≤ it.cls.rank)) l
  refine List.Perm.trans ?_ this
  apply List.Perm.append_left
  apply List.Perm.of_eq
  apply List.filter_congr
  intro i _
  rw [← decide_not]
  exact decide_eq_decide.2 (by omega)

/-- Placing an item last in its class keeps the class order. -/
theorem placeLast_ordered (it : Item) {l : List Item} (h : l.Pairwise fun i j => i.cls.rank ≤ j.cls.rank) :
    (placeLast it l).Pairwise fun i j => i.cls.rank ≤ j.cls.rank := by
  unfold placeLast
  rw [List.pairwise_append]
  refine ⟨h.filter _, ?_, fun i hi j hj => ?_⟩
  · rw [List.pairwise_cons]
    refine ⟨fun j hj => ?_, h.filter _⟩
    have := (List.mem_filter.1 hj).2
    simp only [decide_eq_true_eq] at this
    omega
  · have hi := (List.mem_filter.1 hi).2
    simp only [decide_eq_true_eq] at hi
    rcases List.mem_cons.1 hj with rfl | hj
    · exact hi
    · have hj := (List.mem_filter.1 hj).2
      simp only [decide_eq_true_eq] at hj
      omega

theorem placeFront_perm (p : Item → Bool) (l : List Item) : (placeFront p l).Perm l := by
  have key (l : List Item) (c : ItemClass) :
      (l.filter (fun i => i.cls = c && p i) ++ l.filter (fun i => i.cls = c && !p i)).Perm
        (l.filter fun i => i.cls = c) := by
    have := List.filter_append_perm p (l.filter fun i => decide (i.cls = c))
    refine List.Perm.trans ?_ this
    rw [List.filter_filter, List.filter_filter]
    apply List.Perm.of_eq
    congr 1 <;> (apply List.filter_congr; intro i _; simp [Bool.and_comm])
  unfold placeFront
  simp only [List.flatMap_cons, List.flatMap_nil, List.append_nil]
  refine ((key l .urgent).append ((key l .priority).append (key l .normal))).trans ?_
  clear key
  induction l with
  | nil => exact List.Perm.refl _
  | cons a l ih =>
    cases hc : a.cls <;> simp [hc]
    · exact ih
    · exact List.perm_middle.trans (ih.cons a)
    · rw [← List.append_assoc]
      refine List.perm_middle.trans (List.Perm.cons a ?_)
      rw [List.append_assoc]
      exact ih

/-- Moving items to the front of their classes leaves a class order, whatever the order was. -/
theorem placeFront_ordered (p : Item → Bool) (l : List Item) :
    (placeFront p l).Pairwise fun i j => i.cls.rank ≤ j.cls.rank := by
  have hcls (c : ItemClass) : ∀ i ∈ l.filter (fun i => i.cls = c && p i) ++ l.filter (fun i => i.cls = c && !p i),
      i.cls = c := by
    intro i hi
    rcases List.mem_append.1 hi with hi | hi <;> simpa using (by simpa using (List.mem_filter.1 hi).2 : i.cls = c ∧ _).1
  have hone (c : ItemClass) : (l.filter (fun i => i.cls = c && p i) ++ l.filter (fun i => i.cls = c && !p i)).Pairwise
      fun i j => i.cls.rank ≤ j.cls.rank :=
    List.pairwise_of_forall_mem_list fun i hi j hj => by rw [hcls c i hi, hcls c j hj]
  unfold placeFront
  simp only [List.flatMap_cons, List.flatMap_nil, List.append_nil]
  refine List.pairwise_append.2 ⟨hone _, List.pairwise_append.2 ⟨hone _, hone _, fun i hi j hj => ?_⟩, fun i hi j _ => ?_⟩
  · rw [hcls _ i hi, hcls _ j hj]
    decide
  · rw [hcls _ i hi]
    exact Nat.zero_le _

theorem State.modItem_queueOk (s : State) (tag : Nat) (f : Item → Item)
    (hf : ∀ i ∈ s.queue.items, i.tag = tag → (f i).tag = i.tag ∧ (f i).cls = i.cls) (h : s.queue.ok) :
    (s.modItem tag f).queue.ok := by
  have hg : ∀ i ∈ s.queue.items, (if i.tag = tag then f i else i).tag = i.tag ∧
      (if i.tag = tag then f i else i).cls = i.cls := by
    intro i hi
    split
    · exact hf i hi ‹_›
    · exact ⟨rfl, rfl⟩
  refine h.reordered (q' := (s.modItem tag f).queue) ?_ rfl rfl ?_
  · apply List.Perm.of_eq
    show (s.queue.items.map _).map Item.tag = _
    rw [List.map_map]
    exact List.map_congr_left fun i hi => (hg i hi).1
  · show (s.queue.items.map _).Pairwise _
    rw [List.pairwise_map]
    refine List.Pairwise.imp_of_mem (fun {i j} hi hj hij => ?_) h.2.2.2.2.2
    rw [(hg i hi).2, (hg j hj).2]
    exact hij

/-- One item replaced by another with its tag, placed last in its class. -/
theorem Queue.ok.replace {q : Queue} {it it' : Item} {w : List Waiter} (h : q.ok) (ht : it'.tag = it.tag)
    (hw : w = q.waiters) (hi : it ∈ q.items) :
    Queue.ok { q with items := placeLast it' (q.items.filter fun i => i.tag != it.tag), waiters := w } := by
  have hperm : (it :: q.items.filter fun i => i.tag != it.tag).Perm q.items := by
    obtain ⟨l, r, hlr⟩ := List.append_of_mem hi
    have hnd := h.2.1
    rw [hlr] at hnd ⊢
    simp only [List.map_append, List.map_cons, List.nodup_append, List.nodup_cons, List.mem_map, List.mem_cons] at hnd
    have hl : l.filter (fun i => i.tag != it.tag) = l := List.filter_eq_self.2 fun i hm => by
      simp only [bne_iff_ne, ne_eq]
      exact hnd.2.2 _ ⟨i, hm, rfl⟩ _ (.inl rfl)
    have hr : r.filter (fun i => i.tag != it.tag) = r := List.filter_eq_self.2 fun i hm => by
      simp only [bne_iff_ne, ne_eq]
      exact fun hc => hnd.2.1.1 ⟨i, hm, hc⟩
    rw [List.filter_append, List.filter_cons, hl, hr]
    simpa using List.perm_middle.symm
  refine h.reordered ?_ rfl hw (placeLast_ordered _ (h.2.2.2.2.2.filter _))
  refine ((placeLast_perm _ _).map Item.tag).trans ?_
  rw [List.map_cons, ht]
  exact hperm.map Item.tag

/-! ### The next tag is free (R147) -/

theorem succTag_range (t : Nat) (h : t ≤ 65535) : 1 ≤ succTag t ∧ succTag t ≤ 65535 := by
  unfold succTag
  split <;> omega

theorem freeTag_range (used : List Nat) (n t : Nat) (h : 1 ≤ t ∧ t ≤ 65535) :
    1 ≤ freeTag used n t ∧ freeTag used n t ≤ 65535 := by
  induction n generalizing t with
  | zero => exact h
  | succ n ih =>
    unfold freeTag
    split
    · exact ih _ (succTag_range t h.2)
    · exact h

/-- The tag `n` places on. -/
def tagAfter : Nat → Nat → Nat
  | 0, t => t
  | n + 1, t => tagAfter n (succTag t)

theorem tagAfter_eq (n t : Nat) (h : 1 ≤ t ∧ t ≤ 65535) : tagAfter n t = (t - 1 + n) % 65535 + 1 := by
  induction n generalizing t with
  | zero =>
    unfold tagAfter
    rw [Nat.mod_eq_of_lt (by omega)]
    omega
  | succ n ih =>
    unfold tagAfter
    rw [ih _ (succTag_range t h.2)]
    unfold succTag
    split
    · congr 2
      omega
    · have : t = 65535 := by omega
      subst this
      omega

theorem freeTag_cases (used : List Nat) (n t : Nat) :
    freeTag used n t ∉ used ∨ (freeTag used n t = tagAfter n t ∧ ∀ k < n, tagAfter k t ∈ used) := by
  induction n generalizing t with
  | zero => exact .inr ⟨rfl, by omega⟩
  | succ n ih =>
    unfold freeTag
    split
    · next hc =>
      rcases ih (succTag t) with h | ⟨h1, h2⟩
      · exact .inl h
      · refine .inr ⟨h1, fun k hk => ?_⟩
        cases k with
        | zero => simpa [tagAfter] using hc
        | succ k => exact h2 k (by omega)
    · next hc => exact .inl (by simpa using hc)

theorem freeTag_free (used : List Nat) (t : Nat) (h : 1 ≤ t ∧ t ≤ 65535) (hlen : used.length ≤ 40) :
    freeTag used used.length t ∉ used := by
  intro hc
  rcases freeTag_cases used used.length t with h1 | ⟨h1, h2⟩
  · exact h1 hc
  · rw [h1] at hc
    have hsub : ((List.range (used.length + 1)).map fun k => tagAfter k t) ⊆ used := by
      intro x hx
      obtain ⟨k, hk, rfl⟩ := List.mem_map.1 hx
      rw [List.mem_range] at hk
      by_cases hkn : k = used.length
      · rw [hkn]
        exact hc
      · exact h2 k (by omega)
    have hnd : ((List.range (used.length + 1)).map fun k => tagAfter k t).Nodup := by
      refine List.Nodup.map_on ?_ List.nodup_range
      intro a ha b hb hab
      rw [List.mem_range] at ha hb
      rw [tagAfter_eq _ _ h, tagAfter_eq _ _ h] at hab
      omega
    have := (hnd.subperm hsub).length_le
    simp at this

/-- The next tag is in range and no item of the queue has it. -/
theorem Queue.listOk.nextTag {q : Queue} (h : q.listOk) :
    q.nextTag ∉ q.items.map Item.tag ∧ 1 ≤ q.nextTag ∧ q.nextTag ≤ 65535 := by
  have hs := succTag_range q.lastTag h.2.2.2.1
  refine ⟨?_, freeTag_range _ _ _ hs⟩
  have := freeTag_free (q.items.map Item.tag) (succTag q.lastTag) hs (by simpa using h.1)
  simpa [Queue.nextTag] using this

/-! ### Creation, serving and departures -/

theorem State.createItem_listOk (s : State) (k : ItemKind) (cls : ItemClass) (c : CopyId) (m : Mask) (h : s.queue.listOk)
    (hl : s.queue.items.length < 40) : (s.createItem k cls c m).queue.listOk := by
  obtain ⟨h1, h2, h3⟩ := h.nextTag
  have hp := placeLast_perm ⟨s.queue.nextTag, k, cls, c, chargeOf (s.byteLength c.seg), .queued, 0, false, m, none⟩
    s.queue.items
  refine (?_ : Queue.listOk { s.queue with
    items := placeLast ⟨s.queue.nextTag, k, cls, c, chargeOf (s.byteLength c.seg), .queued, 0, false, m, none⟩
      s.queue.items, lastTag := s.queue.nextTag })
  refine ⟨?_, ?_, fun i hi => ?_, h3, placeLast_ordered _ h.2.2.2.2⟩
  · dsimp only
    rw [hp.length_eq]
    simpa using hl
  · dsimp only
    rw [(hp.map Item.tag).nodup_iff]
    simp only [List.map_cons, List.nodup_cons]
    exact ⟨h1, h.2.1⟩
  · rcases List.mem_cons.1 (hp.subset hi) with rfl | hi
    · exact ⟨h2, h3⟩
    · exact h.2.2.1 i hi

theorem State.issue_listOk (s : State) (o : Owner) (h : s.queue.listOk) (hl : s.queue.items.length < 40) :
    (s.issue o).queue.listOk ∧ (s.issue o).queue.waiters = s.queue.waiters := by
  cases o with
  | slot c => exact ⟨s.createItem_listOk _ _ _ _ h hl, rfl⟩
  | repair c => exact ⟨s.createItem_listOk _ _ _ _ h hl, rfl⟩

theorem State.serveList_queueOk (ws : List Waiter) (s : State) (h : s.queue.listOk) (hw : s.queue.waiters = ws) :
    (State.serveList ws s).queue.ok := by
  induction ws generalizing s with
  | nil => exact h.ok fun hc => absurd hw hc
  | cons w ws ih =>
    unfold State.serveList
    split
    · next hl =>
      have := State.issue_listOk { s with queue := { s.queue with waiters := ws } } w.owner h hl
      exact ih _ this.1 this.2
    · next hl =>
      refine h.ok fun _ => ?_
      have := h.1
      have : Config.itemsMax = 40 := rfl
      omega

/-- Serving the owners that wait restores the queue's condition. -/
theorem State.serve_queueOk (s : State) (h : s.queue.listOk) : s.serve.queue.ok := State.serveList_queueOk _ s h rfl

theorem Queue.ok.noWaiters {q : Queue} (h : q.ok) (hl : q.items.length < 40) : q.waiters = [] := by
  by_contra hc
  have := h.2.2.2.2.1 hc
  omega

theorem State.issueOrWait_queueOk (s : State) (o : Owner) (h : s.queue.ok) : (s.issueOrWait o).queue.ok := by
  unfold State.issueOrWait
  split
  · next hl =>
    have := s.issue_listOk o h.listOk hl
    exact this.1.ok fun hc => absurd (this.2.trans (h.noWaiters hl)) hc
  · next hl =>
    refine (show (s.startWaiting o).queue.listOk from h.listOk).ok fun _ => ?_
    have := h.1
    have : Config.itemsMax = 40 := rfl
    show s.queue.items.length = 40
    omega

theorem Queue.listOk.filter {q : Queue} (h : q.listOk) (p : Item → Bool) :
    Queue.listOk { q with items := q.items.filter p } :=
  ⟨Nat.le_trans (List.length_filter_le _ _) h.1, h.2.1.sublist (List.Sublist.map _ List.filter_sublist),
    fun i hi => h.2.2.1 i (List.mem_of_mem_filter hi), h.2.2.2.1, h.2.2.2.2.filter _⟩

theorem State.removeItem_queueOk (s : State) (it : Item) (h : s.queue.ok) : (s.removeItem it).queue.ok :=
  State.serve_queueOk _ (h.listOk.filter _)

theorem State.leftoverGone_queueOk (s : State) (c : CopyId) (h : s.queue.ok) : (s.leftoverGone c).queue.ok := by
  unfold State.leftoverGone
  repeat' split
  · exact State.serve_queueOk _ (show (s.startWaiting _).queue.listOk from h.listOk)
  · exact h
  · exact h

theorem State.placeFront_queueOk (s : State) (p : Item → Bool) (h : s.queue.ok) :
    Queue.ok { s.queue with items := placeFront p s.queue.items } :=
  h.reordered ((placeFront_perm _ _).map _) rfl rfl (placeFront_ordered _ _)

theorem State.requeueFront_queueOk (s : State) (it : Item) (n : Nat) (h : s.queue.ok) :
    (s.requeueFront it n).queue.ok :=
  State.placeFront_queueOk _ _ (s.modItem_queueOk it.tag (fun i => { i with state := .queued, requeue := n, source := none })
    (fun _ _ _ => ⟨rfl, rfl⟩) h)

theorem State.requeueLast_queueOk (s : State) (it : Item) (n : Nat) (hi : it ∈ s.queue.items) (h : s.queue.ok) :
    (s.requeueLast it n).queue.ok := Queue.ok.replace h rfl rfl hi

/-! ### Every operation on the tables -/

section

variable (s : State)

theorem State.modSeg_keepsQueue (g : SegId) (f : SegRec → SegRec) : s.KeepsQueue (s.modSeg g f) := ⟨id⟩

theorem State.modCopy_keepsQueue (c : CopyId) (f : CopyRec → CopyRec) : s.KeepsQueue (s.modCopy c f) := s.modSeg_keepsQueue _ _

theorem State.setTrust_keepsQueue (c : CopyId) (t : Trust) : s.KeepsQueue (s.setTrust c t) := s.modCopy_keepsQueue _ _

theorem State.setGood_keepsQueue (c : CopyId) (d : Nat) : s.KeepsQueue (s.setGood c d) := s.modCopy_keepsQueue _ _

theorem State.setDeferred_keepsQueue (c : CopyId) (b : Bool) : s.KeepsQueue (s.setDeferred c b) := s.modCopy_keepsQueue _ _

theorem State.setExhausted_keepsQueue (c : CopyId) (b : Bool) : s.KeepsQueue (s.setExhausted c b) := s.modCopy_keepsQueue _ _

theorem State.setItemTag_keepsQueue (c : CopyId) (t : Option Nat) : s.KeepsQueue (s.setItemTag c t) := s.modCopy_keepsQueue _ _

/-! ### Findings -/

theorem State.post_keepsQueue (f : Finding) : s.KeepsQueue (s.post f) := ⟨id⟩

theorem State.postIfLost_keepsQueue (g : SegId) : s.KeepsQueue (s.postIfLost g) := by
  unfold State.postIfLost
  split
  · exact s.post_keepsQueue _
  · exact State.KeepsQueue.refl s

theorem State.chargeMedium_keepsQueue (c : CopyId) (w : Nat) : s.KeepsQueue (s.chargeMedium c w) := by
  unfold State.chargeMedium
  split
  · exact State.KeepsQueue.refl s
  · split
    · exact State.KeepsQueue.refl s
    · dsimp only
      exact State.KeepsQueue.trans (t := State.modMedium _ _ _) ⟨id⟩ (State.KeepsQueue.foldl (fun t f => t.post_keepsQueue f) _ _)

theorem State.chargeCredit_keepsQueue (n : Nat) : s.KeepsQueue (s.chargeCredit n) := ⟨id⟩

theorem State.wakeCredit_queueEq : s.wakeCredit.queue = s.queue := by
  unfold State.wakeCredit
  split <;> rfl

theorem State.wakeRoom_keepsQueue : s.KeepsQueue s.wakeRoom := by
  unfold State.wakeRoom
  split <;> exact ⟨id⟩

theorem State.refundCredit_queueEq (n : Nat) : (s.refundCredit n).queue = s.queue := by
  unfold State.refundCredit
  dsimp only
  split
  · exact State.wakeCredit_queueEq _
  · rfl

/-! ### Disputes, repairs and the queue -/

theorem State.modDispute_keepsQueue (g : SegId) (f : Dispute → Dispute) : s.KeepsQueue (s.modDispute g f) := ⟨id⟩

theorem State.removeDispute_keepsQueue (g : SegId) : s.KeepsQueue (s.removeDispute g) :=
  ⟨fun h => h.fewerWaiters rfl rfl List.filter_sublist⟩

theorem State.setSlot_keepsQueue (c : CopyId) (st : Slot) : s.KeepsQueue (s.setSlot c st) := s.modDispute_keepsQueue _ _

theorem State.modRepair_keepsQueue (c : CopyId) (f : Repair → Repair) : s.KeepsQueue (s.modRepair c f) := ⟨id⟩

theorem State.removeRepair_keepsQueue (c : CopyId) : s.KeepsQueue (s.removeRepair c) :=
  ⟨fun h => h.fewerWaiters rfl rfl List.filter_sublist⟩

theorem State.modItem_keepsQueue (tag : Nat) (f : Item → Item)
    (hf : s.queue.ok → ∀ i ∈ s.queue.items, i.tag = tag → (f i).tag = i.tag ∧ (f i).cls = i.cls) :
    s.KeepsQueue (s.modItem tag f) :=
  ⟨fun h => s.modItem_queueOk tag f (hf h) h⟩

theorem State.stopWaiting_keepsQueue (o : Owner) : s.KeepsQueue (s.stopWaiting o) :=
  ⟨fun h => h.fewerWaiters rfl rfl List.filter_sublist⟩

theorem State.issueOrWait_keepsQueue (o : Owner) : s.KeepsQueue (s.issueOrWait o) := ⟨s.issueOrWait_queueOk o⟩

theorem State.removeItem_keepsQueue (it : Item) : s.KeepsQueue (s.removeItem it) := ⟨s.removeItem_queueOk it⟩

theorem State.withdrawItem_queueOk (it : Item) : s.queue.ok → (s.withdrawItem it).queue.ok := by
  intro h
  unfold State.withdrawItem
  refine State.serve_queueOk _ ?_
  split
  · exact h.listOk.filter _
  · rw [State.refundCredit_queueEq]
    exact h.listOk.filter _

theorem State.withdrawItem_keepsQueue (it : Item) : s.KeepsQueue (s.withdrawItem it) := ⟨s.withdrawItem_queueOk it⟩

theorem State.leftoverGone_keepsQueue (c : CopyId) : s.KeepsQueue (s.leftoverGone c) := ⟨s.leftoverGone_queueOk c⟩

theorem State.clearSlotTag_keepsQueue (it : Item) : s.KeepsQueue (s.clearSlotTag it) := by
  unfold State.clearSlotTag
  split
  · exact s.setSlot_keepsQueue _ _
  · exact State.KeepsQueue.refl s

theorem State.withdrawPurposeless_keepsQueue (it : Item) : s.KeepsQueue (s.withdrawPurposeless it) :=
  ((s.withdrawItem_keepsQueue it).trans (State.clearSlotTag_keepsQueue _ _)).trans (State.leftoverGone_keepsQueue _ _)

theorem State.requeueFront_keepsQueue (it : Item) (n : Nat) : s.KeepsQueue (s.requeueFront it n) := ⟨s.requeueFront_queueOk it n⟩

theorem State.requeueLast_keepsQueue (it : Item) (n : Nat) (hi : it ∈ s.queue.items) : s.KeepsQueue (s.requeueLast it n) := ⟨s.requeueLast_queueOk it n hi⟩

theorem State.chargeLane_keepsQueue (l : LaneCtx) : s.KeepsQueue (s.chargeLane l) := by
  unfold State.chargeLane
  split
  · exact State.KeepsQueue.refl s
  · exact s.chargeCredit_keepsQueue _
  · exact s.chargeCredit_keepsQueue _

/-! ### Repair -/

theorem State.createRepair_keepsQueue (c : CopyId) (m : Mask) (o : RepairOrigin) : s.KeepsQueue (s.createRepair c m o) := by
  unfold State.createRepair
  have h : s.KeepsQueue (({ s with repairs := s.repairs ++ [(⟨c, m, 1, .waitingPlace, o⟩ : Repair)] }).setTrust c .repairing) :=
    ⟨id⟩
  dsimp only
  split
  · split
    · exact (h.trans (State.withdrawItem_keepsQueue _ _)).trans (State.leftoverGone_keepsQueue _ _)
    · exact h
  · exact h.trans (State.issueOrWait_keepsQueue _ _)

theorem State.requestRepair_keepsQueue (c : CopyId) (m : Mask) (o : RepairOrigin) : s.KeepsQueue (s.requestRepair c m o) := by
  unfold State.requestRepair
  repeat' split
  all_goals first | exact s.post_keepsQueue _ | exact s.createRepair_keepsQueue _ _ _

theorem State.requestRepairs_keepsQueue (o : RepairOrigin) (l : List (CopyId × Mask)) : s.KeepsQueue (s.requestRepairs o l) := by
  refine State.KeepsQueue.foldl (fun t p => ?_) l s
  split
  · exact t.requestRepair_keepsQueue _ _ _
  · exact State.KeepsQueue.refl t

theorem State.closeRepair_keepsQueue (c : CopyId) (k : FindingKind) (b : Bool) (n : Nat) : s.KeepsQueue (s.closeRepair c k b n) :=
  (((s.removeRepair_keepsQueue c).trans (State.setTrust_keepsQueue _ _ _)).trans (State.post_keepsQueue _ _)).trans
    (State.postIfLost_keepsQueue _ _)

theorem State.abandonRepair_keepsQueue (c : CopyId) (n : Nat) : s.KeepsQueue (s.abandonRepair c n) := s.closeRepair_keepsQueue _ _ _ _

theorem State.readBackMatch_keepsQueue (c : CopyId) (r : Repair) (o : Obs) : s.KeepsQueue (s.readBackMatch c r o) :=
  ((s.setGood_keepsQueue _ _).trans (State.post_keepsQueue _ _)).trans (State.removeRepair_keepsQueue _ _)

theorem State.readBackMismatch_keepsQueue (c : CopyId) (r : Repair) (o : Obs) : s.KeepsQueue (s.readBackMismatch c r o) := by
  unfold State.readBackMismatch
  split
  · exact (s.modRepair_keepsQueue _ _).trans (State.issueOrWait_keepsQueue _ _)
  · exact (((((s.setTrust_keepsQueue _ _).trans (State.setExhausted_keepsQueue _ _ _)).trans (State.post_keepsQueue _ _)).trans
      (State.chargeMedium_keepsQueue _ _ _)).trans (State.removeRepair_keepsQueue _ _)).trans (State.postIfLost_keepsQueue _ _)

theorem State.readBack_keepsQueue (c : CopyId) (r : Result) (o : Obs) : s.KeepsQueue (s.readBack c r o) := by
  unfold State.readBack
  repeat' split
  · exact State.KeepsQueue.refl s
  · exact s.readBackMismatch_keepsQueue _ _ _
  · exact s.readBackMatch_keepsQueue _ _ _

/-! ### The vote and the disputes -/

theorem State.transientTest_keepsQueue (d : Dispute) (r : Option Digest) : s.KeepsQueue (s.transientTest d r) := by
  unfold State.transientTest
  repeat' split
  · exact (s.post_keepsQueue _).trans (State.chargeMedium_keepsQueue _ _ _)
  · exact State.KeepsQueue.refl s
  · exact State.KeepsQueue.refl s

theorem State.judgeBad_keepsQueue (g : SegId) (n : Nat) (p : Nat × Obs) : s.KeepsQueue (s.judgeBad g n p) :=
  ((s.setTrust_keepsQueue _ _).trans (State.post_keepsQueue _ _)).trans (State.chargeMedium_keepsQueue _ _ _)

theorem State.judgeAllBad_keepsQueue (g : SegId) (n : Nat) (l : List (Nat × Obs)) : s.KeepsQueue (s.judgeAllBad g n l) :=
  State.KeepsQueue.foldl (fun t p => t.judgeBad_keepsQueue g n p) l s

theorem State.judgeAllGood_keepsQueue (g : SegId) (d : Nat) (l : List Nat) : s.KeepsQueue (s.judgeAllGood g d l) :=
  State.KeepsQueue.foldl (fun t i => t.setGood_keepsQueue (g.copy i) d) l s

theorem State.closeVote_keepsQueue (g : SegId) (v : List (Nat × Obs)) (n : Nat) (e : Bool) (d : Option Digest) :
    s.KeepsQueue (s.closeVote g v n e d) := by
  unfold State.closeVote
  exact ((State.KeepsQueue.foldl (fun t (p : Nat × Obs) => t.setDeferred_keepsQueue (g.copy p.1) false) v s).trans
    (State.post_keepsQueue _ _)).trans (State.postIfLost_keepsQueue _ _)

theorem State.endVote_keepsQueue (g : SegId) (l : List (Nat × Obs)) : s.KeepsQueue (s.endVote g l) := by
  unfold State.endVote
  dsimp only
  split
  · exact s.removeDispute_keepsQueue g
  · exact (s.removeDispute_keepsQueue g).trans (State.requestRepairs_keepsQueue _ _ _)

theorem State.voteAgreed_keepsQueue (g : SegId) (v : List (Nat × Obs)) (r : Option Digest) (e : Bool) :
    s.KeepsQueue (s.voteAgreed g v r e) :=
  (((s.judgeAllGood_keepsQueue _ _ _).trans (State.judgeAllBad_keepsQueue _ _ _ _)).trans (State.closeVote_keepsQueue _ _ _ _ _ _)).trans
    (State.endVote_keepsQueue _ _ _)

theorem State.voteDisputed_keepsQueue (g : SegId) (v : List (Nat × Obs)) (d : Digest) (e : Bool) :
    s.KeepsQueue (s.voteDisputed g v d e) :=
  ((((State.KeepsQueue.foldl (fun t (p : Nat × Obs) => t.setTrust_keepsQueue (g.copy p.1) .suspect) _ s).trans
    (State.judgeAllBad_keepsQueue _ _ _ _)).trans (State.post_keepsQueue _ _)).trans (State.modDispute_keepsQueue _ _ _)).trans
    (State.closeVote_keepsQueue _ _ _ _ _ _)

theorem State.voteUnagreed_keepsQueue (g : SegId) (v : List (Nat × Obs)) (r : Option Digest) (e : Bool) :
    s.KeepsQueue (s.voteUnagreed g v r e) :=
  ((s.judgeAllBad_keepsQueue _ _ _).trans (State.closeVote_keepsQueue _ _ _ _ _ _)).trans (State.endVote_keepsQueue _ _ _)

theorem State.takeVote_keepsQueue (g : SegId) (e : Bool) : s.KeepsQueue (s.takeVote g e) := by
  unfold State.takeVote
  split
  · exact State.KeepsQueue.refl s
  · dsimp only
    split
    · exact (s.transientTest_keepsQueue _ _).trans (State.voteAgreed_keepsQueue _ _ _ _ _)
    · split
      · exact (s.transientTest_keepsQueue _ _).trans (State.voteDisputed_keepsQueue _ _ _ _ _)
      · exact (s.transientTest_keepsQueue _ _).trans (State.voteUnagreed_keepsQueue _ _ _ _ _)

theorem State.testDecision_keepsQueue (g : SegId) : s.KeepsQueue (s.testDecision g) := by
  unfold State.testDecision
  repeat' split
  · exact s.takeVote_keepsQueue _ _
  · exact State.KeepsQueue.refl s
  · exact State.KeepsQueue.refl s

theorem State.takeOver_keepsQueue (c : CopyId) (it : Item) (hi : it ∈ s.queue.items) : s.KeepsQueue (s.takeOver c it) :=
  ⟨fun h => Queue.ok.replace h rfl rfl hi⟩

theorem State.serveSlot_keepsQueue (c : CopyId) : s.KeepsQueue (s.serveSlot c) := by
  unfold State.serveSlot
  repeat' split
  · next it hit =>
    refine s.takeOver_keepsQueue _ _ ?_
    obtain ⟨h1, -⟩ := Option.filter_eq_some_iff.1 hit
    obtain ⟨tg, -, h2⟩ := Option.bind_eq_some_iff.1 h1
    exact List.mem_of_find?_eq_some h2
  · exact s.issueOrWait_keepsQueue _
  · exact State.KeepsQueue.refl s

theorem State.openDispute_keepsQueue (c : CopyId) (o : Obs) : s.KeepsQueue (s.openDispute c o) := by
  unfold State.openDispute
  dsimp only
  refine State.KeepsQueue.trans ?_ (State.setDeferred_keepsQueue _ _ _)
  refine ⟨fun h => (State.KeepsQueue.foldl (f := State.serveSlot) (fun t c => t.serveSlot_keepsQueue c) _ _).keep ?_⟩
  exact h

theorem State.dealOwnItem_keepsQueue (c : CopyId) (o : Obs) (n t : Nat) : s.KeepsQueue (s.dealOwnItem c o n t) := by
  unfold State.dealOwnItem
  repeat' split
  · exact (s.withdrawItem_keepsQueue _).trans (State.setSlot_keepsQueue _ _ _)
  · exact State.KeepsQueue.refl s
  · exact State.KeepsQueue.refl s

theorem State.routeDispute_keepsQueue (d : Dispute) (c : CopyId) (o : Obs) (n : Nat) (tag : Option Nat) :
    s.KeepsQueue (s.routeDispute d c o n tag).2 := by
  unfold State.routeDispute
  repeat' split
  all_goals first
    | exact State.KeepsQueue.refl s
    | exact s.setSlot_keepsQueue _ _
    | exact ((s.stopWaiting_keepsQueue _).trans (State.setSlot_keepsQueue _ _ _)).trans (State.testDecision_keepsQueue _ _)
    | exact (s.setSlot_keepsQueue _ _).trans (State.testDecision_keepsQueue _ _)
    | exact ((s.setSlot_keepsQueue _ _).trans (State.dealOwnItem_keepsQueue _ _ _ _ _)).trans (State.testDecision_keepsQueue _ _)

theorem State.expireSlot_keepsQueue (c : CopyId) : s.KeepsQueue (s.expireSlot c) := by
  unfold State.expireSlot
  repeat' split
  · exact (s.stopWaiting_keepsQueue _).trans (State.setSlot_keepsQueue _ _ _)
  · exact s.setSlot_keepsQueue _ _
  · exact State.KeepsQueue.refl s

theorem State.expireDispute_keepsQueue (g : SegId) (d : Dispute) : s.KeepsQueue (s.expireDispute g d) :=
  (((State.KeepsQueue.foldl (fun t c => t.expireSlot_keepsQueue c) _ s).trans
    (State.KeepsQueue.foldl (fun t it => t.withdrawItem_keepsQueue it) _ _)).trans (State.takeVote_keepsQueue _ _ _)).trans
    (State.wakeRoom_keepsQueue _)

theorem State.adopt_keepsQueue (g : SegId) (d : Dispute) (dd : Digest) : s.KeepsQueue (s.adopt g d dd) :=
  ((((s.modSeg_keepsQueue _ _).trans (State.judgeAllGood_keepsQueue _ _ _ _)).trans (State.post_keepsQueue _ _)).trans
    (State.removeDispute_keepsQueue _ _)).trans (State.requestRepairs_keepsQueue _ _ _)

theorem State.reject_keepsQueue (g : SegId) (d : Dispute) : s.KeepsQueue (s.reject g d) := by
  unfold State.reject
  dsimp only
  have h (f : Finding) : s.KeepsQueue
      ((((s.judgeAllBad g 5 (d.votes.filter fun p => d.agreeing.contains p.1)).post f).postIfLost g).removeDispute g) :=
    (((s.judgeAllBad_keepsQueue _ _ _).trans (State.post_keepsQueue _ _)).trans (State.postIfLost_keepsQueue _ _)).trans
      (State.removeDispute_keepsQueue _ _)
  split
  · exact h _
  · exact (h _).trans (State.requestRepairs_keepsQueue _ _ _)

/-! ### The plain rules -/

theorem State.postMismatch_keepsQueue (c : CopyId) (o : Obs) (n : Nat) : s.KeepsQueue (s.postMismatch c o n) := s.post_keepsQueue _

theorem State.plainMismatch_keepsQueue (c : CopyId) (o : Obs) (n : Nat) : s.KeepsQueue (s.plainMismatch c o n) := by
  unfold State.plainMismatch
  dsimp only
  have h := (s.setTrust_keepsQueue c .suspect).trans (State.postMismatch_keepsQueue _ c o n)
  split
  · exact h.trans (State.openDispute_keepsQueue _ _ _)
  · exact (h.trans (State.setDeferred_keepsQueue _ _ _)).trans (State.post_keepsQueue _ _)

theorem State.plainTransient_keepsQueue (c : CopyId) (o : Obs) (n : Nat) : s.KeepsQueue (s.plainTransient c o n) :=
  ((s.setGood_keepsQueue _ _).trans (State.post_keepsQueue _ _)).trans (State.chargeMedium_keepsQueue _ _ _)

theorem State.plain_keepsQueue (c : CopyId) (r : Result) (o : Obs) (n : Nat) : s.KeepsQueue (s.plain c r o n) := by
  unfold State.plain
  repeat' split
  all_goals first
    | exact State.KeepsQueue.refl s
    | exact s.postMismatch_keepsQueue _ _ _
    | exact s.plainMismatch_keepsQueue _ _ _
    | exact s.setGood_keepsQueue _ _
    | exact s.plainTransient_keepsQueue _ _ _

/-! ### Items that come back or leave -/

theorem State.ownerLost_keepsQueue (it : Item) (n : Nat) : s.KeepsQueue (s.ownerLost it n) := by
  unfold State.ownerLost
  repeat' split
  all_goals first
    | exact s.abandonRepair_keepsQueue _ _
    | exact (s.setSlot_keepsQueue _ _).trans (State.testDecision_keepsQueue _ _)
    | exact s.clearSlotTag_keepsQueue _
    | exact s.leftoverGone_keepsQueue _

theorem State.abandonItem_keepsQueue (it : Item) (n : Nat) : s.KeepsQueue (s.abandonItem it n) :=
  ((s.withdrawItem_keepsQueue it).trans (State.post_keepsQueue _ _)).trans (State.ownerLost_keepsQueue _ _ _)

theorem State.returnFront_keepsQueue (it : Item) (n : Nat) : s.KeepsQueue (s.returnFront it n) := by
  unfold State.returnFront
  repeat' split
  · exact s.withdrawPurposeless_keepsQueue _
  · exact s.requeueFront_keepsQueue _ _
  · exact s.abandonItem_keepsQueue _ _

theorem State.returnRetry_keepsQueue (it : Item) (hi : it ∈ s.queue.items) : s.KeepsQueue (s.returnRetry it) := by
  unfold State.returnRetry
  repeat' split
  · exact s.withdrawPurposeless_keepsQueue _
  · exact s.requeueLast_keepsQueue _ _ hi
  · exact s.abandonItem_keepsQueue _ _

theorem State.returnUnreadable_keepsQueue (it : Item) : s.KeepsQueue (s.returnUnreadable it) :=
  ((s.withdrawItem_keepsQueue it).trans (State.chargeMedium_keepsQueue _ _ _)).trans (State.ownerLost_keepsQueue _ _ _)

theorem State.claimFail_keepsQueue (it : Item) (v : Verdict) : s.KeepsQueue (s.claimFail it v) := by
  unfold State.claimFail
  dsimp only
  split
  all_goals first
    | exact (s.withdrawItem_keepsQueue it).trans (State.closeRepair_keepsQueue _ _ _ _ _)
    | exact (s.withdrawItem_keepsQueue it).trans (State.ownerLost_keepsQueue _ _ _)

theorem State.claimWalk_keepsQueue (h : Head) (n : Nat) : s.KeepsQueue (State.claimWalk h n s).1 := by
  induction n generalizing s with
  | zero => exact State.KeepsQueue.refl s
  | succ n ih =>
    unfold State.claimWalk
    split
    · exact State.KeepsQueue.refl s
    · next it hit =>
      split
      · refine s.modItem_keepsQueue _ _ fun hq i hi ht => ?_
        have := hq.tag_inj hi (List.mem_of_find?_eq_some hit) ht
        subst this
        exact ⟨rfl, rfl⟩
      · exact (s.claimFail_keepsQueue _ _).trans (ih _)

theorem State.returnHeld_keepsQueue (it : Item) : s.KeepsQueue (s.returnHeld it) := by
  unfold State.returnHeld
  split
  · exact s.withdrawPurposeless_keepsQueue _
  · exact s.modItem_keepsQueue _ _ fun _ _ _ _ => ⟨rfl, rfl⟩

/-! ### The routing of a lane's result -/

theorem State.learn_keepsQueue (g : SegId) (d : Digest) (l : List Digest) : s.KeepsQueue (s.learn g d l) := s.modSeg_keepsQueue _ _

theorem State.postFrameSuspect_keepsQueue (n : Nat) (l : LaneCtx) (r : Result) (d : Digest) :
    s.KeepsQueue (s.postFrameSuspect n l r d) := by
  unfold State.postFrameSuspect
  split
  · exact s.post_keepsQueue _
  · exact State.KeepsQueue.refl s

theorem State.route_keepsQueue (n : Nat) (l : LaneCtx) (it : Option Item) (r : Result) (o : Obs) :
    s.KeepsQueue (s.route n l it r o).2 := by
  unfold State.route
  repeat' split
  · exact s.readBack_keepsQueue _ _ _
  · exact s.routeDispute_keepsQueue _ _ _ _ _
  · exact s.plain_keepsQueue _ _ _ _

end

/-! ### The queue under every command -/

/-- What `exec_keeps` asks, for the queue's condition. -/
theorem Queue.keeper : Keeper fun s => s.queue.ok where
  frame h hs := by rw [h.2.2.2.2]; exact hs
  setLane _ _ _ _ _ _ hs := hs
  freeLane _ _ hs := hs
  laneOpen h body s hs := by
    unfold laneOpen laneOpenItem laneOpenCopy
    repeat' split
    all_goals first | exact hs | skip
    all_goals
      unfold State.openLane
      split
      · exact hs
      · first
          | exact s.modItem_queueOk _ (fun j => { j with state := .bound _, everBound := true }) (fun _ _ _ => ⟨rfl, rfl⟩) hs
          | exact hs
  reelAdd h tag body s hs := by
    unfold reelAdd
    dsimp only
    repeat' split
    all_goals exact hs
  activate _ _ _ _ _ _ _ hs := hs
  reelRemove body s hs := by
    unfold reelRemove
    dsimp only
    repeat' split
    all_goals exact hs
  referenceLoad body s hs := by
    unfold referenceLoad
    dsimp only
    repeat' split
    all_goals exact hs
  abandonOperations _ _ hs := hs
  learn _ _ _ _ hs := hs
  removeItem s it hs := s.removeItem_queueOk it hs
  withdrawItem s it hs := s.withdrawItem_queueOk it hs
  leftoverGone s c hs := s.leftoverGone_queueOk c hs
  returnFront s it cause hs := (s.returnFront_keepsQueue it cause).keep hs
  returnRetry s it hi hs := (s.returnRetry_keepsQueue it hi).keep hs
  returnUnreadable s it hs := (s.returnUnreadable_keepsQueue it).keep hs
  returnHeld s it hs := (s.returnHeld_keepsQueue it).keep hs
  placeFront s p hs := s.placeFront_queueOk p hs
  claimWalk h n s hs := (s.claimWalk_keepsQueue h n).keep hs
  createScrub s cls c _ hl hs :=
    (s.createItem_listOk .scrub cls c 0#64 hs.listOk (by omega)).ok fun hc =>
      absurd (hs.noWaiters (by omega)) hc
  route s n l _ it r o _ _ hs := (s.route_keepsQueue n l it r o).keep hs
  expireDispute s g d _ hs := (s.expireDispute_keepsQueue g d).keep hs
  disputeAdopt body s hs := by
    unfold disputeAdopt
    dsimp only
    split
    · exact hs
    · split
      · exact hs
      · exact ((s.adopt_keepsQueue _ _ _).trans (State.wakeRoom_keepsQueue _)).keep hs
  disputeReject body s hs := by
    unfold disputeReject
    dsimp only
    split
    · exact hs
    · split
      · exact hs
      · exact ((s.reject_keepsQueue _ _).trans (State.wakeRoom_keepsQueue _)).keep hs
  repairRequest body s hs := by
    unfold repairRequest
    dsimp only
    split
    · exact hs
    iterate 5 (split; exact hs)
    exact (((s.setExhausted_keepsQueue _ _).trans (State.createRepair_keepsQueue _ _ _ _)).trans
      (State.wakeRoom_keepsQueue _)).keep hs

end Sys2Proof.Machine
end

