-- ==== Sys2Proof/Laws/Copies.lean ====
section
/-! SUPPORT. Laws/Copies.lean: the segment and copy records after an update: the record that was changed, and every other
one as it was. -/

namespace Sys2Proof.Machine

/-- The segment records of a reel after one is changed. -/
theorem Reel.seg_modSeg (r : Reel) (i j : Nat) (f : SegRec → SegRec) :
    (r.modSeg i f).seg j = if j = i then f (r.seg i) else r.seg j := by
  simp only [Reel.seg, Reel.modSeg, Sparse.find?_put, Reel.copyCount]
  split <;> rfl

/-- The reels after a segment record is changed. -/
theorem State.reel?_modSeg (s : State) (g : SegId) (f : SegRec → SegRec) (acc : Nat) :
    (s.modSeg g f).reel? acc =
      (s.reel? acc).map fun r => if r.acc = g.reel then r.modSeg g.segment f else r := by
  have h : ((fun r : Reel => r.acc == acc) ∘ fun r => if r.acc = g.reel then r.modSeg g.segment f else r) =
      fun r => r.acc == acc := by
    funext r
    simp only [Function.comp_apply]
    split <;> rfl
  simp only [State.reel?, State.modSeg, List.find?_map, h]

/-- A reel found under an accession id has that id. -/
theorem State.reel?_acc {s : State} {acc : Nat} {r : Reel} (h : s.reel? acc = some r) : r.acc = acc := by
  simpa using List.find?_some h

/-- Another segment's record is unchanged. -/
theorem State.seg_modSeg_other (s : State) {g k : SegId} (f : SegRec → SegRec) (hk : k ≠ g) :
    (s.modSeg g f).seg k = s.seg k := by
  simp only [State.seg, State.reel?_modSeg]
  cases h : s.reel? k.reel with
  | none => rfl
  | some r =>
    have ha := State.reel?_acc h
    simp only [Option.map_some, Option.getD_some]
    split
    · next he =>
      rw [Reel.seg_modSeg, if_neg]
      intro hs
      apply hk
      cases k
      cases g
      simp_all
    · rfl

/-- The changed segment's record, where the reel exists. -/
theorem State.seg_modSeg (s : State) {g : SegId} (f : SegRec → SegRec) {r : Reel} (h : s.reel? g.reel = some r) :
    (s.modSeg g f).seg g = f (s.seg g) := by
  have ha := State.reel?_acc h
  simp [State.seg, State.reel?_modSeg, h, ha, Reel.seg_modSeg]

/-- A segment that has copy records belongs to a reel. -/
theorem State.reel?_of_copies {s : State} {g : SegId} (h : 0 < (s.seg g).copies.length) : ∃ r, s.reel? g.reel = some r := by
  cases hr : s.reel? g.reel with
  | none => simp [State.seg, hr, SegRec.initial] at h
  | some r => exact ⟨r, rfl⟩

/-- A segment's record after one of its copy records is changed. -/
theorem State.seg_modCopy (s : State) (c : CopyId) (f : CopyRec → CopyRec) (g : SegId) :
    (s.modCopy c f).seg g =
      if g = c.seg then { s.seg g with copies := (s.seg g).copies.modify c.copy f } else s.seg g := by
  split
  · subst_vars
    cases hr : s.reel? c.seg.reel with
    | none => simp [State.modCopy, State.seg, State.reel?_modSeg, hr, SegRec.initial]
    | some r => rw [State.modCopy, State.seg_modSeg s _ hr]
  · rw [State.modCopy, State.seg_modSeg_other s _ ‹_›]

/-- A change of a copy record leaves every segment's reference. -/
@[simp] theorem State.modCopy_reference (s : State) (c : CopyId) (f : CopyRec → CopyRec) (g : SegId) :
    ((s.modCopy c f).seg g).reference = (s.seg g).reference := by
  rw [State.seg_modCopy]
  split <;> rfl

/-- A change of a copy record leaves every segment's frame digest list. -/
@[simp] theorem State.modCopy_frameList (s : State) (c : CopyId) (f : CopyRec → CopyRec) (g : SegId) :
    ((s.modCopy c f).seg g).frameList = (s.seg g).frameList := by
  rw [State.seg_modCopy]
  split <;> rfl

/-- A change of a copy record leaves every segment's number of copies. -/
@[simp] theorem State.modCopy_copies_length (s : State) (c : CopyId) (f : CopyRec → CopyRec) (g : SegId) :
    ((s.modCopy c f).seg g).copies.length = (s.seg g).copies.length := by
  rw [State.seg_modCopy]
  split <;> simp

/-- The changed copy record, where it exists. -/
theorem State.copy_modCopy (s : State) {c : CopyId} (f : CopyRec → CopyRec) (h : c.copy < (s.seg c.seg).copies.length) :
    (s.modCopy c f).copy c = f (s.copy c) := by
  simp only [State.copy, State.seg_modCopy, if_true]
  simp [h]

/-- Every other copy record is unchanged. -/
theorem State.copy_modCopy_other (s : State) {c d : CopyId} (f : CopyRec → CopyRec) (hd : d ≠ c) :
    (s.modCopy c f).copy d = s.copy d := by
  simp only [State.copy, State.seg_modCopy]
  split
  · next he =>
    have hn : c.copy ≠ d.copy := by
      intro hc
      apply hd
      cases c
      cases d
      simp_all [CopyId.seg]
    simp [hn]
  · rfl

end Sys2Proof.Machine
end

