-- ==== Sys2Proof/Laws/Steady.lean ====
section
/-! SUPPORT. Laws/Steady.lean: what the work on items, places, repairs and credit leaves of the records it does not judge.
`State.Steady P s t` says that from `s` to `t` every reel but for its segment records, every reference, frame digest list and medium of a copy stands, every dispute
keeps its segment, trigger, phase, first observation and lists, a copy that is BAD or REPAIRING stays one of the two, and
every copy outside `P` keeps its trust, day and marks. -/

namespace Sys2Proof.Machine

/-- Two copy records differ at most in their work item tags. -/
def CopyRec.sameTrust (a b : CopyRec) : Prop :=
  b.trust = a.trust ∧ b.lastDay = a.lastDay ∧ b.deferred = a.deferred ∧ b.exhausted = a.exhausted

/-- Two entries are the same dispute, its slots apart. -/
def Dispute.sameDispute (a b : Dispute) : Prop :=
  b.seg = a.seg ∧ b.trigger = a.trigger ∧ b.phase = a.phase ∧ b.first = a.first ∧ b.agreeing = a.agreeing ∧
    b.rejected = a.rejected ∧ b.slots.length = a.slots.length

/-- What the work outside `P` leaves. -/
structure State.Steady (P : CopyId → Prop) (s t : State) : Prop where
  reference : ∀ g, (t.seg g).reference = (s.seg g).reference
  frameList : ∀ g, (t.seg g).frameList = (s.seg g).frameList
  copies : ∀ g, (t.seg g).copies.length = (s.seg g).copies.length
  medium : ∀ c, t.mediumOf c = s.mediumOf c
  reels : ∃ f : Reel → List (Nat × SegRec), t.reels = s.reels.map fun r => { r with segs := f r }
  disputes : ∃ f : Dispute → Dispute, t.disputes = s.disputes.map f ∧ ∀ d : Dispute, d.sameDispute (f d)
  judged : ∀ c, (s.copy c).trust = .bad ∨ (s.copy c).trust = .repairing →
    (t.copy c).trust = .bad ∨ (t.copy c).trust = .repairing
  copy : ∀ c, ¬P c → (s.copy c).sameTrust (t.copy c)

namespace State.Steady

variable {P : CopyId → Prop}

theorem refl (s : State) : s.Steady P s where
  reference _ := rfl
  frameList _ := rfl
  copies _ := rfl
  medium _ := rfl
  reels := ⟨Reel.segs, by simp⟩
  disputes := ⟨id, by simp, fun _ => ⟨rfl, rfl, rfl, rfl, rfl, rfl, rfl⟩⟩
  judged _ h := h
  copy _ _ := ⟨rfl, rfl, rfl, rfl⟩

theorem trans {s t u : State} (h1 : s.Steady P t) (h2 : t.Steady P u) : s.Steady P u where
  reference g := (h2.reference g).trans (h1.reference g)
  frameList g := (h2.frameList g).trans (h1.frameList g)
  copies g := (h2.copies g).trans (h1.copies g)
  medium c := (h2.medium c).trans (h1.medium c)
  reels := by
    obtain ⟨f, hf⟩ := h1.reels
    obtain ⟨k, hk⟩ := h2.reels
    exact ⟨fun r => k { r with segs := f r }, by rw [hk, hf, List.map_map]; rfl⟩
  disputes := by
    obtain ⟨f, hf, hf'⟩ := h1.disputes
    obtain ⟨k, hk, hk'⟩ := h2.disputes
    refine ⟨k ∘ f, by rw [hk, hf, List.map_map], fun d => ?_⟩
    obtain ⟨a1, a2, a3, a4, a5, a6, a7⟩ := hf' d
    obtain ⟨b1, b2, b3, b4, b5, b6, b7⟩ := hk' (f d)
    exact ⟨b1.trans a1, b2.trans a2, b3.trans a3, b4.trans a4, b5.trans a5, b6.trans a6, b7.trans a7⟩
  judged c h := h2.judged c (h1.judged c h)
  copy c h := by
    obtain ⟨a1, a2, a3, a4⟩ := h1.copy c h
    obtain ⟨b1, b2, b3, b4⟩ := h2.copy c h
    exact ⟨b1.trans a1, b2.trans a2, b3.trans a3, b4.trans a4⟩

/-- Work outside a smaller set is work outside a larger one. -/
theorem mono {Q : CopyId → Prop} {s t : State} (h : s.Steady P t) (hpq : ∀ c, P c → Q c) : s.Steady Q t :=
  { h with copy := fun c hc => h.copy c fun hp => hc (hpq c hp) }

/-- A state with the same reels and disputes. -/
theorem ofSame {s t : State} (hr : t.reels = s.reels) (hd : t.disputes = s.disputes) : s.Steady P t := by
  have hseg : ∀ g, t.seg g = s.seg g := fun g => by simp only [State.seg, State.reel?, hr]
  have hcopy : ∀ c, t.copy c = s.copy c := fun c => by simp only [State.copy, hseg]
  exact
    { reference := fun g => by rw [hseg]
      frameList := fun g => by rw [hseg]
      copies := fun g => by rw [hseg]
      medium := fun c => by simp only [State.mediumOf, State.reel?, hr]
      reels := ⟨Reel.segs, by simp [hr]⟩
      disputes := ⟨id, by simp [hd], fun _ => ⟨rfl, rfl, rfl, rfl, rfl, rfl, rfl⟩⟩
      judged := fun c h => by rw [hcopy]; exact h
      copy := fun c _ => by rw [hcopy]; exact ⟨rfl, rfl, rfl, rfl⟩ }

/-- A fold of steady work is steady. -/
theorem foldl {α : Type} {f : State → α → State} (l : List α) (hf : ∀ (s : State) (a : α), a ∈ l → s.Steady P (f s a))
    (s : State) : s.Steady P (l.foldl f s) := by
  induction l generalizing s with
  | nil => exact refl s
  | cons a l ih => exact (hf s a (by simp)).trans (ih (fun s b hb => hf s b (by simp [hb])) _)

/-- The dispute of a segment, where there is none. -/
theorem dispute?_none {s t : State} (h : s.Steady P t) {g : SegId} (hg : s.dispute? g = none) : t.dispute? g = none := by
  obtain ⟨f, hf, hf'⟩ := h.disputes
  simp only [State.dispute?, List.find?_eq_none] at hg ⊢
  intro d hd
  rw [hf, List.mem_map] at hd
  obtain ⟨e, he, rfl⟩ := hd
  rw [(hf' e).1]
  exact hg e he

/-- The dispute of a segment, where there is one. -/
theorem dispute?_some {s t : State} (h : s.Steady P t) {g : SegId} {d : Dispute} (hg : s.dispute? g = some d) :
    ∃ e, t.dispute? g = some e ∧ d.sameDispute e := by
  obtain ⟨f, hf, hf'⟩ := h.disputes
  have hc : ((fun d : Dispute => d.seg == g) ∘ f) = fun d => d.seg == g := by
    funext d
    simp [(hf' d).1]
  refine ⟨f d, ?_, hf' d⟩
  simp only [State.dispute?, hf, List.find?_map, hc] at hg ⊢
  rw [hg]
  rfl

end State.Steady

/-- The media of a reel's copies after a segment record is changed. -/
theorem State.mediumOf_modSeg (s : State) (g : SegId) (f : SegRec → SegRec) (c : CopyId) :
    (s.modSeg g f).mediumOf c = s.mediumOf c := by
  simp only [State.mediumOf, State.reel?_modSeg]
  cases s.reel? c.reel with
  | none => rfl
  | some r =>
    simp only [Option.map_some, Option.bind_some]
    split <;> rfl

/-- A changed copy record that does not exist reads as before. -/
theorem State.copy_modCopy_or (s : State) (c : CopyId) (f : CopyRec → CopyRec) :
    (s.modCopy c f).copy c = f (s.copy c) ∨ (s.modCopy c f).copy c = s.copy c := by
  by_cases h : c.copy < (s.seg c.seg).copies.length
  · exact .inl (s.copy_modCopy f h)
  · right
    simp only [State.copy, State.seg_modCopy, if_true]
    simp [h]

section

variable (s : State) (P : CopyId → Prop)

theorem State.modCopy_steady (c : CopyId) (f : CopyRec → CopyRec)
    (hj : (s.copy c).trust = .bad ∨ (s.copy c).trust = .repairing →
      (f (s.copy c)).trust = .bad ∨ (f (s.copy c)).trust = .repairing)
    (hc : ¬P c → (s.copy c).sameTrust (f (s.copy c))) : s.Steady P (s.modCopy c f) where
  reference g := s.modCopy_reference c f g
  frameList g := s.modCopy_frameList c f g
  copies g := s.modCopy_copies_length c f g
  medium d := State.mediumOf_modSeg s _ _ d
  reels := by
    refine ⟨fun r => if r.acc = c.seg.reel then
      (r.modSeg c.seg.segment fun g => { g with copies := g.copies.modify c.copy f }).segs else r.segs, ?_⟩
    simp only [State.modCopy, State.modSeg]
    congr 1
    funext r
    split <;> rfl
  disputes := ⟨id, by simp [State.modCopy], fun _ => ⟨rfl, rfl, rfl, rfl, rfl, rfl, rfl⟩⟩
  judged d h := by
    by_cases hd : d = c
    · subst hd
      rcases s.copy_modCopy_or d f with he | he <;> rw [he]
      · exact hj h
      · exact h
    · rw [s.copy_modCopy_other f hd]
      exact h
  copy d hd := by
    by_cases he : d = c
    · subst he
      rcases s.copy_modCopy_or d f with he | he <;> rw [he]
      · exact hc hd
      · exact ⟨rfl, rfl, rfl, rfl⟩
    · rw [s.copy_modCopy_other f he]
      exact ⟨rfl, rfl, rfl, rfl⟩

theorem State.setItemTag_steady (c : CopyId) (t : Option Nat) : s.Steady P (s.setItemTag c t) :=
  s.modCopy_steady P c _ id fun _ => ⟨rfl, rfl, rfl, rfl⟩

theorem State.setQueue_steady (q : Queue) : s.Steady P { s with queue := q } := State.Steady.ofSame rfl rfl

theorem State.post_steady (f : Finding) : s.Steady P (s.post f) := State.Steady.ofSame rfl rfl

theorem State.postIfLost_steady (g : SegId) : s.Steady P (s.postIfLost g) := by
  unfold State.postIfLost
  split
  · exact s.post_steady P _
  · exact State.Steady.refl s

theorem State.chargeCredit_steady (n : Nat) : s.Steady P (s.chargeCredit n) := State.Steady.ofSame rfl rfl

theorem State.wakeCredit_steady : s.Steady P s.wakeCredit := by
  unfold State.wakeCredit
  split <;> exact State.Steady.ofSame rfl rfl

theorem State.wakeRoom_steady : s.Steady P s.wakeRoom := by
  unfold State.wakeRoom
  split <;> exact State.Steady.ofSame rfl rfl

theorem State.refundCredit_steady (n : Nat) : s.Steady P (s.refundCredit n) := by
  unfold State.refundCredit
  dsimp only
  split
  · exact (State.Steady.ofSame (s := s) (t := { s with pacer := s.pacer.refund n }) rfl rfl).trans
      (State.wakeCredit_steady _ P)
  · exact State.Steady.ofSame rfl rfl

theorem State.chargeMedium_steady (c : CopyId) (w : Nat) : s.Steady P (s.chargeMedium c w) := by
  unfold State.chargeMedium
  split
  · exact State.Steady.refl s
  · split
    · exact State.Steady.refl s
    · refine State.Steady.trans ?_ (State.Steady.foldl _ (fun t f _ => t.post_steady P f) _)
      exact State.Steady.ofSame rfl rfl

theorem State.modDispute_steady (g : SegId) (f : Dispute → Dispute) (hf : ∀ d : Dispute, d.sameDispute (f d)) :
    s.Steady P (s.modDispute g f) :=
  { State.Steady.refl s with
    disputes := ⟨fun d => if d.seg = g then f d else d, rfl, fun d => by
      dsimp only
      split
      · exact hf d
      · exact ⟨rfl, rfl, rfl, rfl, rfl, rfl, rfl⟩⟩ }

theorem State.setSlot_steady (c : CopyId) (st : Slot) : s.Steady P (s.setSlot c st) :=
  s.modDispute_steady P _ _ fun _ => ⟨rfl, rfl, rfl, rfl, rfl, rfl, by simp⟩

theorem State.modRepair_steady (c : CopyId) (f : Repair → Repair) : s.Steady P (s.modRepair c f) :=
  State.Steady.ofSame rfl rfl

theorem State.removeRepair_steady (c : CopyId) : s.Steady P (s.removeRepair c) := State.Steady.ofSame rfl rfl

theorem State.createItem_steady (kind : ItemKind) (cls : ItemClass) (c : CopyId) (mask : Mask) :
    s.Steady P (s.createItem kind cls c mask) :=
  ((s.setQueue_steady P _).trans (State.setItemTag_steady _ P _ _)).trans (State.chargeCredit_steady _ P _)

theorem State.issue_steady (o : Owner) : s.Steady P (s.issue o) := by
  cases o with
  | slot c => exact (s.createItem_steady P _ _ _ _).trans (State.setSlot_steady _ P _ _)
  | repair c => exact (s.createItem_steady P _ _ _ _).trans (State.modRepair_steady _ P _ _)

theorem State.serveList_steady (ws : List Waiter) : s.Steady P (State.serveList ws s) := by
  induction ws generalizing s with
  | nil => exact State.Steady.refl s
  | cons w ws ih =>
    unfold State.serveList
    split
    · exact ((s.setQueue_steady P _).trans (State.issue_steady _ P _)).trans (ih _)
    · exact State.Steady.refl s

theorem State.serve_steady : s.Steady P s.serve := s.serveList_steady P _

theorem State.issueOrWait_steady (o : Owner) : s.Steady P (s.issueOrWait o) := by
  unfold State.issueOrWait
  split
  · exact s.issue_steady P o
  · exact s.setQueue_steady P _

theorem State.takeOut_steady (it : Item) : s.Steady P (s.takeOut it) :=
  (s.setQueue_steady P _).trans (State.setItemTag_steady _ P _ _)

theorem State.withdrawItem_steady (it : Item) : s.Steady P (s.withdrawItem it) := by
  unfold State.withdrawItem
  refine State.Steady.trans ?_ (State.serve_steady _ P)
  split
  · exact s.takeOut_steady P it
  · exact (s.takeOut_steady P it).trans (State.refundCredit_steady _ P _)

theorem State.leftoverGone_steady (c : CopyId) : s.Steady P (s.leftoverGone c) := by
  unfold State.leftoverGone
  split
  · split
    · exact (s.setQueue_steady P _).trans (State.serve_steady _ P)
    · exact State.Steady.refl s
  · exact State.Steady.refl s

theorem State.takeOver_steady (c : CopyId) (it : Item) : s.Steady P (s.takeOver c it) :=
  (s.setQueue_steady P _).trans (State.setSlot_steady _ P _ _)

theorem State.serveSlot_steady (c : CopyId) : s.Steady P (s.serveSlot c) := by
  unfold State.serveSlot
  repeat' split
  · exact s.takeOver_steady P _ _
  · exact s.issueOrWait_steady P _
  · exact State.Steady.refl s

theorem State.expireSlot_steady (c : CopyId) : s.Steady P (s.expireSlot c) := by
  unfold State.expireSlot
  repeat' split
  · exact (s.setQueue_steady P _).trans (State.setSlot_steady _ P _ _)
  · exact s.setSlot_steady P _ _
  · exact State.Steady.refl s

/-- A repair takes its target from BAD to REPAIRING and judges no other copy. -/
theorem State.createRepair_steady (c : CopyId) (m : Mask) (o : RepairOrigin) (hc : P c) :
    s.Steady P (s.createRepair c m o) := by
  unfold State.createRepair
  have h : s.Steady P
      (({ s with repairs := s.repairs ++ [(⟨c, m, 1, .waitingPlace, o⟩ : Repair)] }).setTrust c .repairing) :=
    (State.Steady.ofSame (s := s) (t := { s with repairs := s.repairs ++ [(⟨c, m, 1, .waitingPlace, o⟩ : Repair)] })
      rfl rfl).trans (State.modCopy_steady _ P c _ (fun _ => .inr rfl) fun hn => absurd hc hn)
  dsimp only
  split
  · split
    · exact (h.trans (State.withdrawItem_steady _ P _)).trans (State.leftoverGone_steady _ P _)
    · exact h
  · exact h.trans (State.issueOrWait_steady _ P _)

theorem State.requestRepair_steady (c : CopyId) (m : Mask) (o : RepairOrigin) (hc : P c) :
    s.Steady P (s.requestRepair c m o) := by
  unfold State.requestRepair
  repeat' split
  all_goals first | exact s.post_steady P _ | exact s.createRepair_steady P _ _ _ hc

/-- Internal requests judge no copy that was neither BAD nor REPAIRING. -/
theorem State.requestRepairs_steady (o : RepairOrigin) (l : List (CopyId × Mask)) :
    s.Steady (fun c => (s.copy c).trust = .bad ∨ (s.copy c).trust = .repairing) (s.requestRepairs o l) := by
  suffices h : ∀ t : State, s.Steady (fun c => (s.copy c).trust = .bad ∨ (s.copy c).trust = .repairing) t →
      s.Steady (fun c => (s.copy c).trust = .bad ∨ (s.copy c).trust = .repairing)
        (l.foldl (fun t p => if (t.copy p.1).trust = .bad then t.requestRepair p.1 p.2 o else t) t) from
    h s (State.Steady.refl s)
  induction l with
  | nil => exact fun t ht => ht
  | cons p l ih =>
    intro t ht
    refine ih _ ?_
    dsimp only
    split
    · next hb =>
      refine ht.trans (t.requestRepair_steady _ _ _ _ ?_)
      by_contra hn
      have := (ht.copy p.1 hn).1
      rw [hb] at this
      exact hn (.inl this.symm)
    · exact ht

end

end Sys2Proof.Machine
end

