-- ==== Sys2Proof/Laws/Tables.lean ====
section
/-! SUPPORT. Laws/Tables.lean: the Dispute Table and the Repair Table (`State.tablesOk`) through every operation on them.
`State.Judges W s t` says that from `s` to `t` at most the segment records change, no copy becomes REPAIRING, and a copy
outside `W` stays REPAIRING; such work keeps the tables when no copy in `W` is REPAIRING. The last lemma gathers the
operations for `exec_keeps`. -/

namespace Sys2Proof.Machine

/-! ### Judging work -/

/-- Work that changes at most segment records and makes no copy REPAIRING; `W` names the copies it may judge. -/
structure State.Judges (W : CopyId → Prop) (s t : State) : Prop where
  reels : t.reels.map Reel.acc = s.reels.map Reel.acc
  lanes : t.lanes = s.lanes
  disputes : t.disputes = s.disputes
  repairs : t.repairs = s.repairs
  queue : t.queue = s.queue
  active : ∀ a, (t.activeReel? a).isSome = (s.activeReel? a).isSome
  calm : ∀ c, (t.copy c).trust = .repairing → (s.copy c).trust = .repairing
  others : ∀ c, ¬W c → (s.copy c).trust = .repairing → (t.copy c).trust = .repairing

namespace State.Judges

variable {W : CopyId → Prop}

theorem refl (s : State) : s.Judges W s := ⟨rfl, rfl, rfl, rfl, rfl, fun _ => rfl, fun _ h => h, fun _ _ h => h⟩

theorem trans {s t u : State} (h : s.Judges W t) (k : t.Judges W u) : s.Judges W u :=
  ⟨k.reels.trans h.reels, k.lanes.trans h.lanes, k.disputes.trans h.disputes, k.repairs.trans h.repairs, k.queue.trans h.queue,
    fun a => (k.active a).trans (h.active a), fun c hc => h.calm c (k.calm c hc),
    fun c hc hr => k.others c hc (h.others c hc hr)⟩

theorem mono {V : CopyId → Prop} {s t : State} (h : s.Judges W t) (hv : ∀ c, W c → V c) : s.Judges V t :=
  { h with others := fun c hc => h.others c fun hw => hc (hv c hw) }

theorem foldl {α : Type} {f : State → α → State} (l : List α) (hf : ∀ (s : State) a, a ∈ l → s.Judges W (f s a)) (s : State) :
    s.Judges W (l.foldl f s) := by
  induction l generalizing s with
  | nil => exact refl s
  | cons a l ih => exact (hf s a (by simp)).trans (ih (fun s b hb => hf s b (by simp [hb])) _)

/-- The same tables. -/
theorem ofSame {s t : State} (h : s.sameTables t) : s.Judges W t := by
  have hseg : ∀ g, t.seg g = s.seg g := fun g => by simp only [State.seg, State.reel?, h.1]
  have hcopy : ∀ c, t.copy c = s.copy c := fun c => by simp only [State.copy, hseg]
  refine ⟨congrArg (List.map Reel.acc) h.1, h.2.1, h.2.2.1, h.2.2.2.1, h.2.2.2.2, fun a => ?_, fun c hc => hcopy c ▸ hc, fun c _ hc => (hcopy c).symm ▸ hc⟩
  simp only [State.activeReel?, State.reel?, h.1]

theorem dispute? {s t : State} (h : s.Judges W t) (g : SegId) : t.dispute? g = s.dispute? g := by
  simp only [State.dispute?, h.disputes]

end State.Judges

/-- A segment record's change leaves the accession ids. -/
theorem State.modSeg_accs (s : State) (g : SegId) (f : SegRec → SegRec) :
    (s.modSeg g f).reels.map Reel.acc = s.reels.map Reel.acc := by
  simp only [State.modSeg, List.map_map]
  refine List.map_congr_left fun r _ => ?_
  simp only [Function.comp_apply]
  split <;> rfl

/-- A segment record's change leaves which reels are ACTIVE. -/
theorem State.activeReel?_modSeg (s : State) (g : SegId) (f : SegRec → SegRec) (a : Nat) :
    ((s.modSeg g f).activeReel? a).isSome = (s.activeReel? a).isSome := by
  simp only [State.activeReel?, State.reel?_modSeg]
  cases s.reel? a with
  | none => rfl
  | some r =>
    have h : (if r.acc = g.reel then r.modSeg g.segment f else r).isActive = r.isActive := by
      split <;> rfl
    simp only [Option.map_some, Option.filter_some, h]
    split <;> rfl

/-- A copy that no record holds is not REPAIRING, nor BAD. -/
theorem State.copy_absent (s : State) (c : CopyId) (h : ¬c.copy < (s.seg c.seg).copies.length) :
    s.copy c = CopyRec.initial := by
  simp [State.copy, h]

/-- A copy set to another trust than REPAIRING is not REPAIRING. -/
theorem State.modCopy_calm (s : State) (c : CopyId) (f : CopyRec → CopyRec) (hf : ∀ r, (f r).trust ≠ .repairing) :
    ((s.modCopy c f).copy c).trust ≠ .repairing := by
  by_cases h : c.copy < (s.seg c.seg).copies.length
  · rw [s.copy_modCopy f h]
    exact hf _
  · rw [State.copy_absent]
    · decide
    · simpa using h

section

variable (s : State)

theorem State.modCopy_judges {W : CopyId → Prop} (c : CopyId) (f : CopyRec → CopyRec)
    (hf : ∀ r, (f r).trust = .repairing → r.trust = .repairing)
    (hw : ¬W c → ∀ r, r.trust = .repairing → (f r).trust = .repairing) : s.Judges W (s.modCopy c f) where
  reels := s.modSeg_accs _ _
  lanes := rfl
  disputes := rfl
  repairs := rfl
  queue := rfl
  active _ := s.activeReel?_modSeg _ _ _
  calm d hd := by
    by_cases he : d = c
    · subst he
      rcases s.copy_modCopy_or d f with h | h <;> rw [h] at hd
      · exact hf _ hd
      · exact hd
    · rwa [s.copy_modCopy_other f he] at hd
  others d hd hr := by
    by_cases he : d = c
    · subst he
      rcases s.copy_modCopy_or d f with h | h <;> rw [h]
      · exact hw hd _ hr
      · exact hr
    · rwa [s.copy_modCopy_other f he]

variable {W : CopyId → Prop}

theorem State.setTrust_judges (c : CopyId) (t : Trust) (ht : t ≠ .repairing) (hc : W c) : s.Judges W (s.setTrust c t) :=
  s.modCopy_judges c _ (fun _ h => absurd h ht) fun h => absurd hc h

theorem State.setGood_judges (c : CopyId) (d : Nat) (hc : W c) : s.Judges W (s.setGood c d) :=
  s.modCopy_judges c _ (fun _ h => by cases h) fun h => absurd hc h

theorem State.setDeferred_judges (c : CopyId) (b : Bool) : s.Judges W (s.setDeferred c b) :=
  s.modCopy_judges c _ (fun _ h => h) fun _ _ h => h

theorem State.setExhausted_judges (c : CopyId) (b : Bool) : s.Judges W (s.setExhausted c b) :=
  s.modCopy_judges c _ (fun _ h => h) fun _ _ h => h

theorem State.setItemTag_judges (c : CopyId) (t : Option Nat) : s.Judges W (s.setItemTag c t) :=
  s.modCopy_judges c _ (fun _ h => h) fun _ _ h => h

/-- A change of a segment's reference and frame list alone. -/
theorem State.modSeg_judges (g : SegId) (f : SegRec → SegRec) (hf : ∀ r, (f r).copies = r.copies) :
    s.Judges W (s.modSeg g f) := by
  have hcopies : ∀ k, ((s.modSeg g f).seg k).copies = (s.seg k).copies := by
    intro k
    by_cases hk : k = g
    · subst hk
      cases hr : s.reel? k.reel with
      | none => simp [State.seg, State.reel?_modSeg, hr]
      | some r => rw [State.seg_modSeg s f hr, hf]
    · rw [State.seg_modSeg_other s f hk]
  have hcopy : ∀ c, (s.modSeg g f).copy c = s.copy c := fun c => by simp only [State.copy, hcopies]
  exact ⟨s.modSeg_accs _ _, rfl, rfl, rfl, rfl, fun a => s.activeReel?_modSeg _ _ a, fun c h => hcopy c ▸ h, fun c _ h => (hcopy c).symm ▸ h⟩

theorem State.post_judges (f : Finding) : s.Judges W (s.post f) := .ofSame ⟨rfl, rfl, rfl, rfl, rfl⟩

theorem State.postIfLost_judges (g : SegId) : s.Judges W (s.postIfLost g) := by
  unfold State.postIfLost
  split
  · exact s.post_judges _
  · exact .refl s

theorem State.chargeMedium_sameTables (c : CopyId) (w : Nat) : s.sameTables (s.chargeMedium c w) := by
  have hf (l : List Finding) (t : State) : t.sameTables (l.foldl State.post t) := by
    induction l generalizing t with
    | nil => exact .refl t
    | cons f l ih => exact State.sameTables.trans (t := t.post f) ⟨rfl, rfl, rfl, rfl, rfl⟩ (ih _)
  unfold State.chargeMedium
  split
  · exact .refl s
  · split
    · exact .refl s
    · exact State.sameTables.trans (t := s.modMedium _ _) ⟨rfl, rfl, rfl, rfl, rfl⟩ (hf _ _)

theorem State.chargeMedium_judges (c : CopyId) (w : Nat) : s.Judges W (s.chargeMedium c w) :=
  .ofSame (s.chargeMedium_sameTables c w)

theorem State.transientTest_judges (d : Dispute) (r : Option Digest) : s.Judges W (s.transientTest d r) := by
  unfold State.transientTest
  repeat' split
  · exact (s.post_judges _).trans (State.chargeMedium_judges _ _ _)
  · exact .refl s
  · exact .refl s

theorem State.judgeAllBad_judges (g : SegId) (n : Nat) (l : List (Nat × Obs)) (hl : ∀ p ∈ l, W (g.copy p.1)) :
    s.Judges W (s.judgeAllBad g n l) :=
  .foldl l (fun t p hp => ((t.setTrust_judges (g.copy p.1) .bad (by decide) (hl p hp)).trans (State.post_judges _ _)).trans
    (State.chargeMedium_judges _ _ _)) s

theorem State.judgeAllGood_judges (g : SegId) (d : Nat) (l : List Nat) (hl : ∀ i ∈ l, W (g.copy i)) :
    s.Judges W (s.judgeAllGood g d l) := .foldl l (fun t i hi => t.setGood_judges (g.copy i) d (hl i hi)) s

theorem State.closeVote_judges (g : SegId) (v : List (Nat × Obs)) (n : Nat) (e : Bool) (d : Option Digest) :
    s.Judges W (s.closeVote g v n e d) := by
  unfold State.closeVote
  exact ((State.Judges.foldl v (fun t p _ => t.setDeferred_judges (g.copy p.1) false) s).trans
    (State.post_judges _ _)).trans (State.postIfLost_judges _ _)

end

/-! ### The tables under the primitive changes -/

/-- A copy that an entry involves has a slot, a trigger or a vote that names it. -/
theorem Dispute.involves_of_votes {d : Dispute} {p : Nat × Obs} (hp : p ∈ d.votes) : d.involves p.1 := by
  unfold Dispute.votes at hp
  obtain ⟨i, -, hi⟩ := List.mem_filterMap.1 hp
  obtain ⟨o, ho, rfl⟩ := Option.map_eq_some_iff.1 hi
  unfold Dispute.effective at ho
  split at ho
  · next h => exact .inl h
  · unfold Dispute.slotObs at ho
    split at ho
    · next h => exact .inr (.inr (.inr ⟨_, h, by simp⟩))
    · cases ho

theorem State.dispute?_mem {s : State} {g : SegId} {d : Dispute} (h : s.dispute? g = some d) :
    d ∈ s.disputes ∧ d.seg = g := ⟨List.mem_of_find?_eq_some h, by simpa using List.find?_some h⟩

theorem State.collecting?_mem {s : State} {g : SegId} {d : Dispute} (h : s.collecting? g = some d) :
    d ∈ s.disputes ∧ d.seg = g := State.dispute?_mem (Option.filter_eq_some_iff.1 h).1

theorem State.repair?_mem {s : State} {c : CopyId} {r : Repair} (h : s.repair? c = some r) :
    r ∈ s.repairs ∧ r.target = c := ⟨List.mem_of_find?_eq_some h, by simpa using List.find?_some h⟩

theorem State.modDispute_segs (s : State) (g : SegId) (f : Dispute → Dispute) (hf : ∀ d, (f d).seg = d.seg) :
    (s.modDispute g f).disputes.map Dispute.seg = s.disputes.map Dispute.seg := by
  simp only [State.modDispute, List.map_map]
  refine List.map_congr_left fun d _ => ?_
  simp only [Function.comp_apply]
  split
  · exact hf d
  · rfl

theorem SegId.copy_seg (g : SegId) (i : Nat) : (g.copy i).seg = g := rfl

theorem CopyId.seg_copy (c : CopyId) : c.seg.copy c.copy = c := rfl

namespace State.tablesOk

variable {s : State}

/-- A copy that a dispute's entry involves is not REPAIRING. -/
theorem notRepairing (h : s.tablesOk) {d : Dispute} {c : CopyId} (hd : d ∈ s.disputes) (hs : d.seg = c.seg)
    (hi : d.involves c.copy) : (s.copy c).trust ≠ .repairing := by
  have := h.involved d hd c.copy hi
  rwa [hs] at this

/-- A copy whose slot stands in a dispute is not REPAIRING. -/
theorem slotCalm (h : s.tablesOk) {c : CopyId} {st : Slot}
    (hs : (s.dispute? c.seg).bind (fun d => d.slots[c.copy]?) = some st) (hst : st ≠ .notWanted) :
    (s.copy c).trust ≠ .repairing := by
  obtain ⟨d, hd, hd'⟩ := Option.bind_eq_some_iff.1 hs
  obtain ⟨h1, h2⟩ := State.dispute?_mem hd
  exact h.notRepairing h1 h2 (.inr (.inr (.inr ⟨st, hd', hst⟩)))

theorem judged {W : CopyId → Prop} {t : State} (h : s.tablesOk) (j : s.Judges W t)
    (hw : ∀ c, W c → (s.copy c).trust ≠ .repairing) : t.tablesOk where
  reelsApart := j.reels ▸ h.reelsApart
  disputesMax := j.disputes ▸ h.disputesMax
  disputesApart := j.disputes ▸ h.disputesApart
  repairsMax := j.repairs ▸ h.repairsMax
  repairsApart := j.repairs ▸ h.repairsApart
  repairing c := by
    rw [j.repairs, ← h.repairing c]
    exact ⟨j.calm c, fun hr => j.others c (fun hc => hw c hc hr) hr⟩
  involved d hd i hi hr := h.involved d (j.disputes ▸ hd) i hi (j.calm _ hr)
  laneReels n l hl := by
    rw [j.active]
    refine h.laneReels n l ?_
    rw [← hl]
    simp only [State.lane, j.lanes]
  itemReels i hi := by
    rw [j.active]
    exact h.itemReels i (j.queue ▸ hi)
  disputeReels d hd := by
    rw [j.active]
    exact h.disputeReels d (j.disputes ▸ hd)
  repairReels r hr := by
    rw [j.active]
    exact h.repairReels r (j.repairs ▸ hr)
  waiting w hw := by
    have := h.waiting w (j.queue ▸ hw)
    revert this
    cases w.owner <;> simp only [State.ownerStands, j.disputes, j.repairs] <;> exact id

theorem same {t : State} (h : s.tablesOk) (k : s.sameTables t) : t.tablesOk :=
  h.judged (State.Judges.ofSame (W := fun _ => False) k) fun _ hc => hc.elim

/-- Work that judges no copy. -/
theorem quiet {t : State} (h : s.tablesOk) (j : s.Judges (fun _ => False) t) : t.tablesOk := h.judged j fun _ hc => hc.elim

/-- Another queue, whose items lie on ACTIVE reels and whose owners stand. -/
theorem setQueue (h : s.tablesOk) (q : Queue) (hi : ∀ i ∈ q.items, (s.activeReel? i.target.reel).isSome = true)
    (hw : ∀ w ∈ q.waiters, s.ownerStands w.owner) : State.tablesOk { s with queue := q } :=
  { h with itemReels := hi, waiting := hw }

/-- A queue with fewer items and fewer owners. -/
theorem lessQueue (h : s.tablesOk) (q : Queue) (hi : ∀ i ∈ q.items, i ∈ s.queue.items)
    (hw : ∀ w ∈ q.waiters, w ∈ s.queue.waiters) : State.tablesOk { s with queue := q } :=
  h.setQueue q (fun i hm => h.itemReels i (hi i hm)) fun w hm => h.waiting w (hw w hm)

theorem modItem (h : s.tablesOk) (tag : Nat) (f : Item → Item)
    (hf : ∀ i ∈ s.queue.items, i.tag = tag → (s.activeReel? (f i).target.reel).isSome = true) :
    (s.modItem tag f).tablesOk := by
  refine h.setQueue _ (fun i hi => ?_) h.waiting
  obtain ⟨j, hj, rfl⟩ := List.mem_map.1 hi
  split
  · exact hf j hj ‹_›
  · exact h.itemReels j hj

theorem mem_placeLast {it i : Item} {l : List Item} (h : i ∈ placeLast it l) : i = it ∨ i ∈ l :=
  List.mem_cons.1 ((placeLast_perm it l).subset h)

theorem placeFront (h : s.tablesOk) (p : Item → Bool) :
    State.tablesOk { s with queue := { s.queue with items := placeFront p s.queue.items } } :=
  h.lessQueue _ (fun _ hi => (placeFront_perm p _).subset hi) fun _ hw => hw

theorem createItem (h : s.tablesOk) (k : ItemKind) (cls : ItemClass) (c : CopyId) (m : Mask)
    (hc : (s.activeReel? c.reel).isSome = true) : (s.createItem k cls c m).tablesOk := by
  have h1 : State.tablesOk { s with queue := { s.queue with
      items := placeLast ⟨s.queue.nextTag, k, cls, c, chargeOf (s.byteLength c.seg), .queued, 0, false, m, none⟩
        s.queue.items, lastTag := s.queue.nextTag } } := by
    refine h.setQueue _ (fun i hi => ?_) h.waiting
    rcases mem_placeLast hi with rfl | hi
    · exact hc
    · exact h.itemReels i hi
  exact (h1.quiet (State.setItemTag_judges _ _ _)).same ⟨rfl, rfl, rfl, rfl, rfl⟩

/-! ### Dispute slots and entries -/

theorem setSlot (h : s.tablesOk) (c : CopyId) (st : Slot) (hst : st ≠ .notWanted) (hc : (s.copy c).trust ≠ .repairing) :
    (s.setSlot c st).tablesOk where
  reelsApart := h.reelsApart
  disputesMax := by simpa [State.setSlot, State.modDispute] using h.disputesMax
  disputesApart := by
    refine (congrArg List.Nodup (s.modDispute_segs c.seg _ ?_)).mpr h.disputesApart
    exact fun _ => rfl
  repairsMax := h.repairsMax
  repairsApart := h.repairsApart
  repairing := h.repairing
  involved d hd i hi := by
    obtain ⟨e, he, rfl⟩ := List.mem_map.1 hd
    split at hi
    · next hs =>
      rw [if_pos hs]
      by_cases hic : i = c.copy
      · subst hic
        show (s.copy (e.seg.copy c.copy)).trust ≠ _
        rw [hs]
        exact hc
      · refine h.involved e he i ?_
        rcases hi with hi | hi | hi | ⟨x, hx, hx'⟩
        · exact .inl hi
        · exact .inr (.inl hi)
        · exact .inr (.inr (.inl hi))
        · refine .inr (.inr (.inr ⟨x, ?_, hx'⟩))
          rwa [List.getElem?_set_ne (Ne.symm hic)] at hx
    · next hs =>
      rw [if_neg hs]
      exact h.involved e he i hi
  laneReels := h.laneReels
  itemReels := h.itemReels
  disputeReels d hd := by
    obtain ⟨e, he, rfl⟩ := List.mem_map.1 hd
    have := h.disputeReels e he
    split <;> exact this
  repairReels := h.repairReels
  waiting w hw := by
    have hw' := h.waiting w hw
    revert hw'
    cases w.owner with
    | repair k => exact id
    | slot k =>
      rintro ⟨d, hd, hk, x, hx, hx'⟩
      refine ⟨_, List.mem_map_of_mem hd, ?_, ?_⟩
      · split <;> exact hk
      · split
        · by_cases hkc : c.copy = k.copy
          · refine ⟨st, ?_, hst⟩
            have := (List.getElem?_eq_some_iff.1 hx).1
            simp [hkc, this]
          · exact ⟨x, by rw [List.getElem?_set_ne hkc]; exact hx, hx'⟩
        · exact ⟨x, hx, hx'⟩

theorem removeDispute (h : s.tablesOk) (g : SegId) : (s.removeDispute g).tablesOk where
  reelsApart := h.reelsApart
  disputesMax := Nat.le_trans (List.length_filter_le _ _) h.disputesMax
  disputesApart := h.disputesApart.sublist (List.Sublist.map _ List.filter_sublist)
  repairsMax := h.repairsMax
  repairsApart := h.repairsApart
  repairing := h.repairing
  involved d hd := h.involved d (List.mem_of_mem_filter hd)
  laneReels := h.laneReels
  itemReels := h.itemReels
  disputeReels d hd := h.disputeReels d (List.mem_of_mem_filter hd)
  repairReels := h.repairReels
  waiting w hw := by
    obtain ⟨hw1, hw2⟩ := List.mem_filter.1 hw
    have hw' := h.waiting w hw1
    revert hw' hw2
    cases w.owner with
    | repair k => exact fun _ h => h
    | slot k =>
      rintro hn ⟨d, hd, hk, hx⟩
      refine ⟨d, List.mem_filter.2 ⟨hd, ?_⟩, hk, hx⟩
      rw [hk]
      simpa [Owner.isSlotOf] using hn

theorem dispute?_removed (s : State) (g : SegId) : (s.removeDispute g).dispute? g = none := by
  simp [State.dispute?, State.removeDispute]

/-! ### Repair entries -/

/-- A repair entry is removed once its target is no longer REPAIRING. -/
theorem closed (h : s.tablesOk) {u : State} {c : CopyId} (j : s.Judges (· = c) u)
    (hc : (u.copy c).trust ≠ .repairing) : (u.removeRepair c).tablesOk where
  reelsApart := j.reels ▸ h.reelsApart
  disputesMax := j.disputes ▸ h.disputesMax
  disputesApart := j.disputes ▸ h.disputesApart
  repairsMax := Nat.le_trans (List.length_filter_le _ _) (j.repairs ▸ h.repairsMax)
  repairsApart := List.Nodup.sublist (List.Sublist.map _ List.filter_sublist) (j.repairs ▸ h.repairsApart)
  repairing d := by
    show (u.copy d).trust = .repairing ↔ ∃ r ∈ u.repairs.filter (fun r => r.target != c), r.target = d
    by_cases hd : d = c
    · subst hd
      refine ⟨fun hr => absurd hr hc, fun ⟨r, hr, hrd⟩ => ?_⟩
      simp [hrd] at hr
    · have : (u.copy d).trust = .repairing ↔ (s.copy d).trust = .repairing := ⟨j.calm d, j.others d hd⟩
      rw [this, h.repairing d, j.repairs]
      constructor
      · rintro ⟨r, hr, rfl⟩
        exact ⟨r, by simp [hr, hd], rfl⟩
      · rintro ⟨r, hr, hrd⟩
        exact ⟨r, List.mem_of_mem_filter hr, hrd⟩
  involved d hd i hi hr := h.involved d (j.disputes ▸ hd) i hi (j.calm _ hr)
  laneReels n l hl := by
    show (u.activeReel? _).isSome = true
    rw [j.active]
    refine h.laneReels n l ?_
    rw [← hl]
    simp only [State.lane, State.removeRepair, j.lanes]
  itemReels i hi := by
    show (u.activeReel? _).isSome = true
    rw [j.active]
    exact h.itemReels i (j.queue ▸ hi)
  disputeReels d hd := by
    show (u.activeReel? _).isSome = true
    rw [j.active]
    exact h.disputeReels d (j.disputes ▸ hd)
  repairReels r hr := by
    show (u.activeReel? _).isSome = true
    rw [j.active]
    exact h.repairReels r (j.repairs ▸ List.mem_of_mem_filter hr)
  waiting w hw := by
    obtain ⟨hw1, hw2⟩ := List.mem_filter.1 hw
    rw [j.queue] at hw1
    have hw' := h.waiting w hw1
    revert hw' hw2
    cases w.owner with
    | slot k =>
      intro _ hk
      simp only [State.ownerStands, ← j.disputes] at hk
      exact hk
    | repair k =>
      rintro hn ⟨r, hr, hrk⟩
      refine ⟨r, List.mem_filter.2 ⟨j.repairs.symm ▸ hr, ?_⟩, hrk⟩
      rw [hrk]
      simpa using hn

theorem modRepair (h : s.tablesOk) (c : CopyId) (f : Repair → Repair) (hf : ∀ r, (f r).target = r.target) :
    (s.modRepair c f).tablesOk := by
  have hmem : ∀ k, (∃ r ∈ (s.modRepair c f).repairs, r.target = k) ↔ ∃ r ∈ s.repairs, r.target = k := by
    intro k
    constructor
    · rintro ⟨r, hr, rfl⟩
      obtain ⟨q, hq, rfl⟩ := List.mem_map.1 hr
      refine ⟨q, hq, ?_⟩
      split
      · exact (hf q).symm
      · rfl
    · rintro ⟨r, hr, rfl⟩
      refine ⟨_, List.mem_map_of_mem hr, ?_⟩
      split
      · exact hf r
      · rfl
  exact
    { h with
      repairsMax := by simpa [State.modRepair] using h.repairsMax
      repairsApart := by
        have : (s.modRepair c f).repairs.map Repair.target = s.repairs.map Repair.target := by
          simp only [State.modRepair, List.map_map]
          refine List.map_congr_left fun r _ => ?_
          simp only [Function.comp_apply]
          split
          · exact hf r
          · rfl
        rw [this]
        exact h.repairsApart
      repairing := fun k => (h.repairing k).trans (hmem k).symm
      repairReels := fun r hr => by
        obtain ⟨q, hq, hqr⟩ := (hmem r.target).1 ⟨r, hr, rfl⟩
        rw [← hqr]
        exact h.repairReels q hq
      waiting := fun w hw => by
        have hw' := h.waiting w hw
        revert hw'
        cases w.owner with
        | slot k => exact id
        | repair k => exact (hmem k).2 }

/-- The entry of a new repair, with its target REPAIRING. -/
theorem entered (h : s.tablesOk) (e : Repair) (hb : (s.copy e.target).trust = .bad)
    (hd : s.dispute? e.target.seg = none) (ha : (s.activeReel? e.target.reel).isSome = true)
    (hl : s.repairs.length < 16) :
    (({ s with repairs := s.repairs ++ [e] } : State).setTrust e.target .repairing).tablesOk := by
  have hex : e.target.copy < (s.seg e.target.seg).copies.length := by
    by_contra hc
    rw [s.copy_absent _ hc] at hb
    cases hb
  have hself : ((({ s with repairs := s.repairs ++ [e] } : State).setTrust e.target .repairing).copy e.target).trust =
      .repairing := by
    unfold State.setTrust
    rw [State.copy_modCopy]
    exact hex
  have hother : ∀ k, k ≠ e.target →
      (({ s with repairs := s.repairs ++ [e] } : State).setTrust e.target .repairing).copy k = s.copy k := by
    intro k hk
    unfold State.setTrust
    rw [State.copy_modCopy_other _ _ hk]
    rfl
  have hact : ∀ a, ((({ s with repairs := s.repairs ++ [e] } : State).setTrust e.target .repairing).activeReel? a).isSome =
      (s.activeReel? a).isSome := fun a => State.activeReel?_modSeg _ _ _ a
  exact
    { reelsApart := (State.modSeg_accs _ _ _).symm ▸ h.reelsApart
      disputesMax := h.disputesMax
      disputesApart := h.disputesApart
      repairsMax := by
        show (s.repairs ++ [e]).length ≤ 16
        simp
        omega
      repairsApart := by
        show ((s.repairs ++ [e]).map Repair.target).Nodup
        rw [List.map_append, List.nodup_append]
        refine ⟨h.repairsApart, by simp, fun a hm b hb' hab => ?_⟩
        obtain ⟨r, hr, rfl⟩ := List.mem_map.1 hm
        simp only [List.map_cons, List.map_nil, List.mem_singleton] at hb'
        have := (h.repairing e.target).2 ⟨r, hr, hab.trans hb'⟩
        rw [hb] at this
        cases this
      repairing := fun k => by
        show _ ↔ ∃ r ∈ s.repairs ++ [e], r.target = k
        by_cases hk : k = e.target
        · subst hk
          exact ⟨fun _ => ⟨e, by simp, rfl⟩, fun _ => hself⟩
        · rw [hother k hk, h.repairing k]
          constructor
          · rintro ⟨r, hr, hrk⟩
            exact ⟨r, by simp [hr], hrk⟩
          · rintro ⟨r, hr, hrk⟩
            rcases List.mem_append.1 hr with hr | hr
            · exact ⟨r, hr, hrk⟩
            · obtain rfl := List.mem_singleton.1 hr
              exact absurd hrk.symm hk
      involved := fun d hdm i hi => by
        have hdm : d ∈ s.disputes := hdm
        rw [hother]
        · exact h.involved d hdm i hi
        · intro hc
          have hs : d.seg = e.target.seg := by rw [← hc, SegId.copy_seg]
          simp only [State.dispute?, List.find?_eq_none] at hd
          exact hd d hdm (by simp [hs])
      laneReels := fun n l hl => (hact _).trans (h.laneReels n l hl)
      itemReels := fun i hi => (hact _).trans (h.itemReels i hi)
      disputeReels := fun d hd => (hact _).trans (h.disputeReels d hd)
      repairReels := fun r hr => by
        rw [hact]
        rcases List.mem_append.1 (show r ∈ s.repairs ++ [e] from hr) with hr | hr
        · exact h.repairReels r hr
        · obtain rfl := List.mem_singleton.1 hr
          exact ha
      waiting := fun w hw => by
        have hw' := h.waiting w hw
        revert hw'
        cases w.owner with
        | slot k => exact id
        | repair k =>
          rintro ⟨r, hr, hrk⟩
          exact ⟨r, show r ∈ s.repairs ++ [e] by simp [hr], hrk⟩ }

/-! ### Items, places and departures -/

theorem issue (h : s.tablesOk) (o : Owner) (ho : s.ownerStands o) : (s.issue o).tablesOk := by
  cases o with
  | slot c =>
    obtain ⟨d, hd, hs, st, hst, hne⟩ := ho
    have ha : (s.activeReel? c.reel).isSome = true := by
      have := h.disputeReels d hd
      rwa [hs] at this
    refine (h.createItem .confirm .urgent c 0#64 ha).setSlot c _ (by simp) ?_
    rw [((s.createItem_steady (fun _ => False) .confirm .urgent c 0#64).copy c id).1]
    exact h.notRepairing hd hs (.inr (.inr (.inr ⟨st, hst, hne⟩)))
  | repair c =>
    obtain ⟨r, hr, rfl⟩ := ho
    exact (h.createItem .repair .urgent r.target _ (h.repairReels r hr)).modRepair _ _ fun _ => rfl

theorem ownerStands_createItem {o : Owner} (ho : s.ownerStands o) (k : ItemKind) (cls : ItemClass) (c : CopyId) (m : Mask) :
    (s.createItem k cls c m).ownerStands o := ho

theorem startWaiting (h : s.tablesOk) (o : Owner) (ho : s.ownerStands o) : (s.startWaiting o).tablesOk := by
  refine h.setQueue _ h.itemReels fun w hw => ?_
  rcases List.mem_append.1 hw with hw | hw
  · exact h.waiting w hw
  · obtain rfl := List.mem_singleton.1 hw
    exact ho

theorem stopWaiting (h : s.tablesOk) (o : Owner) : (s.stopWaiting o).tablesOk :=
  h.lessQueue _ (fun _ hi => hi) fun _ hw => List.mem_of_mem_filter hw

theorem issueOrWait (h : s.tablesOk) (o : Owner) (ho : s.ownerStands o) : (s.issueOrWait o).tablesOk := by
  unfold State.issueOrWait
  split
  · exact h.issue o ho
  · exact h.startWaiting o ho

theorem serveList (ws : List Waiter) {s : State} (h : s.tablesOk) (hw : s.queue.waiters = ws) :
    (State.serveList ws s).tablesOk := by
  induction ws generalizing s with
  | nil => exact h
  | cons w ws ih =>
    unfold State.serveList
    split
    · have ho := h.waiting w (by simp [hw])
      have h1 : State.tablesOk { s with queue := { s.queue with waiters := ws } } :=
        h.lessQueue _ (fun _ hi => hi) fun v hv => by rw [hw]; exact List.mem_cons_of_mem _ hv
      refine ih (h1.issue w.owner ho) ?_
      cases w.owner <;> rfl
    · exact h

theorem serve (h : s.tablesOk) : s.serve.tablesOk := serveList _ h rfl

theorem takeOut (h : s.tablesOk) (it : Item) : (s.takeOut it).tablesOk :=
  State.tablesOk.quiet (s := { s with queue := { s.queue with items := s.queue.items.filter fun i => i.tag != it.tag } })
    (h.lessQueue _ (fun _ hi => List.mem_of_mem_filter hi) fun _ hw => hw) (State.setItemTag_judges _ _ _)

theorem removeItem (h : s.tablesOk) (it : Item) : (s.removeItem it).tablesOk := (h.takeOut it).serve

theorem withdrawItem (h : s.tablesOk) (it : Item) : (s.withdrawItem it).tablesOk := by
  unfold State.withdrawItem
  refine State.tablesOk.serve ?_
  split
  · exact h.takeOut it
  · refine (h.takeOut it).same ?_
    unfold State.refundCredit State.wakeCredit
    dsimp only
    repeat' split
    all_goals exact ⟨rfl, rfl, rfl, rfl, rfl⟩

theorem leftoverGone (h : s.tablesOk) (c : CopyId) : (s.leftoverGone c).tablesOk := by
  unfold State.leftoverGone
  split
  · next r hr =>
    split
    · exact (h.startWaiting (.repair c) ⟨r, State.repair?_mem hr⟩).serve
    · exact h
  · exact h

/-- The slot that an item serves is not NOT_WANTED, so its copy is not REPAIRING. -/
theorem ownSlotCalm (h : s.tablesOk) {it : Item} {st : Slot} (hs : s.ownSlot? it = some st) :
    (s.copy it.target).trust ≠ .repairing := by
  unfold State.ownSlot? at hs
  obtain ⟨d, hd, hd'⟩ := Option.bind_eq_some_iff.1 hs
  obtain ⟨h1, h2⟩ := Option.filter_eq_some_iff.1 hd'
  obtain ⟨h3, h4⟩ := State.collecting?_mem hd
  refine h.notRepairing h3 h4 (.inr (.inr (.inr ⟨st, h1, ?_⟩)))
  rintro rfl
  simp [Slot.tag] at h2

theorem clearSlotTag (h : s.tablesOk) (it : Item) : (s.clearSlotTag it).tablesOk := by
  unfold State.clearSlotTag
  split
  · next hs => exact h.setSlot _ _ (by simp) (h.ownSlotCalm hs)
  · exact h

theorem withdrawPurposeless (h : s.tablesOk) (it : Item) : (s.withdrawPurposeless it).tablesOk :=
  ((h.withdrawItem it).clearSlotTag it).leftoverGone _

theorem requeueFront (h : s.tablesOk) (it : Item) (n : Nat) : (s.requeueFront it n).tablesOk :=
  (h.modItem it.tag (fun i => { i with state := .queued, requeue := n, source := none })
    fun i hi _ => h.itemReels i hi).placeFront _

/-- An item replaced by one on the same copy. -/
theorem replace (h : s.tablesOk) {it : Item} (it' : Item) (ht : it'.target = it.target) (hi : it ∈ s.queue.items) :
    State.tablesOk { s with queue := { s.queue with
      items := placeLast it' (s.queue.items.filter fun i => i.tag != it.tag) } } := by
  refine h.setQueue _ (fun i hm => ?_) h.waiting
  rcases mem_placeLast hm with rfl | hm
  · rw [ht]
    exact h.itemReels it hi
  · exact h.itemReels i (List.mem_of_mem_filter hm)

theorem requeueLast (h : s.tablesOk) (it : Item) (n : Nat) (hi : it ∈ s.queue.items) : (s.requeueLast it n).tablesOk :=
  h.replace _ rfl hi

/-! ### Repair -/

theorem createRepair (h : s.tablesOk) (c : CopyId) (m : Mask) (o : RepairOrigin) (hb : (s.copy c).trust = .bad)
    (hd : s.dispute? c.seg = none) (ha : (s.activeReel? c.reel).isSome = true) (hl : s.repairs.length < 16) :
    (s.createRepair c m o).tablesOk := by
  have h1 := h.entered ⟨c, m, 1, .waitingPlace, o⟩ hb hd ha hl
  unfold State.createRepair
  dsimp only at h1 ⊢
  split
  · split
    · exact (h1.withdrawItem _).leftoverGone c
    · exact h1
  · exact h1.issueOrWait _ ⟨_, List.mem_append_right _ (List.mem_singleton.2 rfl), rfl⟩

theorem requestRepair (h : s.tablesOk) (c : CopyId) (m : Mask) (o : RepairOrigin) (hb : (s.copy c).trust = .bad)
    (hd : s.dispute? c.seg = none) (ha : (s.activeReel? c.reel).isSome = true) : (s.requestRepair c m o).tablesOk := by
  unfold State.requestRepair
  split
  · exact h.quiet (s.post_judges _)
  · split
    · exact h.quiet (s.post_judges _)
    · split
      · exact h.quiet (s.post_judges _)
      · next hl =>
        have : Config.repairsMax = 16 := rfl
        exact h.createRepair c m o hb hd ha (by omega)

/-- Internal requests for copies of one segment, which has no dispute. -/
theorem requestRepairs (h : s.tablesOk) (o : RepairOrigin) (g : SegId) (l : List (CopyId × Mask))
    (hl : ∀ p ∈ l, p.1.seg = g) (hd : s.dispute? g = none) (ha : (s.activeReel? g.reel).isSome = true) :
    (s.requestRepairs o l).tablesOk := by
  unfold State.requestRepairs
  induction l generalizing s with
  | nil => exact h
  | cons p l ih =>
    have hp := hl p (by simp)
    have hl' : ∀ q ∈ l, q.1.seg = g := fun q hq => hl q (by simp [hq])
    rw [List.foldl_cons]
    split
    · next hb =>
      have hst := s.requestRepair_steady (fun _ => True) p.1 p.2 o trivial
      refine ih (h.requestRepair p.1 p.2 o hb (hp ▸ hd) ?_) hl' (hst.dispute?_none hd) ?_
      · have : p.1.reel = g.reel := congrArg SegId.reel hp
        rw [this]
        exact ha
      · obtain ⟨f, hf⟩ := hst.reels
        have : ((s.requestRepair p.1 p.2 o).activeReel? g.reel).isSome = (s.activeReel? g.reel).isSome := by
          simp only [State.activeReel?, State.reel?, hf, List.find?_map]
          have : ((fun r : Reel => r.acc == g.reel) ∘ fun r : Reel => { r with segs := f r }) =
              fun r => r.acc == g.reel := rfl
          rw [this]
          cases s.reels.find? fun r => r.acc == g.reel with
          | none => rfl
          | some r =>
            have : Reel.isActive { r with segs := f r } = r.isActive := rfl
            simp only [Option.map_some, Option.filter_some, this]
            split <;> rfl
        rw [this]
        exact ha
    · exact ih h hl' hd ha

theorem closeRepair (h : s.tablesOk) (c : CopyId) (k : FindingKind) (b : Bool) (n : Nat) :
    (s.closeRepair c k b n).tablesOk := by
  have h1 : ((s.setTrust c .bad).removeRepair c).tablesOk :=
    h.closed (s.setTrust_judges c .bad (by decide) rfl) (s.modCopy_calm c _ fun _ hc => by cases hc)
  exact (h1.quiet (State.post_judges _ _)).quiet (State.postIfLost_judges _ _)

theorem readBackMatch (h : s.tablesOk) (c : CopyId) (r : Repair) (o : Obs) : (s.readBackMatch c r o).tablesOk := by
  have j := s.setGood_judges (W := (· = c)) c s.today rfl
  exact h.closed (j.trans (State.post_judges _ _))
    fun hr => (s.modCopy_calm c (fun r => { r with trust := .good, lastDay := s.today, deferred := false })
      fun _ hc => by cases hc) ((State.post_judges (W := (· = c)) (s.setGood c s.today) _).calm c hr)

theorem readBackMismatch (h : s.tablesOk) (c : CopyId) (r : Repair) (o : Obs) (hr : s.repair? c = some r) :
    (s.readBackMismatch c r o).tablesOk := by
  unfold State.readBackMismatch
  split
  · have hm := State.repair?_mem hr
    refine State.tablesOk.issueOrWait (h.modRepair c _ ?_) (.repair c) ⟨_, List.mem_map_of_mem hm.1, ?_⟩
    · exact fun _ => rfl
    · split <;> exact hm.2
  · have j1 := s.setTrust_judges (W := (· = c)) c .bad (by decide) rfl
    have hc : ((s.setTrust c .bad).copy c).trust ≠ .repairing := s.modCopy_calm c _ fun _ hc => by cases hc
    have j2 (f : Finding) : (s.setTrust c .bad).Judges (· = c)
        ((((s.setTrust c .bad).setExhausted c true).post f).chargeMedium c Config.weightExhausted) :=
      ((State.setExhausted_judges _ _ _).trans (State.post_judges _ _)).trans (State.chargeMedium_judges _ _ _)
    exact (h.closed (j1.trans (j2 _)) fun hr => hc ((j2 _).calm c hr)).quiet (State.postIfLost_judges _ _)

theorem readBack (h : s.tablesOk) (c : CopyId) (r : Result) (o : Obs) : (s.readBack c r o).tablesOk := by
  unfold State.readBack
  split
  · exact h
  · split
    · exact h.readBackMismatch _ _ _ (by assumption)
    · exact h.readBackMatch _ _ _

/-! ### Votes and disputes -/

/-- The end of an AGREED or UNAGREED vote of an entry that still stands. -/
theorem endVote (h : s.tablesOk) (g : SegId) (l : List (Nat × Obs)) (hd : ∃ d ∈ s.disputes, d.seg = g) :
    (s.endVote g l).tablesOk := by
  unfold State.endVote
  dsimp only
  split
  · exact h.removeDispute g
  · obtain ⟨d, hd, rfl⟩ := hd
    refine (h.removeDispute d.seg).requestRepairs .vote d.seg _ (fun p hp => ?_) (dispute?_removed s d.seg)
      (h.disputeReels d hd)
    obtain ⟨q, -, rfl⟩ := List.mem_map.1 hp
    rfl

theorem takeVote (h : s.tablesOk) (g : SegId) (e : Bool) : (s.takeVote g e).tablesOk := by
  unfold State.takeVote
  split
  · exact h
  · next d hd =>
    obtain ⟨hm, hg⟩ := State.dispute?_mem hd
    have hvotes : ∀ c, (∃ p ∈ d.votes, c = g.copy p.1) → (s.copy c).trust ≠ .repairing := by
      rintro c ⟨p, hp, rfl⟩
      exact h.notRepairing hm hg (Dispute.involves_of_votes hp)
    have hin (q : Nat × Obs → Bool) : ∀ p ∈ d.votes.filter q, ∃ p' ∈ d.votes, g.copy p.1 = g.copy p'.1 :=
      fun p hp => ⟨p, List.mem_of_mem_filter hp, rfl⟩
    have hend {t : State} (j : s.Judges (fun c => ∃ p ∈ d.votes, c = g.copy p.1) t) (l : List (Nat × Obs)) :
        (t.endVote g l).tablesOk := by
      refine (h.judged j hvotes).endVote g l ⟨d, ?_, hg⟩
      rw [j.disputes]
      exact hm
    have j0 := s.transientTest_judges (W := fun c => ∃ p ∈ d.votes, c = g.copy p.1) d (s.refDigest g)
    dsimp only
    split
    · exact hend (((j0.trans (State.judgeAllGood_judges _ g _ _ fun i hi => by
          obtain ⟨p, hp, rfl⟩ := List.mem_map.1 hi
          exact hin _ p hp)).trans (State.judgeAllBad_judges _ g _ _ (hin _))).trans (State.closeVote_judges _ _ _ _ _ _)) _
    · split
      · next dd _ =>
        unfold State.voteDisputed
        dsimp only
        have j1 := ((j0.trans (State.Judges.foldl (d.votes.filter fun p => p.2.digest == dd)
          (fun t p hp => t.setTrust_judges (g.copy p.1) .suspect (by decide) (hin _ p hp)) _)).trans
          (State.judgeAllBad_judges _ g 2 (d.votes.filter fun p => p.2.digest != dd) (hin _))).trans
          (State.post_judges _ (segFinding .referenceDisputed true (State.today (State.judgeAllBad
            ((d.votes.filter fun p => p.2.digest == dd).foldl (fun t p => t.setTrust (g.copy p.1) .suspect)
              (s.transientTest d (s.refDigest g))) g 2 (d.votes.filter fun p => p.2.digest != dd))) g (some dd)
            (d.votes.filter fun p => p.2.digest == dd).length))
        refine State.tablesOk.quiet ?_ (State.closeVote_judges _ _ _ _ _ _)
        have hcalm : ∀ p ∈ d.votes, _ := fun p hp hr => hvotes _ ⟨p, hp, rfl⟩ (j1.calm (g.copy p.1) hr)
        have h2 := h.judged j1 hvotes
        revert hcalm h2
        generalize State.post _ _ = u
        intro hcalm h2
        exact
          { h2 with
            disputesMax := by simpa [State.modDispute] using h2.disputesMax
            disputesApart := by
              refine (congrArg List.Nodup (u.modDispute_segs g _ ?_)).mpr h2.disputesApart
              exact fun _ => rfl
            involved := fun x hx i hi => by
              obtain ⟨y, hy, rfl⟩ := List.mem_map.1 hx
              split at hi
              · next hs =>
                rw [if_pos hs]
                show (u.copy (y.seg.copy i)).trust ≠ .repairing
                have hmap (q : Nat × Obs → Bool) (hi : i ∈ (d.votes.filter q).map Prod.fst) :
                    (u.copy (y.seg.copy i)).trust ≠ .repairing := by
                  obtain ⟨p, hp, rfl⟩ := List.mem_map.1 hi
                  rw [hs]
                  exact hcalm p (List.mem_of_mem_filter hp)
                rcases hi with hi | hi | hi | hi
                · exact h2.involved y hy i (.inl hi)
                · exact hmap _ hi
                · exact hmap _ hi
                · exact h2.involved y hy i (.inr (.inr (.inr hi)))
              · next hs =>
                rw [if_neg hs]
                exact h2.involved y hy i hi
            disputeReels := fun x hx => by
              obtain ⟨y, hy, rfl⟩ := List.mem_map.1 hx
              have := h2.disputeReels y hy
              split <;> exact this
            waiting := fun w hw => by
              have hw' := h2.waiting w hw
              revert hw'
              cases w.owner with
              | repair k => exact id
              | slot k =>
                rintro ⟨y, hy, hk, hx⟩
                refine ⟨_, List.mem_map_of_mem hy, ?_, ?_⟩
                · split <;> exact hk
                · split <;> exact hx }
      · exact hend ((j0.trans (State.judgeAllBad_judges _ g _ _ fun p hp => ⟨p, hp, rfl⟩)).trans
          (State.closeVote_judges _ _ _ _ _ _)) _

theorem testDecision (h : s.tablesOk) (g : SegId) : (s.testDecision g).tablesOk := by
  unfold State.testDecision
  repeat' split
  · exact h.takeVote g false
  · exact h
  · exact h

theorem serveSlot (h : s.tablesOk) (c : CopyId) : (s.serveSlot c).tablesOk := by
  unfold State.serveSlot
  split
  · next hs =>
    split
    · next it hit =>
      have hm : it ∈ s.queue.items := by
        obtain ⟨h1, -⟩ := Option.filter_eq_some_iff.1 hit
        obtain ⟨tg, -, h2⟩ := Option.bind_eq_some_iff.1 h1
        exact List.mem_of_find?_eq_some h2
      exact (h.replace (it := it) { it with kind := .confirm, cls := .urgent } rfl hm).setSlot c _ (by simp)
        (h.slotCalm hs (by simp))
    · obtain ⟨d, hd, hd'⟩ := Option.bind_eq_some_iff.1 hs
      obtain ⟨h1, h2⟩ := State.dispute?_mem hd
      exact h.issueOrWait _ ⟨d, h1, h2, _, hd', by simp⟩
  · exact h

/-- A dispute opened on a segment that has none, by a copy that is not REPAIRING. -/
theorem openDispute (h : s.tablesOk) (c : CopyId) (o : Obs) (hd : s.dispute? c.seg = none)
    (hc : (s.copy c).trust ≠ .repairing) (ha : (s.activeReel? c.reel).isSome = true) (hl : s.disputes.length < 24) :
    (s.openDispute c o).tablesOk := by
  have h1 : State.tablesOk { s with disputes := s.disputes ++
      [⟨c.seg, c.copy, .collecting s.limits.confirm, o, (s.copiesOf c.seg).map (s.startSlot c), [], []⟩] } :=
    { h with
      disputesMax := by
        simp
        omega
      disputesApart := by
        show ((s.disputes ++ [_]).map Dispute.seg).Nodup
        rw [List.map_append, List.nodup_append]
        refine ⟨h.disputesApart, by simp, fun a hm b hb hab => ?_⟩
        obtain ⟨d, hdm, rfl⟩ := List.mem_map.1 hm
        simp only [List.map_cons, List.map_nil, List.mem_singleton] at hb
        simp only [State.dispute?, List.find?_eq_none] at hd
        exact hd d hdm (by simp [hab, hb])
      involved := fun d hdm i hi => by
        rcases List.mem_append.1 hdm with hdm | hdm
        · exact h.involved d hdm i hi
        · obtain rfl := List.mem_singleton.1 hdm
          show (s.copy (c.seg.copy i)).trust ≠ .repairing
          rcases hi with hi | hi | hi | ⟨st, hst, hne⟩
          · subst hi
            exact hc
          · cases hi
          · cases hi
          · dsimp only at hst
            rw [List.getElem?_map] at hst
            obtain ⟨k, hk, rfl⟩ := Option.map_eq_some_iff.1 hst
            have hk' : k = c.seg.copy i := by
              simp only [State.copiesOf, List.getElem?_map] at hk
              obtain ⟨j, hj, rfl⟩ := Option.map_eq_some_iff.1 hk
              rw [List.getElem?_range (by simpa using (List.getElem?_eq_some_iff.1 hj).1)] at hj
              cases hj
              rfl
            subst hk'
            unfold State.startSlot at hne
            split at hne
            · next he => rw [he]; exact hc
            · intro hr
              rw [hr] at hne
              exact hne rfl
      disputeReels := fun d hdm => by
        rcases List.mem_append.1 hdm with hdm | hdm
        · exact h.disputeReels d hdm
        · obtain rfl := List.mem_singleton.1 hdm
          exact ha
      waiting := fun w hw => by
        have hw' := h.waiting w hw
        revert hw'
        cases w.owner with
        | repair k => exact id
        | slot k =>
          rintro ⟨d, hdm, hx⟩
          exact ⟨d, List.mem_append_left _ hdm, hx⟩ }
  unfold State.openDispute
  refine State.tablesOk.quiet ?_ (State.setDeferred_judges _ _ _)
  exact State.foldl_keeps (P := State.tablesOk) (fun t k ht => ht.serveSlot k) _ _ h1

theorem plain (h : s.tablesOk) (c : CopyId) (r : Result) (o : Obs) (n : Nat) (hd : s.collecting? c.seg = none)
    (ha : (s.activeReel? c.reel).isSome = true) : (s.plain c r o n).tablesOk := by
  unfold State.plain
  split
  · split
    · exact h.quiet (s.post_judges _)
    · exact h
  · next haw =>
    have hnone : s.dispute? c.seg = none := by
      cases hs : s.dispute? c.seg with
      | none => rfl
      | some d =>
        cases hp : d.phase with
        | collecting l => simp [State.collecting?, hs, Dispute.isCollecting, hp] at hd
        | awaiting dd => simp [State.awaiting?, hs, hp] at haw
    have hmis (hc : (s.copy c).trust ≠ .repairing) : (s.plainMismatch c o n).tablesOk := by
      have j : s.Judges (· = c) ((s.setTrust c .suspect).postMismatch c o n) :=
        (s.setTrust_judges (W := (· = c)) c .suspect (by decide) rfl).trans (State.post_judges _ _)
      have h1 := h.judged j (by rintro k rfl; exact hc)
      unfold State.plainMismatch
      dsimp only
      split
      · next hl =>
        refine h1.openDispute c o ?_ (fun hr => hc (j.calm c hr)) ?_ hl
        · rw [j.dispute?]
          exact hnone
        · rw [j.active]
          exact ha
      · exact (h1.quiet (State.setDeferred_judges _ _ _)).quiet (State.post_judges _ _)
    have hgood (hc : (s.copy c).trust ≠ .repairing) : (s.setGood c s.today).tablesOk :=
      h.judged (s.setGood_judges (W := (· = c)) c s.today rfl) (by rintro k rfl; exact hc)
    split
    · exact h
    · exact h
    all_goals first | exact hmis (by simp [*]) | exact hgood (by simp [*]) | skip
    · next ht =>
      split
      · exact ((hgood (by simp [*])).quiet (State.post_judges _ _)).quiet (State.chargeMedium_judges _ _ _)
      · exact h
    · exact h

theorem dealOwnItem (h : s.tablesOk) (c : CopyId) (o : Obs) (n t : Nat) (hc : (s.copy c).trust ≠ .repairing) :
    (s.dealOwnItem c o n t).tablesOk := by
  unfold State.dealOwnItem
  split
  · split
    · refine (h.withdrawItem _).setSlot c _ (by simp) ?_
      rw [((s.withdrawItem_steady (fun _ => False) _).copy c id).1]
      exact hc
    · exact h
  · exact h

theorem routeDispute (h : s.tablesOk) (d : Dispute) (c : CopyId) (o : Obs) (n : Nat) (tag : Option Nat)
    (hd : s.collecting? c.seg = some d) : (s.routeDispute d c o n tag).2.tablesOk := by
  obtain ⟨h1, h2⟩ := State.collecting?_mem hd
  have hcalm {st : Slot} (hst : d.slots[c.copy]? = some st) (hne : st ≠ .notWanted) : (s.copy c).trust ≠ .repairing :=
    h.notRepairing h1 h2 (.inr (.inr (.inr ⟨st, hst, hne⟩)))
  unfold State.routeDispute
  split
  · next hst => exact ((h.stopWaiting _).setSlot c _ (by simp) (hcalm hst (by simp))).testDecision _
  · next hst =>
    have hc := hcalm hst (by simp)
    split
    · exact (h.setSlot c _ (by simp) hc).testDecision _
    · exact ((h.setSlot c _ (by simp) hc).dealOwnItem c o n _ hc).testDecision _
  · next hst =>
    split
    · exact h.setSlot c _ (by simp) (hcalm hst (by simp))
    · exact h
  all_goals exact h

theorem expireSlot (h : s.tablesOk) (c : CopyId) : (s.expireSlot c).tablesOk := by
  unfold State.expireSlot
  split
  · next hs => exact (h.stopWaiting _).setSlot c _ (by simp) (h.slotCalm hs (by simp))
  · next hs => exact h.setSlot c _ (by simp) (h.slotCalm hs (by simp))
  · exact h

theorem expireDispute (h : s.tablesOk) (g : SegId) (d : Dispute) : (s.expireDispute g d).tablesOk := by
  unfold State.expireDispute
  dsimp only
  refine (State.tablesOk.takeVote ?_ g true).same (State.wakeRoom_sameTables _)
  refine State.foldl_keeps (P := State.tablesOk) (fun t it ht => ht.withdrawItem it) _ _ ?_
  exact State.foldl_keeps (P := State.tablesOk) (fun t c ht => ht.expireSlot c) _ _ h

theorem adopt (h : s.tablesOk) (g : SegId) (d : Dispute) (dd : Digest) (hd : s.dispute? g = some d) :
    (s.adopt g d dd).tablesOk := by
  obtain ⟨h1, h2⟩ := State.dispute?_mem hd
  have j : s.Judges (fun c => ∃ i ∈ d.agreeing, c = g.copy i) _ :=
    ((s.modSeg_judges g (fun r => { r with reference := some ⟨dd, .adopted⟩, frameList := none }) fun _ => rfl).trans
      (State.judgeAllGood_judges _ g (State.today (s.modSeg g fun r =>
        { r with reference := some ⟨dd, .adopted⟩, frameList := none })) d.agreeing fun i hi => ⟨i, hi, rfl⟩)).trans
      (State.post_judges _ (segFinding .voteDecided false (State.today (State.judgeAllGood
        (s.modSeg g fun r => { r with reference := some ⟨dd, .adopted⟩, frameList := none }) g
        (State.today (s.modSeg g fun r => { r with reference := some ⟨dd, .adopted⟩, frameList := none })) d.agreeing)) g
        (some dd) 4))
  have h3 := h.judged j (by
    rintro c ⟨i, hi, rfl⟩
    exact h.notRepairing h1 h2 (.inr (.inl hi)))
  unfold State.adopt
  dsimp only
  refine (h3.removeDispute g).requestRepairs .adopt g _ (fun p hp => ?_) (dispute?_removed _ g) ?_
  · obtain ⟨i, -, rfl⟩ := List.mem_map.1 hp
    rfl
  · show (State.activeReel? _ _).isSome = true
    have := h.disputeReels d h1
    rw [h2, ← j.active] at this
    exact this

theorem reject (h : s.tablesOk) (g : SegId) (d : Dispute) (hd : s.dispute? g = some d) : (s.reject g d).tablesOk := by
  obtain ⟨h1, h2⟩ := State.dispute?_mem hd
  unfold State.reject
  dsimp only
  have j (f : Finding) : s.Judges (fun c => ∃ p ∈ d.votes, c = g.copy p.1)
      (((s.judgeAllBad g 5 (d.votes.filter fun p => d.agreeing.contains p.1)).post f).postIfLost g) :=
    ((s.judgeAllBad_judges g 5 _ fun p hp => ⟨p, List.mem_of_mem_filter hp, rfl⟩).trans (State.post_judges _ _)).trans
      (State.postIfLost_judges _ _)
  have h3 (f : Finding) := h.judged (j f) (by
    rintro c ⟨p, hp, rfl⟩
    exact h.notRepairing h1 h2 (Dispute.involves_of_votes hp))
  split
  · exact (h3 _).removeDispute g
  · refine ((h3 _).removeDispute g).requestRepairs .reject g _ (fun p hp => ?_) (dispute?_removed _ g) ?_
    · obtain ⟨q, -, rfl⟩ := List.mem_map.1 hp
      rfl
    · show (State.activeReel? _ _).isSome = true
      have := h.disputeReels d h1
      rw [h2, ← (j _).active] at this
      exact this

/-! ### Items that come back or leave -/

theorem ownerLost (h : s.tablesOk) (it : Item) (n : Nat) : (s.ownerLost it n).tablesOk := by
  have hrest : (match s.ownSlot? it with
      | some (.issued _) => (s.setSlot it.target .unread).testDecision it.target.seg
      | some (.observed _ _ _) => s.clearSlotTag it
      | _ => s.leftoverGone it.target).tablesOk := by
    split
    · next hs => exact (h.setSlot _ _ (by simp) (h.ownSlotCalm hs)).testDecision _
    · exact h.clearSlotTag it
    · exact h.leftoverGone _
  unfold State.ownerLost
  split
  · exact h.closeRepair _ _ _ _
  · exact hrest
  · exact hrest

theorem abandonItem (h : s.tablesOk) (it : Item) (n : Nat) : (s.abandonItem it n).tablesOk :=
  ((h.withdrawItem it).quiet (State.post_judges _ _)).ownerLost it 4

theorem returnFront (h : s.tablesOk) (it : Item) (n : Nat) : (s.returnFront it n).tablesOk := by
  unfold State.returnFront
  repeat' split
  · exact h.withdrawPurposeless it
  · exact h.requeueFront it _
  · exact h.abandonItem it n

theorem returnRetry (h : s.tablesOk) (it : Item) (hi : it ∈ s.queue.items) : (s.returnRetry it).tablesOk := by
  unfold State.returnRetry
  repeat' split
  · exact h.withdrawPurposeless it
  · exact h.requeueLast it _ hi
  · exact h.abandonItem it 2

theorem returnUnreadable (h : s.tablesOk) (it : Item) : (s.returnUnreadable it).tablesOk :=
  ((h.withdrawItem it).quiet (State.chargeMedium_judges _ _ _)).ownerLost it 3

theorem claimFail (h : s.tablesOk) (it : Item) (v : Verdict) : (s.claimFail it v).tablesOk := by
  unfold State.claimFail
  dsimp only
  split
  · exact (h.withdrawItem it).closeRepair _ _ _ _
  · exact (h.withdrawItem it).closeRepair _ _ _ _
  · exact (h.withdrawItem it).ownerLost _ _
  · exact (h.withdrawItem it).ownerLost _ _

theorem claimWalk (k : Head) (n : Nat) {s : State} (h : s.tablesOk) : (State.claimWalk k n s).1.tablesOk := by
  induction n generalizing s with
  | zero => exact h
  | succ n ih =>
    unfold State.claimWalk
    split
    · exact h
    · next it hit =>
      split
      · exact h.modItem _ _ fun _ _ _ => h.itemReels it (List.mem_of_find?_eq_some hit)
      · exact ih (h.claimFail _ _)

theorem returnHeld (h : s.tablesOk) (it : Item) : (s.returnHeld it).tablesOk := by
  unfold State.returnHeld
  split
  · exact h.withdrawPurposeless it
  · exact h.modItem _ _ fun i hi _ => h.itemReels i hi

/-! ### Lanes and reels -/

theorem setLane (h : s.tablesOk) (n : Nat) (x : Option LaneCtx)
    (hx : ∀ l, x = some l → (s.activeReel? l.target.reel).isSome = true) : (s.setLane n x).tablesOk :=
  { h with
    laneReels := fun m l hl => by
      have : (s.setLane n x).lane m = if n = m ∧ m < 12 then x else s.lane m := by
        simp only [State.lane, State.setLane, Vector.getElem?_setIfInBounds]
        by_cases hnm : n = m
        · subst hnm
          by_cases hb : n < 12 <;> simp [hb]
        · simp [hnm]
      rw [this] at hl
      split at hl
      · exact hx l hl
      · exact h.laneReels m l hl }

/-- The reels change so that a copy of another reel than one that nothing refers to reads as before. -/
theorem reelsChanged (h : s.tablesOk) {t : State} (hacc : (t.reels.map Reel.acc).Nodup)
    (hl : t.lanes = s.lanes) (hd : t.disputes = s.disputes)
    (hr : t.repairs = s.repairs) (hq : t.queue = s.queue)
    (ha : ∀ a, (s.activeReel? a).isSome = true →
      ((∃ n l, s.lane n = some l ∧ l.target.reel = a) ∨ (∃ i ∈ s.queue.items, i.target.reel = a) ∨
        (∃ d ∈ s.disputes, d.seg.reel = a) ∨ ∃ r ∈ s.repairs, r.target.reel = a) → (t.activeReel? a).isSome = true)
    (hc : ∀ c, (t.copy c).trust = .repairing → (s.copy c).trust = .repairing)
    (hc' : ∀ c, (s.activeReel? c.reel).isSome = true → (∃ r ∈ s.repairs, r.target = c) → (t.copy c).trust = .repairing) :
    t.tablesOk where
  reelsApart := hacc
  disputesMax := hd ▸ h.disputesMax
  disputesApart := hd ▸ h.disputesApart
  repairsMax := hr ▸ h.repairsMax
  repairsApart := hr ▸ h.repairsApart
  repairing c := by
    rw [hr]
    refine ⟨fun ht => (h.repairing c).1 (hc c ht), fun hx => hc' c ?_ hx⟩
    obtain ⟨r, hm, rfl⟩ := hx
    exact h.repairReels r hm
  involved d hdm i hi ht := h.involved d (hd ▸ hdm) i hi (hc _ ht)
  laneReels n l hn := by
    have hn' : s.lane n = some l := by
      rw [← hn]
      simp only [State.lane, hl]
    exact ha _ (h.laneReels n l hn') (.inl ⟨n, l, hn', rfl⟩)
  itemReels i hi := by
    rw [hq] at hi
    exact ha _ (h.itemReels i hi) (.inr (.inl ⟨i, hi, rfl⟩))
  disputeReels d hdm := by
    rw [hd] at hdm
    exact ha _ (h.disputeReels d hdm) (.inr (.inr (.inl ⟨d, hdm, rfl⟩)))
  repairReels r hm := by
    rw [hr] at hm
    exact ha _ (h.repairReels r hm) (.inr (.inr (.inr ⟨r, hm, rfl⟩)))
  waiting w hw := by
    have hw' := h.waiting w (hq ▸ hw)
    revert hw'
    cases w.owner <;> simp only [State.ownerStands, hd, hr] <;> exact id

end State.tablesOk

/-! ### Orders on reels and lanes -/

/-- A copy of a reel that is not there has the record of registration. -/
theorem State.copy_noReel {s : State} {c : CopyId} (h : s.reel? c.reel = none) : s.copy c = CopyRec.initial := by
  simp [State.copy, State.seg, CopyId.seg, h, SegRec.initial]

/-- A copy of a reel with no changed segment record has the record of registration. -/
theorem State.copy_fresh {s : State} {c : CopyId} {r : Reel} (h : s.reel? c.reel = some r) (hs : r.segs = []) :
    s.copy c = CopyRec.initial := by
  simp only [State.copy, State.seg, CopyId.seg, h, Option.map_some, Option.getD_some, Reel.seg, hs, Sparse.find?,
    Option.getD_none, SegRec.initial]
  cases hg : (List.replicate r.copyCount CopyRec.initial)[c.copy]? with
  | none => rfl
  | some x => exact List.eq_of_mem_replicate (List.mem_of_getElem? hg)

/-- A copy reads the same where its reel does. -/
theorem State.copy_congr {s t : State} {c : CopyId} (h : t.reel? c.reel = s.reel? c.reel) : t.copy c = s.copy c := by
  simp only [State.copy, State.seg, CopyId.seg, h]

theorem State.activeReel?_congr {s t : State} {a : Nat} (h : t.reel? a = s.reel? a) : t.activeReel? a = s.activeReel? a := by
  simp only [State.activeReel?, h]

/-- Where an accession id has one reel, dropping other reels leaves it. -/
theorem State.reel?_filter {s : State} (hs : (s.reels.map Reel.acc).Nodup) (p : Reel → Bool) (a : Nat) :
    State.reel? { s with reels := s.reels.filter p } a = (s.reel? a).filter p := by
  have key (l : List Reel) (hl : (l.map Reel.acc).Nodup) :
      (l.filter p).find? (fun r => r.acc == a) = (l.find? fun r => r.acc == a).filter p := by
    induction l with
    | nil => rfl
    | cons r l ih =>
      rw [List.map_cons, List.nodup_cons] at hl
      by_cases hr : r.acc = a
      · have hnone : (l.filter p).find? (fun r => r.acc == a) = none := by
          rw [List.find?_eq_none]
          intro q hq hqa
          exact hl.1 (hr ▸ (by simpa using hqa : q.acc = a) ▸ List.mem_map_of_mem (List.mem_of_mem_filter hq))
        by_cases hp : p r <;> simp [hp, hr, hnone, Option.filter]
      · by_cases hp : p r <;> simp [hp, hr, ih hl.2]
  exact key s.reels hs

theorem checkSeg_active {s : State} {g : SegId} {r : Reel} (h : s.checkSeg g = .ok r) :
    s.activeReel? g.reel = some r := by
  unfold State.checkSeg at h
  repeat' split at h
  all_goals first | cases h; assumption | cases h

theorem checkCopy_active {s : State} {c : CopyId} {r : Reel} (h : s.checkCopy c = .ok r) :
    (s.activeReel? c.reel).isSome = true := by
  unfold State.checkCopy at h
  repeat' split at h
  all_goals first | (cases h; done) | skip
  all_goals
    have := checkSeg_active (by assumption)
    exact Option.isSome_iff_exists.2 ⟨_, this⟩

theorem State.refersTo_false {s : State} {p : SegId → Bool} (h : s.refersTo p = false) :
    (∀ n l, s.lane n = some l → p l.target.seg = false) ∧ (∀ i ∈ s.queue.items, p i.target.seg = false) ∧
      (∀ d ∈ s.disputes, p d.seg = false) ∧ ∀ r ∈ s.repairs, p r.target.seg = false := by
  unfold State.refersTo at h
  simp only [Bool.or_eq_false_iff, List.any_eq_false, Bool.not_eq_true] at h
  obtain ⟨⟨⟨h1, h2⟩, h3⟩, h4⟩ := h
  refine ⟨fun n l hl => ?_, h2, h3, h4⟩
  have hm : some l ∈ s.lanes.toList := by
    unfold State.lane at hl
    cases hx : s.lanes[n]? with
    | none => simp [hx] at hl
    | some x =>
      simp only [hx, Option.getD_some] at hl
      subst hl
      exact Vector.mem_toList_iff.2 (Vector.mem_of_getElem? hx)
  simpa using h1 _ hm

namespace State.tablesOk

variable {s : State}

theorem reelAdd (h : s.tablesOk) (k : Head) (tag : Half) (body : List Byte) :
    (Machine.reelAdd k tag body s).state.tablesOk := by
  unfold Machine.reelAdd
  dsimp only
  split
  · exact h
  · split
    · exact h
    · split
      · exact h
      · next hr =>
        split
        · exact h
        · split
          · exact h
          · next start _ =>
            generalize hq : ({ reelOperand k tag body with firstIndex := start } : Reel) = q
            have hacc : q.acc = (reelOperand k tag body).acc := by rw [← hq]
            have hsegs : q.segs = [] := by rw [← hq]; rfl
            have hnone : s.reel? q.acc = none := by
              rw [hacc]
              simpa using hr
            have hfind (a : Nat) : State.reel? { s with reels := s.reels ++ [q] } a =
                if a = q.acc then some q else s.reel? a := by
              unfold State.reel?
              rw [List.find?_append]
              split
              · next ha =>
                subst ha
                have : s.reels.find? (fun r => r.acc == q.acc) = none := hnone
                simp [this]
              · next ha => simp [Ne.symm ha]
            refine h.reelsChanged (t := { s with reels := s.reels ++ [q] }) ?_ rfl rfl rfl rfl (fun a ha _ => ?_)
              (fun c hc => ?_) fun c ha hc => ?_
            · rw [List.map_append, List.nodup_append]
              refine ⟨h.reelsApart, by simp, fun a hm b hb hab => ?_⟩
              obtain ⟨r, hrm, rfl⟩ := List.mem_map.1 hm
              simp only [List.map_cons, List.map_nil, List.mem_singleton] at hb
              unfold State.reel? at hnone
              rw [List.find?_eq_none] at hnone
              exact hnone r hrm (by simp [hab, hb])
            · have hne : a ≠ q.acc := by
                rintro rfl
                simp [State.activeReel?, hnone] at ha
              rw [State.activeReel?_congr (s := s)]
              · exact ha
              · rw [hfind, if_neg hne]
            · by_cases hca : c.reel = q.acc
              · rw [State.copy_fresh (c := c) (r := q) (by rw [hfind, if_pos hca]) hsegs] at hc
                cases hc
              · rwa [State.copy_congr (s := s) (by rw [hfind, if_neg hca])] at hc
            · have hne : c.reel ≠ q.acc := by
                intro he
                simp [State.activeReel?, he, hnone] at ha
              rw [State.copy_congr (s := s) (by rw [hfind, if_neg hne])]
              exact (h.repairing c).2 hc

theorem activate (h : s.tablesOk) {acc : Nat} {r : Reel} {k : Head} {tag : Half} (hr : s.reel? acc = some r)
    (hs : r.state = .adding k tag) : (s.activate r).tablesOk := by
  have hacc := State.reel?_acc hr
  have hinactive : s.activeReel? r.acc = none := by
    rw [hacc]
    simp [State.activeReel?, hr, Reel.isActive, hs]
  have hcomp (a : Nat) : ((fun q : Reel => q.acc == a) ∘ fun q : Reel =>
      if q.acc = r.acc then { q with state := .active, segs := [] } else q) = fun q => q.acc == a := by
    funext q
    simp only [Function.comp_apply]
    split <;> rfl
  have hfind (a : Nat) : (s.activate r).reel? a =
      (s.reel? a).map fun q => if q.acc = r.acc then { q with state := .active, segs := [] } else q := by
    simp only [State.reel?, State.activate, State.countCopies, List.find?_map, hcomp]
  have hother (a : Nat) (ha : a ≠ r.acc) : (s.activate r).reel? a = s.reel? a := by
    rw [hfind]
    cases hx : s.reel? a with
    | none => rfl
    | some q =>
      have := State.reel?_acc hx
      rw [Option.map_some, if_neg (by rw [this]; exact ha)]
  refine h.reelsChanged (t := s.activate r) ?_ rfl rfl rfl rfl (fun a ha _ => ?_) (fun c hc => ?_) fun c ha hc => ?_
  · have : (s.activate r).reels.map Reel.acc = s.reels.map Reel.acc := by
      simp only [State.activate, State.countCopies, List.map_map]
      refine List.map_congr_left fun q _ => ?_
      simp only [Function.comp_apply]
      split <;> rfl
    rw [this]
    exact h.reelsApart
  · rw [State.activeReel?_congr (s := s)]
    · exact ha
    · refine hother a ?_
      rintro rfl
      simp [hinactive] at ha
  · by_cases hca : c.reel = r.acc
    · cases hx : (s.activate r).reel? c.reel with
      | none =>
        rw [State.copy_noReel hx] at hc
        cases hc
      | some q =>
        rw [State.copy_fresh hx] at hc
        · cases hc
        · rw [hfind] at hx
          obtain ⟨q', hq', rfl⟩ := Option.map_eq_some_iff.1 hx
          rw [if_pos (by rw [State.reel?_acc hq', hca])]
    · rwa [State.copy_congr (hother _ hca)] at hc
  · have hne : c.reel ≠ r.acc := by
      intro he
      simp [he, hinactive] at ha
    rw [State.copy_congr (hother _ hne)]
    exact (h.repairing c).2 hc

/-- Dropping reels that nothing refers to. -/
theorem dropReels (h : s.tablesOk) (p : Reel → Bool)
    (hp : ∀ a r, s.reel? a = some r → r.isActive = true →
      ((∃ n l, s.lane n = some l ∧ l.target.reel = a) ∨ (∃ i ∈ s.queue.items, i.target.reel = a) ∨
        (∃ d ∈ s.disputes, d.seg.reel = a) ∨ ∃ r ∈ s.repairs, r.target.reel = a) → p r = true) :
    State.tablesOk { s with reels := s.reels.filter p } := by
  have hf := State.reel?_filter h.reelsApart p
  have hact (a : Nat) (ha : (s.activeReel? a).isSome = true) : ∃ r, s.reel? a = some r ∧ r.isActive = true := by
    obtain ⟨r, hr⟩ := Option.isSome_iff_exists.1 ha
    exact ⟨r, Option.filter_eq_some_iff.1 hr⟩
  refine h.reelsChanged (h.reelsApart.sublist (List.Sublist.map _ List.filter_sublist)) rfl rfl rfl rfl
    (fun a ha hx => ?_) (fun c hc => ?_) fun c ha hc => ?_
  · obtain ⟨r, hr, hra⟩ := hact a ha
    rw [State.activeReel?_congr (s := s)]
    · exact ha
    · rw [hf, hr, Option.filter_some, if_pos (hp a r hr hra hx)]
  · cases hx : s.reel? c.reel with
    | none =>
      rw [State.copy_noReel (by rw [hf, hx]; rfl)] at hc
      cases hc
    | some r =>
      by_cases hpr : p r = true
      · rwa [State.copy_congr (s := s) (by rw [hf, hx, Option.filter_some, if_pos hpr])] at hc
      · rw [State.copy_noReel (by rw [hf, hx, Option.filter_some, if_neg hpr])] at hc
        cases hc
  · obtain ⟨r, hr, hra⟩ := hact c.reel ha
    obtain ⟨q, hq, hqc⟩ := hc
    have hpr := hp c.reel r hr hra (.inr (.inr (.inr ⟨q, hq, by rw [hqc]⟩)))
    rw [State.copy_congr (s := s) (by rw [hf, hr, Option.filter_some, if_pos hpr])]
    exact (h.repairing c).2 ⟨q, hq, hqc⟩

theorem reelRemove (h : s.tablesOk) (body : List Byte) : (Machine.reelRemove body s).state.tablesOk := by
  unfold Machine.reelRemove
  dsimp only
  split
  · exact h
  · split
    · exact h
    · next r hr href =>
      obtain ⟨h1, h2, h3, h4⟩ := State.refersTo_false (Bool.eq_false_iff.2 href)
      have hd : State.tablesOk { s with reels := s.reels.filter fun q => q.acc != leAt body 0 6 } := by
        refine h.dropReels _ fun a q hq _ hx => ?_
        have hacc := State.reel?_acc hq
        simp only [decide_eq_false_iff_not] at h1 h2 h3 h4
        rw [bne_iff_ne, hacc]
        rcases hx with ⟨n, l, hl, rfl⟩ | ⟨i, hi, rfl⟩ | ⟨d, hdm, rfl⟩ | ⟨r, hr, rfl⟩
        · exact h1 n l hl
        · exact h2 i hi
        · exact h3 d hdm
        · exact h4 r hr
      exact hd.same ⟨rfl, rfl, rfl, rfl, rfl⟩

theorem abandonOperations (h : s.tablesOk) (k : Head) : (s.abandonOperations k).tablesOk := by
  rw [State.abandonOperations_eq]
  have hd : State.tablesOk { s with reels := s.reels.filter (notAddedBy k) } := by
    refine h.dropReels _ fun a r _ hr _ => ?_
    unfold notAddedBy
    unfold Reel.isActive at hr
    revert hr
    cases r.state with
    | active => exact fun _ => rfl
    | adding _ _ => exact fun hr => by cases hr
  exact hd.same ⟨rfl, rfl, rfl, rfl, rfl⟩

theorem referenceLoad (h : s.tablesOk) (body : List Byte) : (Machine.referenceLoad body s).state.tablesOk := by
  unfold Machine.referenceLoad
  dsimp only
  split
  · exact h
  · split
    · exact h
    · split
      · exact h
      · split
        · exact h.quiet (s.modSeg_judges _ _ fun _ => rfl)
        · split
          · exact h
          · split
            · exact h
            · next href =>
              obtain ⟨-, -, h3, h4⟩ := State.refersTo_false (Bool.eq_false_iff.2 href)
              generalize segOperand body = g at *
              generalize BitVec.ofNat 64 (leAt body 8 8) = d
              generalize (if leAt body 17 1 = 0 then none else some (digestsAt body 24 (leAt body 17 1))) = list
              rw [Applied.state_answered]
              have hother (c : CopyId) (hc : c.seg ≠ g) :
                  (s.modSeg g (SegRec.replaceReference d list)).copy c = s.copy c := by
                simp only [State.copy, State.seg_modSeg_other s _ hc]
              have hself (c : CopyId) (hc : c.seg = g) :
                  ((s.modSeg g (SegRec.replaceReference d list)).copy c).trust ≠ .repairing := by
                subst hc
                cases hr : s.reel? c.seg.reel with
                | none =>
                  rw [State.copy_noReel]
                  · decide
                  · show State.reel? _ c.seg.reel = none
                    rw [State.reel?_modSeg, hr]
                    rfl
                | some r =>
                  simp only [State.copy, State.seg_modSeg s _ hr, SegRec.replaceReference, List.getElem?_map]
                  cases (s.seg c.seg).copies[c.copy]? with
                  | none => decide
                  | some x => simp
              refine h.reelsChanged ((s.modSeg_accs _ _).symm ▸ h.reelsApart) rfl rfl rfl rfl
                (fun a ha _ => (s.activeReel?_modSeg _ _ _).trans ha) (fun c hc => ?_) fun c ha hc => ?_
              · by_cases hcg : c.seg = g
                · exact absurd hc (hself c hcg)
                · rwa [hother c hcg] at hc
              · have hcg : c.seg ≠ g := by
                  obtain ⟨r, hr, rfl⟩ := hc
                  simpa using h4 r hr
                rw [hother c hcg]
                exact (h.repairing c).2 hc

theorem openLane (h : s.tablesOk) (k : Head) (p : Purpose) (it : Option Item) (c : CopyId) (r : Reel)
    (hc : (s.activeReel? c.reel).isSome = true) : (s.openLane k p it c r).state.tablesOk := by
  unfold State.openLane
  split
  · exact h
  · split
    · next n _ _ i =>
      have hm := h.modItem i.tag (fun j => { j with state := .bound n, everBound := true }) fun j hj _ => h.itemReels j hj
      refine hm.setLane _ _ fun l hl => ?_
      cases hl
      exact hc
    · refine h.setLane _ _ fun l hl => ?_
      cases hl
      exact hc

theorem laneOpen (h : s.tablesOk) (k : Head) (body : List Byte) : (Machine.laneOpen k body s).state.tablesOk := by
  unfold Machine.laneOpen
  split
  · exact h
  · unfold laneOpenItem
    split
    · exact h
    · next it hit =>
      have hm : it ∈ s.queue.items := List.mem_of_find?_eq_some hit
      repeat' split
      all_goals first | exact h | exact h.openLane _ _ _ _ _ (h.itemReels it hm)
  · unfold laneOpenCopy
    split
    · exact h
    · next hck =>
      split
      · exact h
      · exact h.openLane _ _ _ _ _ (checkCopy_active hck)

theorem route (h : s.tablesOk) (n : Nat) (l : LaneCtx) (it : Option Item) (r : Result) (o : Obs)
    (ha : (s.activeReel? l.target.reel).isSome = true) : (s.route n l it r o).2.tablesOk := by
  unfold State.route
  split
  · exact h.readBack _ _ _
  · split
    · next d hd => exact h.routeDispute d _ _ _ _ hd
    · next hd => exact h.plain _ _ _ _ hd ha

theorem repairRequest (h : s.tablesOk) (body : List Byte) : (Machine.repairRequest body s).state.tablesOk := by
  unfold Machine.repairRequest
  dsimp only
  split
  · exact h
  · next r hck =>
    split
    · exact h
    · next hd =>
      split
      · exact h
      · next hb =>
        iterate 2 (split; exact h)
        split
        · exact h
        · next hl =>
          rw [Applied.state_answered]
          generalize (segOperand body).copy (leAt body 8 1) = c at *
          have j := s.setExhausted_judges (W := fun _ => False) c false
          have hbad : ((s.setExhausted c false).copy c).trust = .bad := by
            have hb : (s.copy c).trust = .bad := by simpa using hb
            rcases s.copy_modCopy_or c (fun r => { r with exhausted := false }) with he | he
            · exact (congrArg CopyRec.trust he).trans hb
            · exact (congrArg CopyRec.trust he).trans hb
          have : Config.repairsMax = 16 := rfl
          refine State.tablesOk.same (State.tablesOk.createRepair (h.quiet j) c _ .head hbad ?_ ?_ ?_)
            (State.wakeRoom_sameTables _)
          · rw [j.dispute?]
            simpa using hd
          · rw [j.active]
            exact checkCopy_active hck
          · show s.repairs.length < 16
            omega

/-- What `exec_keeps` asks, for the tables. -/
theorem keeper : Keeper State.tablesOk where
  frame k h := h.same k
  setLane s n l k hk hl h := h.setLane n _ fun x hx => by
    cases hx
    rw [hl]
    exact h.laneReels n k hk
  freeLane s n h := h.setLane n none fun _ hx => by cases hx
  laneOpen k body s h := h.laneOpen k body
  reelAdd k tag body s h := h.reelAdd k tag body
  activate s acc r k tag hr hs h := h.activate hr hs
  reelRemove body s h := h.reelRemove body
  referenceLoad body s h := h.referenceLoad body
  abandonOperations s k h := h.abandonOperations k
  learn s g d frames h := h.quiet (s.modSeg_judges g _ fun _ => rfl)
  removeItem s it h := h.removeItem it
  withdrawItem s it h := h.withdrawItem it
  leftoverGone s c h := h.leftoverGone c
  returnFront s it cause h := h.returnFront it cause
  returnRetry s it hi h := h.returnRetry it hi
  returnUnreadable s it h := h.returnUnreadable it
  returnHeld s it h := h.returnHeld it
  placeFront s p h := h.placeFront p
  claimWalk k n s h := State.tablesOk.claimWalk k n h
  createScrub s cls c hc _ h := h.createItem .scrub cls c 0#64 hc
  route s n l k it r o hk hl h := h.route n l it r o (by rw [hl]; exact h.laneReels n k hk)
  expireDispute s g d _ h := h.expireDispute g d
  disputeAdopt body s h := by
    unfold disputeAdopt
    dsimp only
    split
    · exact h
    · split
      · exact h
      · next d dd haw =>
        obtain ⟨e, he, hed⟩ := Option.bind_eq_some_iff.1 haw
        have : e = d := by
          split at hed <;> cases hed
          rfl
        subst this
        exact (h.adopt _ e dd he).same (State.wakeRoom_sameTables _)
  disputeReject body s h := by
    unfold disputeReject
    dsimp only
    split
    · exact h
    · split
      · exact h
      · next d dd haw =>
        obtain ⟨e, he, hed⟩ := Option.bind_eq_some_iff.1 haw
        have : e = d := by
          split at hed <;> cases hed
          rfl
        subst this
        exact (h.reject _ e he).same (State.wakeRoom_sameTables _)
  repairRequest body s h := h.repairRequest body

end State.tablesOk

end Sys2Proof.Machine
end

