-- ==== Sys2Proof/Laws/Claims.lean ====
section
/-! SUPPORT. Laws/Claims.lean: the claim's walk comes to its end. `State.claimLoad` is a number that every item turned away
makes smaller, and that the walk's bound exceeds; so the walk goes past every item that fails its checks. -/

namespace Sys2Proof.Machine

/-! ### The load -/

/-- A repair entry waits for a leftover item, and not yet for a place (R97). -/
def Repair.isHeld (waiters : List Waiter) (r : Repair) : Bool :=
  r.state == .waitingPlace && !waiters.any fun w => w.owner == .repair r.target

/-- What a claim's walk can still meet: the items, the owners that wait, the repair entries that wait for a leftover item,
and twice the slots of the disputes. -/
def State.claimLoad (s : State) : Nat :=
  s.queue.items.length + s.queue.waiters.length + s.repairs.countP (Repair.isHeld s.queue.waiters) +
    2 * (s.disputes.map fun d => d.slots.length).sum

theorem State.claimLoad_lt (s : State) : s.claimLoad < s.claimBound := by
  have := List.countP_le_length (p := Repair.isHeld s.queue.waiters) (l := s.repairs)
  unfold claimLoad claimBound
  omega

theorem State.claimLoad_same {s t : State} (hq : t.queue = s.queue) (hr : t.repairs = s.repairs)
    (hd : t.disputes = s.disputes) : t.claimLoad = s.claimLoad := by
  unfold claimLoad
  rw [hq, hr, hd]

theorem Repair.held_mono {p q : List Waiter} {l : List Repair} {f : Repair → Repair}
    (h : ∀ r, (f r).isHeld p = true → r.isHeld q = true) :
    (l.map f).countP (Repair.isHeld p) ≤ l.countP (Repair.isHeld q) := by
  rw [List.countP_map]
  exact List.countP_mono_left fun r _ hr => h r hr

theorem countP_lt_of_mem {α : Type} {p q : α → Bool} {l : List α} (h : ∀ a, p a = true → q a = true) {a : α}
    (ha : a ∈ l) (hq : q a = true) (hp : p a = false) : l.countP p < l.countP q := by
  induction l with
  | nil => cases ha
  | cons b l ih =>
    have hle : l.countP p ≤ l.countP q := List.countP_mono_left fun x _ hx => h x hx
    rcases List.mem_cons.1 ha with rfl | ha
    · rw [List.countP_cons_of_neg (by simp [hp]), List.countP_cons_of_pos hq]
      omega
    · have := ih ha
      simp only [List.countP_cons]
      have hb := h b
      cases hpb : p b <;> cases hqb : q b <;> simp_all

/-! ### Places and waiting owners -/

theorem State.setSlot_load (s : State) (c : CopyId) (st : Slot) : (s.setSlot c st).claimLoad = s.claimLoad := by
  have h : (s.setSlot c st).disputes.map (fun d => d.slots.length) = s.disputes.map fun d => d.slots.length := by
    change (s.disputes.map _).map _ = _
    rw [List.map_map]
    refine List.map_congr_left fun d _ => ?_
    dsimp only [Function.comp]
    split <;> simp
  unfold claimLoad
  rw [h]
  rfl

theorem State.createItem_load (s : State) (k : ItemKind) (cls : ItemClass) (c : CopyId) (m : Mask) :
    (s.createItem k cls c m).claimLoad = s.claimLoad + 1 := by
  have h (it : Item) (l : List Item) : (placeLast it l).length = l.length + 1 := by
    unfold placeLast
    have : (l.filter fun i => decide (it.cls.rank < i.cls.rank)) =
        l.filter fun i => !decide (i.cls.rank ≤ it.cls.rank) := by
      refine List.filter_congr fun i _ => ?_
      by_cases hr : i.cls.rank ≤ it.cls.rank
      · simp [hr]
      · simp [hr, Nat.lt_of_not_le hr]
    rw [List.length_append, List.length_cons, this]
    have := List.length_eq_length_filter_add (l := l) fun i => decide (i.cls.rank ≤ it.cls.rank)
    omega
  change (placeLast _ s.queue.items).length + s.queue.waiters.length + s.repairs.countP (Repair.isHeld s.queue.waiters) +
    2 * (s.disputes.map fun d => d.slots.length).sum = _
  rw [h]
  unfold claimLoad
  omega

/-- An owner's item, with the waiting list cut to `ws`: at most one place more than the rest. -/
theorem State.issue_load (s : State) (o : Owner) (ws : List Waiter) {q : List Waiter}
    (h : ∀ r : Repair, o ≠ .repair r.target → r.isHeld ws = true → r.isHeld q = true) :
    (({ s with queue := { s.queue with waiters := ws } }).issue o).claimLoad ≤
      s.queue.items.length + 1 + ws.length + s.repairs.countP (Repair.isHeld q) +
        2 * (s.disputes.map fun d => d.slots.length).sum := by
  cases o with
  | slot c =>
    change (State.setSlot _ _ _).claimLoad ≤ _
    rw [setSlot_load, createItem_load]
    have : s.repairs.countP (Repair.isHeld ws) ≤ s.repairs.countP (Repair.isHeld q) :=
      List.countP_mono_left fun r _ hr => h r (by simp) hr
    unfold claimLoad
    dsimp only
    omega
  | repair c =>
    have hi := createItem_load { s with queue := { s.queue with waiters := ws } } .repair .urgent c
      ((({ s with queue := { s.queue with waiters := ws } } : State).repair? c).map Repair.mask |>.getD 0#64)
    revert hi
    unfold State.issue
    dsimp only
    generalize ht : State.createItem _ .repair .urgent c _ = t
    intro hi
    have hw : t.queue.waiters = ws := by rw [← ht]; rfl
    have hr : t.repairs = s.repairs := by rw [← ht]; rfl
    have hd : t.disputes = s.disputes := by rw [← ht]; rfl
    have hl : t.queue.items.length = s.queue.items.length + 1 := by
      unfold claimLoad at hi
      rw [hw, hr, hd] at hi
      dsimp only at hi
      omega
    change t.queue.items.length + t.queue.waiters.length +
      (t.repairs.map _).countP (Repair.isHeld t.queue.waiters) +
        2 * (t.disputes.map fun d => d.slots.length).sum ≤ _
    rw [hw, hr, hd, hl]
    have := Repair.held_mono (p := ws) (q := q) (l := s.repairs)
      (f := fun r => if r.target = c then { r with state := .issued s.queue.nextTag } else r) (by
        intro r hr
        split at hr
        · simp [Repair.isHeld] at hr
        · next hne => exact h r (fun he => hne (Owner.repair.inj he).symm) hr)
    exact Nat.add_le_add_right (Nat.add_le_add_left this _) _

theorem State.serveList_load (ws : List Waiter) (s : State) (hw : s.queue.waiters = ws) :
    (State.serveList ws s).claimLoad ≤ s.claimLoad := by
  induction ws generalizing s with
  | nil => exact Nat.le_refl _
  | cons w ws ih =>
    unfold State.serveList
    split
    · refine (ih _ ?_).trans ((State.issue_load s w.owner ws (q := w :: ws) ?_).trans ?_)
      · cases w.owner <;> rfl
      · intro r hne hr
        unfold Repair.isHeld at hr ⊢
        simp only [List.any_cons]
        have hb : (w.owner == .repair r.target) = false := by simpa using hne
        rw [hb, Bool.false_or]
        exact hr
      · unfold claimLoad
        rw [hw, List.length_cons]
        omega
    · exact Nat.le_refl _

theorem State.serve_load (s : State) : s.serve.claimLoad ≤ s.claimLoad := serveList_load _ s rfl

theorem State.startWaiting_held (s : State) (o : Owner) (r : Repair)
    (h : r.isHeld (s.startWaiting o).queue.waiters = true) : r.isHeld s.queue.waiters = true := by
  unfold Repair.isHeld State.startWaiting at h
  unfold Repair.isHeld
  simp only [List.any_append, Bool.not_or, Bool.and_eq_true] at h ⊢
  exact ⟨h.1, h.2.1⟩

theorem State.issueOrWait_load (s : State) (o : Owner) : (s.issueOrWait o).claimLoad ≤ s.claimLoad + 1 := by
  unfold State.issueOrWait
  split
  · refine (s.issue_load o s.queue.waiters (q := s.queue.waiters) fun _ _ h => h).trans ?_
    unfold claimLoad
    omega
  · have : s.repairs.countP (Repair.isHeld (s.startWaiting o).queue.waiters) ≤
        s.repairs.countP (Repair.isHeld s.queue.waiters) :=
      List.countP_mono_left fun r _ hr => s.startWaiting_held o r hr
    have hl : (s.startWaiting o).queue.waiters.length = s.queue.waiters.length + 1 := by
      unfold State.startWaiting
      simp
    change s.queue.items.length + (s.startWaiting o).queue.waiters.length +
      s.repairs.countP (Repair.isHeld (s.startWaiting o).queue.waiters) +
        2 * (s.disputes.map fun d => d.slots.length).sum ≤ _
    rw [hl]
    unfold claimLoad
    omega

/-! ### Departures -/

theorem State.takeOut_load (s : State) (it : Item) : (s.takeOut it).claimLoad ≤ s.claimLoad := by
  have := List.length_filter_le (fun i => i.tag != it.tag) s.queue.items
  change (s.queue.items.filter _).length + s.queue.waiters.length + s.repairs.countP (Repair.isHeld s.queue.waiters) +
    2 * (s.disputes.map fun d => d.slots.length).sum ≤ _
  unfold claimLoad
  omega

theorem State.takeOut_load_lt (s : State) {it : Item} (h : it ∈ s.queue.items) :
    (s.takeOut it).claimLoad + 1 ≤ s.claimLoad := by
  have : (s.queue.items.filter fun i => i.tag != it.tag).length < s.queue.items.length := by
    refine Nat.lt_of_le_of_ne (List.length_filter_le _ _) fun he => ?_
    have := List.length_filter_eq_length_iff.1 he it h
    simp at this
  change (s.queue.items.filter _).length + s.queue.waiters.length + s.repairs.countP (Repair.isHeld s.queue.waiters) +
    2 * (s.disputes.map fun d => d.slots.length).sum + 1 ≤ _
  unfold claimLoad
  omega

theorem State.refundCredit_load (s : State) (n : Nat) : (s.refundCredit n).claimLoad = s.claimLoad := by
  unfold State.refundCredit
  dsimp only
  split
  · unfold State.wakeCredit
    split <;> rfl
  · rfl

theorem State.withdrawItem_load (s : State) (it : Item) : (s.withdrawItem it).claimLoad ≤ (s.takeOut it).claimLoad := by
  unfold State.withdrawItem
  dsimp only
  split
  · exact serve_load _
  · exact (serve_load _).trans (refundCredit_load _ _).le

theorem State.leftoverGone_load (s : State) (c : CopyId) : (s.leftoverGone c).claimLoad ≤ s.claimLoad := by
  unfold State.leftoverGone
  split
  · next r hr =>
    split
    · next h =>
      refine (serve_load _).trans ?_
      have hm := State.repair?_mem hr
      have hlt : s.repairs.countP (Repair.isHeld (s.startWaiting (.repair c)).queue.waiters) <
          s.repairs.countP (Repair.isHeld s.queue.waiters) := by
        refine countP_lt_of_mem (fun r hr => s.startWaiting_held _ r hr) hm.1 ?_ ?_
        · unfold Repair.isHeld
          rw [h.1, hm.2]
          have hw := h.2
          unfold State.isWaiting at hw
          rw [hw]
          rfl
        · unfold Repair.isHeld State.startWaiting
          simp [hm.2]
      have hl : (s.startWaiting (.repair c)).queue.waiters.length = s.queue.waiters.length + 1 := by
        unfold State.startWaiting
        simp
      change s.queue.items.length + (s.startWaiting (.repair c)).queue.waiters.length +
        s.repairs.countP (Repair.isHeld (s.startWaiting (.repair c)).queue.waiters) +
          2 * (s.disputes.map fun d => d.slots.length).sum ≤ _
      rw [hl]
      unfold claimLoad
      omega
    · exact Nat.le_refl _
  · exact Nat.le_refl _

/-! ### Repairs and votes -/

theorem State.removeRepair_load (s : State) (c : CopyId) : (s.removeRepair c).claimLoad ≤ s.claimLoad := by
  have h1 := List.length_filter_le (fun w : Waiter => w.owner != .repair c) s.queue.waiters
  have h2 : (s.repairs.filter fun r => r.target != c).countP
      (Repair.isHeld (s.queue.waiters.filter fun w => w.owner != .repair c)) ≤
        s.repairs.countP (Repair.isHeld s.queue.waiters) := by
    rw [List.countP_filter]
    refine List.countP_mono_left fun r _ hr => ?_
    simp only [Bool.and_eq_true, bne_iff_ne, ne_eq] at hr
    obtain ⟨hh, hne⟩ := hr
    unfold Repair.isHeld at hh ⊢
    simp only [Bool.and_eq_true, Bool.not_eq_true', List.any_eq_false, List.mem_filter, bne_iff_ne, ne_eq,
      beq_iff_eq] at hh ⊢
    refine ⟨hh.1, fun w hw he => hh.2 w ⟨hw, ?_⟩ he⟩
    rw [he]
    exact fun hc => hne (Owner.repair.inj hc)
  change s.queue.items.length + (s.queue.waiters.filter _).length + (s.repairs.filter _).countP _ + _ ≤ _
  unfold claimLoad
  exact Nat.add_le_add_right (Nat.add_le_add (Nat.add_le_add_left h1 _) h2) _

theorem State.closeRepair_load (s : State) (c : CopyId) (k : FindingKind) (b : Bool) (n : Nat) :
    (s.closeRepair c k b n).claimLoad ≤ s.claimLoad := by
  refine Nat.le_trans (Nat.le_of_eq ?_) (s.removeRepair_load c)
  unfold State.closeRepair State.postIfLost
  dsimp only
  split <;> rfl

theorem State.createRepair_load (s : State) (c : CopyId) (m : Mask) (o : RepairOrigin) :
    (s.createRepair c m o).claimLoad ≤ s.claimLoad + 2 := by
  unfold State.createRepair
  dsimp only
  generalize ht : State.setTrust _ c .repairing = t
  have hl : t.claimLoad ≤ s.claimLoad + 1 := by
    rw [← ht]
    change s.queue.items.length + s.queue.waiters.length +
      (s.repairs ++ [_]).countP (Repair.isHeld s.queue.waiters) + _ ≤ _
    rw [List.countP_append]
    have := List.countP_le_length (p := Repair.isHeld s.queue.waiters) (l := [(⟨c, m, 1, .waitingPlace, o⟩ : Repair)])
    simp only [List.length_singleton] at this
    unfold claimLoad
    change _ + (2 * (s.disputes.map fun d => d.slots.length).sum) ≤ _
    omega
  split
  · split
    · exact ((leftoverGone_load _ _).trans ((withdrawItem_load _ _).trans (takeOut_load _ _))).trans (by omega)
    · omega
  · exact (issueOrWait_load _ _).trans (by omega)

theorem State.requestRepairs_load (o : RepairOrigin) (l : List (CopyId × Mask)) (s : State) :
    (s.requestRepairs o l).claimLoad ≤ s.claimLoad + 2 * l.length := by
  unfold State.requestRepairs
  induction l generalizing s with
  | nil => exact Nat.le_refl _
  | cons p l ih =>
    refine (ih _).trans ?_
    have : (if (s.copy p.1).trust = .bad then s.requestRepair p.1 p.2 o else s).claimLoad ≤ s.claimLoad + 2 := by
      split
      · unfold State.requestRepair
        split
        · exact Nat.le_add_right _ _
        · split
          · exact Nat.le_add_right _ _
          · split
            · exact Nat.le_add_right _ _
            · exact createRepair_load _ _ _ _
      · exact Nat.le_add_right _ _
    rw [List.length_cons]
    exact (Nat.add_le_add_right this _).trans (by omega)

theorem State.removeDispute_load {s : State} {g : SegId} {d : Dispute} (h : s.dispute? g = some d) :
    (s.removeDispute g).claimLoad + 2 * d.slots.length ≤ s.claimLoad := by
  have h1 := List.length_filter_le (fun w : Waiter => !w.owner.isSlotOf g) s.queue.waiters
  have h2 : s.repairs.countP (Repair.isHeld (s.queue.waiters.filter fun w => !w.owner.isSlotOf g)) ≤
      s.repairs.countP (Repair.isHeld s.queue.waiters) := by
    refine List.countP_mono_left fun r _ hh => ?_
    unfold Repair.isHeld at hh ⊢
    simp only [Bool.and_eq_true, Bool.not_eq_true', List.any_eq_false, List.mem_filter, beq_iff_eq] at hh ⊢
    refine ⟨hh.1, fun w hw he => hh.2 w ⟨hw, ?_⟩ he⟩
    rw [he]
    rfl
  have h3 (l : List Dispute) (hd : d ∈ l) (hg : d.seg = g) :
      ((l.filter fun e => e.seg != g).map fun e => e.slots.length).sum + d.slots.length ≤
        (l.map fun e => e.slots.length).sum := by
    have hle (l : List Dispute) : ((l.filter fun e => e.seg != g).map fun e => e.slots.length).sum ≤
        (l.map fun e => e.slots.length).sum := by
      induction l with
      | nil => exact Nat.le_refl _
      | cons e l ih =>
        rw [List.filter_cons]
        split <;> simp only [List.map_cons, List.sum_cons] <;> omega
    induction l with
    | nil => cases hd
    | cons e l ih =>
      rw [List.filter_cons]
      rcases List.mem_cons.1 hd with rfl | hd
      · rw [if_neg (by simp [hg])]
        have := hle l
        simp only [List.map_cons, List.sum_cons]
        omega
      · have := ih hd
        split <;> simp only [List.map_cons, List.sum_cons] <;> omega
  have h4 := h3 s.disputes (State.dispute?_mem h).1 (State.dispute?_mem h).2
  change s.queue.items.length + (s.queue.waiters.filter fun w => !w.owner.isSlotOf g).length +
    s.repairs.countP (Repair.isHeld (s.queue.waiters.filter fun w => !w.owner.isSlotOf g)) +
      2 * ((s.disputes.filter fun e => e.seg != g).map fun e => e.slots.length).sum + _ ≤ _
  unfold claimLoad
  omega

theorem Dispute.votes_length (d : Dispute) : d.votes.length ≤ d.slots.length := by
  unfold Dispute.votes
  exact (List.length_filterMap_le _ _).trans (by simp)

/-- Judging work leaves the load as it is. -/
theorem State.Judges.load {W : CopyId → Prop} {s t : State} (h : s.Judges W t) : t.claimLoad = s.claimLoad :=
  claimLoad_same h.queue h.repairs h.disputes

theorem State.endVote_load {s : State} {g : SegId} {d : Dispute} (h : s.dispute? g = some d) (l : List (Nat × Obs))
    (hl : l.length ≤ d.slots.length) : (s.endVote g l).claimLoad ≤ s.claimLoad := by
  have h1 := removeDispute_load h
  unfold State.endVote
  dsimp only
  split
  · omega
  · refine (requestRepairs_load _ _ _).trans ?_
    unfold repairList
    rw [List.length_map]
    omega

theorem State.takeVote_load (s : State) (g : SegId) (e : Bool) : (s.takeVote g e).claimLoad ≤ s.claimLoad := by
  unfold State.takeVote
  split
  · exact Nat.le_refl _
  · next d hd =>
    dsimp only
    have j0 : s.Judges (fun _ => True) (s.transientTest d (s.refDigest g)) := s.transientTest_judges d _
    split
    · unfold State.voteAgreed
      dsimp only
      have j : s.Judges (fun _ => True) ((((s.transientTest d (s.refDigest g)).judgeAllGood g
          (s.transientTest d (s.refDigest g)).today ((d.votes.filter fun p => some p.2.digest == s.refDigest g).map
            Prod.fst)).judgeAllBad g 1 (d.votes.filter fun p => some p.2.digest != s.refDigest g)).closeVote g d.votes 1 e
              (s.refDigest g)) :=
        j0.trans ((State.judgeAllGood_judges _ _ _ _ fun _ _ => trivial).trans
          ((State.judgeAllBad_judges _ _ _ _ fun _ _ => trivial).trans (State.closeVote_judges _ _ _ _ _ _)))
      rw [← j.load]
      exact endVote_load (by rw [j.dispute?]; exact hd) _ ((List.length_filter_le _ _).trans d.votes_length)
    · split
      · next dd _ =>
        unfold State.voteDisputed
        dsimp only
        rw [(State.closeVote_judges (W := fun _ => True) _ _ _ _ _ _).load]
        have j : s.Judges (fun _ => True) ((((d.votes.filter fun p => p.2.digest == dd).foldl
            (fun t p => t.setTrust (g.copy p.1) .suspect) (s.transientTest d (s.refDigest g))).judgeAllBad g 2
              (d.votes.filter fun p => p.2.digest != dd)).post (segFinding .referenceDisputed true
                (((d.votes.filter fun p => p.2.digest == dd).foldl (fun t p => t.setTrust (g.copy p.1) .suspect)
                  (s.transientTest d (s.refDigest g))).judgeAllBad g 2 (d.votes.filter fun p => p.2.digest != dd)).today g
                    (some dd) (d.votes.filter fun p => p.2.digest == dd).length)) :=
          j0.trans ((State.Judges.foldl _ (fun _ _ _ => State.setTrust_judges _ _ _ (by decide) trivial) _).trans
            ((State.judgeAllBad_judges _ _ _ _ fun _ _ => trivial).trans (State.post_judges _ _)))
        rw [← j.load]
        refine Nat.le_of_eq ?_
        unfold claimLoad
        congr 3
        change ((State.disputes _).map _).map _ = _
        rw [List.map_map]
        refine List.map_congr_left fun x _ => ?_
        dsimp only [Function.comp]
        split <;> rfl
      · unfold State.voteUnagreed
        have j : s.Judges (fun _ => True) (((s.transientTest d (s.refDigest g)).judgeAllBad g 3 d.votes).closeVote g d.votes 3
            e (s.refDigest g)) :=
          j0.trans ((State.judgeAllBad_judges _ _ _ _ fun _ _ => trivial).trans (State.closeVote_judges _ _ _ _ _ _))
        rw [← j.load]
        exact endVote_load (by rw [j.dispute?]; exact hd) _ d.votes_length

theorem State.ownerLost_load (s : State) (it : Item) (n : Nat) : (s.ownerLost it n).claimLoad ≤ s.claimLoad := by
  have hs : (match s.ownSlot? it with
      | some (.issued _) => (s.setSlot it.target .unread).testDecision it.target.seg
      | some (.observed _ _ _) => s.clearSlotTag it
      | _ => s.leftoverGone it.target).claimLoad ≤ s.claimLoad := by
    split
    · rw [← s.setSlot_load it.target .unread]
      unfold State.testDecision
      split
      · split
        · exact takeVote_load _ _ _
        · exact Nat.le_refl _
      · exact Nat.le_refl _
    · unfold State.clearSlotTag
      split
      · exact (setSlot_load _ _ _).le
      · exact Nat.le_refl _
    · exact leftoverGone_load _ _
  unfold State.ownerLost
  split
  · exact closeRepair_load _ _ _ _ _
  · exact hs
  · exact hs

/-! ### The walk -/

/-- An item that the claim turns away lightens the load. -/
theorem State.turnsAway.load {s t : State} {it : Item} (h : s.turnsAway it t) (hi : it ∈ s.queue.items) :
    t.claimLoad + 1 ≤ s.claimLoad := by
  have hw := (Nat.add_le_add_right (s.withdrawItem_load it) 1).trans (s.takeOut_load_lt hi)
  obtain ⟨-, -, rfl⟩ | ⟨-, -, -, rfl⟩ | ⟨-, -, rfl⟩ := h
  · exact (Nat.add_le_add_right (closeRepair_load _ _ _ _ _) 1).trans hw
  · exact (Nat.add_le_add_right (closeRepair_load _ _ _ _ _) 1).trans hw
  · exact (Nat.add_le_add_right (ownerLost_load _ _ _) 1).trans hw

/-- The claim's walk passes an item that it turns away. -/
theorem State.turnsAway.walk {s t : State} {it : Item} (h : s.turnsAway it t)
    (hf : s.queue.items.find? Item.isQueued = some it) (k : Head) (n : Nat) :
    State.claimWalk k (n + 1) s = State.claimWalk k n t := by
  conv => lhs; unfold State.claimWalk
  rw [hf]
  dsimp only
  obtain ⟨hk, hm, rfl⟩ | ⟨hk, hm, hs, rfl⟩ | ⟨hk, hm, rfl⟩ := h
  · have hv : s.claimVerdict it = .mediumWithdrawn := if_pos hm
    rw [hv]
    unfold State.claimFail
    rw [hk]
  · have hv : s.claimVerdict it = .noSource := by
      unfold State.claimVerdict
      rw [if_neg hm, hk]
      dsimp only
      rw [hs]
    rw [hv]
    unfold State.claimFail
    rw [hk]
  · have hv : s.claimVerdict it = .mediumWithdrawn := if_pos hm
    rw [hv]
    unfold State.claimFail
    cases hkind : it.kind
    · rfl
    · rfl
    · exact absurd hkind hk

/-- The claim's walk passes every item that it turns away, and its bound still exceeds the load. -/
theorem State.turnsAwayAll.walk (k : Head) {gone : List Item} {s u : State} (h : s.turnsAwayAll gone u) {n : Nat}
    (hn : s.claimLoad < n) : ∃ m, State.claimWalk k n s = State.claimWalk k (m + 1) u := by
  induction gone generalizing s n with
  | nil =>
    cases h
    exact ⟨n - 1, by rw [Nat.sub_add_cancel (by omega)]⟩
  | cons it l ih =>
    obtain ⟨hf, t, ht, hl⟩ := h
    have hload := ht.load (List.mem_of_find?_eq_some hf)
    obtain ⟨m, hm⟩ := ih hl (n := n - 1) (by omega)
    refine ⟨m, ?_⟩
    rw [← hm, ← ht.walk hf k (n - 1), Nat.sub_add_cancel (by omega)]

end Sys2Proof.Machine
end

