-- ==== Sys2Proof/Laws/PerInstr.lean ====
section
/-! SUPPORT. Laws/PerInstr.lean: a family of statements about the commands as syntax, one lemma for each command. -/

namespace Sys2Proof.Laws.Operands

open Sys2Proof Sys2Proof.Machine

/-- The operands of a command lie in their ranges, each written out in numbers; and an order's code has a format in the
table of R207, so that its record's length can be judged. -/
def InRange : Instr → Prop
  | .windowWrite _ lane offset bytes => lane ≤ 11 ∧ offset + bytes.length ≤ 1048576
  | .portAreaWrite _ offset bytes =>
    offset + bytes.length ≤ 164096 ∨ 164100 ≤ offset ∧ offset + bytes.length ≤ 164104
  | .reelAddCompletion reel => 1 ≤ reel ∧ reel < 2 ^ 48
  | .laneFeedCompletion lane => lane ≤ 11
  | .stallTimerExpiry lane => lane ≤ 11
  | .claimTimerExpiry tag => 1 ≤ tag ∧ tag < 2 ^ 16
  | .confirmTimerExpiry reel segment => (1 ≤ reel ∧ reel < 2 ^ 48) ∧ segment ≤ 16383
  | .planLoadCompletion slot => slot ≤ 1
  | .mediumAdd _ => ∀ body, bodyLength body 1 ≠ none
  | .mediumRemove _ => ∀ body, bodyLength body 2 ≠ none
  | .mediumWithdraw _ => ∀ body, bodyLength body 3 ≠ none
  | .mediumReturn _ => ∀ body, bodyLength body 4 ≠ none
  | .mediumResetPoints _ => ∀ body, bodyLength body 5 ≠ none
  | .reelAdd _ => ∀ body, bodyLength body 6 ≠ none
  | .reelRemove _ => ∀ body, bodyLength body 7 ≠ none
  | .referenceLoad _ => ∀ body, bodyLength body 8 ≠ none
  | .segmentRead _ => ∀ body, bodyLength body 9 ≠ none
  | .copySelect _ => ∀ body, bodyLength body 10 ≠ none
  | .laneOpen _ => ∀ body, bodyLength body 16 ≠ none
  | .laneFeed _ => ∀ body, bodyLength body 17 ≠ none
  | .laneEnd _ => ∀ body, bodyLength body 18 ≠ none
  | .laneAbort _ => ∀ body, bodyLength body 19 ≠ none
  | .laneReport _ => ∀ body, bodyLength body 20 ≠ none
  | .itemClaim _ => ∀ body, bodyLength body 24 ≠ none
  | .itemReturn _ => ∀ body, bodyLength body 25 ≠ none
  | .disputeAdopt _ => ∀ body, bodyLength body 32 ≠ none
  | .disputeReject _ => ∀ body, bodyLength body 33 ≠ none
  | .repairRequest _ => ∀ body, bodyLength body 34 ≠ none
  | .planLoad _ => ∀ body, bodyLength body 40 ≠ none
  | .planStart _ => ∀ body, bodyLength body 41 ≠ none
  | .planQueue _ => ∀ body, bodyLength body 42 ≠ none
  | .planPause _ => ∀ body, bodyLength body 43 ≠ none
  | .planResume _ => ∀ body, bodyLength body 44 ≠ none
  | .planStop _ => ∀ body, bodyLength body 45 ≠ none
  | .bandsSet _ => ∀ body, bodyLength body 46 ≠ none
  | .daySet _ => ∀ body, bodyLength body 47 ≠ none
  | .paceSet _ => ∀ body, bodyLength body 48 ≠ none
  | .paceStart _ => ∀ body, bodyLength body 49 ≠ none
  | .paceStop _ => ∀ body, bodyLength body 50 ≠ none
  | .paceHalt _ => ∀ body, bodyLength body 51 ≠ none
  | .ladderSet _ => ∀ body, bodyLength body 52 ≠ none
  | .timersSet _ => ∀ body, bodyLength body 53 ≠ none
  | .findingTake _ => ∀ body, bodyLength body 56 ≠ none
  | .attentionSet _ => ∀ body, bodyLength body 57 ≠ none
  | .status _ => ∀ body, bodyLength body 58 ≠ none
  | .portReset _ => ∀ body, bodyLength body 59 ≠ none
  | .powerOn => True
  | .cardReset => True
  | .linkLoss _ => True
  | .linkUp _ => True
  | .orderPostCountWrite _ _ => True
  | .replyReadCountWrite _ _ => True
  | .unknownOrder _ => True
  | .walkerPosition => True
  | .delayTimerExpiry => True
  | .workWindowEnd => True
  | .yieldWindowEnd => True

/-- A command is well formed exactly when its operands lie in their ranges. -/
def Statement (i : Instr) : Prop := i.wellFormed = true ↔ InRange i

theorem powerOn : Statement .powerOn :=
  ⟨fun _ => True.intro, fun _ => rfl⟩

theorem cardReset : Statement .cardReset :=
  ⟨fun _ => True.intro, fun _ => rfl⟩

theorem linkLoss (h : Head) : Statement (.linkLoss h) :=
  ⟨fun _ => True.intro, fun _ => rfl⟩

theorem linkUp (h : Head) : Statement (.linkUp h) :=
  ⟨fun _ => True.intro, fun _ => rfl⟩

theorem windowWrite (h : Head) (lane offset : Nat) (bytes : List Byte) : Statement (.windowWrite h lane offset bytes) := by
  simp only [Statement, InRange, Instr.wellFormed, Bool.and_eq_true, decide_eq_true_eq]
  simp only [Config.laneCount, Config.windowBytes]
  omega

theorem orderPostCountWrite (h : Head) (value : Half) : Statement (.orderPostCountWrite h value) :=
  ⟨fun _ => True.intro, fun _ => rfl⟩

theorem replyReadCountWrite (h : Head) (value : Half) : Statement (.replyReadCountWrite h value) :=
  ⟨fun _ => True.intro, fun _ => rfl⟩

theorem portAreaWrite (h : Head) (offset : Nat) (bytes : List Byte) : Statement (.portAreaWrite h offset bytes) := by
  simp only [Statement, InRange, Instr.wellFormed, Bool.and_eq_true, Bool.or_eq_true, decide_eq_true_eq]
  simp only [Config.countsBase, Config.partCountsBase, Config.areaBytes]

theorem unknownOrder (h : Head) : Statement (.unknownOrder h) :=
  ⟨fun _ => True.intro, fun _ => rfl⟩

theorem mediumAdd (h : Head) : Statement (.mediumAdd h) :=
  ⟨fun _ _ => Option.some_ne_none _, fun _ => rfl⟩

theorem mediumRemove (h : Head) : Statement (.mediumRemove h) :=
  ⟨fun _ _ => Option.some_ne_none _, fun _ => rfl⟩

theorem mediumWithdraw (h : Head) : Statement (.mediumWithdraw h) :=
  ⟨fun _ _ => Option.some_ne_none _, fun _ => rfl⟩

theorem mediumReturn (h : Head) : Statement (.mediumReturn h) :=
  ⟨fun _ _ => Option.some_ne_none _, fun _ => rfl⟩

theorem mediumResetPoints (h : Head) : Statement (.mediumResetPoints h) :=
  ⟨fun _ _ => Option.some_ne_none _, fun _ => rfl⟩

theorem reelAdd (h : Head) : Statement (.reelAdd h) :=
  ⟨fun _ _ => Option.some_ne_none _, fun _ => rfl⟩

theorem reelAddCompletion (reel : Nat) : Statement (.reelAddCompletion reel) := by
  simp only [Statement, InRange, Instr.wellFormed, Bool.and_eq_true, decide_eq_true_eq]
  simp only [Config.accessionMax]
  omega

theorem reelRemove (h : Head) : Statement (.reelRemove h) :=
  ⟨fun _ _ => Option.some_ne_none _, fun _ => rfl⟩

theorem referenceLoad (h : Head) : Statement (.referenceLoad h) :=
  ⟨fun _ _ => Option.some_ne_none _, fun _ => rfl⟩

theorem segmentRead (h : Head) : Statement (.segmentRead h) :=
  ⟨fun _ _ => Option.some_ne_none _, fun _ => rfl⟩

theorem copySelect (h : Head) : Statement (.copySelect h) :=
  ⟨fun _ _ => Option.some_ne_none _, fun _ => rfl⟩

theorem laneOpen (h : Head) : Statement (.laneOpen h) :=
  ⟨fun _ _ => Option.some_ne_none _, fun _ => rfl⟩

theorem laneFeed (h : Head) : Statement (.laneFeed h) :=
  ⟨fun _ _ => Option.some_ne_none _, fun _ => rfl⟩

theorem laneFeedCompletion (lane : Nat) : Statement (.laneFeedCompletion lane) := by
  simp only [Statement, InRange, Instr.wellFormed, decide_eq_true_eq]
  simp only [Config.laneCount]
  omega

theorem laneEnd (h : Head) : Statement (.laneEnd h) :=
  ⟨fun _ _ => Option.some_ne_none _, fun _ => rfl⟩

theorem laneAbort (h : Head) : Statement (.laneAbort h) :=
  ⟨fun _ _ => Option.some_ne_none _, fun _ => rfl⟩

theorem laneReport (h : Head) : Statement (.laneReport h) :=
  ⟨fun _ _ => Option.some_ne_none _, fun _ => rfl⟩

theorem stallTimerExpiry (lane : Nat) : Statement (.stallTimerExpiry lane) := by
  simp only [Statement, InRange, Instr.wellFormed, decide_eq_true_eq]
  simp only [Config.laneCount]
  omega

theorem itemClaim (h : Head) : Statement (.itemClaim h) :=
  ⟨fun _ _ => Option.some_ne_none _, fun _ => rfl⟩

theorem itemReturn (h : Head) : Statement (.itemReturn h) :=
  ⟨fun _ _ => Option.some_ne_none _, fun _ => rfl⟩

theorem claimTimerExpiry (tag : Nat) : Statement (.claimTimerExpiry tag) := by
  simp only [Statement, InRange, Instr.wellFormed, Bool.and_eq_true, decide_eq_true_eq]
  omega

theorem disputeAdopt (h : Head) : Statement (.disputeAdopt h) :=
  ⟨fun _ _ => Option.some_ne_none _, fun _ => rfl⟩

theorem disputeReject (h : Head) : Statement (.disputeReject h) :=
  ⟨fun _ _ => Option.some_ne_none _, fun _ => rfl⟩

theorem confirmTimerExpiry (reel segment : Nat) : Statement (.confirmTimerExpiry reel segment) := by
  simp only [Statement, InRange, Instr.wellFormed, Bool.and_eq_true, decide_eq_true_eq]
  simp only [Config.accessionMax, Config.segmentsMax]
  omega

theorem repairRequest (h : Head) : Statement (.repairRequest h) :=
  ⟨fun _ _ => Option.some_ne_none _, fun _ => rfl⟩

theorem planLoad (h : Head) : Statement (.planLoad h) :=
  ⟨fun _ _ => Option.some_ne_none _, fun _ => rfl⟩

theorem planLoadCompletion (slot : Nat) : Statement (.planLoadCompletion slot) := by
  simp only [Statement, InRange, Instr.wellFormed, decide_eq_true_eq]
  omega

theorem planStart (h : Head) : Statement (.planStart h) :=
  ⟨fun _ _ => Option.some_ne_none _, fun _ => rfl⟩

theorem planQueue (h : Head) : Statement (.planQueue h) :=
  ⟨fun _ _ => Option.some_ne_none _, fun _ => rfl⟩

theorem planPause (h : Head) : Statement (.planPause h) :=
  ⟨fun _ _ => Option.some_ne_none _, fun _ => rfl⟩

theorem planResume (h : Head) : Statement (.planResume h) :=
  ⟨fun _ _ => Option.some_ne_none _, fun _ => rfl⟩

theorem planStop (h : Head) : Statement (.planStop h) :=
  ⟨fun _ _ => Option.some_ne_none _, fun _ => rfl⟩

theorem bandsSet (h : Head) : Statement (.bandsSet h) :=
  ⟨fun _ _ => Option.some_ne_none _, fun _ => rfl⟩

theorem daySet (h : Head) : Statement (.daySet h) :=
  ⟨fun _ _ => Option.some_ne_none _, fun _ => rfl⟩

theorem walkerPosition : Statement .walkerPosition :=
  ⟨fun _ => True.intro, fun _ => rfl⟩

theorem paceSet (h : Head) : Statement (.paceSet h) :=
  ⟨fun _ _ => Option.some_ne_none _, fun _ => rfl⟩

theorem paceStart (h : Head) : Statement (.paceStart h) :=
  ⟨fun _ _ => Option.some_ne_none _, fun _ => rfl⟩

theorem paceStop (h : Head) : Statement (.paceStop h) :=
  ⟨fun _ _ => Option.some_ne_none _, fun _ => rfl⟩

theorem paceHalt (h : Head) : Statement (.paceHalt h) :=
  ⟨fun _ _ => Option.some_ne_none _, fun _ => rfl⟩

theorem delayTimerExpiry : Statement .delayTimerExpiry :=
  ⟨fun _ => True.intro, fun _ => rfl⟩

theorem workWindowEnd : Statement .workWindowEnd :=
  ⟨fun _ => True.intro, fun _ => rfl⟩

theorem yieldWindowEnd : Statement .yieldWindowEnd :=
  ⟨fun _ => True.intro, fun _ => rfl⟩

theorem ladderSet (h : Head) : Statement (.ladderSet h) :=
  ⟨fun _ _ => Option.some_ne_none _, fun _ => rfl⟩

theorem timersSet (h : Head) : Statement (.timersSet h) :=
  ⟨fun _ _ => Option.some_ne_none _, fun _ => rfl⟩

theorem findingTake (h : Head) : Statement (.findingTake h) :=
  ⟨fun _ _ => Option.some_ne_none _, fun _ => rfl⟩

theorem attentionSet (h : Head) : Statement (.attentionSet h) :=
  ⟨fun _ _ => Option.some_ne_none _, fun _ => rfl⟩

theorem status (h : Head) : Statement (.status h) :=
  ⟨fun _ _ => Option.some_ne_none _, fun _ => rfl⟩

theorem portReset (h : Head) : Statement (.portReset h) :=
  ⟨fun _ _ => Option.some_ne_none _, fun _ => rfl⟩

end Sys2Proof.Laws.Operands
end

