-- ==== Sys2Proof/Laws/Reads.lean ====
section
/-! SUPPORT. Laws/Reads.lean: what a lane does with the bytes of a feed, and what LANE_FEED_COMPLETION does when it
completes a lane's read: how the judgement, the item's removal and the routing make up the next state. -/

namespace Sys2Proof.Machine

/-! ### Taking bytes -/

theorem LaneCtx.takeByte_frame (size : Nat) (list : Option (List Digest)) (l : LaneCtx) (b : Byte) :
    ∃ i c ds m k, l.takeByte size list b = { l with
      bytesTaken := l.bytesTaken + 1, segCrc := crcByte l.segCrc b, frameIndex := i, frameCrc := c, frameDigests := ds,
      badMask := m, compared := k } := by
  unfold LaneCtx.takeByte
  dsimp only
  split
  · unfold LaneCtx.completeFrame
    dsimp only
    split
    · exact ⟨_, _, _, _, _, rfl⟩
    · split <;> exact ⟨_, _, _, _, _, rfl⟩
  · exact ⟨_, _, _, _, _, rfl⟩

/-- Taking bytes advances the bytes taken and the segment CRC, and besides them at most the frame's fields. -/
theorem LaneCtx.takeBytes_frame (size : Nat) (list : Option (List Digest)) (bytes : List Byte) (l : LaneCtx) :
    ∃ i c ds m k, l.takeBytes size list bytes = { l with
      bytesTaken := l.bytesTaken + bytes.length, segCrc := bytes.foldl crcByte l.segCrc, frameIndex := i, frameCrc := c,
      frameDigests := ds, badMask := m, compared := k } := by
  induction bytes generalizing l with
  | nil => exact ⟨_, _, _, _, _, rfl⟩
  | cons b bs ih =>
    obtain ⟨i, c, d, m, k, h1⟩ := l.takeByte_frame size list b
    obtain ⟨i', c', d', m', k', h2⟩ := ih (l.takeByte size list b)
    refine ⟨i', c', d', m', k', ?_⟩
    have h : l.takeBytes size list (b :: bs) = (l.takeByte size list b).takeBytes size list bs := rfl
    rw [h, h2, h1]
    simp only [List.foldl_cons, List.length_cons, LaneCtx.mk.injEq, true_and, and_true]
    omega

/-- The fields that a completed read's context has from the lane's context before it. -/
theorem State.completes.context {s : State} {n : Nat} {l l1 : LaneCtx} {tag : Half} {d : Digest}
    (h : s.completes n l l1 tag d) :
    l1.bytesTaken = l.expected ∧ l1.expected = l.expected ∧ l1.target = l.target ∧ l1.itemTag = l.itemTag ∧
      l1.conflict = l.conflict ∧ l1.purpose = l.purpose ∧ l1.owner = l.owner ∧ crcFinal l1.segCrc = d := by
  obtain ⟨_, _, len, r, _, hlen, _, hl1, hd⟩ := h
  obtain ⟨i, c, ds, m, k, h2⟩ := l.takeBytes_frame r.frameSize (s.seg l.target.seg).frameList
    (Memory.load s.windows (n * 1048576) len)
  rw [Memory.load_length] at h2
  rw [← hl1] at h2
  exact ⟨by rw [h2]; exact hlen, by rw [h2], by rw [h2], by rw [h2], by rw [h2], by rw [h2], by rw [h2],
    by rw [h2]; exact hd.symm⟩

/-! ### A completed read -/

/-- LANE_FEED_COMPLETION of a read that completes, once the work of `completeLane` is known. -/
theorem State.completes.exec {s : State} {n : Nat} {l l1 : LaneCtx} {tag : Half} {d : Digest}
    (h : s.completes n l l1 tag d) {w : State} {result : Result} {obs : Option Digest} {routing : Routing}
    (hw : s.completeLane n l1 = w.finishLane n l1 .completed (some result) obs routing) :
    Machine.exec (.laneFeedCompletion n) s = .next (w.readDone n l1 tag result obs routing) := by
  obtain ⟨ht, he, -, -, -, -, ho, -⟩ := h.context
  obtain ⟨hn, hl, len, r, hst, hlen, hr, hl1, hd⟩ := h
  have hf : s.completeFeed n l len = s.completeLane n l1 := by
    have hwb : Config.windowBytes = 1048576 := rfl
    unfold State.completeFeed
    rw [hwb, hr]
    simp only [Option.map_some, Option.getD_some, ← hl1]
    exact if_pos ht
  have hlane (u : State) : u.wakeRoom.lane n = u.lane n := by
    unfold State.wakeRoom
    split <;> rfl
  change execLaneFeedCompletion n s = _
  unfold execLaneFeedCompletion
  rw [hl]
  dsimp only
  rw [hst]
  dsimp only
  rw [hf, hw, hlane]
  unfold State.finishLane
  rw [State.lane_setLane _ _ _ hn]
  have hb : leBytes 4 l1.bytesTaken = leBytes 4 l1.expected := by rw [ht, he]
  dsimp only
  rw [hb, ← ho]
  rfl

/-- What a read that is not judged does: its item, if it has one, goes back, and its bytes are charged. -/
theorem State.completeLane_inconclusive {s : State} {n : Nat} {l : LaneCtx}
    (hj : judge l.conflict l.purpose (s.refDigest l.target.seg) (crcFinal l.segCrc) = .inconclusive) :
    s.completeLane n l = s.endUnjudged n l .completed (some .inconclusive) := by
  unfold State.completeLane
  dsimp only
  rw [hj]
  exact if_pos rfl

/-- The judgement of a read with a reference and without a window conflict. -/
theorem judge_reference {purpose : Purpose} {ref d : Digest} :
    judge false purpose (some ref) d = if d = ref then .matched else .mismatch := rfl

/-- What a MATCH or a MISMATCH does, from the state in which it is routed. -/
theorem State.readyToRoute.completeLane {s v : State} {n : Nat} {l l1 : LaneCtx} {tag : Half} {d ref : Digest}
    {result : Result} (hv : s.readyToRoute n l l1 d v) (h : s.completes n l l1 tag d) (hc : l.conflict = false)
    (hr : s.refDigest l.target.seg = some ref) (hres : result = if d = ref then .matched else .mismatch) :
    ∀ q, q = v.route n l1 (l.itemTag.bind s.item?) result ⟨d, l1.badMask, l1.compared⟩ →
      s.completeLane n l1 = (q.2.chargeLane l1).finishLane n l1 .completed (some result) (some d) q.1 := by
  obtain ⟨-, -, e3, e4, e5, e6, -, e8⟩ := h.context
  have hj : judge l1.conflict l1.purpose (s.refDigest l1.target.seg) (crcFinal l1.segCrc) = result := by
    rw [e5, hc, e3, hr, e8, judge_reference, hres]
  have hni : result ≠ .inconclusive := by rw [hres]; split <;> simp
  have hnl : result ≠ .learned := by rw [hres]; split <;> simp
  obtain ⟨p, hp, hv⟩ := hv
  have hpf : s.postFrameSuspect n l1 result d = p := by
    rw [hp, hr]
    unfold State.postFrameSuspect
    have hiff : (result = .matched ∧ l1.badMask ≠ 0#64) ↔ (some ref = some d ∧ l1.badMask ≠ 0#64) := by
      rw [hres]
      by_cases hd : d = ref
      · simp [hd]
      · simp [hd, Ne.symm hd]
    by_cases hif : result = .matched ∧ l1.badMask ≠ 0#64
    · rw [if_pos hif, if_pos (hiff.1 hif), ← e3]
      rfl
    · rw [if_neg hif, if_neg (mt hiff.2 hif)]
  intro q hq
  unfold State.completeLane
  dsimp only
  rw [hj, if_neg hni, if_neg hnl, e8, hpf, e4]
  have hitem (t : Nat) : p.item? t = s.item? t := by
    rw [hp]
    split <;> rfl
  have hbind : l.itemTag.bind p.item? = l.itemTag.bind s.item? := by cases l.itemTag <;> simp [hitem]
  rw [hbind]
  obtain ⟨-, ht, rfl⟩ | ⟨it, -, ht, hit, rfl⟩ := hv
  · rw [ht] at hq ⊢
    rw [hq]
    rfl
  · have hb : l.itemTag.bind s.item? = some it := by rw [ht]; exact hit
    rw [hb] at hq ⊢
    rw [hq, ← e3]
    rfl

/-- What a lane's charge is at the end of a completed read (R44). -/
theorem State.completes.charge {s : State} {n : Nat} {l l1 : LaneCtx} {tag : Half} {d : Digest}
    (h : s.completes n l l1 tag d) (w : State) :
    w.chargeLane l1 = if l.purpose = .item then w else w.chargeCredit (chargeOf l.expected) := by
  obtain ⟨ht, -, -, -, -, hp, -, -⟩ := h.context
  unfold State.chargeLane
  rw [hp, ht]
  cases l.purpose <;> rfl

/-- A read whose result no repair entry and no COLLECTING entry takes goes to the plain rules. -/
theorem State.route_plain {v : State} {n : Nat} {l : LaneCtx} {it : Option Item} {result : Result} {o : Obs}
    (hk : ∀ i, it = some i → i.kind ≠ .repair) (hc : v.collecting? l.target.seg = none) :
    v.route n l it result o = (.plain, v.plain l.target result o n) := by
  unfold State.route
  rw [if_neg, hc]
  cases it with
  | none => simp
  | some i => simpa using hk i rfl

/-- A read that no repair entry takes goes to the segment's COLLECTING entry. -/
theorem State.route_dispute {v : State} {n : Nat} {l : LaneCtx} {it : Option Item} {result : Result} {o : Obs}
    {e : Dispute} (hk : ∀ i, it = some i → i.kind ≠ .repair) (hc : v.collecting? l.target.seg = some e) :
    v.route n l it result o = v.routeDispute e l.target o n l.itemTag := by
  unfold State.route
  rw [if_neg, hc]
  cases it with
  | none => simp
  | some i => simpa using hk i rfl

/-- The read of a REPAIR item goes to its entry as a read-back. -/
theorem State.route_repair {v : State} {n : Nat} {l : LaneCtx} {it : Item} {result : Result} {o : Obs}
    (hk : it.kind = .repair) : v.route n l (some it) result o = (.plain, v.readBack l.target result o) := by
  unfold State.route
  rw [if_pos]
  simp [hk]

/-! ### The state in which a read is routed -/

theorem State.readyToRoute.steady {s v : State} {n : Nat} {l l1 : LaneCtx} {d : Digest}
    (hv : s.readyToRoute n l l1 d v) (P : CopyId → Prop) : s.Steady P v := by
  obtain ⟨p, hp, hv⟩ := hv
  have h1 : s.Steady P p := by
    rw [hp]
    split
    · exact s.post_steady P _
    · exact .refl s
  obtain ⟨-, -, rfl⟩ | ⟨it, -, -, -, rfl⟩ := hv
  · exact h1
  · exact h1.trans ((p.setQueue_steady P _).trans ((State.setItemTag_steady _ P _ _).trans
      ((State.serve_steady _ P).trans (State.leftoverGone_steady _ P _))))

theorem State.readyToRoute.works {s v : State} {n : Nat} {l l1 : LaneCtx} {d : Digest}
    (hv : s.readyToRoute n l l1 d v) : s.Works v := by
  obtain ⟨p, hp, hv⟩ := hv
  have h1 : s.Works p := by
    rw [hp]
    split
    · exact s.post_works _
    · exact .refl s
  obtain ⟨-, -, rfl⟩ | ⟨it, -, -, -, rfl⟩ := hv
  · exact h1
  · exact h1.trans ((p.setQueue_works _).trans ((State.setItemTag_works _ _ _).trans
      ((State.serve_works _).trans (State.leftoverGone_works _ _))))

end Sys2Proof.Machine
end

