-- ==== Sys2Proof/Tests/Slice0.lean ====
section
/-! SUPPORT. Tests/Slice0.lean: the model's own tests. First the smoke test of the well-formedness checks, then small tests
whose expected results stand in the spec (named beside each), then for every obligation with hypotheses one theorem that
shows states and operands which meet them, clause by clause. -/

namespace Sys2Proof.Tests

open Sys2Proof Sys2Proof.Machine

/-! ### Ill-formed commands are refused -/

theorem test_wf_windowWrite_lane : (Instr.windowWrite .a 12 0 [1#8]).wellFormed = false := by decide
theorem test_wf_windowWrite_end : (Instr.windowWrite .a 11 1048576 [1#8]).wellFormed = false := by decide
theorem test_wf_windowWrite_last : (Instr.windowWrite .a 11 1048575 [1#8]).wellFormed = true := by decide
theorem test_wf_portAreaWrite_counts : (Instr.portAreaWrite .b 164096 [1#8]).wellFormed = false := by decide
theorem test_wf_portAreaWrite_end : (Instr.portAreaWrite .b 164103 [1#8, 2#8]).wellFormed = false := by decide
theorem test_wf_portAreaWrite_last : (Instr.portAreaWrite .b 164095 [1#8]).wellFormed = true := by decide
theorem test_wf_reelAddCompletion : (Instr.reelAddCompletion 0).wellFormed = false := by decide
theorem test_wf_laneFeedCompletion : (Instr.laneFeedCompletion 12).wellFormed = false := by decide
theorem test_wf_stallTimerExpiry : (Instr.stallTimerExpiry 12).wellFormed = false := by decide
theorem test_wf_claimTimerExpiry : (Instr.claimTimerExpiry 65536).wellFormed = false := by decide
theorem test_wf_confirmTimerExpiry_reel : (Instr.confirmTimerExpiry 281474976710656 0).wellFormed = false := by decide
theorem test_wf_confirmTimerExpiry_segment : (Instr.confirmTimerExpiry 1 16384).wellFormed = false := by decide
theorem test_wf_planLoadCompletion : (Instr.planLoadCompletion 2).wellFormed = false := by decide

/-! ### States to test on -/

/-- A medium record with a copy on it. -/
def medium (id points : Nat) : Medium := ⟨id, .tape, points, false, 0, .sound, false, false, 1⟩

/-- A copy record of a trust, verified on day 60. -/
def copyRec (t : Trust) : CopyRec := ⟨t, 60, false, false, none⟩

/-- Reel 9: three copies on media 1, 2 and 3, two segments of two frames of 512 bytes. Segment 0 has a reference. -/
def reelNine (ts : List Trust) : Reel :=
  ⟨9, .active, [1, 2, 3], 512, 4, 2, 0, 64, [(0, ⟨some ⟨0x11#64, .loaded⟩, none, ts.map copyRec⟩)]⟩

/-- Four media, medium 4 without copies; reel 9 with the given trusts on segment 0; today is day 100; both links UP. -/
def demo (ts : List Trust) : State :=
  { State.reset with
    media := [medium 1 0, medium 2 8, medium 3 15, ⟨4, .disk, 0, false, 0, .sound, false, true, 0⟩]
    reels := [reelNine ts]
    day := some 100
    portA := { Port.powerOn with link := true }
    portB := { Port.powerOn with link := true } }

/-- Every lane of that state is FREE. -/
theorem demo_lanes (ts : List Trust) (n : Nat) : (demo ts).lane n = none := by
  simp only [demo, State.reset, State.lane, Vector.getElem?_replicate]
  split <;> rfl

/-- Reel 9 with its copies UNVERIFIED, GOOD and GOOD. -/
def demoUGG : State := demo [.unverified, .good, .good]

/-- Head A's port holds one order: its code, tag 5 and a body. -/
def posted (s : State) (code : Nat) (body : List Byte) : State :=
  { s with portA := { s.portA with
      link := true, orderPost := 1, orderTake := 0
      area := Memory.store [] 0 (leBytes 2 code ++ leBytes 2 5 ++ leBytes 2 body.length ++ zeros 2 ++ body) } }

/-- An item of class NORMAL on copy 0 of segment 0 of reel 9. -/
def item (tag : Nat) (kind : ItemKind) (st : ItemState) : Item :=
  ⟨tag, kind, .normal, ⟨9, 0, 0⟩, 1, st, 0, false, 0#64, none⟩

/-- A RESTORE lane of head A on copy 0 of segment 0 of reel 9. -/
def restoreLane : LaneCtx := LaneCtx.opened .a .restore none ⟨9, 0, 0⟩ 1024 20

/-- Lane `n` in use with a context. -/
def onLane (s : State) (n : Nat) (l : LaneCtx) : State := s.setLane n (some l)

/-- A queue of items. -/
def queued (s : State) (items : List Item) : State := { s with queue := ⟨items, 412, [], 0⟩ }

/-- An observation of a digest. -/
def obs (d : Digest) : Obs := ⟨d, 4#64, true⟩

/-- A COLLECTING entry on segment 0 of reel 9, triggered by copy 0, with the digests its three slots hold. -/
def collecting (d0 d1 d2 : Digest) : Dispute :=
  ⟨⟨9, 0⟩, 0, .collecting 7200, obs d0,
    [.observed (obs d0) 0 none, .observed (obs d1) 1 none, .observed (obs d2) 2 none], [], []⟩

/-- An entry that awaits resolution: copies 0 and 1 agree, copy 2 is rejected. -/
def awaiting : Dispute :=
  { collecting 0x22#64 0x22#64 0x33#64 with phase := .awaiting 0x22#64, agreeing := [0, 1], rejected := [2] }

/-- A state with a dispute entry. -/
def disputed (ts : List Trust) (d : Dispute) : State := { demo ts with disputes := [d] }

/-! ### Results the spec gives -/

/-- R23: the digest of the nine characters "123456789". -/
theorem test_digest_check_value :
    digest [0x31#8, 0x32#8, 0x33#8, 0x34#8, 0x35#8, 0x36#8, 0x37#8, 0x38#8, 0x39#8] = 0x995DC9BBDF1939FA#64 := by
  decide +kernel

/-- 12.4: 100,000,000 bytes are charged 96 CU and 4,000,000,000 bytes 3,815 CU. -/
theorem test_charges : chargeOf 100000000 = 96 ∧ chargeOf 4000000 = 4 ∧ chargeOf 4000000000 = 3815 := by decide

/-- 12.4: work window 2 carries: from accumulator 8 and credit -32 to accumulator 0 and credit 33. -/
theorem test_work_window_carries :
    (Pacer.startWork ⟨.work, -32, 8, some 100, false, ⟨64, 8, 100, 0, 200⟩, none⟩).credit = 33 ∧
    (Pacer.startWork ⟨.work, -32, 8, some 100, false, ⟨64, 8, 100, 0, 200⟩, none⟩).acc = 0 := by decide

/-- 12.4: a charge of 3,815 CU at credit -35 stops at the floor of -384. -/
theorem test_charge_stops_at_floor :
    (Pacer.charge ⟨.work, -35, 8, some 100, false, ⟨96, 8, 100, 0, 0⟩, none⟩ 3815).credit = -384 := by decide

/-- 06, after R121: day 1000 scored on day 1400 at interval 365, and day 65000 scored on day 300. -/
theorem test_due_score :
    dueScore ⟨.good, 1000, false, false, none⟩ 1400 365 .watch = 105 ∧
    dueScore ⟨.good, 1000, false, false, none⟩ 1400 365 .degraded = 140 ∧
    dueScore ⟨.good, 65000, false, false, none⟩ 300 365 .sound = 146 := by decide

/-- 12.2: the lapse of item 410 puts it back to QUEUED ahead of items 411 and 412. -/
theorem test_lapse_goes_first :
    ((queued demoUGG [item 411 .scrub .queued, item 410 .scrub (.claimed .a 30), item 412 .scrub .queued]).returnFront
      (item 410 .scrub (.claimed .a 30)) 1).queue.items.map Item.tag = [410, 411, 412] := by decide

/-- R147: the tag after 65535 is 1, and a tag in use is passed over. -/
theorem test_tags_wrap : Queue.nextTag ⟨[item 1 .scrub .queued], 65535, [], 0⟩ = 2 := by decide

/-! ### Witnesses: the machine and its invariants -/

theorem witness_StepRunsFrontCommand : demoUGG.pending = [] := rfl

theorem witness_WellFormedCommandsRun :
    (Instr.windowWrite .a 11 1048575 [7#8]).wellFormed = true ∧ (Instr.planLoadCompletion 1).wellFormed = true ∧
    (12 ≤ 12 ∨ 1048576 < 0 + [7#8].length) ∧ (12 ≤ 11 ∨ 1048576 < 1048576 + [7#8].length) ∧
    (164096 < 164095 + [7#8, 7#8].length ∧ (164095 < 164100 ∨ 164104 < 164095 + [7#8, 7#8].length)) ∧
    (164096 < 164104 + [7#8].length ∧ (164104 < 164100 ∨ 164104 < 164104 + [7#8].length)) := by decide

/-- A state with a byte in window 11 takes a WINDOW_WRITE. -/
theorem witness_MemoryCanonicalKept :
    let s := { onLane demoUGG 11 restoreLane with
      windows := [(11534336, 3#8)], pending := [.windowWrite .a 11 1048575 [7#8]] }
    s.memoryOk ∧ ∃ t, step s = .next t :=
  ⟨by unfold State.memoryOk; decide, _, rfl⟩

/-- Credit at the floor with a set staged, at the end of a work window. -/
theorem witness_CreditRangeKept :
    let s := { demoUGG with
      pacer := ⟨.work, -256, 15, some 100, false, ⟨64, 15, 100, 0, 0⟩, some ⟨65535, 15, 4095, 4095, 65535⟩⟩
      pending := [.workWindowEnd] }
    s.pacer.ok ∧ ∃ t, step s = .next t :=
  ⟨⟨by decide, by decide, by decide, by decide, fun q hq => by cases hq; decide⟩, _, rfl⟩

/-- A finding record for the witnesses. -/
def finding (critical : Bool) : Finding := ⟨.copyBad, critical, 100, some 9, some 0, some 0, some 1, none, none, 1⟩

theorem witness_FindingQueueKept :
    let s := { demoUGG with fq := ⟨[finding true], true, 65535⟩, pending := [.walkerPosition] }
    s.fq.ok ∧ ∃ t, step s = .next t :=
  ⟨⟨by decide, by decide, by decide⟩, _, rfl⟩

theorem witness_AttentionLinesKept :
    let s := { demoUGG with
      fq := ⟨[finding false], false, 0⟩, portA := { demoUGG.portA with line := true }
      portB := { demoUGG.portB with line := true }, pending := [.cardReset] }
    s.linesOk ∧ ∃ t, step s = .next t :=
  ⟨⟨by decide, by decide⟩, _, rfl⟩

theorem witness_LadderConditionKept :
    let s := { demoUGG with pending := [.walkerPosition] }
    s.ladderOk ∧ ∃ t, step s = .next t := by
  refine ⟨⟨by decide, by decide, by decide, ?_⟩, _, rfl⟩
  intro m hm
  have hl : ∀ m ∈ demoUGG.media, m.points ≤ 65535 ∧ m.position = 0 ∧ m.points < 16 := by decide
  obtain ⟨h1, h2, h3⟩ := hl m hm
  exact ⟨h1, .inr ⟨⟨16, .watch, false⟩, by rw [h2]; rfl, h3⟩⟩

theorem witness_WorkItemQueueKept :
    let s := { queued demoUGG [item 1 .scrub (.claimed .a 30), item 65535 .scrub .queued] with
      pending := [.claimTimerExpiry 1] }
    s.queue.ok ∧ ∃ t, step s = .next t :=
  ⟨⟨by decide, by decide, by decide, by decide, by decide, by decide⟩, _, rfl⟩

/-- A lane with a feed that ends exactly at its expected length. -/
theorem witness_LaneBytesKept :
    let l := { restoreLane with state := .digesting 24 5, bytesTaken := 1000 }
    let s := { onLane demoUGG 11 l with pending := [.laneFeedCompletion 11] }
    s.lanesOk ∧ ∃ t, step s = .next t := by
  refine ⟨fun n l hl => ?_, _, rfl⟩
  by_cases hn : n < 12
  · have h : ∀ n < 12, ∀ l ∈ (onLane demoUGG 11 { restoreLane with state := .digesting 24 5, bytesTaken := 1000 }).lane n,
        l.bytesTaken ≤ l.expected ∧ l.state = .digesting 24 5 ∧ l.bytesTaken + 24 ≤ l.expected := by decide
    obtain ⟨h1, h2, h3⟩ := h n hn l hl
    refine ⟨h1, fun len tag hs => ?_⟩
    rw [h2] at hs
    cases hs
    exact ⟨by decide, by decide, h3⟩
  · have hnone : State.lane (onLane demoUGG 11 { restoreLane with state := .digesting 24 5, bytesTaken := 1000 }) n = none := by
      simp [State.lane, hn]
    exact absurd (hl.symm.trans hnone) (Option.some_ne_none l)

/-- A plan entry for the witnesses: reel 9 from segment 0, every copy. -/
def planEntry : PlanEntry := ⟨9, 0, 0, 7, true, false, false⟩

/-- A walker at the one entry of slot 0. -/
def walking (s : State) : State :=
  { s with
    walker := ⟨.walking, some 0, none, false, none, some ⟨0, 0, 0⟩, .taken, 1, []⟩
    slots := s.slots.setIfInBounds 0 (.loaded [planEntry]) }

theorem witness_WalkerShapeKept :
    let s := { walking demoUGG with pending := [.walkerPosition] }
    s.walkerOk ∧ ∃ t, step s = .next t := by
  refine ⟨⟨by decide, by decide, fun i hi => ?_, nofun, fun p hp => ?_, fun i es hi => ?_, fun i h tag es hi => ?_,
    fun d hd => ?_⟩, _, rfl⟩
  · cases hi; exact ⟨by decide, by decide⟩
  · cases hp; decide
  · match i, hi with
    | 0, hi => cases hi; decide
    | 1, hi => cases hi
    | n + 2, hi => simp [State.slot, walking] at hi
  · match i, hi with
    | 0, hi => cases hi
    | 1, hi => cases hi
    | n + 2, hi => simp [State.slot, walking] at hi
  · cases hd; decide

/-- Copy 0 of segment 0 in repair, its item QUEUED, an item on another copy CLAIMED, and a dispute on segment 1. -/
def tabled : State :=
  { demo [.repairing, .good, .good] with
    repairs := [⟨⟨9, 0, 0⟩, 3#64, 1, .issued 1, .vote⟩]
    disputes := [{ collecting 1#64 2#64 3#64 with seg := ⟨9, 1⟩ }]
    queue := ⟨[item 1 .repair .queued, { item 2 .scrub (.claimed .a 30) with target := ⟨9, 0, 1⟩ }], 2, [], 0⟩
    pending := [.claimTimerExpiry 2] }

/-- The one copy of `tabled` that is REPAIRING. -/
theorem tabled_repairing (c : CopyId) : (tabled.copy c).trust = .repairing ↔ c = ⟨9, 0, 0⟩ := by
  obtain ⟨r, g, i⟩ := c
  by_cases hr : r = 9
  · subst hr
    match g, i with
    | 0, 0 => decide
    | 0, 1 => decide
    | 0, 2 => decide
    | 0, n + 3 => exact iff_of_false (show ¬CopyRec.initial.trust = .repairing by decide) (by simp)
    | g + 1, i =>
      refine iff_of_false ?_ (by simp)
      have h : tabled.copy ⟨9, g + 1, i⟩ = ((List.replicate 3 CopyRec.initial)[i]?).getD CopyRec.initial := by
        simp [tabled, demo, reelNine, State.copy, State.seg, State.reel?, CopyId.seg, Reel.seg, Sparse.find?, SegRec.initial,
          Reel.copyCount]
      rw [h, List.getElem?_replicate]
      split <;> decide
  · refine iff_of_false ?_ (by simp [hr])
    have h : tabled.copy ⟨r, g, i⟩ = CopyRec.initial := by
      simp [tabled, demo, reelNine, State.copy, State.seg, State.reel?, CopyId.seg, SegRec.initial, Ne.symm hr]
    rw [h]
    decide

theorem witness_TablesKept : tabled.tablesOk ∧ ∃ t, step tabled = .next t := by
  refine ⟨⟨by decide, by decide, by decide, by decide, by decide, fun c => ?_, fun d hd i _ => ?_, fun n l hl => ?_,
    by decide, by decide, by decide, nofun⟩, _, rfl⟩
  · rw [tabled_repairing]
    simp [tabled, eq_comm]
  · rw [ne_eq, tabled_repairing]
    obtain rfl : d = { collecting 1#64 2#64 3#64 with seg := ⟨9, 1⟩ } := by simpa [tabled] using hd
    simp [SegId.copy]
  · have h : tabled.lane n = none := demo_lanes [.repairing, .good, .good] n
    exact absurd (hl.symm.trans h) (Option.some_ne_none l)

/-! ### Witnesses: resets, links, windows and the port area -/

theorem witness_PowerOnAndCardReset :
    (∃ es, 0 < 2 ∧ (walking demoUGG).slot 0 = .loaded es) ∧ ((walking demoUGG).slot 1).isLoaded = false ∧
    1 ≤ ((walking demoUGG).port .a).threshold ∧ (copyRec .suspect).trust = .suspect ∧
    (copyRec .repairing).trust = .repairing ∧ (copyRec .good).trust ≠ .suspect ∧ (copyRec .good).trust ≠ .repairing :=
  ⟨⟨[planEntry], by decide, rfl⟩, rfl, by decide, rfl, rfl, by decide, by decide⟩

/-- Head A's port with its counts as given. -/
def counts (post take reply read : Half) : State :=
  { demoUGG with portA := { demoUGG.portA with orderPost := post, orderTake := take, replyPost := reply, replyRead := read } }

/-- Each clause at its boundary: 15 and 16 orders waiting, across the wrap of the counts; a read up to the reply post count
and one past it. -/
theorem witness_PortCounts :
    (State.reset.port .a).link = false ∧ (demoUGG.port .a).link = true ∧
    (((counts 65535 65520 0 0).port .a).orders < 16 ∧ 0#16 = ((counts 65535 65520 0 0).port .a).orderPost + 1) ∧
    16 ≤ ((counts 0 65520 0 0).port .a).orders ∧ 2#16 ≠ ((counts 0 65520 0 0).port .a).orderPost + 1 ∧
    (1#16 - ((counts 0 0 1 65535).port .a).replyRead).toNat ≤ ((counts 0 0 1 65535).port .a).unread ∧
    ((counts 0 0 1 65535).port .a).unread < (2#16 - ((counts 0 0 1 65535).port .a).replyRead).toNat := by
  decide

theorem witness_WindowWriteResult :
    (let s := onLane demoUGG 11 restoreLane
     (s.port .a).link = true ∧ s.lane 11 = some restoreLane ∧ restoreLane.owner = .a ∧ restoreLane.state = .openFor 20 ∧
     Memory.wf s.windows = true) ∧
    11 < 12 ∧ 1048575 + [7#8].length ≤ 1048576 ∧ (State.reset.port .a).link = false ∧ demoUGG.lane 11 = none ∧
    (∃ l, (onLane demoUGG 11 restoreLane).lane 11 = some l ∧ (l.owner ≠ .b ∨ l.state = .done)) ∧
    (∃ l, (onLane demoUGG 11 { restoreLane with state := .done }).lane 11 = some l ∧ (l.owner ≠ .a ∨ l.state = .done)) ∧
    ∃ l len tag, (demoUGG.port .a).link = true ∧ [7#8] ≠ [] ∧
      (onLane demoUGG 11 { restoreLane with state := .digesting 1024 5 }).lane 11 = some l ∧ l.owner = .a ∧
      l.state = .digesting len tag :=
  ⟨by decide, by decide, by decide, rfl, rfl, ⟨_, rfl, .inl (by decide)⟩, ⟨_, rfl, .inr rfl⟩,
    ⟨_, _, _, rfl, by decide, rfl, rfl, rfl⟩⟩

theorem witness_PortAreaWriteStored :
    (164095 + [7#8].length ≤ 164096 ∨ 164100 ≤ 164095 ∧ 164095 + [7#8].length ≤ 164104) ∧
    (164103 + [7#8].length ≤ 164096 ∨ 164100 ≤ 164103 ∧ 164103 + [7#8].length ≤ 164104) ∧
    (State.reset.port .a).link = false ∧ (demoUGG.port .a).link = true ∧ Memory.wf (demoUGG.port .a).area = true := by
  decide

/-! ### Witnesses: taking orders and posting replies -/

theorem witness_OrdersRefusedOrNotTaken :
    ((posted demoUGG 11 []).port .a).canTake = true ∧
    bodyLength ((posted demoUGG 11 []).port .a).frontOrder.body ((posted demoUGG 11 []).port .a).frontOrder.code = none ∧
    orderTaken (.mediumAdd .a) = some (.a, 1) ∧ ((posted demoUGG 1 (zeros 7)).port .a).canTake = true ∧
    ((posted demoUGG 1 (zeros 7)).port .a).frontOrder.code = 1 ∧
    ((posted demoUGG 1 (zeros 7)).port .a).frontOrder.lengthOk = false ∧ (demoUGG.port .a).canTake = false ∧
    ((posted demoUGG 2 (zeros 4)).port .a).frontOrder.code ≠ 1 ∧
    bodyLength ((posted demoUGG 2 (zeros 4)).port .a).frontOrder.body
      ((posted demoUGG 2 (zeros 4)).port .a).frontOrder.code ≠ none := by decide

theorem witness_ReplyPosted : Memory.wf ((posted demoUGG 1 (zeros 8)).port .a).area = true := by decide

/-! ### Witnesses: the catalogue -/

/-- The body of a MEDIUM_ADD. -/
def mediumBody (id kind : Nat) : List Byte := leBytes 4 id ++ leBytes 1 kind ++ zeros 3

/-- A full Medium Table. -/
def fullTable : State := { State.reset with media := List.replicate 2048 (medium 77 0) }

theorem witness_MediumAddResult :
    (posted demoUGG 1 (mediumBody 0 0)).takes .a 1 5 (mediumBody 0 0) ∧ leAt (mediumBody 0 0) 0 4 = 0 ∧
    2 < leAt (mediumBody 5 3) 4 1 ∧
    (leAt (mediumBody 4 2) 0 4 ≠ 0 ∧ leAt (mediumBody 4 2) 4 1 ≤ 2 ∧ ∃ m ∈ demoUGG.media, m.id = leAt (mediumBody 4 2) 0 4) ∧
    (posted fullTable 1 (mediumBody 4294967295 2)).takes .a 1 5 (mediumBody 4294967295 2) ∧
    ((∀ m ∈ fullTable.media, m.id ≠ leAt (mediumBody 4294967295 2) 0 4) ∧ 2048 ≤ fullTable.media.length) ∧
    (posted demoUGG 1 (mediumBody 4294967295 2)).takes .a 1 5 (mediumBody 4294967295 2) ∧
    MediumKind.ofCode (leAt (mediumBody 4294967295 2) 4 1) = some .optical ∧ leAt (mediumBody 4294967295 2) 0 4 ≠ 0 ∧
    (∀ m ∈ demoUGG.media, m.id ≠ leAt (mediumBody 4294967295 2) 0 4) ∧ demoUGG.media.length < 2048 := by
  unfold State.takes; decide +kernel

/-- Reel 8, ADDING for head A, on medium 4. -/
def addingReel : Reel := { reelNine [] with acc := 8, state := .adding .a 5, copyMedia := [4], firstIndex := 2, segs := [] }

theorem witness_MediumRecordOrders :
    (posted demoUGG 2 (leBytes 4 5)).takes .a 2 5 (leBytes 4 5) ∧ (∀ m ∈ demoUGG.media, m.id ≠ leAt (leBytes 4 5) 0 4) ∧
    (∃ m, demoUGG.medium? (leAt (leBytes 4 1) 0 4) = some m ∧ 0 < m.copyCount) ∧
    (∃ r ∈ ({ demoUGG with reels := [addingReel] } : State).reels, r.isActive = false ∧ leAt (leBytes 4 4) 0 4 ∈ r.copyMedia) ∧
    (∃ m, demoUGG.medium? (leAt (leBytes 4 4) 0 4) = some m ∧ m.copyCount = 0) ∧
    (∀ r ∈ demoUGG.reels, r.isActive = false → leAt (leBytes 4 4) 0 4 ∉ r.copyMedia) ∧
    (posted demoUGG 3 (leBytes 4 1)).takes .a 3 5 (leBytes 4 1) ∧ (posted demoUGG 4 (leBytes 4 1)).takes .a 4 5 (leBytes 4 1) ∧
    (posted demoUGG 5 (leBytes 4 1)).takes .a 5 5 (leBytes 4 1) ∧ demoUGG.medium? (leAt (leBytes 4 5) 0 4) = none := by
  unfold State.takes
  refine ⟨by decide, by decide, ⟨_, rfl, by decide⟩, ⟨addingReel, by decide, by decide, by decide⟩,
    ⟨_, rfl, by decide⟩, by decide, by decide, by decide, by decide, by decide⟩

/-- The body of a REEL_ADD of reel 10: one copy on medium 1, one frame of 512 bytes. -/
def reelBody : List Byte :=
  leBytes 6 10 ++ leBytes 1 1 ++ zeros 1 ++ leBytes 4 512 ++ leBytes 4 1 ++ leBytes 1 1 ++ zeros 1 ++ leBytes 2 4095 ++
    leBytes 4 1 ++ zeros 8

theorem witness_ReelAddResult :
    ((posted demoUGG 6 reelBody).takes .a 6 5 reelBody ∧ (reelOperand .a 5 reelBody).argumentsOk (leAt reelBody 6 1) = true ∧
      (∀ id ∈ (reelOperand .a 5 reelBody).copyMedia, ∃ m ∈ demoUGG.media, m.id = id) ∧
      (∀ r ∈ demoUGG.reels, r.acc ≠ leAt reelBody 0 6) ∧ demoUGG.reels.length < 4096 ∧
      (posted demoUGG 6 reelBody).firstFit (reelOperand .a 5 reelBody).segCount = some 2) ∧
    (demoUGG.firstFit 524286 = some 2 ∧ demoUGG.firstFit 524287 = none) ∧
    (({ demoUGG with reels := [addingReel] } : State).reel? 8 = some addingReel ∧ addingReel.state = .adding .a 5) ∧
    ∀ r, demoUGG.reel? 9 = some r → r.state = .active :=
  ⟨by unfold State.takes; decide, by decide, ⟨rfl, rfl⟩, fun r hr => by cases hr; rfl⟩

theorem witness_ReelRemoveResult :
    (posted demoUGG 7 (leBytes 6 9 ++ zeros 2)).takes .a 7 5 (leBytes 6 9 ++ zeros 2) ∧
    demoUGG.activeReel? (leAt (leBytes 6 8 ++ zeros 2) 0 6) = none ∧
    demoUGG.activeReel? (leAt (leBytes 6 9 ++ zeros 2) 0 6) = some (reelNine [.unverified, .good, .good]) ∧
    (∃ i ∈ (queued demoUGG [item 1 .scrub .queued]).queue.items, i.target.reel = leAt (leBytes 6 9 ++ zeros 2) 0 6) ∧
    (∀ n l, demoUGG.lane n = some l → l.target.reel ≠ leAt (leBytes 6 9 ++ zeros 2) 0 6) ∧ demoUGG.queue.items = [] ∧
    demoUGG.disputes = [] ∧ demoUGG.repairs = [] := by
  refine ⟨by unfold State.takes; decide, rfl, rfl, ⟨_, .head _, rfl⟩, fun n l hl => ?_, rfl, rfl, rfl⟩
  have hfree : demoUGG.lane n = none := demo_lanes _ n
  exact absurd (hl.symm.trans hfree) (Option.some_ne_none l)

/-- The body of a REFERENCE_LOAD for segment 0 or 1 of reel 9 with a list of two digests. -/
def referenceBody (segment replace : Nat) : List Byte :=
  leBytes 6 9 ++ leBytes 2 segment ++ leBytes 8 0x22 ++ leBytes 1 replace ++ leBytes 1 2 ++ zeros 6 ++ leBytes 8 1 ++ leBytes 8 2

theorem witness_ReferenceLoadResult :
    (posted demoUGG 8 (referenceBody 1 0)).takes .a 8 5 (referenceBody 1 0) ∧ leAt (referenceBody 1 0) 16 1 ≤ 1 ∧
    (posted demoUGG 8 (referenceBody 1 0)).checkSeg (segOperand (referenceBody 1 0)) =
      .ok (reelNine [.unverified, .good, .good]) ∧
    leAt (referenceBody 1 0) 17 1 = (reelNine []).frameCount (leAt (referenceBody 1 0) 6 2) ∧
    (demoUGG.seg (segOperand (referenceBody 1 0))).reference = none ∧
    (posted demoUGG 8 (referenceBody 0 1)).takes .a 8 5 (referenceBody 0 1) ∧
    (demoUGG.seg (segOperand (referenceBody 0 0))).reference ≠ none ∧ leAt (referenceBody 0 0) 16 1 = 0 ∧
    leAt (referenceBody 0 1) 16 1 = 1 ∧
    (queued demoUGG [item 1 .scrub .queued]).refersTo (fun q => q == segOperand (referenceBody 0 1)) = true ∧
    demoUGG.refersTo (fun q => q == segOperand (referenceBody 0 1)) = false := by
  refine ⟨by unfold State.takes; decide, by decide, rfl, by decide, by decide, by unfold State.takes; decide,
    by decide⟩

/-- The body of an order on a segment of reel 9, with one more byte and padding. -/
def segBody (segment more : Nat) : List Byte := leBytes 6 9 ++ leBytes 2 segment ++ leBytes 1 more ++ zeros 7

theorem witness_SegmentReadResult :
    (posted demoUGG 9 (leBytes 6 9 ++ leBytes 2 1)).takes .a 9 5 (leBytes 6 9 ++ leBytes 2 1) ∧
    demoUGG.checkSeg (segOperand (leBytes 6 9 ++ leBytes 2 1)) = .ok (reelNine [.unverified, .good, .good]) ∧
    demoUGG.checkSeg (segOperand (leBytes 6 9 ++ leBytes 2 2)) = .error .badArgument := by
  refine ⟨by unfold State.takes; decide, rfl, rfl⟩

/-- Copy 1 answers for segment 0 with nothing excluded; with every copy BAD there is no candidate. -/
theorem witness_CopySelectResult :
    (posted demoUGG 10 (segBody 0 255)).takes .a 10 5 (segBody 0 255) ∧
    (leAt (segBody 0 255) 8 1 = 255 → demoUGG.checkSeg (segOperand (segBody 0 255)) = .ok (reelNine [.unverified, .good, .good])) ∧
    (leAt (segBody 0 255) 8 1 ≠ 255 → demoUGG.checkCopy ((segOperand (segBody 0 255)).copy (leAt (segBody 0 255) 8 1)) =
      .ok (reelNine [.unverified, .good, .good])) ∧
    (∀ d ∈ demoUGG.copiesOf (segOperand (segBody 0 255)), ∀ other ∈ tierOf (demoUGG.copy d).trust (demoUGG.copyHealth d),
      1 < other ∨ 1 = other ∧ 1 ≤ d.copy) ∧
    tierOf (demoUGG.copy ⟨9, 0, 1⟩).trust (demoUGG.copyHealth ⟨9, 0, 1⟩) = some 1 ∧
    ∀ d ∈ (demo [.bad, .bad, .bad]).copiesOf (segOperand (segBody 0 255)),
      tierOf ((demo [.bad, .bad, .bad]).copy d).trust ((demo [.bad, .bad, .bad]).copyHealth d) = none := by
  refine ⟨by unfold State.takes; decide, fun _ => rfl, fun h => absurd (by decide) h, by decide,
    by decide, by decide⟩

/-! ### Witnesses: lanes -/

/-- The body of a LANE_OPEN: form, copy index, tag, and the segment. -/
def openBody (form copy tag segment : Nat) : List Byte :=
  leBytes 1 form ++ zeros 1 ++ leBytes 2 tag ++ leBytes 1 copy ++ zeros 3 ++ leBytes 6 9 ++ leBytes 2 segment

/-- Every lane in use but those from `n` on. -/
def lanesBefore (n : Nat) (s : State) : State := (List.range n).foldl (fun t i => t.setLane i (some restoreLane)) s

/-- An item CLAIMED by head A. -/
def claimedItem : Item := item 65535 .scrub (.claimed .a 30)

/-- The body of a LANE_FEED of lane 11. -/
def feedBody (len offset : Nat) : List Byte := leBytes 1 11 ++ zeros 3 ++ leBytes 4 len ++ leBytes 4 offset

/-- A RESTORE lane with bytes taken. -/
def fedLane (taken : Nat) : LaneCtx := { restoreLane with bytesTaken := taken }

theorem witness_LaneOpenAndFeed :
    ((let s := posted (lanesBefore 11 demoUGG) 16 (openBody 1 2 0 0)
     s.takes .a 16 5 (openBody 1 2 0 0) ∧ Purpose.ofCode (leAt (openBody 1 2 0 0) 0 1) = some .restore ∧
     s.checkCopy ⟨leAt (openBody 1 2 0 0) 8 6, leAt (openBody 1 2 0 0) 14 2, leAt (openBody 1 2 0 0) 4 1⟩ =
       .ok (reelNine [.unverified, .good, .good]) ∧
     s.refDigest ⟨leAt (openBody 1 2 0 0) 8 6, leAt (openBody 1 2 0 0) 14 2⟩ ≠ none ∧ s.lane 11 = none ∧
     ∀ m, m < 11 → s.lane m ≠ none) ∧
    (let s := posted (queued (lanesBefore 11 demoUGG) [claimedItem]) 16 (openBody 0 0 65535 0)
     s.takes .a 16 5 (openBody 0 0 65535 0) ∧ leAt (openBody 0 0 65535 0) 0 1 = 0 ∧
     s.item? (leAt (openBody 0 0 65535 0) 2 2) = some claimedItem ∧ claimedItem.state = .claimed .a 30 ∧
     s.reel? claimedItem.target.reel = some (reelNine [.unverified, .good, .good]) ∧ s.lane 11 = none ∧
     ∀ m, m < 11 → s.lane m ≠ none) ∧
    let s := posted (queued (lanesBefore 12 demoUGG) [claimedItem]) 16 (openBody 0 0 65535 0)
    s.takes .a 16 5 (openBody 0 0 65535 0) ∧ s.item? 65535 = some claimedItem ∧
    s.reel? claimedItem.target.reel = some (reelNine [.unverified, .good, .good]) ∧ ∀ n, n < 12 → s.lane n ≠ none) ∧
    (posted (onLane demoUGG 11 (fedLane 1000)) 17 (feedBody 24 1000)).takes .a 17 5 (feedBody 24 1000) ∧
    leAt (feedBody 24 1000) 0 1 < 12 ∧
    (posted (onLane demoUGG 11 (fedLane 1000)) 17 (feedBody 24 1000)).lane (leAt (feedBody 24 1000) 0 1) = some (fedLane 1000) ∧
    (fedLane 1000).owner = .a ∧ (fedLane 1000).state = .openFor 20 ∧ 1 ≤ leAt (feedBody 24 1000) 4 4 ∧
    leAt (feedBody 24 1000) 4 4 ≤ 1048576 ∧
    (leAt (feedBody 24 1000) 8 4 = (fedLane 1000).bytesTaken ∧
      leAt (feedBody 24 1000) 8 4 + leAt (feedBody 24 1000) 4 4 ≤ (fedLane 1000).expected) ∧
    leAt (feedBody 24 1001) 8 4 ≠ (fedLane 1000).bytesTaken ∧
    (leAt (feedBody 25 1000) 8 4 = (fedLane 1000).bytesTaken ∧
      (fedLane 1000).expected < leAt (feedBody 25 1000) 8 4 + leAt (feedBody 25 1000) 4 4) := by
  unfold State.takes
  refine ⟨⟨⟨by decide, rfl, rfl, by decide, rfl, by decide⟩,
    ⟨by decide, rfl, rfl, rfl, rfl, rfl, by decide⟩, by decide, rfl, rfl, by decide⟩,
    by decide⟩

/-- A feed that ends a byte before the expected length; a byte inside a frame and one that completes it. -/
theorem witness_FeedCompletionContinues :
    (onLane demoUGG 11 { fedLane 1000 with state := .digesting 23 5 }).lane 11 =
      some { fedLane 1000 with state := .digesting 23 5 } ∧
    (fedLane 1000).bytesTaken + 23 < (fedLane 1000).expected ∧
    demoUGG.reel? (fedLane 1000).target.reel = some (reelNine [.unverified, .good, .good]) ∧
    (fedLane 510).bytesTaken + 1 ≠ ((fedLane 510).frameIndex + 1) * 512 ∧
    (fedLane 511).bytesTaken + 1 = ((fedLane 511).frameIndex + 1) * 512 := by
  refine ⟨by decide, by decide, rfl, by decide, by decide⟩

/-- A lane before its last byte, in its second frame, with the register as at its opening. -/
def lastByteLane : LaneCtx := { restoreLane with bytesTaken := 1023, frameIndex := 1 }

/-- Segment 0 of reel 9 with the digest of one zero byte as its reference. -/
def zeroDemo : State :=
  { demoUGG with reels := [{ reelNine [] with
      segs := [(0, ⟨some ⟨digest [0#8], .loaded⟩, none, [.unverified, .good, .good].map copyRec⟩)] }] }

/-- A lane whose feed brings its last byte, in the second frame, with the registers as at the opening; and the lane with
that byte taken. -/
def lastByte (l : LaneCtx) : LaneCtx := { l with bytesTaken := 1023, frameIndex := 1, state := .digesting 1 5 }
def readOf (s : State) (l : LaneCtx) : LaneCtx :=
  (lastByte l).takeBytes 512 (s.seg l.target.seg).frameList (Memory.load s.windows 11534336 1)
def digestOf (s : State) (l : LaneCtx) : Digest := crcFinal ((Memory.load s.windows 11534336 1).foldl crcByte l.segCrc)

/-- The read of that lane completes. -/
theorem lastByte_completes {s : State} {l : LaneCtx} {r : Reel} (hl : s.lane 11 = some (lastByte l))
    (he : l.expected = 1024) (hr : s.reel? l.target.reel = some r) (hf : r.frameSize = 512) :
    s.completes 11 (lastByte l) (readOf s l) 5 (digestOf s l) :=
  ⟨by decide, hl, 1, r, rfl, he.symm, hr, by rw [hf]; rfl, rfl⟩

/-- Segment 0 of reel 9 with a reference, a frame digest list and its copies. -/
def segZero (ref : Option Digest) (list : Option (List Digest)) (ts : List Trust) : State :=
  { demoUGG with reels := [{ reelNine [] with
      segs := [(0, ⟨ref.map fun d => ⟨d, .loaded⟩, list, ts.map copyRec⟩)] }] }

/-- The read of a RESTORE lane comes to its routing, whatever the reference and the frame digest list. -/
theorem witness_reads :
    ∀ list ref,
      let s := onLane (segZero (some ref) list [.unverified, .good, .good]) 11 (lastByte restoreLane)
      s.completes 11 (lastByte restoreLane) (readOf s restoreLane) 5 (digestOf s restoreLane) ∧
        s.refDigest ⟨9, 0⟩ = some ref ∧ s.collecting? ⟨9, 0⟩ = none ∧
        ∃ v, s.readyToRoute 11 (lastByte restoreLane) (readOf s restoreLane) (digestOf s restoreLane) v :=
  fun _ _ => ⟨lastByte_completes rfl rfl rfl rfl, rfl, rfl, _, _, rfl, .inl ⟨by decide, rfl, rfl⟩⟩

/-- The MATCH in full; a lane with its window-conflict flag set, a RESTORE and an INGEST lane on a segment without a
reference, then the reads of `witness_reads`; last the copies that the plain rules look at. -/
theorem witness_FeedCompletionJudges :
    (let l := { lastByteLane with state := .digesting 1 5 }
     let s := onLane zeroDemo 11 l
     11 < 12 ∧ s.lane 11 = some l ∧ l.bytesTaken + 1 = l.expected ∧ l.purpose ≠ .item ∧ l.itemTag = none ∧
     l.conflict = false ∧ (s.reel? l.target.reel).map Reel.frameSize = some 512 ∧
     s.refDigest l.target.seg = some (crcFinal ((Memory.load s.windows (11 * 1048576) 1).foldl crcByte l.segCrc)) ∧
     (l.takeBytes 512 (s.seg l.target.seg).frameList (Memory.load s.windows (11 * 1048576) 1)).badMask = 0#64 ∧
     s.dispute? l.target.seg = none ∧ ((s.copy l.target).trust = .unverified ∨ (s.copy l.target).trust = .good) ∧
     l.target.copy < (s.seg l.target.seg).copies.length) ∧
    (let l := { restoreLane with conflict := true }
     let s := onLane demoUGG 11 (lastByte l)
     s.completes 11 (lastByte l) (readOf s l) 5 (digestOf s l) ∧ l.purpose ≠ .item ∧ l.itemTag = none ∧ l.conflict = true) ∧
    (let s := onLane (segZero none none []) 11 (lastByte restoreLane)
     s.completes 11 (lastByte restoreLane) (readOf s restoreLane) 5 (digestOf s restoreLane) ∧
     restoreLane.purpose = .restore ∧ s.refDigest restoreLane.target.seg = none) ∧
    (let l := { restoreLane with purpose := .ingest }
     let s := onLane (segZero none none [.unverified]) 11 (lastByte l)
     s.completes 11 (lastByte l) (readOf s l) 5 (digestOf s l) ∧ l.conflict = false ∧ l.purpose = .ingest ∧
     l.itemTag = none ∧ s.refDigest l.target.seg = none ∧ s.dispute? l.target.seg = none ∧
     (s.copy l.target).trust = .unverified) ∧
    digestOf (segZero none none []) restoreLane = digest [0#8] ∧
    (readOf (segZero none (some [1#64, 2#64]) []) restoreLane).badMask = 2#64 ∧
    (demoUGG.awaiting? (CopyId.seg ⟨9, 0, 0⟩) = none ∧ (demoUGG.copy ⟨9, 0, 0⟩).trust = .unverified ∧
      (demoUGG.copy ⟨9, 0, 1⟩).trust = .good ∧ ((demo [.bad]).copy ⟨9, 0, 0⟩).trust = .bad) ∧
    (let s := demoUGG.modCopy ⟨9, 0, 0⟩ fun c => { c with trust := .suspect, deferred := true }
     s.awaiting? (CopyId.seg ⟨9, 0, 0⟩) = none ∧ (s.copy ⟨9, 0, 0⟩).trust = .suspect ∧
     (s.copy ⟨9, 0, 0⟩).deferred = true) ∧
    (disputed [.suspect, .suspect, .bad] awaiting).awaiting? (CopyId.seg ⟨9, 0, 0⟩) = some (awaiting, 0x22#64) :=
  ⟨by decide, ⟨lastByte_completes rfl rfl rfl rfl, by decide, rfl, rfl⟩,
    ⟨lastByte_completes rfl rfl rfl rfl, rfl, by decide⟩,
    ⟨lastByte_completes rfl rfl rfl rfl, rfl, rfl, rfl, by decide, rfl, by decide⟩,
    by decide, by decide, by decide, by decide, rfl⟩

/-- Item 410, BOUND to lane 11 with a requeue count of 2, and its lane. -/
def boundItem : Item := { item 410 .scrub (.bound 11) with requeue := 2 }
def itemLane : LaneCtx := { restoreLane with purpose := .item, itemTag := some 410 }

theorem witness_LaneEndsUnjudged :
    ((onLane demoUGG 11 (fedLane 0)).lane 11 = some (fedLane 0) ∧ (fedLane 0).purpose ≠ .item ∧ (fedLane 0).itemTag = none ∧
      (posted (onLane demoUGG 11 (fedLane 0)) 18 (leBytes 4 11)).takes .a 18 5 (leBytes 4 11) ∧
      (posted (onLane demoUGG 11 (fedLane 0)) 19 (leBytes 4 11)).takes .a 19 5 (leBytes 4 11) ∧
      leAt (leBytes 4 11) 0 1 = 11 ∧ (fedLane 0).owner = .a ∧ (fedLane 0).state = .openFor 20 ∧
      ({ fedLane 0 with state := .digesting 24 5 } : LaneCtx).state = .digesting 24 5) ∧
    ((∀ code ∈ [18, 19], ∀ st ∈ [LaneState.openFor 20, .digesting 24 5],
      let l := { itemLane with state := st }
      let s := posted (queued (onLane demoUGG 11 l) [item 409 .scrub .queued, boundItem]) code (leBytes 4 11)
      s.takes .a code 5 (leBytes 4 11) ∧ leAt (leBytes 4 11) 0 1 = 11 ∧ s.lane 11 = some l ∧ l.owner = .a ∧
      l.purpose = .item ∧ l.itemTag = some boundItem.tag ∧ s.item? boundItem.tag = some boundItem ∧
      (s.queue.items.map Item.tag).Nodup) ∧
    boundItem.requeue < 3 ∧ demoUGG.disputes = [] ∧ demoUGG.repairs = []) := by
  unfold State.takes; decide

/-- A repair entry on copy 0, in a state, with items and waiting owners. -/
def repairing (st : RepairState) (items : List Item) (waiters : List Waiter) : State :=
  { demo [.repairing, .good, .good] with
    repairs := [⟨⟨9, 0, 0⟩, 3#64, 1, st, .vote⟩], queue := ⟨items, 412, waiters, 1⟩ }

/-- Items 410, BOUND to lane 11 of head A, and 411, CLAIMED by it, behind one that is QUEUED; and a RESTORE lane of head A. -/
def holding : State :=
  queued (onLane (onLane demoUGG 11 itemLane) 2 (fedLane 600)) [item 409 .scrub .queued, boundItem, item 411 .scrub (.claimed .a 30)]

/-- Both heads' events; items that head A holds in each way, none of which has lost its purpose; and one that has. -/
theorem witness_PortResetGivesBack :
    (posted demoUGG 59 []).takes .a 59 5 [] ∧ (demoUGG.port .a).link = true ∧ (State.reset.port .a).link = false ∧
    (posted holding 59 []).takes .a 59 5 [] ∧ (holding.port .a).link = true ∧
    holding.holds .a boundItem ∧ holding.holds .a (item 411 .scrub (.claimed .a 30)) ∧
    (∀ it ∈ holding.queue.items, holding.holds .a it → ¬holding.lostPurpose it) ∧
    (repairing .waitingPlace [claimedItem] []).holds .a claimedItem ∧
    (repairing .waitingPlace [claimedItem] []).lostPurpose claimedItem := by
  unfold State.takes
  refine ⟨by decide, rfl, rfl, by decide, rfl, .inr ⟨11, itemLane, by decide, by decide, by decide, by decide⟩, .inl rfl, ?_,
    .inl rfl, .inr ⟨by decide, _, rfl⟩⟩
  rintro it - - (⟨d, _, _, hd, _⟩ | ⟨_, r, hr⟩)
  · cases hd
  · cases hr

/-- R168, R46, R44: both items are QUEUED ahead of item 409, in the order they had, with their requeue counts, and the
RESTORE lane's 600 bytes are charged 1 CU. -/
theorem test_port_reset_returns :
    ((holding.resetPort .a).queue.items.map fun i => (i.tag, i.state, i.requeue)) =
      [(410, .queued, 2), (411, .queued, 0), (409, .queued, 0)] ∧ (holding.resetPort .a).pacer.credit = -1 := by decide

/-- Item 410 as a REPAIR item, and copy 0 of segment 0 REPAIRING with an entry at an attempt that the item serves. -/
def repairItem : Item := { boundItem with kind := .repair }
def repairState (ref : Digest) (attempt : Nat) (others : List Item) (waiters : List Waiter) : State :=
  { onLane (segZero (some ref) none [.repairing, .good, .good]) 11 (lastByte itemLane) with
    repairs := [⟨⟨9, 0, 0⟩, 3#64, attempt, .issued 410, .vote⟩]
    queue := ⟨repairItem :: others, 412, waiters, 1⟩ }

/-- Thirty-nine items besides item 410, and an owner that waits. -/
def fullOthers : List Item := (List.range 39).map fun i => { item (i + 1) .scrub .queued with target := ⟨9, 1, 0⟩ }

/-- Each way an ITEM lane's read completes: with its window-conflict flag set; a SCRUB item's; a REPAIR item's that MATCHes,
and that MISMATCHes at attempts 2 and 3, with a place in the queue and without one. -/
theorem witness_ItemFeedCompletions :
    (let l := { itemLane with conflict := true }
     let s := queued (onLane demoUGG 11 (lastByte l)) [item 409 .scrub .queued, boundItem]
     s.completes 11 (lastByte l) (readOf s l) 5 (digestOf s l) ∧ l.purpose = .item ∧ l.itemTag = some boundItem.tag ∧
     s.item? boundItem.tag = some boundItem ∧ l.conflict = true ∧ s.isPurposeless boundItem = false ∧
     boundItem.requeue < 3 ∧ (s.queue.items.map Item.tag).Nodup) ∧
    (let s := queued (onLane demoUGG 11 (lastByte itemLane)) [boundItem]
     s.completes 11 (lastByte itemLane) (readOf s itemLane) 5 (digestOf s itemLane) ∧
     s.refDigest itemLane.target.seg = some 0x11#64 ∧ boundItem.kind ≠ .repair ∧ s.collecting? itemLane.target.seg = none ∧
     ∃ v, s.readyToRoute 11 (lastByte itemLane) (readOf s itemLane) (digestOf s itemLane) v) ∧
    (∀ ref attempt others waiters,
      let s := repairState ref attempt others waiters
      s.completes 11 (lastByte itemLane) (readOf s itemLane) 5 (digestOf s itemLane) ∧
      s.item? repairItem.tag = some repairItem ∧ s.refDigest itemLane.target.seg = some ref ∧ repairItem.kind = .repair ∧
      s.repair? itemLane.target = some ⟨⟨9, 0, 0⟩, 3#64, attempt, .issued 410, .vote⟩) ∧
    digestOf (repairState 7#64 2 [] []) itemLane = digest [0#8] ∧ digest [0#8] ≠ 7#64 ∧
    (let s := repairState 7#64 2 [] []
     ∃ v, s.readyToRoute 11 (lastByte itemLane) (readOf s itemLane) (digestOf s itemLane) v ∧ v.queue.items.length < 40) ∧
    let s := repairState 7#64 2 fullOthers [⟨0, .repair ⟨9, 0, 1⟩⟩]
    ∃ v, s.readyToRoute 11 (lastByte itemLane) (readOf s itemLane) (digestOf s itemLane) v ∧ 40 ≤ v.queue.items.length := by
  refine ⟨⟨lastByte_completes rfl rfl rfl rfl, by decide⟩,
    ⟨lastByte_completes rfl rfl rfl rfl, by decide, by decide, rfl, _, _, rfl, .inr ⟨boundItem, rfl, rfl, rfl, rfl⟩⟩,
    fun _ _ _ _ => ⟨lastByte_completes rfl rfl rfl rfl, rfl, rfl, rfl, rfl⟩, by decide, by decide,
    ⟨_, ⟨_, rfl, .inr ⟨repairItem, rfl, rfl, rfl, rfl⟩⟩, by decide⟩,
    ⟨_, ⟨_, rfl, .inr ⟨repairItem, rfl, rfl, rfl, rfl⟩⟩, by decide⟩⟩

theorem witness_LaneReportResult :
    (posted (onLane demoUGG 11 { fedLane 0 with state := .done }) 20 (leBytes 4 11)).takes .a 20 5 (leBytes 4 11) ∧
    leAt (leBytes 4 11) 0 1 < 12 ∧
    (onLane demoUGG 11 { fedLane 0 with state := .done }).lane 11 = some { fedLane 0 with state := .done } ∧
    (onLane demoUGG 11 (fedLane 0)).lane 11 = some (fedLane 0) ∧ (fedLane 0).state ≠ .done ∧
    (onLane demoUGG 11 { fedLane 0 with owner := .b }).lane 11 = some { fedLane 0 with owner := .b } := by
  unfold State.takes; decide

/-! ### Witnesses: work items -/

/-- Medium 1, with copy 0, taken out of service by a head. -/
def withoutOne (s : State) : State := s.modMedium 1 fun m => { m with withdrawnByHead := true }

/-- A claim whose first QUEUED item passes, for both kinds of item; one that turns away the item of a WITHDRAWN medium and
passes the next; and one that turns away the only QUEUED item. -/
theorem witness_ItemClaimResult :
    (let s := posted (queued demoUGG [claimedItem, item 7 .confirm .queued]) 24 []
     s.takes .a 24 5 [] ∧ (s.popOrder .a).turnsAwayAll [] (s.popOrder .a) ∧
     (s.popOrder .a).queue.items.find? Item.isQueued = some (item 7 .confirm .queued) ∧
     (s.popOrder .a).copyHealth (item 7 .confirm .queued).target ≠ .withdrawn ∧ (item 7 .confirm .queued).kind ≠ .repair ∧
     (s.popOrder .a).reel? 9 = some (reelNine [.unverified, .good, .good])) ∧
    (let s := queued (demo [.repairing, .good, .good]) [item 7 .repair .queued]
     s.queue.items.find? Item.isQueued = some (item 7 .repair .queued) ∧ s.copyHealth ⟨9, 0, 0⟩ ≠ .withdrawn ∧
     s.source? ⟨9, 0, 0⟩ = some 1) ∧
    (let next := { item 8 .scrub .queued with target := ⟨9, 0, 1⟩ }
     let s := posted (queued (withoutOne demoUGG) [item 7 .scrub .queued, next]) 24 []
     s.takes .a 24 5 [] ∧ ∃ u, (s.popOrder .a).turnsAwayAll [item 7 .scrub .queued] u ∧
       u.queue.items.find? Item.isQueued = some next ∧ u.copyHealth next.target ≠ .withdrawn) ∧
    (let s := posted (queued (withoutOne demoUGG) [item 7 .scrub .queued]) 24 []
     s.takes .a 24 5 [] ∧ ∃ u, (s.popOrder .a).turnsAwayAll [item 7 .scrub .queued] u ∧
       ∀ i ∈ u.queue.items, i.isQueued = false) ∧
    ∀ i ∈ (queued demoUGG [claimedItem]).queue.items, i.isQueued = false := by
  unfold State.takes
  exact ⟨⟨by decide, rfl, by decide, by decide, by decide, rfl⟩, by decide,
    ⟨by decide, _, ⟨by decide, _, .inr (.inr ⟨by decide, by decide, rfl⟩), rfl⟩, by decide⟩,
    ⟨by decide, _, ⟨by decide, _, .inr (.inr ⟨by decide, by decide, rfl⟩), rfl⟩, by decide⟩,
    by decide⟩

/-- Item 65535, CLAIMED, of a kind; and a state whose entry on segment 0 has the given slot 0. -/
def claimedOf (kind : ItemKind) : Item := item 65535 kind (.claimed .a 30)
def withSlot (st : Slot) (items : List Item) : State :=
  queued (disputed [.suspect, .good, .good] { collecting 1#64 2#64 3#64 with slots := [st, .wanted, .notWanted] }) items

/-- Both returns and a lapse; UNREADABLE for an item of each kind: a CONFIRM item of an ISSUED slot and of one that another
lane has filled, a SCRUB item that serves no slot, and a REPAIR item. -/
theorem witness_ItemReturnAndLapse :
    (∀ kind ∈ [ItemKind.scrub, .confirm, .repair],
      let s := posted (queued demoUGG [claimedOf kind]) 25 (leBytes 2 65535 ++ leBytes 2 2)
      s.takes .a 25 5 (leBytes 2 65535 ++ leBytes 2 2) ∧ s.item? (leAt (leBytes 2 65535 ++ leBytes 2 2) 0 2) =
        some (claimedOf kind) ∧ (claimedOf kind).kind = kind ∧ (claimedOf kind).state = .claimed .a 30) ∧
    (∀ st ∈ [Slot.issued 65535, .observed (obs 2#64) 3 (some 65535), .wanted],
      ((withSlot st [claimedOf .confirm]).collecting? ⟨9, 0⟩).bind (fun d => d.slots[0]?) = some st) ∧
    Slot.wanted.tag ≠ some 65535 ∧
    let it := { claimedItem with requeue := 2 }
    let s := posted (queued demoUGG [it]) 25 (leBytes 2 65535 ++ leBytes 2 1)
    s.takes .a 25 5 (leBytes 2 65535 ++ leBytes 2 1) ∧ leAt (leBytes 2 65535 ++ leBytes 2 1) 2 1 = 1 ∧
    s.item? (leAt (leBytes 2 65535 ++ leBytes 2 1) 0 2) = some it ∧ it.state = .claimed .a 30 ∧
    s.isPurposeless it = false ∧ it.requeue < 3 ∧ leAt (leBytes 2 65535 ++ leBytes 2 2) 2 1 = 2 ∧ it.kind = .scrub ∧
    s.dispute? it.target.seg = none ∧ s.repair? it.target = none ∧
    (posted demoUGG 25 (leBytes 2 1 ++ leBytes 2 3)).takes .a 25 5 (leBytes 2 1 ++ leBytes 2 3) ∧
    2 < leAt (leBytes 2 1 ++ leBytes 2 3) 2 1 ∧ leAt (leBytes 2 1 ++ leBytes 2 0) 2 1 = 0 ∧
    (∀ i ∈ s.item? 65535, i.isClaimedBy .b = false) ∧
    let u := queued demoUGG [item 7 .scrub .queued, it]
    u.item? 65535 = some it ∧ it.state = .claimed .a 30 ∧ u.isPurposeless it = false ∧ it.requeue < 3 ∧
    (u.queue.items.map Item.tag).Nodup ∧ (∃ i ∈ u.item? 7, i.isQueued = true) ∧ u.item? 8 = none ∧
    (queued demoUGG [boundItem]).item? 410 = some boundItem ∧ boundItem.state = .bound 11 := by
  unfold State.takes; decide

/-- Medium 1 with points and its saturated mark. -/
def pointed (points : Nat) (saturated : Bool) : State :=
  demoUGG.modMedium 1 fun m => { m with points := points, saturated := saturated }

/-- A saturated medium; and the charge of 8 points that just fits, and one that does not. -/
theorem witness_MediumCharge :
    (∀ points saturated, ∃ m, (pointed points saturated).medium? ((pointed points saturated).mediumOf ⟨9, 0, 0⟩) = some m ∧
      m.points = points ∧ m.saturated = saturated) ∧
    65527 + 8 ≤ 65535 ∧ 65535 < 65528 + 8 :=
  ⟨fun _ _ => ⟨_, rfl, rfl, rfl⟩, by decide⟩

/-- R171, R172: medium 3, at 15 points, passes the step of threshold 16 with the 8 points of a copy judged BAD. -/
theorem test_charge_passes_step :
    (demoUGG.chargeMedium ⟨9, 0, 2⟩ 8).fq.findings.map (fun f => (f.kind, f.detail)) =
      [(.mediumStep, 23 + 65536 * 0 + 524288 * 1)] ∧
    ((demoUGG.chargeMedium ⟨9, 0, 2⟩ 8).medium? 3).map Medium.ladderState = some .watch := by decide

/-- Items ever bound and not; an owner that waits, with 39 and with 40 items; and an entry that waits for a leftover item,
one whose waiting start is taken, and one that does not wait. -/
theorem witness_ItemDepartures :
    (item 1 .scrub .queued).everBound = false ∧ ({ boundItem with everBound := true } : Item).everBound = true ∧
    demoUGG.queue.waiters = [] ∧
    (let s := repairing .waitingPlace (List.replicate 39 boundItem) [⟨1, .repair ⟨9, 0, 0⟩⟩]
     s.queue.waiters = [⟨1, .repair ⟨9, 0, 0⟩⟩] ∧ s.queue.items.length < 40) ∧
    40 ≤ (repairing .waitingPlace (List.replicate 40 boundItem) [⟨1, .repair ⟨9, 0, 0⟩⟩]).queue.items.length ∧
    (repairing .waitingPlace [] []).repair? ⟨9, 0, 0⟩ = some ⟨⟨9, 0, 0⟩, 3#64, 1, .waitingPlace, .vote⟩ ∧
    (CopyId.copy ⟨9, 0, 0⟩) < (demoUGG.seg (CopyId.seg ⟨9, 0, 0⟩)).copies.length ∧
    (repairing .waitingPlace [] []).isWaiting (.repair ⟨9, 0, 0⟩) = false ∧
    (repairing .waitingPlace [] [⟨1, .repair ⟨9, 0, 0⟩⟩]).isWaiting (.repair ⟨9, 0, 0⟩) = true ∧
    (repairing (.issued 1) [] []).repair? ⟨9, 0, 0⟩ = some ⟨⟨9, 0, 0⟩, 3#64, 1, .issued 1, .vote⟩ := by decide

/-- A SCRUB item, CLAIMED or BOUND to lane 11, in the given state at its fourth raise. -/
def fourth (st : ItemState) : Item := { item 410 .scrub st with requeue := 3 }

/-- A purpose lost to another lane's result and to a repair entry; the fourth raise at a lapse, a RETRY return, LANE_END,
LANE_ABORT of an OPEN and of a DIGESTING lane, a stall and an INCONCLUSIVE read. -/
theorem witness_ItemsThatGo :
    (withSlot (.observed (obs 2#64) 3 (some 65535)) [claimedOf .confirm]).lostPurpose (claimedOf .confirm) ∧
    (repairing .waitingPlace [claimedOf .scrub] []).lostPurpose (claimedOf .scrub) ∧
    (let it := fourth (.claimed .a 30)
     let s := posted (queued demoUGG [it]) 25 (leBytes 2 410 ++ leBytes 2 1)
     3 ≤ it.requeue ∧ s.item? it.tag = some it ∧ it.state = .claimed .a 30 ∧
     s.takes .a 25 5 (leBytes 2 410 ++ leBytes 2 1) ∧ leAt (leBytes 2 410 ++ leBytes 2 1) 0 2 = it.tag ∧
     leAt (leBytes 2 410 ++ leBytes 2 1) 2 1 = 1) ∧
    (∀ code ∈ [18, 19], ∀ st ∈ [LaneState.openFor 20, .digesting 24 5],
      let it := fourth (.bound 11)
      let l := { itemLane with state := st }
      let s := posted (queued (onLane demoUGG 11 l) [it]) code (leBytes 4 11)
      3 ≤ it.requeue ∧ s.item? it.tag = some it ∧ s.lane 11 = some l ∧ l.purpose = .item ∧ l.itemTag = some it.tag ∧
      l.owner = .a ∧ s.takes .a code 5 (leBytes 4 11) ∧ leAt (leBytes 4 11) 0 1 = 11) ∧
    (let l := { itemLane with conflict := true }
     let s := queued (onLane demoUGG 11 (lastByte l)) [fourth (.bound 11)]
     s.completes 11 (lastByte l) (readOf s l) 5 (digestOf s l) ∧ l.conflict = true ∧
     s.item? 410 = some (fourth (.bound 11))) := by
  unfold State.takes
  exact ⟨.inl ⟨_, _, _, rfl, rfl⟩, .inr ⟨by decide, _, rfl⟩, by decide, by decide,
    lastByte_completes rfl rfl rfl rfl, rfl, rfl⟩

/-! ### Witnesses: disputes and repair -/

/-- A Dispute Table that one more entry fills, and a full one. -/
def otherDisputes (n : Nat) : State :=
  { demoUGG with disputes := List.replicate n { collecting 1#64 2#64 3#64 with seg := ⟨9, 1⟩ } }

/-- A dispute whose slot 0 has a status. -/
def slotEntry (st : Slot) : Dispute := { collecting 1#64 2#64 3#64 with slots := [st, .wanted, .notWanted] }

/-- That dispute, the copy of its slot 0 read by a RESTORE lane or by the lane of item 410. -/
def slotState (l : LaneCtx) (st : Slot) (own : Item) : State :=
  { onLane (segZero (some 7#64) none [.suspect, .good, .good]) 11 (lastByte l) with
    disputes := [slotEntry st]
    queue := ⟨[own, { item 9 .scrub .queued with target := ⟨9, 1, 0⟩ }], 412, [], 0⟩ }

/-- A RESTORE lane meets every status of a slot, its item QUEUED or not; the lane of item 410 meets its own slot, before and
after another lane has filled it. -/
theorem witness_DisputeTakesResults :
    (∀ st ∈ [Slot.wanted, .issued 410, .observed (obs 1#64) 0 (some 410), .observed (obs 1#64) 0 none, .unread, .notWanted],
      let own := item 410 .confirm .queued
      let s := slotState restoreLane st own
      s.completes 11 (lastByte restoreLane) (readOf s restoreLane) 5 (digestOf s restoreLane) ∧
      restoreLane.conflict = false ∧ s.refDigest restoreLane.target.seg = some 7#64 ∧
      (∀ it, restoreLane.itemTag.bind s.item? = some it → it.kind ≠ .repair) ∧
      ∃ v e, s.readyToRoute 11 (lastByte restoreLane) (readOf s restoreLane) (digestOf s restoreLane) v ∧
        v.collecting? restoreLane.target.seg = some e ∧ e.slots[restoreLane.target.copy]? = some st ∧
        restoreLane.itemTag ≠ some 410 ∧ v.item? 410 = some own) ∧
    (∀ st ∈ [Slot.issued 410, .observed (obs 1#64) 0 (some 410)],
      let own := { boundItem with kind := .confirm }
      let s := slotState itemLane st own
      s.completes 11 (lastByte itemLane) (readOf s itemLane) 5 (digestOf s itemLane) ∧
      (∀ it, itemLane.itemTag.bind s.item? = some it → it.kind ≠ .repair) ∧
      ∃ v e, s.readyToRoute 11 (lastByte itemLane) (readOf s itemLane) (digestOf s itemLane) v ∧
        v.collecting? itemLane.target.seg = some e ∧ e.slots[itemLane.target.copy]? = some st ∧
        itemLane.itemTag = some 410) ∧
    (item 410 .confirm .queued).isQueued = true ∧
    (slotState restoreLane (.issued 410) { boundItem with kind := .confirm }).item? 410 =
      some { boundItem with kind := .confirm } ∧ ({ boundItem with kind := .confirm } : Item).isQueued = false := by
  refine ⟨fun st hst => ?_, fun st hst => ?_, rfl, rfl, rfl⟩
  · refine ⟨lastByte_completes rfl rfl rfl rfl, rfl, rfl, nofun, _, slotEntry st, ⟨_, rfl, .inl ⟨by decide, rfl, rfl⟩⟩, ?_⟩
    simp only [List.mem_cons, List.not_mem_nil, or_false] at hst
    obtain rfl | rfl | rfl | rfl | rfl | rfl := hst <;> decide
  · refine ⟨lastByte_completes rfl rfl rfl rfl, fun it hit => by cases hit; decide, _, slotEntry st,
      ⟨_, rfl, .inr ⟨{ boundItem with kind := .confirm }, rfl, rfl, rfl, rfl⟩⟩, ?_⟩
    obtain rfl | rfl := List.mem_pair.1 hst <;> decide

theorem witness_MismatchOpensDispute :
    (otherDisputes 23).dispute? (CopyId.seg ⟨9, 0, 0⟩) = none ∧ ((otherDisputes 23).copy ⟨9, 0, 0⟩).trust ≠ .bad ∧
    ((otherDisputes 23).copy ⟨9, 0, 0⟩).trust ≠ .repairing ∧
    0 < ((otherDisputes 23).seg (CopyId.seg ⟨9, 0, 0⟩)).copies.length ∧
    (otherDisputes 23).disputes.length < 24 ∧ (otherDisputes 24).dispute? (CopyId.seg ⟨9, 0, 0⟩) = none ∧
    24 ≤ (otherDisputes 24).disputes.length ∧
    (∀ st ∈ [Slot.wanted, .unread], ∀ kind ∈ [ItemKind.scrub, .repair],
      let s := (withSlot st [item 410 kind .queued]).setItemTag ⟨9, 0, 0⟩ (some 410)
      (s.dispute? (CopyId.seg ⟨9, 0, 0⟩)).bind (fun d => d.slots[0]?) = some st ∧
      (s.copy ⟨9, 0, 0⟩).itemTag.bind s.item? = some (item 410 kind .queued) ∧ s.queue.items.length < 40) ∧
    let s := withSlot .wanted (List.replicate 40 boundItem)
    (s.copy ⟨9, 0, 0⟩).itemTag.bind s.item? = none ∧ 40 ≤ s.queue.items.length := by decide

/-- The reference of segment 0 is 0x11: one copy agrees; no copy agrees and two share a digest, the only one that two
share; no two share one. A trigger whose re-read has the reference's digest; and the test for a decision with no slot open,
with one, and without an entry. -/
theorem witness_VoteOutcomes :
    (disputed [.suspect, .good, .good] (collecting 0x22#64 0x11#64 0x33#64)).dispute? ⟨9, 0⟩ =
      some (collecting 0x22#64 0x11#64 0x33#64) ∧
    (∃ p ∈ (collecting 0x22#64 0x11#64 0x33#64).votes, some 0x11#64 = some p.2.digest) ∧
    (demo []).refDigest ⟨9, 0⟩ = some 0x11#64 ∧
    ((∀ p ∈ (collecting 0x22#64 0x22#64 0x33#64).votes, some 0x11#64 ≠ some p.2.digest) ∧
      ∃ p ∈ (collecting 0x22#64 0x22#64 0x33#64).votes, ∃ q ∈ (collecting 0x22#64 0x22#64 0x33#64).votes,
        p.1 ≠ q.1 ∧ p.2.digest = q.2.digest) ∧
    (∀ p ∈ (collecting 0x22#64 0x44#64 0x33#64).votes, some 0x11#64 ≠ some p.2.digest) ∧
    (∀ p ∈ (collecting 0x22#64 0x44#64 0x33#64).votes, ∀ q ∈ (collecting 0x22#64 0x44#64 0x33#64).votes,
      p.1 ≠ q.1 → p.2.digest ≠ q.2.digest) ∧
    (∃ o lane own, (collecting 0x11#64 0x33#64 0x44#64).slots[0]? = some (.observed o lane own) ∧
      some o.digest = (demo []).refDigest ⟨9, 0⟩) ∧
    (∀ p ∈ (collecting 0x22#64 0x22#64 0x33#64).votes, ∀ q ∈ (collecting 0x22#64 0x22#64 0x33#64).votes,
      p.1 ≠ q.1 → p.2.digest = q.2.digest → p.2.digest = 0x22#64) ∧
    (∀ st ∈ (collecting 1#64 2#64 3#64).slots, st ≠ .wanted ∧ ∀ tag, st ≠ .issued tag) ∧
    (withSlot .unread []).collecting? ⟨9, 0⟩ = some { collecting 1#64 2#64 3#64 with slots := [.unread, .wanted, .notWanted] } ∧
    demoUGG.collecting? ⟨9, 0⟩ = none := by
  refine ⟨rfl, by decide, rfl, by decide, by decide, by decide, ⟨_, _, _, rfl, rfl⟩, by decide, ?_, rfl, rfl⟩
  intro st hst
  simp only [collecting, List.mem_cons, List.not_mem_nil, or_false] at hst
  obtain rfl | rfl | rfl := hst <;> exact ⟨nofun, nofun⟩

/-- The body of DISPUTE_ADOPT and DISPUTE_REJECT on segment 0 of reel 9. -/
def resolveBody : List Byte := leBytes 6 9 ++ zeros 2

theorem witness_DisputeAdoptResult :
    let s := posted (disputed [.suspect, .suspect, .bad] awaiting) 32 resolveBody
    s.takes .a 32 5 resolveBody ∧ s.checkSeg (segOperand resolveBody) = .ok (reelNine [.suspect, .suspect, .bad]) ∧
    s.awaiting? (segOperand resolveBody) = some (awaiting, 0x22#64) ∧
    (∀ i ∈ awaiting.agreeing, i < (s.seg (segOperand resolveBody)).copies.length) ∧
    (posted demoUGG 32 resolveBody).takes .a 32 5 resolveBody ∧ demoUGG.awaiting? (segOperand resolveBody) = none := by
  refine ⟨by unfold State.takes; decide, rfl, rfl, by decide, by unfold State.takes; decide, rfl⟩

theorem witness_DisputeRejectResult :
    let s := posted (disputed [.suspect, .suspect, .bad] awaiting) 33 resolveBody
    s.takes .a 33 5 resolveBody ∧ s.checkSeg (segOperand resolveBody) = .ok (reelNine [.suspect, .suspect, .bad]) ∧
    s.awaiting? (segOperand resolveBody) = some (awaiting, 0x22#64) ∧
    (∀ i ∈ awaiting.agreeing, (awaiting.effective i).isSome = true ∧ i < awaiting.slots.length ∧
      i < (s.seg (segOperand resolveBody)).copies.length) ∧
    (posted demoUGG 33 resolveBody).takes .a 33 5 resolveBody ∧ demoUGG.awaiting? (segOperand resolveBody) = none := by
  refine ⟨by unfold State.takes; decide, rfl, rfl, by decide, by unfold State.takes; decide, rfl⟩

theorem witness_ConfirmExpiryDecides :
    (disputed [.suspect, .good, .good] { collecting 0x22#64 0x11#64 0x33#64 with slots := [.wanted, .issued 7, .notWanted] }).collecting?
      ⟨9, 0⟩ = some { collecting 0x22#64 0x11#64 0x33#64 with slots := [.wanted, .issued 7, .notWanted] } ∧
    demoUGG.collecting? ⟨9, 0⟩ = none := by decide

/-- Fifteen repair entries and thirty-nine items, so that one more of each fills its table. -/
def nearlyFull : State :=
  { queued (demo [.bad, .good, .good]) ((List.range 39).map fun i => { item (i + 1) .scrub .queued with target := ⟨9, 1, 0⟩ }) with
    repairs := List.replicate 15 ⟨⟨9, 1, 0⟩, 3#64, 1, .issued 1, .vote⟩ }

/-- A copy that is BAD and one that is not; a WITHDRAWN medium; no source, as every other copy is BAD; 15 entries and 16; a
leftover item that is QUEUED, one that is CLAIMED, none, with 39 items and with 40; a segment that is LOST and one that is
not. -/
theorem witness_RepairRequests :
    ((demo [.bad, .good, .bad]).copy ⟨9, 0, 0⟩).trust = .bad ∧ (demoUGG.copy ⟨9, 0, 0⟩).trust ≠ .bad ∧
    (withoutOne demoUGG).copyHealth ⟨9, 0, 0⟩ = .withdrawn ∧ demoUGG.copyHealth ⟨9, 0, 0⟩ ≠ .withdrawn ∧
    (demo [.bad, .bad, .bad]).source? ⟨9, 0, 0⟩ = none ∧ nearlyFull.source? ⟨9, 0, 0⟩ ≠ none ∧
    nearlyFull.repairs.length < 16 ∧
    16 ≤ ({ nearlyFull with repairs := nearlyFull.repairs ++ nearlyFull.repairs } : State).repairs.length ∧
    (∀ it ∈ [claimedOf .scrub, item 65535 .scrub .queued],
      let s := (queued (demo [.bad, .good, .good]) [it]).setItemTag ⟨9, 0, 0⟩ (some 65535)
      (s.copy ⟨9, 0, 0⟩).itemTag.bind s.item? = some it ∧ s.copyHealth ⟨9, 0, 0⟩ ≠ .withdrawn ∧
      s.source? ⟨9, 0, 0⟩ ≠ none ∧ s.repairs.length < 16) ∧
    (claimedOf .scrub).isQueued = false ∧ (item 65535 .scrub .queued).isQueued = true ∧
    (nearlyFull.copy ⟨9, 0, 0⟩).itemTag.bind nearlyFull.item? = none ∧ nearlyFull.queue.items.length < 40 ∧
    40 ≤ (queued (demo [.bad, .good, .good]) (List.replicate 40 boundItem)).queue.items.length ∧
    (∀ r ∈ ((demo [.bad, .bad, .bad]).seg ⟨9, 0⟩).copies, r.trust = .bad) ∧
    ∃ r ∈ (nearlyFull.seg ⟨9, 0⟩).copies, r.trust ≠ .bad := by decide

/-- Each refusal of R95; an accepted request with 39 items and with 40; and one with a leftover item on the copy, CLAIMED
and QUEUED, whose entry is ISSUED once that item is withdrawn, or, with an owner waiting before it, left in WAITING_PLACE. -/
theorem witness_RepairRequestResult :
    (let s := posted nearlyFull 34 (segBody 0 0)
     s.takes .a 34 5 (segBody 0 0) ∧ (segOperand (segBody 0 0)).copy (leAt (segBody 0 0) 8 1) = ⟨9, 0, 0⟩ ∧
     s.checkCopy ⟨9, 0, 0⟩ = .ok (reelNine [.bad, .good, .good]) ∧ s.dispute? (CopyId.seg ⟨9, 0, 0⟩) = none ∧
     (s.copy ⟨9, 0, 0⟩).trust = .bad ∧ s.copyHealth ⟨9, 0, 0⟩ ≠ .withdrawn ∧ s.source? ⟨9, 0, 0⟩ ≠ none ∧
     s.repairs.length < 16 ∧ s.repair? ⟨9, 0, 0⟩ = none ∧ (s.copy ⟨9, 0, 0⟩).itemTag.bind s.item? = none ∧
     s.queue.items.length < 40) ∧
    State.reset.activeReel? 9 = none ∧
    (demoUGG.activeReel? 9 = some (reelNine [.unverified, .good, .good]) ∧ (reelNine []).segCount ≤ 2 ∧
      (reelNine []).copyCount ≤ 3) ∧
    (disputed [.bad, .good, .good] awaiting).dispute? (CopyId.seg ⟨9, 0, 0⟩) = some awaiting ∧
    (demoUGG.copy ⟨9, 0, 0⟩).trust ≠ .bad ∧
    (withoutOne (demo [.bad, .good, .good])).copyHealth ⟨9, 0, 0⟩ = .withdrawn ∧
    (demo [.bad, .bad, .bad]).source? ⟨9, 0, 0⟩ = none ∧
    16 ≤ ({ nearlyFull with repairs := nearlyFull.repairs ++ nearlyFull.repairs } : State).repairs.length ∧
    40 ≤ (queued (demo [.bad, .good, .good]) (List.replicate 40 boundItem)).queue.items.length ∧
    (∀ it ∈ [claimedOf .confirm, item 65535 .confirm .queued],
      let s := (queued (demo [.bad, .good, .good]) [it]).setItemTag ⟨9, 0, 0⟩ (some 65535)
      (s.copy ⟨9, 0, 0⟩).itemTag.bind s.item? = some it ∧ s.repair? ⟨9, 0, 0⟩ = none) ∧
    (∀ n ∈ [0, 39],
      let it := item 65535 .confirm .queued
      let others := (List.range n).map fun i => { item (i + 1) .scrub .queued with target := ⟨9, 1, 0⟩ }
      let waiters : List Waiter := if n = 0 then [] else [⟨1, .repair ⟨9, 0, 1⟩⟩]
      let entry := { (queued (demo [.repairing, .good, .good]) (it :: others)) with
        repairs := [⟨⟨9, 0, 0⟩, 3#64, 1, .waitingPlace, .head⟩], queue := ⟨it :: others, 65535, waiters, 1⟩ }
      (((entry.withdrawItem it).leftoverGone ⟨9, 0, 0⟩).repair? ⟨9, 0, 0⟩).map Repair.state =
        some (if n = 0 then .issued 1 else .waitingPlace)) := by
  refine ⟨⟨by unfold State.takes; decide, rfl, rfl, by decide⟩, by decide⟩

/-! ### Witnesses: plans and the walker -/

/-- The body of a PLAN_LOAD of slot 1 with one entry. -/
def loadBody (copyMask : Nat) : List Byte :=
  leBytes 2 1 ++ leBytes 2 1 ++ zeros 4 ++ leBytes 6 9 ++ leBytes 2 16383 ++ leBytes 2 16384 ++ leBytes 1 copyMask ++ leBytes 1 1 ++ zeros 4

/-- Slot 1 LOADING for head A. -/
def loadingSlot : State := { demoUGG with slots := demoUGG.slots.setIfInBounds 1 (.loading .a 5 [planEntry]) }

theorem witness_PlanLoadResult :
    (let s := posted (walking demoUGG) 40 (loadBody 7)
     s.takes .a 40 5 (loadBody 7) ∧ leAt (loadBody 7) 0 1 < 2 ∧ 1 ≤ leAt (loadBody 7) 2 2 ∧ leAt (loadBody 7) 2 2 ≤ 512 ∧
     (s.slot (leAt (loadBody 7) 0 1)).isLoading = false ∧ s.walker.running ≠ some (leAt (loadBody 7) 0 1) ∧
     s.walker.queued ≠ some (leAt (loadBody 7) 0 1) ∧
     ∀ e ∈ planEntries (loadBody 7), e.acc ≠ 0 ∧ 1 ≤ e.copyMask ∧ e.copyMask ≤ 7 ∧ e.firstSegment ≤ 16383 ∧
       e.segmentCount ≤ 16384) ∧
    (loadingSlot.slot (leAt (loadBody 7) 0 1)).isLoading = true ∧ loadingSlot.slot 1 = .loading .a 5 [planEntry] ∧
    ((walking demoUGG).slot 0).isLoading = false := by
  unfold State.takes; decide

/-- The body of a PLAN_START of slot 0 with a halt entry. -/
def startBody (halt : Nat) : List Byte := leBytes 1 0 ++ leBytes 1 1 ++ leBytes 2 halt

/-- Slot 0 LOADED and the walker IDLE at pass 255. -/
def readyToStart : State :=
  { demoUGG with
    slots := demoUGG.slots.setIfInBounds 0 (.loaded [planEntry]), walker := { Walker.initial with pass := 255 } }

theorem witness_PlanStartResult :
    (posted readyToStart 41 (startBody 65535)).takes .a 41 5 (startBody 65535) ∧ leAt (startBody 65535) 1 1 ≤ 1 ∧
    leAt (startBody 65535) 0 1 < 2 ∧ (walking demoUGG).walker.state ≠ .idle ∧ readyToStart.walker.state = .idle ∧
    readyToStart.slot (leAt (startBody 65535) 0 1) = .loaded [planEntry] ∧ [planEntry][0]? = some planEntry ∧
    readyToStart.day ≠ none ∧ ({ readyToStart with day := none } : State).day = none ∧
    leAt (startBody 65535) 2 2 = 65535 ∧ (posted readyToStart 41 (startBody 0)).takes .a 41 5 (startBody 0) ∧
    leAt (startBody 0) 2 2 = 0 ∧ leAt (startBody 0) 2 2 < [planEntry].length ∧
    readyToStart.activeReel? planEntry.acc = some (reelNine [.unverified, .good, .good]) ∧
    planEntry.firstSegment < (reelNine []).segCount ∧
    (posted readyToStart 41 (startBody 1)).takes .a 41 5 (startBody 1) ∧ 1 ≤ leAt (startBody 1) 2 2 ∧
    leAt (startBody 1) 2 2 < [planEntry, planEntry].length ∧
    readyToStart.activeReel? { planEntry with acc := 8 }.acc = none ∧
    (reelNine []).segCount ≤ { planEntry with firstSegment := 2 }.firstSegment := by
  unfold State.takes; decide

theorem witness_PlanQueuePauseResume :
    (posted (walking demoUGG) 42 (leBytes 4 1)).takes .a 42 5 (leBytes 4 1) ∧ leAt (leBytes 4 1) 0 1 < 2 ∧
    demoUGG.walker.state = .idle ∧ (walking demoUGG).walker.state ≠ .idle ∧
    (walking demoUGG).walker.running = some (leAt (leBytes 4 0) 0 1) ∧
    (walking demoUGG).walker.running ≠ some (leAt (leBytes 4 1) 0 1) ∧ ((walking demoUGG).slot 1).isLoaded = false ∧
    (({ walking demoUGG with slots := Vector.replicate 2 (.loaded [planEntry]) } : State).slot 1).isLoaded = true ∧
    (posted (walking demoUGG) 43 []).takes .a 43 5 [] ∧ (walking demoUGG).walker.state = .walking ∧
    (posted (walking demoUGG) 44 []).takes .a 44 5 [] ∧
    ({ (walking demoUGG).walker with state := .halted } : Walker).state = .halted ∧
    (walking demoUGG).walker.state ≠ .paused ∧ (walking demoUGG).walker.state ≠ .halted := by
  unfold State.takes; decide

theorem witness_PlanStopResult :
    let s := posted (queued (walking demoUGG) [item 1 .scrub .queued, item 2 .scrub (.claimed .b 30), item 3 .confirm .queued]) 45 []
    s.takes .a 45 5 [] ∧ (s.queue.items.map Item.tag).Nodup := by
  unfold State.takes; decide

/-- A looping walk at the last position of its plan's one entry, whose copy 2 the entry leaves out. -/
def looping : State :=
  { demoUGG with
    walker := ⟨.walking, some 0, none, true, none, some ⟨0, 1, 2⟩, .taken, 1, [0]⟩
    slots := demoUGG.slots.setIfInBounds 0 (.loaded [{ planEntry with copyMask := 3, note := false, last := true }]) }

/-- A walker WALKING at a position of slot 0, whose entries are given, with its phase, loop, queued slot and halt entry.
Slot 1 holds one entry. -/
def walkAt (p : Position) (ph : EntryPhase) (es : List PlanEntry) (loop : Bool) (queued halt : Option Nat) : State :=
  { demoUGG with
    walker := ⟨.walking, some 0, queued, loop, halt, some p, ph, 1, [0]⟩
    slots := (demoUGG.slots.setIfInBounds 0 (.loaded es)).setIfInBounds 1 (.loaded [planEntry]) }

/-- An entry not taken up: before the halt entry, of an ACTIVE reel, of a reel that is not, and starting past its reel's
end. One found stale; one under way whose reel is gone, and one past its reel's end. -/
theorem witness_WalkerPositionResult_entries :
    (∀ ph loop queued halt, ∀ e ∈ [planEntry, { planEntry with acc := 8 }, { planEntry with firstSegment := 2 }],
      let s := walkAt ⟨0, 5, 0⟩ ph [e] loop queued halt
      s.walker.state = .walking ∧ s.walker.running = some 0 ∧ s.walker.position = some ⟨0, 5, 0⟩ ∧
      (s.slot 0).entries[0]? = some e ∧ s.walker.entryPhase = ph ∧ s.walker.haltEntry = halt ∧ s.walker.loop = loop ∧
      s.walker.queued = queued) ∧
    (∀ ph loop queued halt e, (walkAt ⟨0, 5, 0⟩ ph [e] loop queued halt).activeReel? 9 =
        some (reelNine [.unverified, .good, .good]) ∧
      (walkAt ⟨0, 5, 0⟩ ph [e] loop queued halt).activeReel? 8 = none) ∧
    planEntry.firstSegment < (reelNine []).segCount ∧ (reelNine []).segCount ≤ 2 ∧
    planEntry.endSegment (reelNine []) < 5 := by
  refine ⟨fun ph loop queued halt e he => ?_, fun _ _ _ _ _ => ⟨rfl, rfl⟩, by decide, by decide, by decide⟩
  exact ⟨rfl, rfl, rfl, rfl, rfl, rfl, rfl, rfl⟩

/-- The end of an entry: one that is not the plan's last, with the next one; and the last one, by its LAST mark and by its
place, in a slot whose entry 0 a loop starts again, and with slot 1 queued. -/
theorem witness_WalkerPositionResult_ends :
    (let s := walkAt ⟨0, 1, 2⟩ .taken [{ planEntry with hold := true }, planEntry] true none none
     (s.slot 0).entries[0 + 1]? = some planEntry) ∧
    ({ planEntry with last := true, hold := true } : PlanEntry).last = true ∧
    (let s := walkAt ⟨0, 1, 2⟩ .taken [planEntry] true (some 1) none
     0 + 1 = (s.slot 0).entries.length ∧ s.walker.queued = some 1 ∧ (s.slot 1).entries[0]? = some planEntry) ∧
    (let s := walkAt ⟨0, 1, 2⟩ .taken [planEntry] true none none
     s.walker.queued = none ∧ s.walker.loop = true ∧ (s.slot 0).entries[0]? = some planEntry) ∧
    (walkAt ⟨0, 1, 2⟩ .taken [planEntry] false none none).walker.loop = false ∧
    2 ≤ (Position.copy ⟨0, 1, 2⟩) ∧ planEntry.endSegment (reelNine []) ≤ 1 ∧ 0 < planEntry.endSegment (reelNine []) := by
  decide

/-- A position passed over (copy 0 SUSPECT in a dispute; no band contains the score), and a due one, with a notice still to
be posted and without, in a NORMAL, a PRIORITY and a SKIP band, with 31 and with 32 items, with and without credit. -/
theorem witness_WalkerPositionResult :
    demoUGG.walker.state ≠ .walking ∧
    (let s := walking demoUGG
     s.walker.state = .walking ∧ s.walker.running = some 0 ∧ s.walker.position = some ⟨0, 0, 0⟩ ∧
     (s.slot 0).entries[0]? = some planEntry ∧ s.walker.entryPhase = .taken ∧
     s.activeReel? planEntry.acc = some (reelNine [.unverified, .good, .good]) ∧ 0 ≤ planEntry.endSegment (reelNine []) ∧
     s.skipped planEntry (reelNine []) ⟨9, 0, 0⟩ = false ∧
     findBand s.bands (dueScore (s.copy ⟨9, 0, 0⟩) s.today 64 (s.copyHealth ⟨9, 0, 0⟩)) =
       some ⟨64, 65535, .normal, false⟩ ∧
     (s.pacer.state ≠ .work ∨ s.pacer.credit ≤ 0) ∧ 0 ∉ s.walker.notices ∧
     (∀ action ∈ [BandAction.skip, .normal, .priority], ∀ notify,
       findBand [⟨0, 65535, action, notify⟩] (dueScore (s.copy ⟨9, 0, 0⟩) s.today 64 (s.copyHealth ⟨9, 0, 0⟩)) =
         some ⟨0, 65535, action, notify⟩) ∧
     findBand [⟨0, 0, .normal, false⟩] (dueScore (s.copy ⟨9, 0, 0⟩) s.today 64 (s.copyHealth ⟨9, 0, 0⟩)) = none) ∧
    (walking (disputed [.suspect, .good, .good] (collecting 1#64 2#64 3#64))).skipped planEntry (reelNine []) ⟨9, 0, 0⟩ = true ∧
    32 ≤ (List.replicate 32 boundItem).length ∧ (List.replicate 31 boundItem).length < 32 ∧
    ({ Pacer.powerOn with state := .work, credit := 1 } : Pacer).state = .work ∧
    0 < ({ Pacer.powerOn with state := .work, credit := 1 } : Pacer).credit := by decide

/-- R117: the pass start of a loop takes entry 0 up at once, at its first position. -/
theorem test_loop_takes_up_entry :
    (looping.walk.walker.entryPhase, looping.walk.walker.position, looping.walk.walker.pass) = (.taken, some ⟨0, 0, 0⟩, 2) := by
  decide

/-- R117, R118, R119: a switch to a slot whose entry 0 names no ACTIVE reel posts PLAN_ENTRY_STALE with cause 1 in the
event that ends the pass. -/
theorem test_switch_finds_stale :
    let s := { looping with
      walker := { looping.walker with queued := some 1 }
      slots := looping.slots.setIfInBounds 1 (.loaded [{ planEntry with acc := 8 }]) }
    s.walk.walker.entryPhase = .stale ∧ s.walk.walker.running = some 1 ∧
    s.walk.fq.findings.map (fun f => (f.kind, f.detail)) = [(.planDone, 1), (.planEntryStale, 1)] := by decide

theorem witness_DaySetResult :
    (posted demoUGG 47 (leBytes 4 100)).takes .a 47 5 (leBytes 4 100) ∧ State.reset.day = none ∧ demoUGG.day = some 100 ∧
    100 ≤ 65535 ∧ leAt (leBytes 4 100) 0 2 = 100 ∧ ((leAt (leBytes 4 32867) 0 2 : Int) - 100) % 65536 = 32767 ∧
    32768 ≤ ((leAt (leBytes 4 32868) 0 2 : Int) - 100) % 65536 := by
  unfold State.takes; decide

/-! ### Witnesses: the Pacer, the settings, the findings and the snapshot -/

/-- The body of a PACE_SET. -/
def paceBody (b f w y d : Nat) : List Byte := leBytes 2 b ++ leBytes 1 f ++ zeros 1 ++ leBytes 2 w ++ leBytes 2 y ++ leBytes 2 d ++ zeros 2

/-- A Pacer in a state, with its stop pending or not. -/
def pacing (st : PacerState) (stop : Bool) (delay yield : Nat) (staged : Option PaceSettings) : State :=
  { demoUGG with pacer := ⟨st, -256, 15, none, stop, ⟨64, 15, 100, yield, delay⟩, staged⟩ }

theorem witness_PaceSetResult :
    (posted demoUGG 48 (paceBody 1 15 4095 4095 0)).takes .a 48 5 (paceBody 1 15 4095 4095 0) ∧
    1 ≤ leAt (paceBody 1 15 4095 4095 0) 0 2 ∧ leAt (paceBody 1 15 4095 4095 0) 2 1 ≤ 15 ∧
    1 ≤ leAt (paceBody 1 15 4095 4095 0) 4 2 ∧ leAt (paceBody 1 15 4095 4095 0) 4 2 ≤ 4095 ∧
    leAt (paceBody 1 15 4095 4095 0) 6 2 ≤ 4095 ∧ demoUGG.pacer.state = .stopped ∧
    (pacing .work false 0 0 none).pacer.state ≠ .stopped ∧ leAt (paceBody 0 15 1 0 0) 0 2 = 0 ∧
    15 < leAt (paceBody 1 16 1 0 0) 2 1 ∧ leAt (paceBody 1 15 0 0 0) 4 2 = 0 ∧ 4095 < leAt (paceBody 1 15 4096 0 0) 4 2 ∧
    4095 < leAt (paceBody 1 15 1 4096 0) 6 2 := by
  unfold State.takes; decide

theorem witness_PaceStartResult :
    (posted demoUGG 49 []).takes .a 49 5 [] ∧ (pacing .stopped false 1 0 none).pacer.state = .stopped ∧
    0 < (pacing .stopped false 1 0 none).pacer.inForce.delay ∧ (pacing .stopped false 0 0 none).pacer.inForce.delay = 0 ∧
    (pacing .yield true 0 1 none).pacer.state ≠ .stopped ∧ (pacing .yield true 0 1 none).pacer.stopPending = true ∧
    (pacing .yield false 0 1 none).pacer.stopPending = false := by
  unfold State.takes; decide

theorem witness_WorkWindowStart :
    (pacing .stopped false 0 0 none).pacer.acc ≤ 15 ∧
    ((pacing .stopped false 0 0 none).pacer.staged.getD (pacing .stopped false 0 0 none).pacer.inForce).fraction ≤ 15 := by
  decide

theorem witness_StopAtWindowEnd :
    (posted demoUGG 50 []).takes .a 50 5 [] ∧ demoUGG.pacer.state = .stopped ∧
    (pacing .work false 0 0 none).pacer.state ≠ .stopped ∧ (pacing .delay false 1 0 none).pacer.state = .delay ∧
    (pacing .yield false 0 1 none).pacer.state = .yield ∧ (pacing .work false 0 0 none).pacer.inForce.yield = 0 ∧
    0 < (pacing .work false 0 1 none).pacer.inForce.yield ∧
    ((pacing .work true 0 1 none).pacer.stopPending = true ∧ (pacing .work true 0 1 none).pacer.staged = none) ∧
    (pacing .work true 0 1 (some ⟨1, 0, 1, 0, 0⟩)).pacer.staged = some ⟨1, 0, 1, 0, 0⟩ ∧
    demoUGG.pacer.state ≠ .work := by
  unfold State.takes; decide

theorem witness_PaceHaltResult : (posted (pacing .work true 0 1 none) 51 []).takes .a 51 5 [] := by
  unfold State.takes; decide

/-- Bodies of BANDS_SET and LADDER_SET with two rows. -/
def bandsBody : List Byte :=
  leBytes 4 2 ++ (leBytes 2 0 ++ leBytes 2 0 ++ leBytes 1 0 ++ leBytes 1 1 ++ zeros 2) ++
    (leBytes 2 1 ++ leBytes 2 65535 ++ leBytes 1 2 ++ leBytes 1 0 ++ zeros 2)
def ladderBody : List Byte :=
  leBytes 4 2 ++ (leBytes 2 1 ++ leBytes 1 1 ++ leBytes 1 0) ++ (leBytes 2 65535 ++ leBytes 1 3 ++ leBytes 1 1)

/-- The bodies of TIMERS_SET and ATTENTION_SET. -/
def timersBody (claim stall confirm : Nat) : List Byte := leBytes 2 claim ++ leBytes 2 stall ++ leBytes 4 confirm
def attentionBody (t : Nat) : List Byte := leBytes 2 t ++ leBytes 2 5

theorem witness_SettingsOrders :
    ((posted demoUGG 46 bandsBody).takes .a 46 5 bandsBody ∧
      bandsOperand bandsBody = some [⟨0, 0, .skip, true⟩, ⟨1, 65535, .priority, false⟩]) ∧
    (posted demoUGG 46 (zeros 4)).takes .a 46 5 (zeros 4) ∧ leAt (zeros 4) 0 1 = 0 ∧
    ((posted demoUGG 52 ladderBody).takes .a 52 5 ladderBody ∧
      ladderOperand ladderBody = some [⟨1, .watch, false⟩, ⟨65535, .withdrawn, true⟩] ∧
      ([⟨1, .watch, false⟩, ⟨65535, .withdrawn, true⟩].map LadderStep.threshold).Pairwise (· < ·)) ∧
    ((posted demoUGG 53 (timersBody 600 1 86400)).takes .a 53 5 (timersBody 600 1 86400) ∧
      leAt (timersBody 600 1 86400) 0 2 ≤ 600 ∧ 1 ≤ leAt (timersBody 600 1 86400) 2 2 ∧
      leAt (timersBody 600 1 86400) 4 4 ≤ 86400) ∧
    (600 < leAt (timersBody 601 1 60) 0 2 ∧ leAt (timersBody 1 0 60) 2 2 = 0 ∧ leAt (timersBody 1 1 59) 4 4 < 60) ∧
    ((posted demoUGG 57 (attentionBody 256)).takes .a 57 5 (attentionBody 256) ∧ leAt (attentionBody 256) 0 2 ≤ 256) ∧
    leAt (attentionBody 0) 0 2 = 0 ∧ 256 < leAt (attentionBody 257) 0 2 := by
  unfold State.takes; decide

/-- A queue of 256 findings with a ROUTINE one among CRITICAL ones, and one of CRITICAL ones alone. -/
theorem witness_FindingQueueResult :
    demoUGG.fq.findings.length < 256 ∧
    (256 ≤ ([finding true] ++ finding false :: List.replicate 254 (finding true)).length ∧ (finding false).critical = false ∧
      ∀ x ∈ [finding true], x.critical = true) ∧
    (256 ≤ (List.replicate 256 (finding true)).length ∧ ∀ x ∈ List.replicate 256 (finding true), x.critical = true) ∧
    (posted demoUGG 56 (leBytes 4 8)).takes .a 56 5 (leBytes 4 8) ∧ leAt (leBytes 4 0) 0 1 = 0 ∧ 8 < leAt (leBytes 4 9) 0 1 ∧
    (1 ≤ leAt (leBytes 4 8) 0 1 ∧ leAt (leBytes 4 8) 0 1 ≤ 8) ∧ demoUGG.fq.findings = [] ∧
    (∃ taken left, taken ≠ [] ∧ List.replicate 9 (finding true) = taken ++ left ∧ taken.length = leAt (leBytes 4 8) 0 1 ∧
      true = (true && !left.isEmpty)) ∧
    ∃ taken left, taken ≠ [] ∧ List.replicate 7 (finding true) = taken ++ left ∧
      taken.length ≤ leAt (leBytes 4 8) 0 1 ∧ left = [] ∧ false = (true && !left.isEmpty) := by
  refine ⟨by decide, by decide +kernel, by decide +kernel, by unfold State.takes; decide +kernel, by decide, by decide, by decide, rfl,
    ⟨List.replicate 8 (finding true), [finding true], by decide, by decide, by decide, by decide⟩,
    ⟨List.replicate 7 (finding true), [], by decide, by decide, by decide, rfl, by decide⟩⟩

theorem witness_StatusResult : (posted demoUGG 58 []).takes .a 58 5 [] := by
  unfold State.takes; decide

end Sys2Proof.Tests
end

section
/-! Proofs: the two tables through every step (R64, R92, R10). -/

namespace Sys2Proof.Machine

/-- No copy record is REPAIRING after a card reset (R20). -/
theorem CopyRec.cardReset_calm (c : CopyRec) : c.cardReset.trust ≠ .repairing := by
  unfold CopyRec.cardReset
  cases c.trust <;> simp

/-- Looking up in a table whose values have been mapped. -/
theorem Sparse.find?_map {α β : Type} (f : α → β) (k : Nat) (m : List (Nat × α)) :
    Sparse.find? k (m.map fun p => (p.1, f p.2)) = (Sparse.find? k m).map f := by
  induction m with
  | nil => rfl
  | cons p m ih =>
    obtain ⟨a, v⟩ := p
    simp only [List.map_cons, Sparse.find?, ih]
    repeat' split
    all_goals rfl

/-- Every copy record of a segment is reset with its reel, or still at registration. -/
theorem Reel.seg_cardReset_calm (r : Reel) (i : Nat) : ∀ x ∈ (r.cardReset.seg i).copies, x.trust ≠ .repairing := by
  intro x hx
  simp only [Reel.seg, Reel.cardReset, Sparse.find?_map] at hx
  cases hf : Sparse.find? i r.segs with
  | none =>
    simp only [hf, Option.map_none, Option.getD_none, SegRec.initial] at hx
    rw [List.eq_of_mem_replicate hx]
    decide
  | some g =>
    simp only [hf, Option.map_some, Option.getD_some, SegRec.cardReset] at hx
    obtain ⟨y, -, rfl⟩ := List.mem_map.1 hx
    exact y.cardReset_calm

/-- A state whose reels are all reset has no REPAIRING copy. -/
theorem State.copy_calm_of_cardReset {s : State} (hs : ∀ r ∈ s.reels, ∃ q : Reel, r = q.cardReset) (c : CopyId) :
    (s.copy c).trust ≠ .repairing := by
  cases hr : s.reel? c.reel with
  | none => rw [State.copy_noReel hr]; decide
  | some r =>
    obtain ⟨q, rfl⟩ := hs r (List.mem_of_find?_eq_some hr)
    simp only [State.copy, State.seg, CopyId.seg, hr, Option.map_some, Option.getD_some]
    cases hx : (q.cardReset.seg c.segment).copies[c.copy]? with
    | none => decide
    | some x => exact q.seg_cardReset_calm _ x (List.mem_of_getElem? hx)

/-- Where no lane, item, dispute or repair stands, the tables are sound when no copy is REPAIRING. -/
theorem State.tablesOk.ofEmpty {s : State} (hacc : (s.reels.map Reel.acc).Nodup) (hl : ∀ n, s.lane n = none)
    (hd : s.disputes = []) (hr : s.repairs = []) (hi : s.queue.items = []) (hw : s.queue.waiters = [])
    (hc : ∀ c, (s.copy c).trust ≠ .repairing) : s.tablesOk where
  reelsApart := hacc
  disputesMax := by simp [hd]
  disputesApart := by simp [hd]
  repairsMax := by simp [hr]
  repairsApart := by simp [hr]
  repairing c := by simp [hr, hc c]
  involved := by simp [hd]
  laneReels := by simp [hl]
  itemReels := by simp [hi]
  disputeReels := by simp [hd]
  repairReels := by simp [hr]
  waiting := by simp [hw]

/-- Where every lane is FREE, each lane reads as FREE. -/
theorem State.lane_of_allFree {s : State} (h : s.lanes = Vector.replicate 12 none) (n : Nat) : s.lane n = none := by
  simp only [State.lane, h, Vector.getElem?_replicate]
  split <;> rfl

/-- Power-on leaves empty tables. -/
theorem execPowerOn_tablesOk {s t : State} (h : execPowerOn s = .next t) : t.tablesOk := by
  cases h
  exact .ofEmpty .nil (State.lane_of_allFree rfl) rfl rfl rfl rfl (State.copy_calm_of_cardReset fun _ hr => by cases hr)

/-- A card reset leaves the ACTIVE reels, and of the tables nothing. -/
theorem execCardReset_tablesOk {s t : State} (hs : s.tablesOk) (h : execCardReset s = .next t) : t.tablesOk := by
  cases h
  refine .ofEmpty ?_ (State.lane_of_allFree rfl) rfl rfl rfl rfl (State.copy_calm_of_cardReset fun r hr => ?_)
  · have hacc : ((s.reels.filter Reel.isActive).map Reel.cardReset).map Reel.acc =
        (s.reels.filter Reel.isActive).map Reel.acc := by
      rw [List.map_map]
      rfl
    exact hacc ▸ hs.reelsApart.sublist (List.Sublist.map _ List.filter_sublist)
  · obtain ⟨q, -, rfl⟩ := List.mem_map.1 hr
    exact ⟨q, rfl⟩

/-- Every command keeps the tables. -/
theorem exec_tablesOk (c : Instr) {s t : State} (hs : s.tablesOk) (h : exec c s = .next t) : t.tablesOk := by
  by_cases hp : c = .powerOn
  · subst hp
    exact execPowerOn_tablesOk h
  · by_cases hr : c = .cardReset
    · subst hr
      exact execCardReset_tablesOk hs h
    · exact exec_keeps State.tablesOk.keeper c hp hr hs h

/-- Settles O12: on an empty queue nothing changes; the two resets leave empty tables; every other command is made of the
operations on the tables, and each of them keeps them (`State.tablesOk.keeper`). -/
theorem tablesKept : Obligations.TablesKept := by
  intro s t hs h
  unfold step at h
  split at h
  · cases h
    exact hs
  · next c rest _ =>
    have hs' : State.tablesOk { s with pending := rest } := hs.same ⟨rfl, rfl, rfl, rfl, rfl⟩
    exact exec_tablesOk c hs' h

end Sys2Proof.Machine
end


section
/-! Proofs: the state after the two resets (R18, R19, R20, R203), block by block. -/

namespace Sys2Proof.Machine

/-- The lines stand as the conditions call for once they are driven (R198). -/
theorem State.settle_linesOk (s : State) : s.settle.linesOk := ⟨rfl, rfl⟩

/-- A port whose counts are aligned has no order. -/
theorem Port.orders_of_aligned {p : Port} (h : p.orderTake = p.orderPost) : p.orders = 0 := by
  simp [Port.orders, h]

/-- A port whose counts are aligned has no unread reply. -/
theorem Port.unread_of_aligned {p : Port} (h : p.replyPost = p.replyRead) : p.unread = 0 := by
  simp [Port.unread, h]

/-- Without findings, overflow and lanes a line is low, when the threshold is at least 1. -/
theorem State.lineOf_of_calm {s : State} {h : Head} (hf : s.fq = ⟨[], false, 0⟩)
    (hl : s.lanes = Vector.replicate 12 none) (ht : 1 ≤ (s.port h).threshold) : s.lineOf h = false := by
  have hthr : ¬(s.port h).threshold = 0 := by omega
  simp [State.lineOf, hf, hl, hthr]

/-- The Pacer of R145: the staged set, if any, in force, and everything else at rest. -/
theorem Pacer.halted_eq (p : Pacer) :
    p.halted = ⟨.stopped, 0, 0, none, false, p.staged.getD p.inForce, none⟩ := by
  obtain ⟨_, _, _, _, _, _, staged⟩ := p
  cases staged <;> rfl

/-- A card reset keeps a LOADED slot and empties every other one (R109, R110). -/
theorem PlanSlot.cardReset_of_not_loaded {p : PlanSlot} (h : p.isLoaded = false) : p.cardReset = .empty := by
  cases p with
  | empty => rfl
  | loading _ _ _ => rfl
  | loaded es => cases h

theorem PlanSlot.cardReset_loaded (es : List PlanEntry) : (PlanSlot.loaded es).cardReset = .loaded es := rfl

/-- Where both plan slots are EMPTY, each slot reads as EMPTY. -/
theorem State.slot_of_allEmpty {s : State} (h : s.slots = Vector.replicate 2 .empty) (i : Nat) : s.slot i = .empty := by
  simp only [State.slot, h, Vector.getElem?_replicate]
  split <;> rfl

/-- The plan slots after a card reset. -/
theorem State.slot_cardReset {s t : State} (h : execCardReset s = .next t) (i : Nat) : t.slot i = (s.slot i).cardReset := by
  cases h
  match i with
  | 0 => rfl
  | 1 => rfl
  | i + 2 => rfl

/-- Settles O13: power-on is read off its definition; a card reset is one record update with the lines driven after it, so
each kept or cleared field is read off it too, the slots by `PlanSlot.cardReset` and the Pacer by `Pacer.halted_eq`. -/
theorem powerOnAndCardReset : Obligations.PowerOnAndCardReset := by
  refine ⟨fun s => ?_, fun s => ?_, fun c h => ?_, fun c h => ?_, fun c h1 h2 => ?_⟩
  · refine ⟨_, rfl, rfl, rfl, State.lane_of_allFree rfl, fun _ => rfl, rfl, rfl, rfl, rfl, rfl, rfl, rfl, rfl, rfl, rfl, rfl,
      rfl, rfl, rfl, State.slot_of_allEmpty rfl, rfl, rfl, rfl, rfl, rfl, rfl, rfl, rfl, rfl, fun h => ?_⟩
    cases h <;> rfl
  · refine ⟨_, rfl, rfl, rfl, rfl, rfl, rfl, rfl, rfl, rfl, rfl, State.lane_of_allFree rfl, rfl, rfl, rfl, rfl, rfl, rfl,
      fun i es _ hi => ?_, fun i hi => ?_, s.pacer.halted_eq, rfl, rfl, rfl, State.settle_linesOk _, fun h => ?_⟩
    · rw [State.slot_cardReset rfl, hi, PlanSlot.cardReset_loaded]
    · rw [State.slot_cardReset rfl, PlanSlot.cardReset_of_not_loaded hi]
    · cases h
      all_goals
        exact ⟨rfl, rfl, Port.orders_of_aligned rfl, rfl, Port.unread_of_aligned rfl, rfl, rfl, rfl, rfl, rfl, rfl, rfl,
          fun ht => State.lineOf_of_calm rfl rfl ht⟩
  · simp [CopyRec.cardReset, h]
  · simp [CopyRec.cardReset, h]
  · cases ht : c.trust <;> simp_all [CopyRec.cardReset]

/-- Settles O11: every predicate is about values that `State.reset` writes out. -/
theorem resetIsSound : Obligations.ResetIsSound := by
  have hlane : ∀ n, State.reset.lane n = none := State.lane_of_allFree rfl
  have hslot : ∀ i, State.reset.slot i = .empty := State.slot_of_allEmpty rfl
  have hpacer : State.reset.pacer.ok := ⟨by decide, by decide, by decide, by decide, fun _ hq => by cases hq⟩
  have hladder : State.reset.ladderOk := ⟨by decide, by decide, by decide, fun _ hm => by cases hm⟩
  have hqueue : State.reset.queue.ok := 
    ⟨by decide, .nil, fun _ hi => (by cases hi), by decide, fun hw => absurd rfl hw, .nil⟩
  have hwalker : State.reset.walkerOk :=
    ⟨Iff.intro (fun _ => rfl) fun _ => rfl, Iff.intro (fun _ => rfl) fun _ => rfl, fun _ hi => (by cases hi),
      fun _ hi => (by cases hi), fun _ hp => (by cases hp), fun i _ hi => (by rw [hslot] at hi; cases hi),
      fun i _ _ _ hi => (by rw [hslot] at hi; cases hi), fun _ hd => by cases hd⟩
  have htables : State.reset.tablesOk :=
    .ofEmpty .nil hlane rfl rfl rfl rfl (State.copy_calm_of_cardReset fun _ hr => by cases hr)
  exact ⟨⟨rfl, rfl, rfl⟩, hpacer, ⟨by decide, by decide, fun ho => by cases ho⟩, ⟨by decide, by decide⟩, hladder, hqueue,
    fun n l hl => (by rw [hlane] at hl; cases hl), hwalker, htables⟩

end Sys2Proof.Machine
end


section
/-! Proofs: the orders on media, reels and references (R2, R3, R6 to R8, R10, R14 to R17, R175 to R177). -/

namespace Sys2Proof.Machine

/-! ### An order that the port takes -/

/-- The command of an order that the port takes, once the order's answer is known. -/
theorem exec_answered {c : Instr} {h : Head} {code : Nat} {act : Half → List Byte → State → Applied} {tag : Half}
    {body : List Byte} {s u : State} {a : Answer} (hc : ∀ s, exec c s = takeOrder h code act s)
    (ht : s.takes h code tag body) (ha : act tag body (s.popOrder h) = .answered u a) :
    exec c s = .next (u.answer h code tag a) := by
  rw [hc, takeOrder_takes ht, ha]
  rfl

/-- The command of an order that begins an operation: its reply place is reserved. -/
theorem exec_begun {c : Instr} {h : Head} {code : Nat} {act : Half → List Byte → State → Applied} {tag : Half}
    {body : List Byte} {s u : State} (hc : ∀ s, exec c s = takeOrder h code act s) (ht : s.takes h code tag body)
    (ha : act tag body (s.popOrder h) = .begun u) : exec c s = .next (u.reserve h).settle := by
  rw [hc, takeOrder_takes ht, ha]
  rfl

/-! What is read of the tables when an order has left its place. -/

section

variable (s : State) (h : Head)

@[simp] theorem State.popOrder_medium? (id : Nat) : (s.popOrder h).medium? id = s.medium? id := by cases h <;> rfl
@[simp] theorem State.popOrder_reel? (a : Nat) : (s.popOrder h).reel? a = s.reel? a := by cases h <;> rfl
@[simp] theorem State.popOrder_activeReel? (a : Nat) : (s.popOrder h).activeReel? a = s.activeReel? a := by cases h <;> rfl
@[simp] theorem State.popOrder_seg (g : SegId) : (s.popOrder h).seg g = s.seg g := by cases h <;> rfl
@[simp] theorem State.popOrder_copy (c : CopyId) : (s.popOrder h).copy c = s.copy c := by cases h <;> rfl
@[simp] theorem State.popOrder_mediumOf (c : CopyId) : (s.popOrder h).mediumOf c = s.mediumOf c := by cases h <;> rfl
@[simp] theorem State.popOrder_copyHealth (c : CopyId) : (s.popOrder h).copyHealth c = s.copyHealth c := by cases h <;> rfl
@[simp] theorem State.popOrder_source? (c : CopyId) : (s.popOrder h).source? c = s.source? c := by cases h <;> rfl
@[simp] theorem State.popOrder_refDigest (g : SegId) : (s.popOrder h).refDigest g = s.refDigest g := by cases h <;> rfl
@[simp] theorem State.popOrder_frameCount (g : SegId) : (s.popOrder h).frameCount g = s.frameCount g := by cases h <;> rfl
@[simp] theorem State.popOrder_byteLength (g : SegId) : (s.popOrder h).byteLength g = s.byteLength g := by cases h <;> rfl
@[simp] theorem State.popOrder_today : (s.popOrder h).today = s.today := by cases h <;> rfl
@[simp] theorem State.popOrder_checkSeg (g : SegId) : (s.popOrder h).checkSeg g = s.checkSeg g := by cases h <;> rfl
@[simp] theorem State.popOrder_checkCopy (c : CopyId) : (s.popOrder h).checkCopy c = s.checkCopy c := by cases h <;> rfl
@[simp] theorem State.popOrder_refersTo (p : SegId → Bool) : (s.popOrder h).refersTo p = s.refersTo p := by cases h <;> rfl
@[simp] theorem State.popOrder_firstFit (n : Nat) : (s.popOrder h).firstFit n = s.firstFit n := by cases h <;> rfl
@[simp] theorem State.popOrder_dispute? (g : SegId) : (s.popOrder h).dispute? g = s.dispute? g := by cases h <;> rfl
@[simp] theorem State.popOrder_awaiting? (g : SegId) : (s.popOrder h).awaiting? g = s.awaiting? g := by cases h <;> rfl
@[simp] theorem State.popOrder_repair? (c : CopyId) : (s.popOrder h).repair? c = s.repair? c := by cases h <;> rfl
@[simp] theorem State.popOrder_item? (tag : Nat) : (s.popOrder h).item? tag = s.item? tag := by cases h <;> rfl
@[simp] theorem State.popOrder_lane (n : Nat) : (s.popOrder h).lane n = s.lane n := by cases h <;> rfl
@[simp] theorem State.popOrder_slot (i : Nat) : (s.popOrder h).slot i = s.slot i := by cases h <;> rfl

@[simp] theorem State.popOrder_segmentBody (g : SegId) (r : Reel) :
    (s.popOrder h).segmentBody g r = s.segmentBody g r := by cases h <;> rfl

end

/-! ### Look-ups -/

theorem State.medium?_eq_none {s : State} {id : Nat} : s.medium? id = none ↔ ∀ m ∈ s.media, m.id ≠ id := by
  simp [State.medium?]

theorem State.medium?_isSome {s : State} {id : Nat} : (s.medium? id).isSome = true ↔ ∃ m ∈ s.media, m.id = id := by
  simp [State.medium?]

theorem State.reel?_eq_none {s : State} {acc : Nat} : s.reel? acc = none ↔ ∀ r ∈ s.reels, r.acc ≠ acc := by
  simp [State.reel?]

theorem MediumKind.ofCode_eq_none {n : Nat} : MediumKind.ofCode n = none ↔ 2 < n := by
  match n with
  | 0 => decide
  | 1 => decide
  | 2 => decide
  | n + 3 => exact iff_of_true rfl (by omega)

/-- What refers to a marked segment: a lane that is not FREE, an item, a dispute or a repair. -/
theorem State.refersTo_iff {s : State} {p : SegId → Bool} : s.refersTo p = true ↔
    (∃ n l, s.lane n = some l ∧ p l.target.seg = true) ∨ (∃ i ∈ s.queue.items, p i.target.seg = true) ∨
      (∃ d ∈ s.disputes, p d.seg = true) ∨ ∃ r ∈ s.repairs, p r.target.seg = true := by
  constructor
  · intro h
    simp only [State.refersTo, Bool.or_eq_true, List.any_eq_true, or_assoc] at h
    refine h.imp_left ?_
    rintro ⟨x, hx, hp⟩
    obtain ⟨l, rfl, hl⟩ := (Option.any_eq_true _ _).1 hp
    obtain ⟨n, hn, hx⟩ := List.getElem_of_mem hx
    rw [Vector.length_toList] at hn
    rw [Vector.getElem_toList] at hx
    exact ⟨n, l, by rw [State.lane, Vector.getElem?_eq_getElem hn, hx, Option.getD_some], hl⟩
  · intro h
    by_contra hc
    obtain ⟨h1, h2, h3, h4⟩ := State.refersTo_false (Bool.eq_false_iff.2 hc)
    rcases h with ⟨n, l, hl, hp⟩ | ⟨i, hi, hp⟩ | ⟨d, hd, hp⟩ | ⟨r, hr, hp⟩
    · exact Bool.false_ne_true ((h1 n l hl).symm.trans hp)
    · exact Bool.false_ne_true ((h2 i hi).symm.trans hp)
    · exact Bool.false_ne_true ((h3 d hd).symm.trans hp)
    · exact Bool.false_ne_true ((h4 r hr).symm.trans hp)

/-! ### Media -/

/-- Settles O21. -/
theorem mediumAddResult : Obligations.MediumAddResult := by
  intro h tag body s ht
  have hex {u a} (ha : mediumAdd body (s.popOrder h) = .answered u a) :
      exec (.mediumAdd h) s = .next (u.answer h 1 tag a) := exec_answered (exec_mediumAdd h) ht ha
  have hkind (hk : leAt body 4 1 ≤ 2) : ∃ kind, MediumKind.ofCode (leAt body 4 1) = some kind :=
    Option.ne_none_iff_exists'.1 fun hn => absurd (MediumKind.ofCode_eq_none.1 hn) (by omega)
  refine ⟨fun hb => hex ?_, fun h0 hk hm => hex ?_, fun h0 hk hm hl => hex ?_, fun kind hk h0 hm hl => hex ?_⟩
  · cases hk : MediumKind.ofCode (leAt body 4 1) with
    | none => simp [mediumAdd, hk, Answer.no]
    | some kind =>
      have h0 : leAt body 0 4 = 0 := hb.resolve_right fun h2 => by simp [MediumKind.ofCode_eq_none.2 h2] at hk
      simp [mediumAdd, hk, h0, Answer.no]
  · obtain ⟨kind, hk⟩ := hkind hk
    simp [mediumAdd, hk, h0, State.medium?_isSome.2 hm, Answer.no]
  · obtain ⟨kind, hk⟩ := hkind hk
    simp [mediumAdd, hk, h0, State.medium?_eq_none.2 hm, Config.mediaMax, hl, Answer.no]
  · simp [mediumAdd, hk, h0, State.medium?_eq_none.2 hm, Config.mediaMax, hl, Medium.fresh]

/-- MEDIUM_WITHDRAW, MEDIUM_RETURN and MEDIUM_RESET_POINTS: the record of a known medium changes and is answered; an unknown
one is refused. -/
theorem mediumOrder_result {c : Instr} {h : Head} {code : Nat} {f : Medium → Medium} {tag : Half} {body : List Byte}
    {s : State} (hc : ∀ s, exec c s = takeOrder h code (fun _ b => mediumOrder f b) s) (ht : s.takes h code tag body) :
    (∀ m, s.medium? (leAt body 0 4) = some m → exec c s = .next (({ s.popOrder h with
      media := s.media.map fun (n : Medium) => if n.id = leAt body 0 4 then f n else n }).answer h code tag
        (.ok (f m).body))) ∧
    (s.medium? (leAt body 0 4) = none →
      exec c s = .next ((s.popOrder h).answer h code tag (.refused .unknownMedium []))) := by
  refine ⟨fun m hm => exec_answered hc ht ?_, fun hm => exec_answered hc ht ?_⟩
  · simp [mediumOrder, hm, State.modMedium]
  · simp [mediumOrder, hm, Answer.no]

/-- Settles O22: the removal by its three outcomes, the three orders on one record by `mediumOrder_result`. -/
theorem mediumRecordOrders : Obligations.MediumRecordOrders := by
  refine ⟨fun h tag body s ht => ?_, fun h tag body s =>
    ⟨mediumOrder_result (exec_mediumWithdraw h), mediumOrder_result (exec_mediumReturn h),
      mediumOrder_result (exec_mediumResetPoints h)⟩⟩
  have hex {u a} (ha : mediumRemove body (s.popOrder h) = .answered u a) :
      exec (.mediumRemove h) s = .next (u.answer h 2 tag a) := exec_answered (exec_mediumRemove h) ht ha
  refine ⟨fun hm => hex ?_, fun m hm => ⟨fun hu => hex ?_, fun hc hr => hex ?_⟩⟩
  · simp [mediumRemove, State.medium?_eq_none.2 hm, Answer.no]
  · have hu : 0 < m.copyCount ∨ s.reels.any (fun r => !r.isActive && r.copyMedia.contains (leAt body 0 4)) = true := by
      simpa using hu
    simp only [mediumRemove, State.popOrder_medium?, hm, State.popOrder_reels, if_pos hu, Answer.no]
  · have hu : ¬(0 < m.copyCount ∨ s.reels.any (fun r => !r.isActive && r.copyMedia.contains (leAt body 0 4)) = true) := by
      simpa [hc] using hr
    simp only [mediumRemove, State.popOrder_medium?, hm, State.popOrder_reels, if_neg hu, State.popOrder_media]

/-! ### Reels -/

/-- Settles O24. -/
theorem reelRemoveResult : Obligations.ReelRemoveResult := by
  intro h tag body s ht
  have hex {u a} (ha : reelRemove body (s.popOrder h) = .answered u a) :
      exec (.reelRemove h) s = .next (u.answer h 7 tag a) := exec_answered (exec_reelRemove h) ht ha
  refine ⟨fun hn => hex ?_, fun r hr => ⟨fun hu => hex ?_, fun h1 h2 h3 h4 => hex ?_⟩⟩
  · simp [reelRemove, hn, Answer.no]
  · have hu : s.refersTo (fun g => g.reel = leAt body 0 6) = true := by
      simp only [State.refersTo_iff, decide_eq_true_eq]
      exact hu
    simp [reelRemove, hr, hu, Answer.no]
  · have hu : s.refersTo (fun g => g.reel = leAt body 0 6) = false := by
      rw [← Bool.not_eq_true, State.refersTo_iff]
      simp only [decide_eq_true_eq]
      rintro (⟨n, l, hl, hp⟩ | ⟨i, hi, hp⟩ | ⟨d, hd, hp⟩ | ⟨p, hm, hp⟩)
      · exact h1 n l hl hp
      · exact h2 i hi hp
      · exact h3 d hd hp
      · exact h4 p hm hp
    simp [reelRemove, hr, hu, State.countCopies]

/-! ### First-fit placement (R7) -/

theorem lowest_eq_none {l : List Nat} : lowest l = none ↔ l = [] := by
  cases l <;> simp [lowest]

/-- The lowest of a list is in it and below all others. -/
theorem lowest_eq_some {l : List Nat} {n : Nat} (h : lowest l = some n) : n ∈ l ∧ ∀ m ∈ l, n ≤ m := by
  induction l generalizing n with
  | nil => cases h
  | cons a l ih =>
    simp only [lowest, Option.some.injEq] at h
    cases hl : lowest l with
    | none =>
      obtain rfl := lowest_eq_none.1 hl
      simp_all [lowest]
    | some k =>
      obtain ⟨hk, hle⟩ := ih hl
      simp only [hl] at h
      subst h
      refine ⟨?_, fun m hm => ?_⟩
      · rcases Nat.le_total a k with hak | hak <;> simp [hak, hk]
      · rcases List.mem_cons.1 hm with rfl | hm
        · exact Nat.min_le_left _ _
        · exact (Nat.min_le_right _ _).trans (hle m hm)

theorem State.runFree_iff {s : State} {a n : Nat} : s.runFree a n = true ↔
    a + n ≤ 524288 ∧ ∀ r ∈ s.reels, a + n ≤ r.firstIndex ∨ r.firstIndex + r.segCount ≤ a := by
  simp only [State.runFree, Bool.and_eq_true, decide_eq_true_eq, List.all_eq_true, Bool.or_eq_true]
  rfl

/-- A free run can be moved down to the last reel's end before it, or to the start of the store. -/
theorem State.runFree_start {s : State} {b n : Nat} (h : s.runFree b n = true) :
    ∃ a ∈ s.runStarts, a ≤ b ∧ s.runFree a n = true := by
  obtain ⟨a, ha, hmax⟩ := Finset.exists_max_image (s.runStarts.toFinset.filter (· ≤ b)) id
    ⟨0, by simp [State.runStarts]⟩
  simp only [Finset.mem_filter, List.mem_toFinset] at ha
  obtain ⟨ha, hab⟩ := ha
  obtain ⟨hfit, hfree⟩ := State.runFree_iff.1 h
  refine ⟨a, ha, hab, State.runFree_iff.2 ⟨by omega, fun r hr => ?_⟩⟩
  rcases hfree r hr with h1 | h1
  · exact .inl (by omega)
  · refine .inr (hmax (r.firstIndex + r.segCount) ?_)
    simp only [Finset.mem_filter, List.mem_toFinset, State.runStarts, List.mem_cons, List.mem_map]
    exact ⟨.inr ⟨r, hr, rfl⟩, h1⟩

/-- First-fit finds the lowest start of a free run. -/
theorem State.firstFit_eq_some {s : State} {n a : Nat} (h : s.firstFit n = some a) :
    s.runFree a n = true ∧ ∀ b < a, s.runFree b n = false := by
  obtain ⟨hmem, hle⟩ := lowest_eq_some (show lowest (s.runStarts.filter fun a => s.runFree a n) = some a from h)
  refine ⟨(List.mem_filter.1 hmem).2, fun b hb => ?_⟩
  by_contra hc
  obtain ⟨e, he, heb, hf⟩ := State.runFree_start (Bool.eq_true_of_not_eq_false hc)
  have := hle e (List.mem_filter.2 ⟨he, hf⟩)
  omega

/-- First-fit finds a start where there is a free run. -/
theorem State.firstFit_eq_none {s : State} {n : Nat} (h : s.firstFit n = none) (b : Nat) : s.runFree b n = false := by
  by_contra hc
  obtain ⟨e, he, -, hf⟩ := State.runFree_start (Bool.eq_true_of_not_eq_false hc)
  have hn : s.runStarts.filter (fun a => s.runFree a n) = [] := lowest_eq_none.1 h
  exact List.filter_eq_nil_iff.1 hn e he hf

/-- Settles O23: the registration and its completion by their definitions; first-fit by `State.runFree_start`, which moves
any free run down to one of the starts that first-fit tries. -/
theorem reelAddResult : Obligations.ReelAddResult := by
  refine ⟨⟨fun h tag body s start ht hargs hmedia hacc hlen hfit => ?_,
    fun s n start hs => State.firstFit_eq_some hs, fun s n hs => State.firstFit_eq_none hs⟩, fun reel s => ⟨?_, ?_⟩⟩
  · have hm : ((reelOperand h tag body).copyMedia.all fun id => ((s.popOrder h).medium? id).isSome) = true := by
      rw [List.all_eq_true]
      intro id hid
      rw [State.popOrder_medium?]
      exact State.medium?_isSome.2 (hmedia id hid)
    have hr : (s.popOrder h).reel? (reelOperand h tag body).acc = none := by
      rw [State.popOrder_reel?]
      exact State.reel?_eq_none.2 hacc
    refine exec_begun (exec_reelAdd h) ht ?_
    simp only [reelAdd, hargs, hm, hr, State.popOrder_firstFit, hfit]
    simp [hlen, Config.reelsMax]
  · intro r h tag hr hs
    show execReelAddCompletion reel s = _
    simp only [execReelAddCompletion, hr, hs]
    rfl
  · intro hact
    show execReelAddCompletion reel s = _
    unfold execReelAddCompletion
    split
    · rfl
    · next r hr => rw [hact r hr]

/-! ### References and SEGMENT_READ -/

theorem boolAt_of_le {body : List Byte} {off : Nat} (h : leAt body off 1 ≤ 1) :
    boolAt body off = some (leAt body off 1 == 1) := by
  unfold boolAt
  match leAt body off 1, h with
  | 0, _ => rfl
  | 1, _ => rfl

/-- REFERENCE_LOAD past its argument checks: a first load, PRESENT, IN_USE or a replacement. -/
theorem referenceLoad_eq {body : List Byte} {s : State} {r : Reel} (hb : leAt body 16 1 ≤ 1)
    (hr : s.checkSeg (segOperand body) = .ok r)
    (hn : leAt body 17 1 = 0 ∨ leAt body 17 1 = r.frameCount (leAt body 6 2)) :
    referenceLoad body s =
      let list := if leAt body 17 1 = 0 then none else some (digestsAt body 24 (leAt body 17 1))
      if (s.seg (segOperand body)).reference = none then
        .answered (s.modSeg (segOperand body) (SegRec.firstLoad (BitVec.ofNat 64 (leAt body 8 8)) list)) (.ok [])
      else if leAt body 16 1 = 0 then .answered s (.refused .present [])
      else if s.refersTo (fun q => q == segOperand body) then .answered s (.refused .inUse [])
      else .answered (s.modSeg (segOperand body) (SegRec.replaceReference (BitVec.ofNat 64 (leAt body 8 8)) list))
        (.ok []) := by
  have hn' : ¬(leAt body 17 1 ≠ 0 ∧ leAt body 17 1 ≠ r.frameCount (segOperand body).segment) := fun hc =>
    hn.elim hc.1 hc.2
  have h0 : (leAt body 16 1 == 1) = false ↔ leAt body 16 1 = 0 := by
    rw [beq_eq_false_iff_ne]
    omega
  simp only [referenceLoad, boolAt_of_le hb, hr, if_neg hn', h0, Answer.no]

/-- Settles O25. -/
theorem referenceLoadResult : Obligations.ReferenceLoadResult := by
  intro h tag body s r ht hb hr hn
  have hload := referenceLoad_eq hb ((s.popOrder_checkSeg h _).trans hr) hn
  simp only [State.popOrder_seg, State.popOrder_refersTo] at hload
  refine ⟨fun hf => ?_, fun hf h0 => ?_, fun hf h1 hu => ?_, fun hf h1 hu => ?_⟩
  all_goals refine exec_answered (exec_referenceLoad h) ht (hload.trans ?_)
  · rw [if_pos hf]
    rfl
  · rw [if_neg hf, if_pos h0]
  · rw [if_neg hf, if_neg (by omega), if_pos hu]
  · rw [if_neg hf, if_neg (by omega), if_neg (by simp [hu])]
    rfl

@[simp] theorem leBytes_length (n v : Nat) : (leBytes n v).length = n := by
  induction n generalizing v with
  | zero => rfl
  | succ n ih => simp [leBytes, ih]

@[simp] theorem zeros_length (n : Nat) : (zeros n).length = n := List.length_replicate

theorem State.copyBody_length (s : State) (c : CopyId) : (s.copyBody c).length = 16 := by
  simp [State.copyBody]

/-- The record of SEGMENT_READ: 48 bytes of the segment, 16 for each of three copies, and the frame digests. -/
theorem State.segmentBody_length (s : State) (g : SegId) (r : Reel) :
    (s.segmentBody g r).length = 96 + 8 * ((s.seg g).frameList.getD []).length := by
  have hcopies : (([0, 1, 2] : List Nat).flatMap fun i =>
      if i < r.copyCount then s.copyBody (g.copy i) else zeros 16).length = 48 := by
    rw [List.length_flatMap, List.map_congr_left (g := fun _ => 16)]
    · rfl
    · intro i _
      split
      · exact s.copyBody_length _
      · exact zeros_length 16
  have hframes (l : List Digest) : (l.flatMap fun d => leBytes 8 d.toNat).length = 8 * l.length := by
    simp only [List.length_flatMap, leBytes_length, List.map_const', List.sum_replicate, smul_eq_mul, Nat.mul_comm]
  unfold State.segmentBody
  dsimp only
  simp only [List.length_append, leBytes_length, zeros_length, hcopies, hframes]

/-- Settles O26: the order has no effect of its own; the record's length is that of `State.segmentBody_length`. -/
theorem segmentReadResult : Obligations.SegmentReadResult := by
  intro h tag body s ht
  have hex {a} (ha : segmentRead body (s.popOrder h) = .answered (s.popOrder h) a) :
      exec (.segmentRead h) s = .next ((s.popOrder h).answer h 9 tag a) := exec_answered (exec_segmentRead h) ht ha
  refine ⟨fun e he => hex ?_, fun r hr => ⟨hex ?_, s.segmentBody_length _ r⟩⟩
  · simp [segmentRead, he, Answer.no]
  · simp [segmentRead, hr]

end Sys2Proof.Machine
end


section
/-! Proofs: the resolution of a dispute by the heads (R89, R90). -/

namespace Sys2Proof.Machine

/-! ### What the work on a segment leaves -/

theorem State.Works.sameParts {s t : State} (h : s.Works t) : s.sameParts t :=
  ⟨h.lanes, h.windows, h.slots, h.bands, h.day, h.ladder, h.limits, h.portA, h.portB, h.pending⟩

theorem State.Works.today {s t : State} (h : s.Works t) : t.today = s.today := by
  unfold State.today
  rw [h.day]

/-- A reel whose segment records alone change has the same frames. -/
theorem State.frameCount_mapSegs {s t : State} {f : Reel → List (Nat × SegRec)}
    (h : t.reels = s.reels.map fun r => { r with segs := f r }) (g : SegId) : t.frameCount g = s.frameCount g := by
  have hcomp : ((fun r : Reel => r.acc == g.reel) ∘ fun r : Reel => { r with segs := f r }) = fun r => r.acc == g.reel := rfl
  simp only [State.frameCount, State.reel?, h, List.find?_map, hcomp]
  cases s.reels.find? fun r => r.acc == g.reel <;> rfl

theorem State.Steady.frameCount {P : CopyId → Prop} {s t : State} (h : s.Steady P t) (g : SegId) :
    t.frameCount g = s.frameCount g := by
  obtain ⟨f, hf⟩ := h.reels
  exact State.frameCount_mapSegs hf g

theorem State.Steady.refDigest {P : CopyId → Prop} {s t : State} (h : s.Steady P t) (g : SegId) :
    t.refDigest g = s.refDigest g := by
  unfold State.refDigest
  rw [h.reference]

@[simp] theorem State.frameCount_modSeg (s : State) (g k : SegId) (f : SegRec → SegRec) :
    (s.modSeg g f).frameCount k = s.frameCount k := by
  simp only [State.frameCount, State.reel?_modSeg]
  cases s.reel? k.reel with
  | none => rfl
  | some r =>
    simp only [Option.map_some]
    split <;> rfl

/-- The frames of a segment that an order names. -/
theorem State.frameCount_of_checkSeg {s : State} {g : SegId} {r : Reel} (h : s.checkSeg g = .ok r) :
    s.frameCount g = r.frameCount g.segment := by
  have hr := (Option.filter_eq_some_iff.1 (checkSeg_active h)).1
  simp [State.frameCount, hr]

/-- An entry that awaits resolution is the segment's dispute. -/
theorem State.awaiting?_dispute {s : State} {g : SegId} {d : Dispute} {dd : Digest} (h : s.awaiting? g = some (d, dd)) :
    s.dispute? g = some d := by
  obtain ⟨e, he, hed⟩ := Option.bind_eq_some_iff.1 h
  split at hed <;> cases hed
  exact he

/-! ### Copies made GOOD -/

/-- A record that is GOOD on a day, without the dispute-deferred mark. -/
def CopyRec.goodOn (day : Nat) (r : CopyRec) : Prop := r.trust = .good ∧ r.lastDay = day ∧ r.deferred = false

theorem State.setGood_goodOn (s : State) {c : CopyId} (day : Nat) (h : c.copy < (s.seg c.seg).copies.length) :
    ((s.setGood c day).copy c).goodOn day := by
  unfold State.setGood
  rw [s.copy_modCopy _ h]
  exact ⟨rfl, rfl, rfl⟩

theorem State.setGood_keeps_goodOn {s : State} (c : CopyId) {k : CopyId} {day : Nat} (h : (s.copy k).goodOn day) :
    ((s.setGood c day).copy k).goodOn day := by
  unfold State.setGood
  by_cases hk : k = c
  · subst hk
    rcases s.copy_modCopy_or k (fun r => { r with trust := .good, lastDay := day, deferred := false }) with he | he <;> rw [he]
    · exact ⟨rfl, rfl, rfl⟩
    · exact h
  · rwa [s.copy_modCopy_other _ hk]

/-- What the judgement of several copies as GOOD leaves of every segment, and of the reels. -/
theorem State.judgeAllGood_seg (s : State) (g : SegId) (day : Nat) (l : List Nat) (k : SegId) :
    ((s.judgeAllGood g day l).seg k).reference = (s.seg k).reference ∧
      ((s.judgeAllGood g day l).seg k).frameList = (s.seg k).frameList ∧
      (s.judgeAllGood g day l).frameCount k = s.frameCount k := by
  unfold State.judgeAllGood
  induction l generalizing s with
  | nil => exact ⟨rfl, rfl, rfl⟩
  | cons i l ih =>
    obtain ⟨h1, h2, h3⟩ := ih (s.setGood (g.copy i) day)
    exact ⟨h1.trans (s.modCopy_reference _ _ _), h2.trans (s.modCopy_frameList _ _ _), h3.trans (s.frameCount_modSeg _ _ _)⟩

/-- Every copy judged GOOD, and every one that was, is GOOD on the day. -/
theorem State.judgeAllGood_goodOn (s : State) (g : SegId) (day : Nat) (l : List Nat) (i : Nat)
    (hlt : i < (s.seg g).copies.length) (h : i ∈ l ∨ (s.copy (g.copy i)).goodOn day) :
    ((s.judgeAllGood g day l).copy (g.copy i)).goodOn day := by
  unfold State.judgeAllGood
  induction l generalizing s with
  | nil => exact h.resolve_left (by simp)
  | cons j l ih =>
    refine ih (s.setGood (g.copy j) day) (by rwa [State.setGood, State.modCopy_copies_length]) ?_
    rcases h with h | h
    · rcases List.mem_cons.1 h with rfl | h
      · exact .inr (s.setGood_goodOn day hlt)
      · exact .inl h
    · exact .inr (State.setGood_keeps_goodOn _ h)

/-! ### DISPUTE_ADOPT -/

/-- The state in which the repairs of an adopted entry are requested: reference, copies, VOTE_DECIDED and the entry's
removal (R89). -/
def State.adopted (s : State) (g : SegId) (d : Dispute) (dd : Digest) : State :=
  ((d.agreeing.foldl (fun u i => u.setGood (g.copy i) (s.day.getD 0))
    (s.modSeg g fun (q : SegRec) => { q with reference := some ⟨dd, .adopted⟩, frameList := none })).post
      ⟨.voteDecided, false, s.day.getD 0, some g.reel, some g.segment, none, none, some dd, none, 4⟩).removeDispute g

/-- An adoption is its effects on the segment, then the requests for the rejected copies. -/
theorem State.adopt_eq (s : State) (g : SegId) (d : Dispute) (dd : Digest) :
    s.adopt g d dd =
      (s.adopted g d dd).requestRepairs .adopt (d.rejected.map fun i => (g.copy i, fullMask (s.frameCount g))) := by
  unfold State.adopt
  extract_lets s1 s2 s3
  have hday : s2.today = s.today := ((s.modSeg_works _ _).trans (s1.judgeAllGood_works g s1.today d.agreeing)).today
  have hframes : s3.frameCount g = s.frameCount g :=
    (s1.judgeAllGood_seg g s1.today d.agreeing g).2.2.trans (s.frameCount_modSeg _ _ _)
  have hs3 : s3 = s2.post ⟨.voteDecided, false, s.day.getD 0, some g.reel, some g.segment, none, none, some dd, none, 4⟩ := by
    show s2.post (segFinding .voteDecided false s2.today g (some dd) 4) = _
    rw [hday]
    rfl
  rw [hframes, hs3]
  rfl

/-- After an adoption the entry is gone, the agreed digest is the reference, and the agreeing copies are GOOD. -/
theorem State.adopted_result (s : State) {g : SegId} {r : Reel} (d : Dispute) (dd : Digest) (hr : s.reel? g.reel = some r) :
    (s.adopted g d dd).dispute? g = none ∧ ((s.adopted g d dd).seg g).reference = some ⟨dd, .adopted⟩ ∧
      ((s.adopted g d dd).seg g).frameList = none ∧
      ∀ i ∈ d.agreeing, i < (s.seg g).copies.length → ((s.adopted g d dd).copy (g.copy i)).goodOn (s.day.getD 0) := by
  let f : SegRec → SegRec := fun q => { q with reference := some ⟨dd, .adopted⟩, frameList := none }
  have hseg : (s.modSeg g f).seg g = f (s.seg g) := s.seg_modSeg f hr
  obtain ⟨h1, h2, -⟩ := (s.modSeg g f).judgeAllGood_seg g (s.day.getD 0) d.agreeing g
  refine ⟨State.tablesOk.dispute?_removed _ g, h1.trans ?_, h2.trans ?_, fun i hi hlt => ?_⟩
  · rw [hseg]
  · rw [hseg]
  · exact (s.modSeg g f).judgeAllGood_goodOn g (s.day.getD 0) d.agreeing i (by rwa [hseg]) (.inl hi)

/-- Settles O42: an adoption is `State.adopted` and then the repair requests (`State.adopt_eq`); the requests judge no copy
that is GOOD and touch no reference (`State.requestRepairs_steady`). -/
theorem disputeAdoptResult : Obligations.DisputeAdoptResult := by
  intro h tag body s r ht hr
  have hr' : (s.popOrder h).checkSeg (segOperand body) = .ok r := (s.popOrder_checkSeg h _).trans hr
  have hexec {d dd} (haw : s.awaiting? (segOperand body) = some (d, dd)) : exec (.disputeAdopt h) s =
      .next ((((s.popOrder h).adopt (segOperand body) d dd).wakeRoom).answer h 32 tag (.ok [])) := by
    refine exec_answered (exec_disputeAdopt h) ht ?_
    simp only [disputeAdopt, hr', State.popOrder_awaiting?, haw]
  refine ⟨fun d dd haw => ⟨_, hexec haw, ?_, ?_⟩, fun d dd g haw hg => ?_, fun haw => exec_answered (exec_disputeAdopt h) ht ?_⟩
  · exact ((State.adopt_works _ _ _ _).trans (State.wakeRoom_works _)).sameParts
  · have hreel := (Option.filter_eq_some_iff.1 (checkSeg_active hr')).1
    obtain ⟨h1, h2, h3, h4⟩ := (s.popOrder h).adopted_result d dd hreel
    rw [State.adopt_eq]
    have hst := (State.requestRepairs_steady ((s.popOrder h).adopted (segOperand body) d dd) .adopt
      (d.rejected.map fun i => ((segOperand body).copy i, fullMask ((s.popOrder h).frameCount (segOperand body))))).trans
        (State.wakeRoom_steady _ _)
    refine ⟨hst.dispute?_none h1, (hst.reference _).trans h2, (hst.frameList _).trans h3, fun i hi hlt => ?_⟩
    obtain ⟨g1, g2, g3⟩ := h4 i hi (by rwa [State.popOrder_seg])
    obtain ⟨e1, e2, e3, -⟩ := hst.copy ((segOperand body).copy i) (by simp [g1])
    exact ⟨e1.trans g1, (e2.trans g2).trans (by rw [State.popOrder_day]), e3.trans g3⟩
  · subst hg
    rw [hexec haw, State.adopt_eq, State.adopted, State.popOrder_day, State.popOrder_frameCount,
      State.frameCount_of_checkSeg hr]
  · simp only [disputeAdopt, hr', State.popOrder_awaiting?, haw, Answer.no]

/-! ### Copies judged BAD -/

section

variable (s : State)

theorem State.judgeBad_steady (g : SegId) (n : Nat) (p : Nat × Obs) : s.Steady (fun _ => True) (s.judgeBad g n p) :=
  ((s.modCopy_steady _ (g.copy p.1) _ (fun _ => .inl rfl) fun hn => absurd trivial hn).trans
    (State.post_steady _ _ _)).trans (State.chargeMedium_steady _ _ _ _)

theorem State.judgeAllBad_steady (g : SegId) (n : Nat) (l : List (Nat × Obs)) :
    s.Steady (fun _ => True) (s.judgeAllBad g n l) := .foldl l (fun t p _ => t.judgeBad_steady g n p) s

/-- A copy that exists is BAD once it is judged so, and is not made anything but REPAIRING by later judgements. -/
theorem State.judgeAllBad_judged (g : SegId) (n : Nat) {l : List (Nat × Obs)} {p : Nat × Obs} (hp : p ∈ l)
    (hlt : p.1 < (s.seg g).copies.length) :
    ((s.judgeAllBad g n l).copy (g.copy p.1)).trust = .bad ∨ ((s.judgeAllBad g n l).copy (g.copy p.1)).trust = .repairing := by
  obtain ⟨a, b, rfl⟩ := List.append_of_mem hp
  have hsplit : s.judgeAllBad g n (a ++ p :: b) = ((s.judgeAllBad g n a).judgeBad g n p).judgeAllBad g n b := by
    simp only [State.judgeAllBad, List.foldl_append, List.foldl_cons]
  rw [hsplit]
  refine (State.judgeAllBad_steady _ g n b).judged _ (State.Steady.judged
    ((State.post_steady _ (fun _ => True) _).trans (State.chargeMedium_steady _ _ _ _)) _ (.inl ?_))
  unfold State.setTrust
  rw [State.copy_modCopy]
  exact ((s.judgeAllBad_steady g n a).copies g).symm ▸ hlt

/-- The judgement of copies as BAD with its findings written out: day and media are those of a state `s` that agrees. -/
theorem State.judgeAllBad_eq {t : State} (g : SegId) (n : Nat) (l : List (Nat × Obs)) (hd : t.day = s.day)
    (hm : ∀ c, t.mediumOf c = s.mediumOf c) :
    t.judgeAllBad g n l = l.foldl (fun u p => ((u.setTrust (g.copy p.1) .bad).post ⟨.copyBad, true, s.day.getD 0,
      some g.reel, some g.segment, some p.1, some (s.mediumOf (g.copy p.1)), some p.2.digest,
      if p.2.compared then some p.2.mask else none, n⟩).chargeMedium (g.copy p.1) 8) t := by
  induction l generalizing t with
  | nil => rfl
  | cons p l ih =>
    have hstep : t.judgeBad g n p = ((t.setTrust (g.copy p.1) .bad).post ⟨.copyBad, true, s.day.getD 0,
        some g.reel, some g.segment, some p.1, some (s.mediumOf (g.copy p.1)), some p.2.digest,
        if p.2.compared then some p.2.mask else none, n⟩).chargeMedium (g.copy p.1) 8 := by
      have hday : (t.setTrust (g.copy p.1) .bad).today = s.day.getD 0 :=
        (t.setTrust_works _ _).today.trans (congrArg (·.getD 0) hd)
      have hmed : (t.setTrust (g.copy p.1) .bad).mediumOf (g.copy p.1) = s.mediumOf (g.copy p.1) :=
        (t.mediumOf_modSeg _ _ _).trans (hm _)
      simp only [State.judgeBad, State.copyFinding, hday, hmed]
      rfl
    rw [List.foldl_cons, ← hstep, ← ih ((t.judgeBad_works g n p).day.trans hd)
      fun c => ((t.judgeBad_steady g n p).medium c).trans (hm c)]
    rfl

/-! ### DISPUTE_REJECT -/

/-- The state in which the repairs of a rejected adoption are requested: the judgements, VOTE_DECIDED, SEGMENT_LOST and the
entry's removal (R90). -/
def State.rejected (g : SegId) (d : Dispute) : State :=
  (((s.judgeAllBad g 5 (d.votes.filter fun p => p.1 ∈ d.agreeing)).post ⟨.voteDecided, false, s.day.getD 0, some g.reel,
    some g.segment, none, none, s.refDigest g, none, 5⟩).postIfLost g).removeDispute g

/-- The mask of R85, for an observation of a segment of `n` frames. -/
theorem Obs.repairMask_eq (o : Obs) (n : Nat) :
    o.repairMask n = if o.compared = true ∧ o.mask ≠ 0#64 then o.mask else fullMask n := by
  simp [Obs.repairMask]

/-- A rejection is its effects on the segment, then the requests for all the copies of the entry. -/
theorem State.reject_eq (g : SegId) (d : Dispute) :
    s.reject g d = if (s.rejected g d).isLost g then s.rejected g d else (s.rejected g d).requestRepairs .reject
      ((d.votes.filter fun p => p.1 ∈ d.agreeing ∨ p.1 ∈ d.rejected).map fun p => (g.copy p.1,
        if p.2.compared = true ∧ p.2.mask ≠ 0#64 then p.2.mask else fullMask (s.frameCount g))) := by
  have hagree : (d.votes.filter fun p => d.agreeing.contains p.1) = d.votes.filter fun p => p.1 ∈ d.agreeing := by simp
  have hboth : (d.votes.filter fun p => d.agreeing.contains p.1 || d.rejected.contains p.1) =
      d.votes.filter fun p => p.1 ∈ d.agreeing ∨ p.1 ∈ d.rejected := by simp
  have hst := s.judgeAllBad_steady g 5 (d.votes.filter fun p => p.1 ∈ d.agreeing)
  have hday := (s.judgeAllBad_works g 5 (d.votes.filter fun p => p.1 ∈ d.agreeing)).today
  have hframes : (s.rejected g d).frameCount g = s.frameCount g :=
    ((hst.trans (State.post_steady _ _ _)).trans (State.postIfLost_steady _ _ _)).frameCount g
  unfold State.reject
  rw [hagree, hboth]
  simp only [repairList, Obs.repairMask_eq, hday, hst.refDigest]
  rw [← hframes]
  rfl

/-- After a rejection the entry is gone, reference and frame list stand, and each agreeing voted copy is judged BAD. -/
theorem State.rejected_result (g : SegId) (d : Dispute) :
    (s.rejected g d).dispute? g = none ∧ ((s.rejected g d).seg g).reference = (s.seg g).reference ∧
      ((s.rejected g d).seg g).frameList = (s.seg g).frameList ∧
      ∀ i ∈ d.agreeing, (d.effective i).isSome = true → i < d.slots.length → i < (s.seg g).copies.length →
        ((s.rejected g d).copy (g.copy i)).trust = .bad ∨ ((s.rejected g d).copy (g.copy i)).trust = .repairing := by
  have hrest {u : State} (f : Finding) : u.Steady (fun _ => True) ((u.post f).postIfLost g) :=
    (u.post_steady _ f).trans (State.postIfLost_steady _ _ _)
  have hst := (s.judgeAllBad_steady g 5 (d.votes.filter fun p => p.1 ∈ d.agreeing)).trans
    (hrest ⟨.voteDecided, false, s.day.getD 0, some g.reel, some g.segment, none, none, s.refDigest g, none, 5⟩)
  refine ⟨State.tablesOk.dispute?_removed _ g, hst.reference g, hst.frameList g, fun i hi he hs hlt => ?_⟩
  obtain ⟨o, ho⟩ := Option.isSome_iff_exists.1 he
  have hvote : (i, o) ∈ d.votes.filter fun p => p.1 ∈ d.agreeing := by
    simp only [Dispute.votes, List.mem_filter, List.mem_filterMap, List.mem_range, decide_eq_true_eq]
    exact ⟨⟨i, hs, by simp [ho]⟩, hi⟩
  exact (hrest _).judged _ (s.judgeAllBad_judged g 5 hvote hlt)

end

/-- Settles O43: a rejection is `State.rejected` and then the repair requests (`State.reject_eq`), which leave a judged copy
BAD or REPAIRING (`State.requestRepairs_steady`). -/
theorem disputeRejectResult : Obligations.DisputeRejectResult := by
  intro h tag body s r ht hr
  have hr' : (s.popOrder h).checkSeg (segOperand body) = .ok r := (s.popOrder_checkSeg h _).trans hr
  have hexec {d dd} (haw : s.awaiting? (segOperand body) = some (d, dd)) : exec (.disputeReject h) s =
      .next ((((s.popOrder h).reject (segOperand body) d).wakeRoom).answer h 33 tag (.ok [])) := by
    refine exec_answered (exec_disputeReject h) ht ?_
    simp only [disputeReject, hr', State.popOrder_awaiting?, haw]
  refine ⟨fun d dd haw => ⟨_, hexec haw, ?_, ?_⟩, fun d dd g u v haw hg hu hv => ?_,
    fun haw => exec_answered (exec_disputeReject h) ht ?_⟩
  · exact ((State.reject_works _ _ _).trans (State.wakeRoom_works _)).sameParts
  · obtain ⟨h1, h2, h3, h4⟩ := (s.popOrder h).rejected_result (segOperand body) d
    have hst : ((s.popOrder h).rejected (segOperand body) d).Steady
        (fun c => (((s.popOrder h).rejected (segOperand body) d).copy c).trust = .bad ∨
          (((s.popOrder h).rejected (segOperand body) d).copy c).trust = .repairing)
        ((s.popOrder h).reject (segOperand body) d).wakeRoom := by
      rw [State.reject_eq]
      refine State.Steady.trans ?_ (State.wakeRoom_steady _ _)
      split
      · exact .refl _
      · exact State.requestRepairs_steady _ _ _
    refine ⟨hst.dispute?_none h1, ?_, ?_, fun i hi he hs hlt => ?_⟩
    · rw [hst.reference, h2, State.popOrder_seg]
    · rw [hst.frameList, h3, State.popOrder_seg]
    · exact hst.judged _ (h4 i hi he hs (by rwa [State.popOrder_seg]))
  · subst hg
    have hv' : (s.popOrder h).rejected (segOperand body) d = v := by
      rw [hv, hu, ← State.judgeAllBad_eq s _ _ _ (s.popOrder_day h) (s.popOrder_mediumOf h), State.rejected,
        State.popOrder_day, State.popOrder_refDigest]
    rw [hexec haw, State.reject_eq, hv', State.popOrder_frameCount, State.frameCount_of_checkSeg hr]
  · simp only [disputeReject, hr', State.popOrder_awaiting?, haw, Answer.no]

end Sys2Proof.Machine
end


section
/-! Proofs: REPAIR_REQUEST (R95 to R98). -/

namespace Sys2Proof.Machine

/-! ### Two changes of one record -/

theorem Sparse.put_put {α : Type} (k : Nat) (v w : α) (m : List (Nat × α)) :
    Sparse.put k v (Sparse.put k w m) = Sparse.put k v m := by
  induction m with
  | nil => simp [Sparse.put]
  | cons p m ih =>
    obtain ⟨a, x⟩ := p
    by_cases hlt : k < a
    · simp [Sparse.put, hlt]
    · by_cases he : k = a
      · simp [Sparse.put, he]
      · simp [Sparse.put, hlt, he, ih]

theorem Reel.modSeg_modSeg (r : Reel) (i : Nat) (f k : SegRec → SegRec) :
    (r.modSeg i f).modSeg i k = r.modSeg i (k ∘ f) := by
  have hseg : (r.modSeg i f).seg i = f (r.seg i) := by simp [Reel.seg_modSeg]
  unfold Reel.modSeg at hseg ⊢
  simp only [hseg, Sparse.put_put, Function.comp_apply]

theorem State.modSeg_modSeg (s : State) (g : SegId) (f k : SegRec → SegRec) :
    (s.modSeg g f).modSeg g k = s.modSeg g (k ∘ f) := by
  simp only [State.modSeg, List.map_map]
  congr 1
  refine List.map_congr_left fun r _ => ?_
  by_cases hr : r.acc = g.reel
  · have hacc : (r.modSeg g.segment f).acc = g.reel := hr
    simp only [Function.comp_apply, if_pos hr, if_pos hacc, Reel.modSeg_modSeg]
  · simp only [Function.comp_apply, if_neg hr]

theorem State.modCopy_modCopy (s : State) (c : CopyId) (f k : CopyRec → CopyRec) :
    (s.modCopy c f).modCopy c k = s.modCopy c (k ∘ f) := by
  simp only [State.modCopy, State.modSeg_modSeg]
  congr 1
  funext g
  simp only [Function.comp_apply, List.modify_modify_eq]

/-- The byte length of a segment is that of its reel's frames. -/
@[simp] theorem State.byteLength_modSeg (s : State) (g k : SegId) (f : SegRec → SegRec) :
    (s.modSeg g f).byteLength k = s.byteLength k := by
  simp only [State.byteLength, State.reel?_modSeg]
  cases s.reel? k.reel with
  | none => rfl
  | some r =>
    simp only [Option.map_some]
    split <;> rfl

/-! ### The entry of a repair -/

/-- The state in which a head's request has entered its repair: the entry stands at attempt 1 without an item, and the
copy is REPAIRING with clear marks (R96). -/
def State.repairEntered (s : State) (c : CopyId) (mask : Mask) : State :=
  ({ s with repairs := s.repairs ++ [(⟨c, mask, 1, .waitingPlace, .head⟩ : Repair)] }).modCopy c
    fun q => { q with trust := .repairing, exhausted := false, deferred := false }

/-- What a request makes of the entered repair: with no other item on the copy it takes an item or waits; a QUEUED leftover
item is withdrawn, another one is left (R96, R97). -/
theorem State.createRepair_head (s : State) (c : CopyId) (mask : Mask) :
    (s.setExhausted c false).createRepair c mask .head =
      match ((s.repairEntered c mask).copy c).itemTag.bind s.item? with
      | some it =>
        if it.isQueued then ((s.repairEntered c mask).withdrawItem it).leftoverGone c else s.repairEntered c mask
      | none => (s.repairEntered c mask).issueOrWait (.repair c) := by
  have hentry : ({ s.setExhausted c false with repairs := (s.setExhausted c false).repairs ++
      [(⟨c, mask, 1, .waitingPlace, .head⟩ : Repair)] }).setTrust c .repairing = s.repairEntered c mask := by
    have hmods := State.modCopy_modCopy { s with repairs := s.repairs ++ [(⟨c, mask, 1, .waitingPlace, .head⟩ : Repair)] } c
      (fun r => { r with exhausted := false })
      (fun r => { r with trust := .repairing, deferred := r.deferred && Trust.repairing == .suspect })
    refine hmods.trans ?_
    unfold State.repairEntered
    congr 1
    funext q
    simp
  unfold State.createRepair
  dsimp only
  rw [hentry]
  rfl

section

variable {s : State} {c : CopyId} {mask : Mask}

theorem State.copy_repairEntered (h : c.copy < (s.seg c.seg).copies.length) : (s.repairEntered c mask).copy c =
    { s.copy c with trust := .repairing, exhausted := false, deferred := false } := State.copy_modCopy _ _ h

theorem State.repair?_repairEntered (h : s.repair? c = none) :
    (s.repairEntered c mask).repair? c = some ⟨c, mask, 1, .waitingPlace, .head⟩ := by
  show (s.repairs ++ [_]).find? _ = _
  rw [List.find?_append]
  have : s.repairs.find? (fun r => r.target == c) = none := h
  simp [this]

/-- A BAD copy is one that exists. -/
theorem State.copy_lt_of_bad (h : (s.copy c).trust = .bad) : c.copy < (s.seg c.seg).copies.length := by
  by_contra hc
  rw [s.copy_absent c hc] at h
  cases h

/-- Serving a repair entry puts a new item into the queue and changes the entry alone. -/
theorem State.issue_repairEntered_repairs (h : s.repair? c = none) : ((s.repairEntered c mask).issue (.repair c)).repairs =
    s.repairs ++ [⟨c, mask, 1, .issued s.queue.nextTag, .head⟩] := by
  have hothers : ∀ r ∈ s.repairs, r.target ≠ c := fun r hr => by simpa using List.find?_eq_none.1 h r hr
  have hself : s.repairs.map (fun r => if r.target = c then { r with state := .issued s.queue.nextTag } else r) =
      s.repairs.map id := List.map_congr_left fun r hr => if_neg (hothers r hr)
  show (s.repairs ++ [_]).map _ = _
  rw [List.map_append]
  exact congrArg₂ _ (hself.trans (List.map_id _)) (by simp; rfl)

theorem State.repair?_issue_repairEntered (h : s.repair? c = none) :
    ((s.repairEntered c mask).issue (.repair c)).repair? c = some ⟨c, mask, 1, .issued s.queue.nextTag, .head⟩ := by
  have hnone : s.repairs.find? (fun r => r.target == c) = none := h
  rw [State.repair?, State.issue_repairEntered_repairs h, List.find?_append, hnone]
  simp

theorem State.repairEntered_works (s : State) (c : CopyId) (mask : Mask) : s.Works (s.repairEntered c mask) :=
  (State.Works.ofTables s s.reels s.disputes _ s.queue).trans (State.modCopy_works _ _ _)

/-- Neither the entry nor its item touches the media, the disputes, the findings or the walker. -/
theorem State.issue_repairEntered_rest : ((s.repairEntered c mask).issue (.repair c)).media = s.media ∧
    ((s.repairEntered c mask).issue (.repair c)).disputes = s.disputes ∧
    ((s.repairEntered c mask).issue (.repair c)).fq = s.fq ∧
    ((s.repairEntered c mask).issue (.repair c)).walker = s.walker := ⟨rfl, rfl, rfl, rfl⟩

theorem State.issue_repairEntered_queue (h : s.repair? c = none) :
    ((s.repairEntered c mask).issue (.repair c)).queue.items = placeLast ⟨s.queue.nextTag, .repair, .urgent, c,
      chargeOf (s.byteLength c.seg), .queued, 0, false, mask, none⟩ s.queue.items := by
  have hlen : (s.repairEntered c mask).byteLength c.seg = s.byteLength c.seg := State.byteLength_modSeg _ _ _ _
  rw [← hlen]
  simp only [State.issue, State.repair?_repairEntered h]
  rfl

theorem State.issue_repairEntered_pacer :
    ((s.repairEntered c mask).issue (.repair c)).pacer = s.pacer.charge (chargeOf (s.byteLength c.seg)) := by
  have hlen : (s.repairEntered c mask).byteLength c.seg = s.byteLength c.seg := State.byteLength_modSeg _ _ _ _
  rw [← hlen]
  rfl

theorem State.issue_repairEntered_copy (h : c.copy < (s.seg c.seg).copies.length) :
    ((s.repairEntered c mask).issue (.repair c)).copy c =
      { s.copy c with trust := .repairing, exhausted := false, deferred := false, itemTag := some s.queue.nextTag } := by
  have hlt : c.copy < ((s.repairEntered c mask).seg c.seg).copies.length := by
    unfold State.repairEntered
    rwa [State.modCopy_copies_length]
  have hitem := (s.repairEntered c mask).copy_modCopy (fun q => { q with itemTag := some s.queue.nextTag }) hlt
  rw [State.copy_repairEntered h] at hitem
  exact hitem

end

/-! ### Waking the walker -/

theorem State.wakeRoom_eq (s : State) : ∃ w, s.wakeRoom = { s with walker := w } ∧
    (s.walker.state ≠ .waitRoom → w = s.walker) := by
  unfold State.wakeRoom
  split
  · next hw => exact ⟨_, rfl, fun hn => absurd hw.1 hn⟩
  · exact ⟨_, rfl, fun _ => rfl⟩

theorem State.copy_wakeRoom (s : State) (c : CopyId) : s.wakeRoom.copy c = s.copy c := by
  obtain ⟨w, hw, -⟩ := s.wakeRoom_eq
  rw [hw]
  rfl

/-- What an accepted request with a place free comes to: the entry ISSUED and its item charged, on a REPAIRING copy. -/
theorem State.issue_repairEntered_result {s u : State} {c : CopyId} {mask : Mask} (hrep : s.repair? c = none)
    (hlt : c.copy < (s.seg c.seg).copies.length) (hu : u = ((s.repairEntered c mask).issue (.repair c)).wakeRoom) :
    s.sameParts u ∧ u.media = s.media ∧ u.disputes = s.disputes ∧ u.fq = s.fq ∧
      (s.walker.state ≠ .waitRoom → u.walker = s.walker) ∧
      u.repairs = s.repairs ++ [⟨c, mask, 1, .issued s.queue.nextTag, .head⟩] ∧
      u.queue.items = placeLast ⟨s.queue.nextTag, .repair, .urgent, c, chargeOf (s.byteLength c.seg), .queued, 0, false, mask,
        none⟩ s.queue.items ∧
      u.pacer = s.pacer.charge (chargeOf (s.byteLength c.seg)) ∧ (u.copy c).trust = .repairing ∧
      (u.copy c).exhausted = false ∧ (u.copy c).itemTag = some s.queue.nextTag ∧
      (u.copy c).lastDay = (s.copy c).lastDay := by
  have hworks := ((s.repairEntered_works c mask).trans (State.issue_works _ (.repair c))).trans (State.wakeRoom_works _)
  obtain ⟨hmedia, hdisputes, hfq, hwalker⟩ := State.issue_repairEntered_rest (s := s) (c := c) (mask := mask)
  obtain ⟨w, hwake, hwalk⟩ := ((s.repairEntered c mask).issue (.repair c)).wakeRoom_eq
  have hcopy : u.copy c = _ := hu ▸ (State.copy_wakeRoom _ c).trans (State.issue_repairEntered_copy hlt)
  have hitems := State.issue_repairEntered_queue (mask := mask) hrep
  rw [← hu] at hworks hwake
  refine ⟨hworks.sameParts, ?_⟩
  rw [hcopy, hwake]
  refine ⟨hmedia, hdisputes, hfq, fun hn => ?_, ?_, ?_, ?_, rfl, rfl, rfl, rfl⟩
  · exact (hwalk (hwalker.symm ▸ hn)).trans hwalker
  · exact State.issue_repairEntered_repairs hrep
  · exact hitems
  · exact State.issue_repairEntered_pacer

/-! ### The order -/

/-- The reply's body to an accepted request: the state of the entry, with the tag of its item (R95, R209). -/
def State.repairReply (s : State) (c : CopyId) : List Byte :=
  match s.repair? c with
  | some ⟨_, _, _, .issued tag, _⟩ => leBytes 1 1 ++ zeros 1 ++ leBytes 2 tag
  | _ => zeros 4

theorem State.repairReply_waiting {s : State} {c : CopyId} {q : Repair} (h : s.repair? c = some q)
    (hq : q.state = .waitingPlace) : s.repairReply c = zeros 4 := by
  obtain ⟨t, m, n, st, o⟩ := q
  obtain rfl : st = .waitingPlace := hq
  simp only [State.repairReply, h]

theorem State.repairReply_issued {s : State} {c : CopyId} {q : Repair} {tag : Nat} (h : s.repair? c = some q)
    (hq : q.state = .issued tag) : s.repairReply c = leBytes 1 1 ++ zeros 1 ++ leBytes 2 tag := by
  obtain ⟨t, m, n, st, o⟩ := q
  obtain rfl : st = .issued tag := hq
  simp only [State.repairReply, h]

theorem State.checkCopy_unknown {s : State} {c : CopyId} (h : s.activeReel? c.reel = none) :
    s.checkCopy c = .error .unknownReel := by
  unfold State.checkCopy State.checkSeg
  rw [show c.seg.reel = c.reel from rfl, h]

theorem State.checkCopy_beyond {s : State} {c : CopyId} {r : Reel} (hr : s.activeReel? c.reel = some r)
    (h : r.segCount ≤ c.segment ∨ r.copyCount ≤ c.copy) : s.checkCopy c = .error .badArgument := by
  unfold State.checkCopy State.checkSeg
  rw [show c.seg.reel = c.reel from rfl, hr]
  simp only [show c.seg.segment = c.segment from rfl]
  by_cases hs : c.segment < r.segCount
  · simp only [if_pos hs, if_neg (show ¬ c.copy < r.copyCount by omega)]
  · simp only [if_neg hs]

/-- The checks of R95, one after the other. -/
theorem repairRequest_checked {body : List Byte} {s : State} {c : CopyId} {r : Reel}
    (hc : c = (segOperand body).copy (leAt body 8 1)) (hr : s.checkCopy c = .ok r) :
    repairRequest body s =
      if (s.dispute? c.seg).isSome then .answered s (.no .inUse)
      else if (s.copy c).trust ≠ .bad then .answered s (.no .notBad)
      else if s.copyHealth c = .withdrawn then .answered s (.no .withdrawn)
      else if (s.source? c).isNone then .answered s (.no .noSource)
      else if 16 ≤ s.repairs.length then .answered s (.no .noRoom)
      else
        let t := (s.setExhausted c false).createRepair c (fullMask (r.frameCount c.segment)) .head
        .answered t.wakeRoom (.ok (t.repairReply c)) := by
  subst hc
  unfold repairRequest
  dsimp only
  rw [hr]
  rfl

/-- Settles O46: the refusals one after the other, and the accepted request as the entered repair that then takes an item,
waits, or sees its leftover item withdrawn. -/
theorem repairRequestResult : Obligations.RepairRequestResult := by
  intro h tag body s c no ht hc hno
  subst hno
  refine ⟨fun hn => ?_, fun r hr hi => ?_, fun r hr => ?_⟩
  · refine exec_answered (exec_repairRequest h) ht ?_
    have hcopy := State.checkCopy_unknown hn
    subst hc
    simp [repairRequest, hcopy, Answer.no]
  · refine exec_answered (exec_repairRequest h) ht ?_
    have hcopy := State.checkCopy_beyond hr hi
    subst hc
    simp [repairRequest, hcopy, Answer.no]
  have hact := repairRequest_checked hc ((s.popOrder_checkCopy h c).trans hr)
  simp only [State.popOrder_dispute?, State.popOrder_copy, State.popOrder_copyHealth, State.popOrder_source?,
    State.popOrder_repairs] at hact
  have hexec {u : State} {a : Answer} (ha : repairRequest body (s.popOrder h) = .answered u a) :
      exec (.repairRequest h) s = .next (u.answer h 34 tag a) := exec_answered (exec_repairRequest h) ht ha
  refine ⟨fun ⟨d, hd⟩ => hexec (hact.trans ?_), fun hd hb => hexec (hact.trans ?_), fun hd hb => ?_⟩
  · simp [hd, Answer.no]
  · simp [hd, hb, Answer.no]
  refine ⟨fun hw => hexec (hact.trans ?_), fun hw hs => hexec (hact.trans ?_), fun hw hs hf => hexec (hact.trans ?_),
    fun hw hs hf hrep => ?_⟩
  · simp [hd, hb, hw, Answer.no]
  · simp [hd, hb, hw, hs, Answer.no]
  · simp [hd, hb, hw, Option.isNone_iff_eq_none, hs, hf, Answer.no]
  generalize fullMask (r.frameCount c.segment) = mask at hact ⊢
  have hlt : c.copy < ((s.popOrder h).seg c.seg).copies.length := State.copy_lt_of_bad ((s.popOrder_copy h c).symm ▸ hb)
  have hrep' : (s.popOrder h).repair? c = none := (s.popOrder_repair? h c).trans hrep
  have hqueue : (s.popOrder h).queue = s.queue := State.popOrder_queue ..
  have hdone : exec (.repairRequest h) s = .next ((((s.popOrder h).setExhausted c false).createRepair c mask .head).wakeRoom.answer
      h 34 tag (.ok ((((s.popOrder h).setExhausted c false).createRepair c mask .head).repairReply c))) := by
    refine hexec (hact.trans ?_)
    simp only [hd, hb, hw, Option.isNone_iff_eq_none, hs, Option.isSome_none, Nat.not_le.2 hf, ne_eq,
      not_true_eq_false, if_false, Bool.false_eq_true]
  rw [State.createRepair_head, State.copy_repairEntered hlt] at hdone
  dsimp only at hdone
  rw [State.popOrder_copy, show (s.popOrder h).item? = s.item? from funext (s.popOrder_item? h)] at hdone
  have hentry := State.repair?_repairEntered (mask := mask) hrep'
  refine ⟨fun hno hroom => ?_, fun entry he => ?_⟩
  · rw [hno] at hdone
    dsimp only at hdone
    rw [State.issueOrWait, if_pos (show _ < _ from hqueue ▸ hroom), State.repairReply_issued
      (State.repair?_issue_repairEntered hrep') rfl, hqueue] at hdone
    obtain ⟨hparts, hrest⟩ := State.issue_repairEntered_result (mask := mask) hrep' hlt rfl
    simp only [State.popOrder_media, State.popOrder_disputes, State.popOrder_fq, State.popOrder_walker,
      State.popOrder_repairs, State.popOrder_queue, State.popOrder_pacer, State.popOrder_copy,
      State.popOrder_byteLength] at hrest
    exact ⟨_, hdone, hparts, hrest⟩
  have he' : entry = (s.popOrder h).repairEntered c mask := by
    rw [he]
    cases h <;> rfl
  subst he'
  have hwaiting : (((s.popOrder h).repairEntered c mask).startWaiting (.repair c)).repair? c = _ := hentry
  refine ⟨fun hno hroom => ?_, fun it hit => ⟨fun hq => ?_, fun hq u q hu hrq => ?_⟩⟩
  · rw [hno] at hdone
    dsimp only at hdone
    rw [State.issueOrWait, if_neg (Nat.not_lt.2 (hqueue ▸ hroom)),
      State.repairReply_waiting hwaiting rfl] at hdone
    refine hdone.trans ?_
    rw [← hqueue]
    rfl
  · rw [hit] at hdone
    dsimp only at hdone
    rwa [if_neg (by simp [hq]), State.repairReply_waiting hentry rfl] at hdone
  · rw [hit] at hdone
    dsimp only at hdone
    rw [if_pos hq, ← hu] at hdone
    exact ⟨fun hst => by rwa [State.repairReply_waiting hrq hst] at hdone,
      fun n hst => by rwa [State.repairReply_issued hrq hst] at hdone⟩

end Sys2Proof.Machine
end


section
/-! Proofs: the work that a port reset gives back (R201). -/

namespace Sys2Proof.Machine

/-! ### An item that has lost its purpose -/

section

variable (s : State) (it : Item)

/-- The slot an item serves is filled when the entry's slot of that copy is OBSERVED and names the item. -/
theorem State.ownSlot?_observed (o : Obs) (n : Nat) (m : Option Nat) : s.ownSlot? it = some (.observed o n m) ↔
    ∃ d, s.collecting? it.target.seg = some d ∧ d.slots[it.target.copy]? = some (.observed o n (some it.tag)) ∧
      m = some it.tag := by
  simp only [State.ownSlot?, Option.bind_eq_some_iff, Option.filter_eq_some_iff, beq_iff_eq]
  constructor
  · rintro ⟨d, hd, hs, rfl⟩
    exact ⟨d, hd, hs, rfl⟩
  · rintro ⟨d, hd, hs, rfl⟩
    exact ⟨d, hd, hs, rfl⟩

theorem State.isPurposeless_iff : s.isPurposeless it = true ↔ s.lostPurpose it := by
  have hslot : (match s.ownSlot? it with | some (.observed _ _ _) => true | _ => false) = true ↔
      ∃ d o n, s.collecting? it.target.seg = some d ∧ d.slots[it.target.copy]? = some (.observed o n (some it.tag)) := by
    constructor
    · intro h
      split at h
      · next o n m ho =>
        obtain ⟨d, hd, hs, -⟩ := (s.ownSlot?_observed it o n m).1 ho
        exact ⟨d, o, n, hd, hs⟩
      · cases h
    · rintro ⟨d, o, n, hd, hs⟩
      rw [(s.ownSlot?_observed it o n _).2 ⟨d, hd, hs, rfl⟩]
  unfold State.isPurposeless State.lostPurpose
  rw [Bool.or_eq_true, Bool.and_eq_true, bne_iff_ne, Option.isSome_iff_exists]
  exact or_congr hslot Iff.rfl

/-- An item without a purpose goes as R164 says. -/
theorem State.withdrawPurposeless_gone : s.purposeGone it (s.withdrawPurposeless it) := by
  refine ⟨(s.withdrawItem it).clearSlotTag it, rfl, fun d o n hd hs => ?_, fun hno => ?_⟩
  · simp only [State.clearSlotTag, ((s.withdrawItem it).ownSlot?_observed it o n _).2 ⟨d, hd, hs, rfl⟩]
  · unfold State.clearSlotTag
    split
    · next o n m ho =>
      obtain ⟨d, hd, hs, -⟩ := ((s.withdrawItem it).ownSlot?_observed it o n m).1 ho
      exact absurd hs (hno d o n hd)
    · rfl

theorem State.returnHeld_lost (h : s.lostPurpose it) : s.returnHeld it = s.withdrawPurposeless it :=
  if_pos ((s.isPurposeless_iff it).2 h)

theorem State.returnHeld_kept (h : ¬s.lostPurpose it) : s.returnHeld it = s.modItem it.tag Item.backAgain :=
  if_neg fun hp => h ((s.isPurposeless_iff it).1 hp)

theorem State.returnHeld_goesBack : s.goesBack it (s.returnHeld it) :=
  ⟨fun h => s.returnHeld_lost it h ▸ s.withdrawPurposeless_gone it, fun h => s.returnHeld_kept it h⟩

end

theorem State.foldl_returnHeld_goBack (l : List Item) (s : State) : s.goBack l (l.foldl State.returnHeld s) := by
  induction l generalizing s with
  | nil => rfl
  | cons it l ih => exact ⟨_, s.returnHeld_goesBack it, ih _⟩

/-! ### The lanes of a reset head -/

section

variable (h : Head) (s : State)

theorem State.resetLane_other {n : Nat} (hn : ∀ l, s.lane n = some l → l.owner ≠ h) : State.resetLane h s n = s := by
  unfold State.resetLane
  split
  · rfl
  · next l hl => exact if_pos (hn l hl)

theorem State.resetLane_done {n : Nat} {l : LaneCtx} (hl : s.lane n = some l) (ho : l.owner = h) (hd : l.state = .done) :
    State.resetLane h s n = s.setLane n none := by
  unfold State.resetLane
  rw [hl]
  exact (if_neg (not_not.2 ho)).trans (if_pos hd)

theorem State.chargeLane_eq (l : LaneCtx) :
    s.chargeLane l = if l.purpose = .item then s else s.chargeCredit (chargeOf l.bytesTaken) := by
  unfold State.chargeLane
  cases l.purpose <;> rfl

theorem State.resetLane_open {n : Nat} {l : LaneCtx} (hl : s.lane n = some l) (ho : l.owner = h) (hd : l.state ≠ .done) :
    State.resetLane h s n =
      (((l.itemTag.bind s.item?).toList.foldl State.returnHeld s).chargeLane l).setLane n none := by
  unfold State.resetLane
  rw [hl]
  refine (if_neg (not_not.2 ho)).trans ((if_neg hd).trans ?_)
  cases l.itemTag.bind s.item? <;> rfl

theorem State.resetLane_goesBack (n : Nat) : s.laneGoesBack h n (State.resetLane h s n) := by
  refine ⟨fun hn => s.resetLane_other h hn, fun l hl ho => ⟨fun hd => s.resetLane_done h hl ho hd, fun hd => ?_⟩⟩
  refine ⟨_, State.foldl_returnHeld_goBack _ s, ?_⟩
  rw [s.resetLane_open h hl ho hd, State.chargeLane_eq]

end

theorem State.foldl_resetLane_goBack (h : Head) (l : List Nat) (s : State) :
    s.lanesGoBack h l (l.foldl (State.resetLane h) s) := by
  induction l generalizing s with
  | nil => rfl
  | cons n l ih => exact ⟨_, s.resetLane_goesBack h n, ih _⟩

/-! ### The whole work -/

theorem fronted_eq (back : List Nat) (l : List Item) : placeFront (fun i => back.contains i.tag) l = fronted back l := by
  unfold placeFront fronted
  simp

theorem State.lane_none_of_le (s : State) {n : Nat} (hn : 12 ≤ n) : s.lane n = none := by
  simp [State.lane, hn]

theorem State.heldBy_iff (s : State) (h : Head) (it : Item) : s.heldBy h it = true ↔ s.holds h it := by
  unfold State.heldBy State.holds
  rw [Bool.or_eq_true, List.any_eq_true]
  refine or_congr Iff.rfl ⟨?_, ?_⟩
  · rintro ⟨n, -, hn⟩
    obtain ⟨l, hl, hp⟩ := (Option.any_eq_true _ _).1 hn
    simp only [Bool.and_eq_true, beq_iff_eq, bne_iff_ne] at hp
    exact ⟨n, l, hl, hp.1.1, hp.1.2, hp.2⟩
  · rintro ⟨n, l, hl, ho, hd, ht⟩
    refine ⟨n, List.mem_range.2 (Nat.lt_of_not_le fun hn => ?_), ?_⟩
    · rw [s.lane_none_of_le hn] at hl
      cases hl
    · simp [hl, ho, hd, ht]

/-- The tags of the items that go back to the front of their classes. -/
def State.backTags (s : State) (h : Head) : List Nat :=
  (s.queue.items.filter fun it => s.heldBy h it && !s.isPurposeless it).map Item.tag

theorem State.mem_backTags (s : State) (h : Head) (x : Nat) :
    x ∈ s.backTags h ↔ ∃ it ∈ s.queue.items, s.holds h it ∧ ¬s.lostPurpose it ∧ it.tag = x := by
  unfold State.backTags
  simp only [List.mem_map, List.mem_filter, Bool.and_eq_true, Bool.not_eq_true', s.heldBy_iff, and_assoc,
    ← s.isPurposeless_iff, Bool.not_eq_true]

theorem State.slot_none_of_le (s : State) {i : Nat} (hi : 2 ≤ i) : s.slot i = .empty := by
  rw [State.slot, Vector.getElem?_eq_none hi]
  rfl

theorem State.slot_abandonOperations (s : State) (h : Head) (i : Nat) :
    (s.abandonOperations h).slot i = (s.slot i).clearFor h := by
  rw [State.abandonOperations_eq]
  by_cases h1 : i = 1
  · subst h1
    exact State.slot_setPlanSlot _ _ _ (by decide)
  · rw [State.slot_setPlanSlot_other _ _ h1]
    by_cases h0 : i = 0
    · subst h0
      exact State.slot_setPlanSlot _ _ _ (by decide)
    · rw [State.slot_setPlanSlot_other _ _ h0, State.slot_none_of_le _ (by omega), State.slot_none_of_le _ (by omega)]
      rfl

/-- The state in which the head's operations are abandoned and its lanes have ended. -/
@[irreducible] def State.lanesReset (s : State) (h : Head) : State :=
  (List.range 12).foldl (State.resetLane h) (s.abandonOperations h)

/-- The head's CLAIMED items, once its lanes have ended. -/
def State.claimsLeft (s : State) (h : Head) : List Item :=
  (s.lanesReset h).queue.items.filter fun it => it.isClaimedBy h

theorem State.resetWork_eq (s : State) (h : Head) : s.resetWork h =
    ({ (s.claimsLeft h).foldl State.returnHeld (s.lanesReset h) with
      queue := { ((s.claimsLeft h).foldl State.returnHeld (s.lanesReset h)).queue with
        items := fronted (s.backTags h) ((s.claimsLeft h).foldl State.returnHeld (s.lanesReset h)).queue.items } }).wakeRoom := by
  rw [← fronted_eq]
  unfold State.resetWork State.claimsLeft State.lanesReset State.backTags Config.laneCount
  dsimp only

theorem State.resetWork_goesBack (s : State) (h : Head) : s.workGoesBack h (s.resetWork h) := by
  refine ⟨s.abandonOperations h, s.lanesReset h, (s.claimsLeft h).foldl State.returnHeld (s.lanesReset h), s.backTags h,
    ?_, ?_, fun i hi => ?_, fun i tag es hi => ?_, ?_, ?_, s.mem_backTags h, s.resetWork_eq h⟩
  · rw [State.abandonOperations_eq]
    rfl
  · unfold State.abandonOperations
    rfl
  · rw [State.slot_abandonOperations]
    cases hs : s.slot i with
    | loading k tag es => exact if_neg fun hk : k = h => hi tag es (hk ▸ hs)
    | empty | loaded => rfl
  · rw [State.slot_abandonOperations, hi]
    exact if_pos rfl
  · unfold State.lanesReset
    exact State.foldl_resetLane_goBack h (List.range 12) (s.abandonOperations h)
  · exact State.foldl_returnHeld_goBack (s.claimsLeft h) (s.lanesReset h)

end Sys2Proof.Machine
end


section
/-! Proofs: what the work of a port reset leaves alone, and that it leaves the head no claim (R201). -/

namespace Sys2Proof.Machine

/-! ### Work that claims nothing -/

/-- From `s` to `t` no medium and no finding changes, no reel is registered, and every item that is not QUEUED stood before:
the work has claimed nothing. -/
structure State.ClaimsNothing (s t : State) : Prop where
  media : t.media = s.media
  fq : t.fq = s.fq
  reels : ∀ r ∈ t.reels, ∃ q ∈ s.reels, q.state = r.state
  items : ∀ it ∈ t.queue.items, it.isQueued = true ∨ it ∈ s.queue.items

namespace State.ClaimsNothing

theorem ofParts {s t : State} (hm : t.media = s.media) (hf : t.fq = s.fq) (hr : t.reels = s.reels)
    (hq : ∀ it ∈ t.queue.items, it.isQueued = true ∨ it ∈ s.queue.items) : s.ClaimsNothing t :=
  ⟨hm, hf, fun r h => ⟨r, hr ▸ h, rfl⟩, hq⟩

theorem refl (s : State) : s.ClaimsNothing s := ofParts rfl rfl rfl fun _ h => .inr h

theorem trans {s t u : State} (h1 : s.ClaimsNothing t) (h2 : t.ClaimsNothing u) : s.ClaimsNothing u where
  media := h2.media.trans h1.media
  fq := h2.fq.trans h1.fq
  reels r hr := by
    obtain ⟨q, hq, hqr⟩ := h2.reels r hr
    obtain ⟨p, hp, hpq⟩ := h1.reels q hq
    exact ⟨p, hp, hpq.trans hqr⟩
  items it hit := (h2.items it hit).elim .inl (h1.items it)

theorem foldl {α : Type} {f : State → α → State} (hf : ∀ (s : State) a, s.ClaimsNothing (f s a)) (l : List α) (s : State) :
    s.ClaimsNothing (l.foldl f s) := by
  induction l generalizing s with
  | nil => exact refl s
  | cons a l ih => exact (hf s a).trans (ih _)

end State.ClaimsNothing

section

variable (s : State)

theorem State.setItemTag_claimsNothing (c : CopyId) (tag : Option Nat) : s.ClaimsNothing (s.setItemTag c tag) where
  media := rfl
  fq := rfl
  reels r hr := by
    obtain ⟨q, hq, rfl⟩ := List.mem_map.1 (show r ∈ s.reels.map _ from hr)
    refine ⟨q, hq, ?_⟩
    split <;> rfl
  items _ h := .inr h

theorem State.createItem_claimsNothing (kind : ItemKind) (cls : ItemClass) (c : CopyId) (mask : Mask) :
    s.ClaimsNothing (s.createItem kind cls c mask) := by
  refine .trans (t := { s with queue := { s.queue with
    items := placeLast ⟨s.queue.nextTag, kind, cls, c, chargeOf (s.byteLength c.seg), .queued, 0, false, mask, none⟩
      s.queue.items, lastTag := s.queue.nextTag } }) (.ofParts rfl rfl rfl fun it hit => ?_)
    (.trans (State.setItemTag_claimsNothing _ c (some s.queue.nextTag)) (.ofParts rfl rfl rfl fun _ h => .inr h))
  rcases List.mem_cons.1 ((placeLast_perm _ _).mem_iff.1 hit) with rfl | h
  · exact .inl rfl
  · exact .inr h

theorem State.issue_claimsNothing (o : Owner) : s.ClaimsNothing (s.issue o) := by
  cases o <;> exact (s.createItem_claimsNothing _ _ _ _).trans (.ofParts rfl rfl rfl fun _ h => .inr h)

theorem State.serveList_claimsNothing (l : List Waiter) : s.ClaimsNothing (State.serveList l s) := by
  induction l generalizing s with
  | nil => exact .refl s
  | cons w l ih =>
    unfold State.serveList
    split
    · have hw : s.ClaimsNothing { s with queue := { s.queue with waiters := l } } := .ofParts rfl rfl rfl fun _ h => .inr h
      exact (hw.trans (State.issue_claimsNothing _ _)).trans (ih _)
    · exact .refl s

theorem State.takeOut_claimsNothing (it : Item) : s.ClaimsNothing (s.takeOut it) :=
  .trans (t := { s with queue := { s.queue with items := s.queue.items.filter fun i => i.tag != it.tag } })
    (.ofParts rfl rfl rfl fun _ h => .inr (List.mem_filter.1 h).1) (State.setItemTag_claimsNothing _ it.target none)

theorem State.wakeCredit_claimsNothing : s.ClaimsNothing s.wakeCredit := by
  unfold State.wakeCredit
  split
  · exact .ofParts rfl rfl rfl fun _ h => .inr h
  · exact .refl s

theorem State.refundCredit_claimsNothing (n : Nat) : s.ClaimsNothing (s.refundCredit n) := by
  have hr : s.ClaimsNothing { s with pacer := s.pacer.refund n } := .ofParts rfl rfl rfl fun _ h => .inr h
  unfold State.refundCredit
  dsimp only
  split
  · exact hr.trans (State.wakeCredit_claimsNothing _)
  · exact hr

/-- The credit of a withdrawn item is refunded unless it was bound. -/
theorem State.refundUnbound_claimsNothing (it : Item) (t : State) :
    t.ClaimsNothing (if it.everBound then t else t.refundCredit it.charge) := by
  split
  · exact .refl t
  · exact t.refundCredit_claimsNothing _

theorem State.withdrawItem_claimsNothing (it : Item) : s.ClaimsNothing (s.withdrawItem it) :=
  ((s.takeOut_claimsNothing it).trans (State.refundUnbound_claimsNothing it _)).trans (State.serveList_claimsNothing _ _)

theorem State.leftoverGone_claimsNothing (c : CopyId) : s.ClaimsNothing (s.leftoverGone c) := by
  have hw : s.ClaimsNothing (s.startWaiting (.repair c)) := .ofParts rfl rfl rfl fun _ h => .inr h
  unfold State.leftoverGone
  split
  · split
    · exact hw.trans (State.serveList_claimsNothing _ _)
    · exact .refl s
  · exact .refl s

theorem State.clearSlotTag_claimsNothing (it : Item) : s.ClaimsNothing (s.clearSlotTag it) := by
  unfold State.clearSlotTag
  split
  · exact .ofParts rfl rfl rfl fun _ h => .inr h
  · exact .refl s

theorem State.modItem_backAgain_claimsNothing (tag : Nat) : s.ClaimsNothing (s.modItem tag Item.backAgain) := by
  refine .ofParts rfl rfl rfl fun it hit => ?_
  obtain ⟨i, hi, rfl⟩ := List.mem_map.1 (show it ∈ s.queue.items.map _ from hit)
  split
  · exact .inl rfl
  · exact .inr hi

theorem State.returnHeld_claimsNothing (it : Item) : s.ClaimsNothing (s.returnHeld it) := by
  by_cases h : s.lostPurpose it
  · rw [s.returnHeld_lost it h]
    exact ((s.withdrawItem_claimsNothing it).trans (State.clearSlotTag_claimsNothing _ it)).trans
      (State.leftoverGone_claimsNothing _ _)
  · rw [s.returnHeld_kept it h]
    exact s.modItem_backAgain_claimsNothing it.tag

theorem State.chargeLane_claimsNothing (l : LaneCtx) : s.ClaimsNothing (s.chargeLane l) := by
  rw [State.chargeLane_eq]
  split
  · exact .refl s
  · exact .ofParts rfl rfl rfl fun _ h => .inr h

theorem State.setLane_claimsNothing (n : Nat) (l : Option LaneCtx) : s.ClaimsNothing (s.setLane n l) :=
  .ofParts rfl rfl rfl fun _ h => .inr h

theorem State.resetLane_claimsNothing (h : Head) (n : Nat) : s.ClaimsNothing (State.resetLane h s n) := by
  cases hl : s.lane n with
  | none =>
    rw [s.resetLane_other h fun k hk => by simp_all]
    exact .refl s
  | some l =>
    by_cases ho : l.owner = h
    · by_cases hd : l.state = .done
      · rw [s.resetLane_done h hl ho hd]
        exact s.setLane_claimsNothing n none
      · rw [s.resetLane_open h hl ho hd]
        exact ((State.ClaimsNothing.foldl State.returnHeld_claimsNothing _ s).trans
          (State.chargeLane_claimsNothing _ l)).trans (State.setLane_claimsNothing _ n none)
    · rw [s.resetLane_other h fun k hk => by simp_all]
      exact .refl s

theorem State.abandonOperations_claimsNothing (h : Head) : s.ClaimsNothing (s.abandonOperations h) := by
  rw [State.abandonOperations_eq]
  exact ⟨rfl, rfl, fun r hr => ⟨r, List.mem_of_mem_filter hr, rfl⟩, fun _ h => .inr h⟩

theorem State.lanesReset_claimsNothing (h : Head) : (s.abandonOperations h).ClaimsNothing (s.lanesReset h) := by
  unfold State.lanesReset
  exact .foldl (fun t n => t.resetLane_claimsNothing h n) _ _

theorem State.wakeRoom_claimsNothing : s.ClaimsNothing s.wakeRoom := by
  obtain ⟨w, hw, -⟩ := s.wakeRoom_eq
  rw [hw]
  exact .ofParts rfl rfl rfl fun _ h => .inr h

end

/-! ### No claim is left -/

theorem mem_fronted {back : List Nat} {l : List Item} {it : Item} : it ∈ fronted back l ↔ it ∈ l := by
  rw [← fronted_eq]
  exact (placeFront_perm _ _).mem_iff

/-- Once an item has gone back, every item of its tag is QUEUED. -/
theorem State.returnHeld_queued (s : State) {x it : Item} (hit : it ∈ (s.returnHeld x).queue.items) (ht : it.tag = x.tag) :
    it.isQueued = true := by
  by_cases h : s.lostPurpose x
  · rw [s.returnHeld_lost x h] at hit
    have hafter : (s.takeOut x).ClaimsNothing (s.withdrawPurposeless x) :=
      (((State.refundUnbound_claimsNothing x _).trans (State.serveList_claimsNothing _ _)).trans
        (State.clearSlotTag_claimsNothing _ x)).trans (State.leftoverGone_claimsNothing _ _)
    refine (hafter.items it hit).resolve_right fun hmem => ?_
    have hne := (List.mem_filter.1 (show it ∈ s.queue.items.filter _ from hmem)).2
    simp [ht] at hne
  · rw [s.returnHeld_kept x h] at hit
    obtain ⟨i, hi, rfl⟩ := List.mem_map.1 (show it ∈ s.queue.items.map _ from hit)
    by_cases hi : i.tag = x.tag
    · rw [if_pos hi]
      rfl
    · rw [if_neg hi] at ht
      exact absurd ht hi

/-- Once the items of `l` have gone back, an item that is not QUEUED stood before and has another tag than they. -/
theorem State.foldl_returnHeld_queued (l : List Item) (s : State) {it : Item}
    (hit : it ∈ (l.foldl State.returnHeld s).queue.items) (hq : it.isQueued = false) : it ∈ s.queue.items ∧ it ∉ l := by
  induction l generalizing s with
  | nil => exact ⟨hit, List.not_mem_nil⟩
  | cons x l ih =>
    obtain ⟨hmem, hnot⟩ := ih (s.returnHeld x) hit
    have hstood := ((s.returnHeld_claimsNothing x).items it hmem).resolve_left (by simp [hq])
    refine ⟨hstood, fun hx => ?_⟩
    rcases List.mem_cons.1 hx with rfl | hx
    · have := s.returnHeld_queued hmem rfl
      simp [hq] at this
    · exact hnot hx

theorem Item.isQueued_of_isClaimedBy {it : Item} {h : Head} (hc : it.isClaimedBy h = true) : it.isQueued = false := by
  unfold Item.isClaimedBy at hc
  unfold Item.isQueued
  cases hs : it.state with
  | queued => rw [hs] at hc; cases hc
  | claimed | bound => rfl

theorem State.resetWork_claimsNothing (s : State) (h : Head) :
    (s.abandonOperations h).ClaimsNothing (s.resetWork h) := by
  rw [State.resetWork_eq]
  refine .trans ?_ (State.wakeRoom_claimsNothing _)
  refine .trans ((s.lanesReset_claimsNothing h).trans (.foldl State.returnHeld_claimsNothing (s.claimsLeft h) _)) ?_
  exact .ofParts rfl rfl rfl fun _ hit => .inr (mem_fronted.1 hit)

theorem State.resetWork_noClaim (s : State) (h : Head) : ∀ it ∈ (s.resetWork h).queue.items, it.isClaimedBy h = false := by
  rw [State.resetWork_eq]
  intro it hit
  by_contra hc
  rw [Bool.not_eq_false] at hc
  have hq := Item.isQueued_of_isClaimedBy hc
  have hmem := ((State.wakeRoom_claimsNothing _).items it hit).resolve_left (by simp [hq])
  obtain ⟨hold, hnot⟩ := State.foldl_returnHeld_queued _ _ (mem_fronted.1 hmem) hq
  exact hnot (List.mem_filter.2 ⟨hold, hc⟩)

theorem State.resetWork_noRegistration (s : State) (h : Head) :
    ∀ r ∈ (s.resetWork h).reels, ∀ tag, r.state ≠ .adding h tag := by
  intro r hr tag hadd
  obtain ⟨q, hq, hqr⟩ := (s.resetWork_claimsNothing h).reels r hr
  rw [State.abandonOperations_eq] at hq
  have hkept : notAddedBy h q = true := (List.mem_filter.1 (show q ∈ s.reels.filter (notAddedBy h) from hq)).2
  rw [notAddedBy, hqr, hadd] at hkept
  simp at hkept

end Sys2Proof.Machine
end


section
/-! Proofs: the lanes, the settings and the ports after the work of a port reset (R201, R202). -/

namespace Sys2Proof.Machine

/-! ### Work that only ends lanes of one head -/

/-- From `s` to `t` windows, plan slots, settings, ports and pending commands stand, and so does every lane but some of head
`h`, which are FREE. -/
structure State.EndsLanes (h : Head) (s t : State) : Prop where
  windows : t.windows = s.windows
  slots : t.slots = s.slots
  bands : t.bands = s.bands
  day : t.day = s.day
  ladder : t.ladder = s.ladder
  limits : t.limits = s.limits
  portA : t.portA = s.portA
  portB : t.portB = s.portB
  pending : t.pending = s.pending
  lane : ∀ n, t.lane n = s.lane n ∨ t.lane n = none ∧ ∃ l, s.lane n = some l ∧ l.owner = h

namespace State.EndsLanes

variable {h : Head}

theorem ofWorks {s t : State} (w : s.Works t) : s.EndsLanes h t :=
  ⟨w.windows, w.slots, w.bands, w.day, w.ladder, w.limits, w.portA, w.portB, w.pending, fun n => .inl (w.lane_eq n)⟩

theorem refl (s : State) : s.EndsLanes h s := ofWorks (.refl s)

theorem trans {s t u : State} (h1 : s.EndsLanes h t) (h2 : t.EndsLanes h u) : s.EndsLanes h u where
  windows := h2.windows.trans h1.windows
  slots := h2.slots.trans h1.slots
  bands := h2.bands.trans h1.bands
  day := h2.day.trans h1.day
  ladder := h2.ladder.trans h1.ladder
  limits := h2.limits.trans h1.limits
  portA := h2.portA.trans h1.portA
  portB := h2.portB.trans h1.portB
  pending := h2.pending.trans h1.pending
  lane n := by
    rcases h2.lane n with he | ⟨hn, l, hl, ho⟩
    · rw [he]
      exact h1.lane n
    · rcases h1.lane n with he | ⟨hn', -⟩
      · exact .inr ⟨hn, l, he ▸ hl, ho⟩
      · rw [hn'] at hl
        cases hl

theorem foldl {α : Type} {f : State → α → State} (hf : ∀ (s : State) a, s.EndsLanes h (f s a)) (l : List α) (s : State) :
    s.EndsLanes h (l.foldl f s) := by
  induction l generalizing s with
  | nil => exact refl s
  | cons a l ih => exact (hf s a).trans (ih _)

/-- A lane of the other head stands. -/
theorem lane_other {s t : State} (e : s.EndsLanes h t) {n : Nat} {l : LaneCtx} (hl : s.lane n = some l)
    (ho : l.owner ≠ h) : t.lane n = some l := by
  rcases e.lane n with he | ⟨-, k, hk, hko⟩
  · exact he.trans hl
  · obtain rfl : l = k := Option.some.inj (hl.symm.trans hk)
    exact absurd hko ho

/-- A lane that is left stood before. -/
theorem lane_left {s t : State} (e : s.EndsLanes h t) {n : Nat} {l : LaneCtx} (hl : t.lane n = some l) :
    s.lane n = some l := by
  rcases e.lane n with he | ⟨hn, -⟩
  · exact he ▸ hl
  · rw [hn] at hl
    cases hl

theorem port {s t : State} (e : s.EndsLanes h t) (k : Head) : t.port k = s.port k := by
  cases k
  · exact e.portA
  · exact e.portB

end State.EndsLanes

section

variable (s : State) (h : Head)

theorem State.lane_lt {n : Nat} {l : LaneCtx} (hl : s.lane n = some l) : n < 12 := by
  by_contra hn
  rw [s.lane_none_of_le (Nat.not_lt.1 hn)] at hl
  cases hl

theorem State.setLane_endsLanes {n : Nat} {l : LaneCtx} (hl : s.lane n = some l) (ho : l.owner = h) :
    s.EndsLanes h (s.setLane n none) := by
  refine ⟨rfl, rfl, rfl, rfl, rfl, rfl, rfl, rfl, rfl, fun m => ?_⟩
  by_cases hm : m = n
  · subst hm
    exact .inr ⟨s.lane_setLane m none (s.lane_lt hl), l, hl, ho⟩
  · exact .inl (s.lane_setLane_other none hm)

/-- The work before an open lane is FREE: its item goes back and its bytes are charged. -/
theorem State.laneWork_works (l : LaneCtx) :
    s.Works (((l.itemTag.bind s.item?).toList.foldl State.returnHeld s).chargeLane l) :=
  (State.Works.foldl (fun t it => t.returnHeld_works it) _ s).trans (State.chargeLane_works _ l)

theorem State.resetLane_endsLanes (n : Nat) : s.EndsLanes h (State.resetLane h s n) := by
  cases hl : s.lane n with
  | none =>
    rw [s.resetLane_other h fun k hk => by simp_all]
    exact .refl s
  | some l =>
    by_cases ho : l.owner = h
    · by_cases hd : l.state = .done
      · rw [s.resetLane_done h hl ho hd]
        exact s.setLane_endsLanes h hl ho
      · rw [s.resetLane_open h hl ho hd]
        exact (State.EndsLanes.ofWorks (s.laneWork_works l)).trans
          (State.setLane_endsLanes _ h (((s.laneWork_works l).lane_eq n).trans hl) ho)
    · rw [s.resetLane_other h fun k hk => by simp_all]
      exact .refl s

theorem State.lane_resetLane {n : Nat} {l : LaneCtx} (hl : (State.resetLane h s n).lane n = some l) : l.owner ≠ h := by
  intro ho
  have hs := (s.resetLane_endsLanes h n).lane_left hl
  have hn : (State.resetLane h s n).lane n = none := by
    by_cases hd : l.state = .done
    · rw [s.resetLane_done h hs ho hd]
      exact State.lane_setLane _ _ _ (s.lane_lt hs)
    · rw [s.resetLane_open h hs ho hd]
      exact State.lane_setLane _ _ _ (s.lane_lt hs)
  rw [hn] at hl
  cases hl

theorem State.lane_resetLane_other {n m : Nat} (hm : m ≠ n) : (State.resetLane h s n).lane m = s.lane m := by
  cases hl : s.lane n with
  | none => rw [s.resetLane_other h fun k hk => by simp_all]
  | some l =>
    by_cases ho : l.owner = h
    · by_cases hd : l.state = .done
      · rw [s.resetLane_done h hl ho hd, State.lane_setLane_other _ _ hm]
      · rw [s.resetLane_open h hl ho hd, State.lane_setLane_other _ _ hm, (s.laneWork_works l).lane_eq]
    · rw [s.resetLane_other h fun k hk => by simp_all]

theorem State.lane_foldl_resetLane {l : List Nat} {n : Nat} (hn : n ∈ l) {k : LaneCtx}
    (hk : (l.foldl (State.resetLane h) s).lane n = some k) : k.owner ≠ h := by
  induction l generalizing s with
  | nil => cases hn
  | cons m l ih =>
    rcases List.mem_cons.1 hn with rfl | hn
    · exact s.lane_resetLane h ((State.EndsLanes.foldl (fun t i => t.resetLane_endsLanes h i) l _).lane_left hk)
    · exact ih _ hn hk

theorem State.resetWork_works : (s.lanesReset h).Works (s.resetWork h) := by
  rw [State.resetWork_eq]
  exact ((State.Works.foldl (fun t it => t.returnHeld_works it) (s.claimsLeft h) _).trans
    (State.setQueue_works _ _)).trans (State.wakeRoom_works _)

theorem State.resetWork_endsLanes : (s.abandonOperations h).EndsLanes h (s.resetWork h) := by
  refine .trans ?_ (.ofWorks (s.resetWork_works h))
  unfold State.lanesReset
  exact .foldl (fun t n => t.resetLane_endsLanes h n) _ _

theorem State.resetWork_noLane {n : Nat} {l : LaneCtx} (hl : (s.resetWork h).lane n = some l) : l.owner ≠ h := by
  have hr := ((s.resetWork_works h).lane_eq n).symm.trans hl
  unfold State.lanesReset at hr
  exact State.lane_foldl_resetLane _ h (List.mem_range.2 (s.resetWork h |>.lane_lt hl)) hr

theorem State.resetWork_noLoad (i : Nat) (tag : Half) (es : List PlanEntry) : (s.resetWork h).slot i ≠ .loading h tag es := by
  have hs : (s.resetWork h).slot i = (s.slot i).clearFor h := by
    rw [← State.slot_abandonOperations, State.slot, State.slot, (s.resetWork_endsLanes h).slots]
  rw [hs]
  cases s.slot i with
  | loading k tag' es' =>
    by_cases hk : k = h
    · simp [PlanSlot.clearFor, hk]
    · simp [PlanSlot.clearFor, hk]
  | empty | loaded => simp [PlanSlot.clearFor]

end

/-! ### The port -/

section

variable (s : State) (h : Head)

theorem State.abandonOperations_lane (n : Nat) : (s.abandonOperations h).lane n = s.lane n := by
  rw [State.abandonOperations_eq]
  rfl

theorem State.abandonOperations_port (k : Head) : (s.abandonOperations h).port k = s.port k := by
  rw [State.abandonOperations_eq]
  cases k <;> rfl

theorem State.abandonOperations_settings : (s.abandonOperations h).windows = s.windows ∧
    (s.abandonOperations h).bands = s.bands ∧ (s.abandonOperations h).day = s.day ∧
    (s.abandonOperations h).ladder = s.ladder ∧ (s.abandonOperations h).limits = s.limits ∧
    (s.abandonOperations h).pending = s.pending := by
  rw [State.abandonOperations_eq]
  exact ⟨rfl, rfl, rfl, rfl, rfl, rfl⟩

end

/-! What the setting of a port and the driving of the lines leave. -/

section

variable (s : State) (h : Head) (p : Port)

theorem State.lane_setPort_settle (n : Nat) : ((s.setPort h p).settle).lane n = s.lane n := by cases h <;> rfl

theorem State.slot_setPort_settle (i : Nat) : ((s.setPort h p).settle).slot i = s.slot i := by cases h <;> rfl

theorem State.port_setPort_settle : ((s.setPort h p).settle).port h = { p with line := (s.setPort h p).lineOf h } := by
  cases h <;> rfl

theorem State.port_setPort_settle_other {h k : Head} (hk : k ≠ h) : ((s.setPort h p).settle).port k =
    { s.port k with line := (((s.setPort h p).settle).port k).line } := by
  cases h <;> cases k
  · exact absurd rfl hk
  · rfl
  · rfl
  · exact absurd rfl hk

end

/-- Once the port of a reset head is set to one without orders, reserved places and overrun, and with the settings it had,
the port is given back as R201 and R202 say. -/
theorem State.portGivenBack_resetWork (s : State) (h : Head) (p : Port) (horders : p.orders = 0) (hres : p.reserved = 0)
    (hover : p.overrun = false) (hsame : p.threshold = (s.port h).threshold ∧
      p.routineEnable = (s.port h).routineEnable ∧ p.criticalEnable = (s.port h).criticalEnable ∧
      p.laneEnable = (s.port h).laneEnable) : s.portGivenBack h ((s.resetWork h).setPort h p).settle := by
  obtain ⟨hthr, hrout, hcrit, hlane⟩ := hsame
  have hends := s.resetWork_endsLanes h
  have hcalm := (s.abandonOperations_claimsNothing h).trans (s.resetWork_claimsNothing h)
  have hport := (s.resetWork h).port_setPort_settle h p
  obtain ⟨awindows, abands, aday, aladder, alimits, apending⟩ := s.abandonOperations_settings h
  refine ⟨?_, ?_, ?_, ?_, ?_, ?_, ?_, fun n l hl => s.resetWork_noLane h (n := n) ?_, fun n l hl ho => ?_, ?_, ?_,
    fun i tag es => ?_, fun k hk => ?_, ?_, ?_, ?_, ?_, ?_, ?_, ?_, ?_, State.settle_linesOk _⟩
  · rw [hport]
    exact horders
  · rw [hport]
    exact hres
  · rw [hport]
    exact hover
  · rw [hport]
    exact hthr
  · rw [hport]
    exact hrout
  · rw [hport]
    exact hcrit
  · rw [hport]
    exact hlane
  · rwa [State.lane_setPort_settle] at hl
  · rw [State.lane_setPort_settle]
    exact hends.lane_other ((s.abandonOperations_lane h n).trans hl) ho
  · rw [State.settle_queue, State.setPort_queue]
    exact s.resetWork_noClaim h
  · rw [State.settle_reels, State.setPort_reels]
    exact s.resetWork_noRegistration h
  · rw [State.slot_setPort_settle]
    exact s.resetWork_noLoad h i tag es
  · rw [(s.resetWork h).port_setPort_settle_other p hk, hends.port k, s.abandonOperations_port h k]
  · simpa using hcalm.media
  · simpa using hcalm.fq
  · simpa using hends.windows.trans awindows
  · simpa using hends.bands.trans abands
  · simpa using hends.day.trans aday
  · simpa using hends.ladder.trans aladder
  · simpa using hends.limits.trans alimits
  · simpa using hends.pending.trans apending

end Sys2Proof.Machine
end


section
/-! Proofs: PORT_RESET and LINK_LOSS (R200 to R202). -/

namespace Sys2Proof.Machine

/-! ### Items sent back -/

/-- The queue with the items of the tags `back` QUEUED again, in their places. -/
def Queue.sentBack (q : Queue) (back : List Nat) : Queue :=
  { q with items := q.items.map fun i => if i.tag ∈ back then i.backAgain else i }

theorem Queue.sentBack_nil (q : Queue) : q.sentBack [] = q := by
  simp [Queue.sentBack]

theorem Queue.sentBack_append (q : Queue) (b c : List Nat) : (q.sentBack b).sentBack c = q.sentBack (b ++ c) := by
  have hitem : ∀ i : Item, (if (if i.tag ∈ b then i.backAgain else i).tag ∈ c then
      (if i.tag ∈ b then i.backAgain else i).backAgain else if i.tag ∈ b then i.backAgain else i) =
        if i.tag ∈ b ++ c then i.backAgain else i := by
    intro i
    by_cases hb : i.tag ∈ b
    · have htag : i.backAgain.tag = i.tag := rfl
      have htwice : i.backAgain.backAgain = i.backAgain := rfl
      simp [hb, htag, htwice]
    · simp [hb]
  simp only [Queue.sentBack, List.map_map]
  congr 1
  exact List.map_congr_left fun i _ => hitem i

/-- An item of the queue with items sent back is one of the queue but for its state and its source. -/
theorem Queue.mem_sentBack {q : Queue} {b : List Nat} {j : Item} (hj : j ∈ (q.sentBack b).items) :
    ∃ i ∈ q.items, j = i ∨ j = i.backAgain := by
  obtain ⟨i, hi, rfl⟩ := List.mem_map.1 hj
  refine ⟨i, hi, ?_⟩
  split
  · exact .inr rfl
  · exact .inl rfl

/-- From `s` to `t` the items of the tags `back` have become QUEUED and the Pacer is now `p`; disputes, repairs and the walker
stand. -/
structure State.SendsBack (s : State) (back : List Nat) (p : Pacer) (t : State) : Prop where
  disputes : t.disputes = s.disputes
  repairs : t.repairs = s.repairs
  walker : t.walker = s.walker
  pacer : t.pacer = p
  queue : t.queue = s.queue.sentBack back

/-- Whether an item has lost its purpose depends on the tables and on the item's target, tag and kind. -/
theorem State.lostPurpose_congr {s t : State} {i j : Item} (hd : t.disputes = s.disputes) (hr : t.repairs = s.repairs)
    (hj : j = i ∨ j = i.backAgain) : t.lostPurpose j ↔ s.lostPurpose i := by
  have hitem : j.target = i.target ∧ j.tag = i.tag ∧ j.kind = i.kind := by
    rcases hj with rfl | rfl
    · exact ⟨rfl, rfl, rfl⟩
    · exact ⟨rfl, rfl, rfl⟩
  obtain ⟨htarget, htag, hkind⟩ := hitem
  simp only [State.lostPurpose, State.collecting?, State.dispute?, State.repair?, hd, hr, htarget, htag, hkind]

namespace State.SendsBack

variable {s t : State} {back : List Nat} {p : Pacer}

theorem item? (e : s.SendsBack back p t) (tag : Nat) :
    t.item? tag = (s.item? tag).map fun i => if i.tag ∈ back then i.backAgain else i := by
  have htag : ((fun i : Item => i.tag == tag) ∘ fun i => if i.tag ∈ back then i.backAgain else i) = fun i => i.tag == tag := by
    funext i
    simp only [Function.comp_apply]
    split <;> rfl
  rw [State.item?, e.queue, Queue.sentBack, List.find?_map, htag]
  rfl

theorem kept (e : s.SendsBack back p t) {it : Item} (h : ¬t.lostPurpose it) :
    s.SendsBack (back ++ [it.tag]) p (t.returnHeld it) := by
  rw [t.returnHeld_kept it h]
  refine ⟨e.disputes, e.repairs, e.walker, e.pacer, ?_⟩
  rw [← Queue.sentBack_append, ← e.queue]
  simp [State.modItem, Queue.sentBack]

/-- Items that keep their purpose go back one after the other. -/
theorem foldl {l : List Item} (e : s.SendsBack back p t) (h : ∀ it ∈ l, ¬s.lostPurpose it) :
    s.SendsBack (back ++ l.map Item.tag) p (l.foldl State.returnHeld t) := by
  induction l generalizing t back with
  | nil => simpa using e
  | cons it l ih =>
    have hkept := e.kept fun hl => h it List.mem_cons_self ((State.lostPurpose_congr e.disputes e.repairs (.inl rfl)).1 hl)
    have := ih hkept fun i hi => h i (List.mem_cons_of_mem _ hi)
    rwa [List.append_assoc] at this

end State.SendsBack

/-! ### The lanes -/

section

variable (s : State) (h : Head)

/-- The tag of the item that lane `n` of the head gives back. -/
def State.laneBack (n : Nat) : List Nat :=
  match s.lane n with
  | some l => if l.owner = h ∧ l.state ≠ .done then ((l.itemTag.bind s.item?).map Item.tag).toList else []
  | none => []

/-- The Pacer once lane `n` of the head has ended: its bytes taken are charged when it reads no item (R44). -/
def State.laneCharged (p : Pacer) (n : Nat) : Pacer :=
  match s.lane n with
  | some l => if l.owner = h ∧ l.state ≠ .done ∧ l.purpose ≠ .item then p.charge (chargeOf l.bytesTaken) else p
  | none => p

theorem State.item?_some {tag : Nat} {it : Item} (hi : s.item? tag = some it) : it ∈ s.queue.items ∧ it.tag = tag :=
  ⟨List.mem_of_find?_eq_some hi, by simpa using List.find?_some hi⟩

theorem State.mem_laneBack {n x : Nat} : x ∈ s.laneBack h n ↔
    ∃ l, s.lane n = some l ∧ l.owner = h ∧ l.state ≠ .done ∧ l.itemTag = some x ∧ ∃ it ∈ s.queue.items, it.tag = x := by
  unfold State.laneBack
  cases hl : s.lane n with
  | none => simp
  | some l =>
    have hitem : x ∈ ((l.itemTag.bind s.item?).map Item.tag).toList ↔
        l.itemTag = some x ∧ ∃ it ∈ s.queue.items, it.tag = x := by
      simp only [Option.mem_toList, Option.map_eq_some_iff, Option.bind_eq_some_iff]
      constructor
      · rintro ⟨it, ⟨tag, ht, hi⟩, rfl⟩
        obtain ⟨hmem, rfl⟩ := s.item?_some hi
        exact ⟨ht, it, hmem, rfl⟩
      · rintro ⟨ht, it, hmem, rfl⟩
        have hsome : (s.item? it.tag).isSome := List.find?_isSome.2 ⟨it, hmem, by simp⟩
        obtain ⟨j, hj⟩ := Option.isSome_iff_exists.1 hsome
        exact ⟨j, ⟨it.tag, ht, hj⟩, (s.item?_some hj).2⟩
    dsimp only
    split
    · next hc => simp only [hitem, Option.some.injEq, exists_eq_left', hc.1, hc.2, ne_eq, not_false_eq_true, true_and]
    · next hc =>
      simp only [List.not_mem_nil, Option.some.injEq, exists_eq_left', false_iff]
      exact fun ⟨ho, hd, _⟩ => hc ⟨ho, hd⟩

end

/-- The item of a lane of the head that has not ended goes back. -/
theorem State.SendsBack.openLane {s t : State} {back : List Nat} {p : Pacer} (e : s.SendsBack back p t) {h : Head} {n : Nat}
    {l : LaneCtx} (hs : s.lane n = some l) (ho : l.owner = h) (hd : l.state ≠ .done)
    (hheld : ∀ it ∈ s.queue.items, s.holds h it → ¬s.lostPurpose it) :
    s.SendsBack (back ++ ((l.itemTag.bind s.item?).map Item.tag).toList) p
      ((l.itemTag.bind t.item?).toList.foldl State.returnHeld t) := by
  have hbind : l.itemTag.bind t.item? =
      (l.itemTag.bind s.item?).map fun i => if i.tag ∈ back then i.backAgain else i := by
    cases l.itemTag with
    | none => rfl
    | some tag => exact e.item? tag
  rw [hbind]
  cases hi : l.itemTag.bind s.item? with
  | none => simpa using e
  | some it =>
    obtain ⟨tag, ht, hfind⟩ := Option.bind_eq_some_iff.1 hi
    obtain ⟨hmem, htag⟩ := s.item?_some hfind
    have hkeeps := hheld it hmem (.inr ⟨n, l, hs, ho, hd, htag ▸ ht⟩)
    have hback := e.kept (it := if it.tag ∈ back then it.backAgain else it) fun hl => hkeeps
      ((State.lostPurpose_congr e.disputes e.repairs (by split <;> simp)).1 hl)
    have hsame : (if it.tag ∈ back then it.backAgain else it).tag = it.tag := by split <;> rfl
    rw [hsame] at hback
    exact hback

theorem State.SendsBack.resetLane {s t : State} {back : List Nat} {p : Pacer} (e : s.SendsBack back p t) {h : Head} {n : Nat}
    (hl : t.lane n = s.lane n) (hheld : ∀ it ∈ s.queue.items, s.holds h it → ¬s.lostPurpose it) :
    s.SendsBack (back ++ s.laneBack h n) (s.laneCharged h p n) (State.resetLane h t n) := by
  unfold State.laneBack State.laneCharged
  cases hs : s.lane n with
  | none =>
    rw [t.resetLane_other h fun k hk => by simp_all, List.append_nil]
    exact e
  | some l =>
    by_cases ho : l.owner = h
    · by_cases hd : l.state = .done
      · rw [t.resetLane_done h (hl.trans hs) ho hd]
        simp only [hd, ne_eq, not_true_eq_false, and_false, false_and, if_false, List.append_nil]
        exact ⟨e.disputes, e.repairs, e.walker, e.pacer, e.queue⟩
      · rw [t.resetLane_open h (hl.trans hs) ho hd]
        have hback := e.openLane hs ho hd hheld
        have hpacer := hback.pacer
        dsimp only
        rw [State.chargeLane_eq, if_pos (show l.owner = h ∧ l.state ≠ .done from ⟨ho, hd⟩)]
        by_cases hi : l.purpose = .item
        · rw [if_pos hi, if_neg fun hc => hc.2.2 hi]
          exact ⟨hback.disputes, hback.repairs, hback.walker, hpacer, hback.queue⟩
        · rw [if_neg hi, if_pos (show l.owner = h ∧ l.state ≠ .done ∧ l.purpose ≠ .item from ⟨ho, hd, hi⟩)]
          exact ⟨hback.disputes, hback.repairs, hback.walker, congrArg (Pacer.charge · (chargeOf l.bytesTaken)) hpacer,
            hback.queue⟩
    · rw [t.resetLane_other h fun k hk => by simp_all]
      simp only [ho, false_and, if_false, List.append_nil]
      exact e

theorem State.SendsBack.foldl_resetLane {s t : State} {back : List Nat} {p : Pacer} (e : s.SendsBack back p t) {h : Head}
    {l : List Nat} (hn : l.Nodup) (hl : ∀ n ∈ l, t.lane n = s.lane n)
    (hheld : ∀ it ∈ s.queue.items, s.holds h it → ¬s.lostPurpose it) :
    s.SendsBack (back ++ l.flatMap (s.laneBack h)) (l.foldl (s.laneCharged h) p) (l.foldl (State.resetLane h) t) := by
  induction l generalizing t back p with
  | nil => simpa using e
  | cons n l ih =>
    obtain ⟨hnl, hn'⟩ := List.nodup_cons.1 hn
    have := ih (e.resetLane (hl n List.mem_cons_self) hheld) hn' fun m hm => by
      rw [State.lane_resetLane_other t h (n := n) (m := m) fun hmn => hnl (hmn ▸ hm)]
      exact hl m (List.mem_cons_of_mem _ hm)
    rwa [List.append_assoc] at this

/-! ### The whole work -/

/-- The tags of the items that the lanes of the head give back. -/
def State.lanesBack (s : State) (h : Head) : List Nat := (List.range 12).flatMap (s.laneBack h)

theorem State.lanesReset_sendsBack {s : State} {h : Head} (hheld : ∀ it ∈ s.queue.items, s.holds h it → ¬s.lostPurpose it) :
    s.SendsBack (s.lanesBack h) ((List.range 12).foldl (s.laneCharged h) s.pacer) (s.lanesReset h) := by
  have hstart : s.SendsBack [] s.pacer (s.abandonOperations h) := by
    rw [State.abandonOperations_eq]
    exact ⟨rfl, rfl, rfl, rfl, (s.queue.sentBack_nil).symm⟩
  unfold State.lanesReset State.lanesBack
  have hended := hstart.foldl_resetLane (l := List.range 12) List.nodup_range (fun n _ => s.abandonOperations_lane h n) hheld
  rwa [List.nil_append] at hended

theorem Item.backAgain_not_claimed (it : Item) (h : Head) : it.backAgain.isClaimedBy h = false := rfl

/-- The CLAIMED items left once the lanes have ended are those of the head whose tags no lane has given back. -/
theorem State.mem_claimsLeft {s : State} {h : Head} (hheld : ∀ it ∈ s.queue.items, s.holds h it → ¬s.lostPurpose it)
    {it : Item} : it ∈ s.claimsLeft h ↔ it ∈ s.queue.items ∧ it.isClaimedBy h = true ∧ it.tag ∉ s.lanesBack h := by
  unfold State.claimsLeft
  rw [(State.lanesReset_sendsBack hheld).queue, List.mem_filter]
  constructor
  · rintro ⟨hmem, hc⟩
    obtain ⟨i, hi, rfl⟩ := List.mem_map.1 hmem
    by_cases ht : i.tag ∈ s.lanesBack h
    · rw [if_pos ht] at hc
      cases hc
    · rw [if_neg ht] at hc ⊢
      exact ⟨hi, hc, ht⟩
  · rintro ⟨hmem, hc, ht⟩
    exact ⟨List.mem_map.2 ⟨it, hmem, if_neg ht⟩, hc⟩

/-- The tags that the lanes and the claims of the head give back are those of the items it holds. -/
theorem State.mem_allBack {s : State} {h : Head} (hheld : ∀ it ∈ s.queue.items, s.holds h it → ¬s.lostPurpose it) (x : Nat) :
    x ∈ s.lanesBack h ++ (s.claimsLeft h).map Item.tag ↔ ∃ it ∈ s.queue.items, s.holds h it ∧ it.tag = x := by
  have hlanes : x ∈ s.lanesBack h ↔ ∃ n l, s.lane n = some l ∧ l.owner = h ∧ l.state ≠ .done ∧ l.itemTag = some x ∧
      ∃ it ∈ s.queue.items, it.tag = x := by
    simp only [State.lanesBack, List.mem_flatMap, s.mem_laneBack]
    exact ⟨fun ⟨n, _, l, hl⟩ => ⟨n, l, hl⟩, fun ⟨n, l, hl, hrest⟩ => ⟨n, List.mem_range.2 (s.lane_lt hl), l, hl, hrest⟩⟩
  rw [List.mem_append, List.mem_map]
  constructor
  · rintro (hx | ⟨it, hit, rfl⟩)
    · obtain ⟨n, l, hl, ho, hd, ht, it, hit, rfl⟩ := hlanes.1 hx
      exact ⟨it, hit, .inr ⟨n, l, hl, ho, hd, ht⟩, rfl⟩
    · obtain ⟨hmem, hc, -⟩ := (State.mem_claimsLeft hheld).1 hit
      exact ⟨it, hmem, .inl hc, rfl⟩
  · rintro ⟨it, hit, hc | ⟨n, l, hl, ho, hd, ht⟩, rfl⟩
    · by_cases hx : it.tag ∈ s.lanesBack h
      · exact .inl hx
      · exact .inr ⟨it, (State.mem_claimsLeft hheld).2 ⟨hit, hc, hx⟩, rfl⟩
    · exact .inl (hlanes.2 ⟨n, l, hl, ho, hd, ht, it, hit, rfl⟩)

theorem Queue.sentBack_congr {q : Queue} {b c : List Nat} (h : ∀ x, x ∈ b ↔ x ∈ c) : q.sentBack b = q.sentBack c := by
  simp only [Queue.sentBack, h]

/-- Where no item of the head has lost its purpose, the work sends them all back and does no more. -/
theorem State.headGivesBack_resetWork (s : State) (h : Head) : s.headGivesBack h (s.resetWork h) := by
  intro hheld
  have hlanes := State.lanesReset_sendsBack hheld
  have hall := hlanes.foldl fun it hit => by
    obtain ⟨hmem, hc, -⟩ := (State.mem_claimsLeft hheld).1 hit
    exact hheld it hmem (.inl hc)
  have hback : ∀ x, x ∈ s.backTags h ↔ ∃ it ∈ s.queue.items, s.holds h it ∧ it.tag = x := fun x => by
    rw [s.mem_backTags]
    exact ⟨fun ⟨it, hit, hh, _, ht⟩ => ⟨it, hit, hh, ht⟩, fun ⟨it, hit, hh, ht⟩ => ⟨it, hit, hh, hheld it hit hh, ht⟩⟩
  have hqueue := hall.queue.trans (Queue.sentBack_congr fun x => (State.mem_allBack hheld x).trans (hback x).symm)
  rw [State.resetWork_eq]
  obtain ⟨w, hwake, hwalk⟩ := ({ (s.claimsLeft h).foldl State.returnHeld (s.lanesReset h) with
      queue := { ((s.claimsLeft h).foldl State.returnHeld (s.lanesReset h)).queue with
        items := fronted (s.backTags h) ((s.claimsLeft h).foldl State.returnHeld (s.lanesReset h)).queue.items } } : State).wakeRoom_eq
  rw [hwake]
  refine ⟨hall.disputes, hall.repairs, fun hw => (hwalk (hall.walker ▸ hw)).trans hall.walker, hall.pacer, s.backTags h,
    hback, ?_⟩
  rw [hqueue]
  rfl

/-- What `headGivesBack` says does not depend on the ports. -/
theorem State.headGivesBack_settled {s t : State} {h : Head} (hb : s.headGivesBack h t) (k : Head) (p : Port) :
    s.headGivesBack h ((t.setPort k p).settle) := by
  cases k <;> exact hb

theorem State.headGivesBack_popOrder {s t : State} {h : Head} (hb : (s.popOrder h).headGivesBack h t) :
    s.headGivesBack h t := by
  cases h <;> exact hb

/-! ### The commands -/

theorem State.port_resetWork (s : State) (h k : Head) : (s.resetWork h).port k = s.port k :=
  ((s.resetWork_endsLanes h).port k).trans (s.abandonOperations_port h k)

/-- A port that takes an order is UP. -/
theorem State.link_of_takes {s : State} {h : Head} {code : Nat} {tag : Half} {body : List Byte}
    (ht : s.takes h code tag body) : (s.port h).link = true := by
  obtain ⟨htake, -, -⟩ := ht
  rw [Port.canTake, Bool.and_eq_true, Bool.and_eq_true] at htake
  exact htake.1.1

/-- The port of a reset head once it holds the reply to its PORT_RESET, the first of its emptied queue. -/
def Port.resetReplied (p : Port) (tag : Half) : Port := p.cleared.postReply 59 tag (.ok [])

theorem Port.resetReplied_unread {p : Port} (hl : p.link = true) (tag : Half) : (p.resetReplied tag).unread = 1 := by
  have hcount : ∀ c : Half, (c + 1 - c).toNat = 1 := fun c => by simp
  exact (if_pos hl).trans (hcount p.replyRead)

theorem State.reset_answer (x : State) (h : Head) (tag : Half) :
    (x.setPort h (x.port h).cleared).answer h 59 tag (.ok []) = (x.setPort h ((x.port h).resetReplied tag)).settle := by
  rw [State.answer, State.reply, State.port_setPort, State.setPort_setPort]
  rfl

theorem exec_portReset_takes {h : Head} {s : State} {tag : Half} (ht : s.takes h 59 tag []) : exec (.portReset h) s =
    .next (((s.popOrder h).resetWork h).setPort h ((((s.popOrder h).resetWork h).port h).resetReplied tag)).settle := by
  rw [← State.reset_answer]
  exact exec_answered (exec_portReset h) ht rfl

theorem exec_linkLoss_up {h : Head} {s : State} (hl : (s.port h).link = true) :
    exec (.linkLoss h) s = .next ((s.resetWork h).setPort h ((s.resetWork h).port h).lost).settle := if_pos hl

theorem State.portGivenBack_popOrder {s t : State} {h : Head} (hb : (s.popOrder h).portGivenBack h t) :
    s.portGivenBack h t := by
  obtain ⟨horders, hres, hover, hthr, hrout, hcrit, hlane, hown, hkeep, hclaim, hreg, hload, hother, hrest⟩ := hb
  have hport : ∀ k, k ≠ h → t.port k = { s.port k with line := (t.port k).line } := fun k hk =>
    (hother k hk).trans (by rw [State.popOrder, State.port_setPort_other _ _ hk])
  cases h <;> exact ⟨horders, hres, hover, hthr, hrout, hcrit, hlane, hown, hkeep, hclaim, hreg, hload, hport, hrest⟩

/-- Settles O14: the work goes back step by step, and the port is then cleared for the one reply, or lost. -/
theorem portResetGivesBack : Obligations.PortResetGivesBack := by
  intro h s
  refine ⟨fun tag ht => ?_, fun hl => ?_, fun hl => if_neg (by simp [hl])⟩
  · have hport : ((s.popOrder h).resetWork h).port h = (s.popOrder h).port h := State.port_resetWork _ h h
    have hlink : ((s.popOrder h).port h).link = true := by
      rw [State.popOrder, State.port_setPort]
      exact State.link_of_takes ht
    refine ⟨(s.popOrder h).resetWork h, _, (s.popOrder h).resetWork_goesBack h,
      (State.reset_answer ((s.popOrder h).resetWork h) h tag).symm, exec_portReset_takes ht, ?_, ?_,
      State.portGivenBack_popOrder (State.portGivenBack_resetWork _ h _ ?_ rfl rfl ?_),
      State.headGivesBack_popOrder (State.headGivesBack_settled (State.headGivesBack_resetWork _ h) h _)⟩
    · rw [State.port_setPort_settle, hport]
      exact hlink
    · rw [State.port_setPort_settle, hport]
      exact Port.resetReplied_unread hlink tag
    · exact Port.orders_of_aligned rfl
    · rw [hport]
      exact ⟨rfl, rfl, rfl, rfl⟩
  · have hport : (s.resetWork h).port h = s.port h := s.port_resetWork h h
    refine ⟨s.resetWork h, ((s.resetWork h).setPort h (s.port h).lost).settle, s.resetWork_goesBack h, ?_, ?_,
      State.headGivesBack_settled (s.headGivesBack_resetWork h) h _, ?_⟩
    · rw [hport]
      rfl
    · rw [exec_linkLoss_up hl, hport]
    · rw [State.port_setPort_settle]
      exact ⟨rfl, rfl, rfl, rfl, rfl, rfl, s.portGivenBack_resetWork h _ rfl rfl rfl ⟨rfl, rfl, rfl, rfl⟩⟩

end Sys2Proof.Machine
end


section
/-! Proofs: what every step keeps of the memories and of the lanes' byte counts, and that every well-formed command has a
next state (R21, R29 to R31, R205, R206). -/

namespace Sys2Proof.Machine

/-! ### One lemma for the invariants of every step -/

/-- A property that does not look at the commands still to be given, that every move keeps and that both resets keep, is
kept by every step. -/
theorem step_keeps {P : State → Prop} (hpending : ∀ s rest, P s → P { s with pending := rest })
    (hmove : ∀ s t, P s → Move s t → P t) (hpower : ∀ s t, P s → execPowerOn s = .next t → P t)
    (hreset : ∀ s t, P s → execCardReset s = .next t → P t) {s t : State} (hs : P s) (h : step s = .next t) : P t := by
  unfold step at h
  split at h
  · cases h
    exact hs
  · next c rest _ =>
    have hs' : P { s with pending := rest } := hpending s rest hs
    by_cases hp : c = .powerOn
    · subst hp
      exact hpower _ t hs' h
    · by_cases hr : c = .cardReset
      · subst hr
        exact hreset _ t hs' h
      · exact (exec_moves c hp hr h).keeps hmove hs'

/-! ### The memories -/

/-- Writing a port keeps the memories canonical, when it keeps the area of that port. -/
theorem State.memoryOk.setPort {s : State} (hs : s.memoryOk) (h : Head) {p : Port}
    (hp : Memory.wf (s.port h).area = true → Memory.wf p.area = true) : (s.setPort h p).memoryOk := by
  obtain ⟨hw, ha, hb⟩ := hs
  cases h with
  | a => exact ⟨hw, hp ha, hb⟩
  | b => exact ⟨hw, ha, hp hb⟩

/-- Every move keeps the memories canonical: only a window write and a change of a port touch them. -/
theorem Move.memoryOk {s t : State} (hs : s.memoryOk) (m : Move s t) : t.memoryOk := by
  cases m with
  | works h => simpa only [State.memoryOk, h.windows, h.portA, h.portB] using hs
  | port h p ha => exact hs.setPort h ha
  | windows w hw => exact ⟨hw hs.1, hs.2⟩
  | settle => exact hs
  | lane _ _ _ => exact hs
  | plan _ _ _ _ => exact hs
  | pacer _ _ => exact hs
  | findings _ _ => exact hs
  | settings _ _ => exact hs
  | ladder _ _ _ => exact hs

/-- Settles O3: every move keeps the memories canonical, and so do the two resets, which clear the windows or keep them. -/
theorem memoryCanonicalKept : Obligations.MemoryCanonicalKept := by
  intro s t
  refine step_keeps (P := State.memoryOk) (fun _ _ h => h) (fun _ _ => Move.memoryOk) (fun s t hs h => ?_) (fun s t hs h => ?_)
  · cases h
    exact ⟨rfl, hs.2⟩
  · cases h
    exact hs

/-! ### The lanes' byte counts -/

/-- Setting a lane to a context with sound byte counts, or to none, keeps every lane's counts sound. -/
theorem State.lanesOk.setLane {s : State} (hs : s.lanesOk) (n : Nat) {x : Option LaneCtx} (hx : ∀ l, x = some l → l.ok) :
    (s.setLane n x).lanesOk := by
  intro m l hl
  by_cases hm : m = n
  · subst hm
    by_cases hlt : m < 12
    · rw [State.lane_setLane s m x hlt] at hl
      exact hx l hl
    · rw [State.lane_none_of_le _ (Nat.le_of_not_lt hlt)] at hl
      cases hl
  · rw [State.lane_setLane_other s x hm] at hl
    exact hs m l hl

/-- Counts that are sound stay sound where the lanes stay. -/
theorem State.lanesOk.ofLanes {s t : State} (hs : s.lanesOk) (h : t.lanes = s.lanes) : t.lanesOk := by
  intro n l hl
  exact hs n l (by rw [State.lane, ← h]; exact hl)

/-- Every move keeps the lanes' byte counts sound: only a change of a lane touches them. -/
theorem Move.lanesOk {s t : State} (hs : s.lanesOk) (m : Move s t) : t.lanesOk := by
  cases m with
  | works h => exact hs.ofLanes h.lanes
  | port h p _ => exact hs.ofLanes (by cases h <;> rfl)
  | lane n x hx => exact hs.setLane n fun l hl => hx l hl (hs n)
  | settle => exact hs
  | windows _ _ => exact hs
  | plan _ _ _ _ => exact hs
  | pacer _ _ => exact hs
  | findings _ _ => exact hs
  | settings _ _ => exact hs
  | ladder _ _ _ => exact hs

/-- Settles O9: every move keeps the byte counts sound, and both resets free every lane. -/
theorem laneBytesKept : Obligations.LaneBytesKept := by
  intro s t
  have hfree {t : State} (h : t.lanes = Vector.replicate 12 none) : t.lanesOk := fun n l hl => by
    rw [State.lane_of_allFree h] at hl
    cases hl
  refine step_keeps (P := State.lanesOk) (fun _ _ h => h) (fun _ _ => Move.lanesOk) (fun s t _ h => ?_) (fun s t _ h => ?_)
  · cases h
    exact hfree rfl
  · cases h
    exact hfree rfl

/-! ### Every well-formed command has a next state -/

/-- Every move leaves the commands still to be given as they are. -/
theorem Move.pending {s t : State} (m : Move s t) : t.pending = s.pending := by
  cases m with
  | works h => exact h.pending
  | port h _ _ => cases h <;> rfl
  | _ => rfl

/-- Every command leaves the commands still to be given as they are. -/
theorem exec_pending (c : Instr) {s t : State} (h : exec c s = .next t) : t.pending = s.pending := by
  by_cases hp : c = .powerOn
  · subst hp
    cases h
    rfl
  · by_cases hr : c = .cardReset
    · subst hr
      cases h
      rfl
    · exact (exec_moves c hp hr h).keeps (P := fun u => u.pending = s.pending) (fun _ _ hu m => m.pending.trans hu) rfl

/-- A window write inside the window has a next state. -/
theorem execWindowWrite_next {lane offset : Nat} {bytes : List Byte}
    (hw : lane < Config.laneCount ∧ offset + bytes.length ≤ Config.windowBytes) (h : Head) (s : State) :
    ∃ t, execWindowWrite h lane offset bytes s = .next t := by
  unfold execWindowWrite
  rw [if_pos hw]
  repeat' split
  all_goals exact ⟨_, rfl⟩

/-- A port area write elsewhere than on the two counts with commands of their own has a next state. -/
theorem execPortAreaWrite_next {offset : Nat} {bytes : List Byte}
    (hw : offset + bytes.length ≤ Config.countsBase ∨
      (Config.partCountsBase ≤ offset ∧ offset + bytes.length ≤ Config.areaBytes)) (h : Head) (s : State) :
    ∃ t, execPortAreaWrite h offset bytes s = .next t := by
  unfold execPortAreaWrite
  dsimp only
  rw [if_pos hw]
  split <;> exact ⟨_, rfl⟩

/-- A command that is not the taking of an order of a known code has a next state where it is well formed: each branch of
its meaning gives one. -/
theorem exec_event_next (c : Instr) (hc : orderTaken c = none) (hw : c.wellFormed = true) (s : State) :
    ∃ t, exec c s = .next t := by
  cases c with
  | windowWrite h lane offset bytes =>
    exact execWindowWrite_next (by simpa [Instr.wellFormed] using hw) h s
  | portAreaWrite h offset bytes =>
    exact execPortAreaWrite_next (by simpa [Instr.wellFormed] using hw) h s
  | powerOn => exact ⟨_, rfl⟩
  | cardReset => exact ⟨_, rfl⟩
  | linkLoss h =>
    simp only [exec, execLinkLoss]
    split <;> exact ⟨_, rfl⟩
  | linkUp h =>
    simp only [exec, execLinkUp]
    split <;> exact ⟨_, rfl⟩
  | orderPostCountWrite h v =>
    simp only [exec, execOrderPostCountWrite]
    repeat' split
    all_goals exact ⟨_, rfl⟩
  | replyReadCountWrite h v =>
    simp only [exec, execReplyReadCountWrite]
    split <;> exact ⟨_, rfl⟩
  | unknownOrder h =>
    simp only [exec, execUnknownOrder]
    split <;> exact ⟨_, rfl⟩
  | reelAddCompletion reel =>
    simp only [exec, execReelAddCompletion]
    repeat' split
    all_goals exact ⟨_, rfl⟩
  | laneFeedCompletion n =>
    simp only [exec, execLaneFeedCompletion]
    repeat' split
    all_goals exact ⟨_, rfl⟩
  | stallTimerExpiry n =>
    simp only [exec, execStallTimerExpiry]
    repeat' split
    all_goals exact ⟨_, rfl⟩
  | claimTimerExpiry tag =>
    simp only [exec, execClaimTimerExpiry]
    split <;> exact ⟨_, rfl⟩
  | confirmTimerExpiry reel segment =>
    simp only [exec, execConfirmTimerExpiry]
    split <;> exact ⟨_, rfl⟩
  | planLoadCompletion i =>
    simp only [exec, execPlanLoadCompletion]
    split <;> exact ⟨_, rfl⟩
  | walkerPosition =>
    simp only [exec, execWalkerPosition]
    split <;> exact ⟨_, rfl⟩
  | delayTimerExpiry =>
    simp only [exec, execDelayTimerExpiry]
    repeat' split
    all_goals exact ⟨_, rfl⟩
  | workWindowEnd =>
    simp only [exec, execWorkWindowEnd]
    repeat' split
    all_goals exact ⟨_, rfl⟩
  | yieldWindowEnd =>
    simp only [exec, execYieldWindowEnd]
    repeat' split
    all_goals exact ⟨_, rfl⟩
  | _ => cases hc

/-- Every well-formed command has a next state: an order by `takeOrder_next`, any other command branch by branch. -/
theorem exec_next (c : Instr) (hw : c.wellFormed = true) (s : State) : ∃ t, exec c s = .next t := by
  cases hc : orderTaken c with
  | none => exact exec_event_next c hc hw s
  | some p =>
    obtain ⟨act, hact⟩ := exec_order hc
    rw [hact]
    exact takeOrder_next _ _ act s

/-- Settles O2: `exec_next` and `exec_pending` for the well-formed commands; the two writes outside fail the one test that
their meanings begin with. -/
theorem wellFormedCommandsRun : Obligations.WellFormedCommandsRun := by
  refine ⟨fun c s hw => ?_, fun h lane offset bytes s hout => if_neg ?_, fun h offset bytes s h1 h2 => if_neg ?_⟩
  · obtain ⟨t, ht⟩ := exec_next c hw s
    exact ⟨t, ht, exec_pending c ht⟩
  · rintro ⟨hlane, hlen⟩
    change lane < 12 at hlane
    change offset + bytes.length ≤ 1048576 at hlen
    omega
  · rintro (hlen | ⟨hlow, hlen⟩)
    · change offset + bytes.length ≤ 164096 at hlen
      omega
    · change 164100 ≤ offset at hlow
      change offset + bytes.length ≤ 164104 at hlen
      omega

/-! ### WINDOW_WRITE -/

/-- Settles O16: each form is one branch of the write; the bytes of a stored one are read by `Memory.read_store`. -/
theorem windowWriteResult : Obligations.WindowWriteResult := by
  refine ⟨fun h lane offset bytes s l limit hlane hlen hlink hl ho hst hwf => ?_, fun h lane offset bytes s hlane hlen =>
    ⟨fun hlink => ?_, fun hl => ?_, fun l hl hno => ?_, fun l len tag hlink hne hl ho hst => ?_⟩⟩
  · refine ⟨Memory.store s.windows (lane * 1048576 + offset) bytes, (if_pos ⟨hlane, hlen⟩).trans ?_,
      Memory.wf_store _ _ hwf, Memory.read_store hwf bytes _⟩
    by_cases hb : bytes = []
    · simp [hb, Memory.store]
    · simp [hlink, hb, hl, ho, hst, Config.windowBytes]
  all_goals refine (if_pos ⟨hlane, hlen⟩).trans ?_
  · simp [hlink]
  · simp [hl]
  · rcases hno with ho | hd
    · simp [hl, ho]
    · simp [hl, hd]
  · simp [hlink, hne, hl, ho, hst]

end Sys2Proof.Machine
end


section
/-! Proofs: LANE_OPEN, LANE_FEED, LANE_REPORT, and a feed that completes short of the segment's end (R24 to R31, R45). -/

namespace Sys2Proof.Machine

/-! ### The lane an order names -/

theorem State.ownLane_own {s : State} {h : Head} {n : Nat} {l : LaneCtx} (hn : n < 12) (hl : s.lane n = some l)
    (ho : l.owner = h) : s.ownLane h n = .ok l := by
  simp [State.ownLane, Config.laneCount, hn, hl, ho]

theorem State.ownLane_other {s : State} {h : Head} {n : Nat} (hn : n < 12) (hno : ∀ l, s.lane n = some l → l.owner ≠ h) :
    s.ownLane h n = .error .notOwner := by
  cases hl : s.lane n with
  | none => simp [State.ownLane, Config.laneCount, hn, hl]
  | some l => simp [State.ownLane, Config.laneCount, hn, hl, hno l hl]

@[simp] theorem State.popOrder_ownLane (s : State) (h k : Head) (n : Nat) : (s.popOrder h).ownLane k n = s.ownLane k n := by
  cases h <;> rfl

/-! ### The lowest FREE lane -/

theorem State.freeLane?_eq_some {s : State} {n : Nat} (hn : n < 12) (hfree : s.lane n = none)
    (hlow : ∀ m, m < n → s.lane m ≠ none) : s.freeLane? = some n := by
  refine List.find?_range_eq_some.2 ⟨by simp [hfree], List.mem_range.2 hn, fun m hm => ?_⟩
  obtain ⟨l, hl⟩ := Option.ne_none_iff_exists'.1 (hlow m hm)
  simp [hl]

theorem State.freeLane?_eq_none {s : State} (hall : ∀ n, n < 12 → s.lane n ≠ none) : s.freeLane? = none := by
  refine List.find?_eq_none.2 fun n hn => ?_
  obtain ⟨l, hl⟩ := Option.ne_none_iff_exists'.1 (hall n (List.mem_range.1 hn))
  simp [hl]

@[simp] theorem State.popOrder_freeLane? (s : State) (h : Head) : (s.popOrder h).freeLane? = s.freeLane? := by
  cases h <;> rfl

/-! ### LANE_OPEN -/

/-- The body of the reply to a LANE_OPEN that takes lane `n` for a segment of a reel (R209). -/
def Reel.openBody (r : Reel) (n segment : Nat) : List Byte :=
  leBytes 1 n ++ zeros 3 ++ leBytes 4 (r.byteLength segment) ++ leBytes 4 r.frameSize ++ leBytes 4 (r.firstFrame segment) ++
    leBytes 1 (r.frameCount segment) ++ zeros 3

/-- A lane opened for a named copy. -/
theorem State.openLane_copy {s : State} {n : Nat} (hf : s.freeLane? = some n) (h : Head) (purpose : Purpose) (c : CopyId)
    (r : Reel) : s.openLane h purpose none c r =
      .answered (s.setLane n (some (LaneCtx.opened h purpose none c (r.byteLength c.segment) s.limits.stall)))
        (.ok (r.openBody n c.segment)) := by
  unfold State.openLane
  rw [hf]
  rfl

/-- A lane opened for an item, which becomes BOUND. -/
theorem State.openLane_item {s : State} {n : Nat} (hf : s.freeLane? = some n) (h : Head) (purpose : Purpose) (it : Item)
    (c : CopyId) (r : Reel) : s.openLane h purpose (some it) c r =
      .answered ((s.modItem it.tag fun i => { i with state := .bound n, everBound := true }).setLane n
        (some (LaneCtx.opened h purpose (some it.tag) c (r.byteLength c.segment) s.limits.stall)))
        (.ok (r.openBody n c.segment)) := by
  unfold State.openLane
  rw [hf]
  rfl

/-- Without a FREE lane the order is refused. -/
theorem State.openLane_none {s : State} (hf : s.freeLane? = none) (h : Head) (purpose : Purpose) (it : Option Item)
    (c : CopyId) (r : Reel) : s.openLane h purpose it c r = .answered s (.no .noLane) := by
  unfold State.openLane
  rw [hf]

/-- LANE_OPEN for a RESTORE or INGEST read of a copy that passes its checks opens a lane for it. -/
theorem laneOpen_copy {h : Head} {body : List Byte} {s : State} {purpose : Purpose} {r : Reel}
    (hp : Purpose.ofCode (leAt body 0 1) = some purpose) (hne : purpose ≠ .item)
    (hc : s.checkCopy ⟨leAt body 8 6, leAt body 14 2, leAt body 4 1⟩ = .ok r)
    (href : purpose = .restore → s.refDigest ⟨leAt body 8 6, leAt body 14 2⟩ ≠ none) :
    laneOpen h body s = s.openLane h purpose none ⟨leAt body 8 6, leAt body 14 2, leAt body 4 1⟩ r := by
  cases purpose with
  | item => exact absurd rfl hne
  | restore => simp [laneOpen, hp, laneOpenCopy, hc, CopyId.seg, href rfl]
  | ingest => simp [laneOpen, hp, laneOpenCopy, hc]

/-- LANE_OPEN for an item that the head has CLAIMED opens a lane for it. -/
theorem laneOpen_item {h : Head} {body : List Byte} {s : State} {it : Item} {limit : Nat} {r : Reel}
    (hp : leAt body 0 1 = 0) (hi : s.item? (leAt body 2 2) = some it) (hst : it.state = .claimed h limit)
    (hr : s.reel? it.target.reel = some r) : laneOpen h body s = s.openLane h .item (some it) it.target r := by
  simp [laneOpen, hp, Purpose.ofCode, laneOpenItem, hi, hst, hr]

/-! ### LANE_FEED -/

/-- What LANE_FEED does to an OPEN lane of the head, for a feed of 1 byte to 1 MiB. -/
theorem laneFeed_open {h : Head} {tag : Half} {body : List Byte} {s : State} {l : LaneCtx} {limit : Nat}
    (hn : leAt body 0 1 < 12) (hl : s.lane (leAt body 0 1) = some l) (ho : l.owner = h) (hst : l.state = .openFor limit)
    (hlow : 1 ≤ leAt body 4 4) (hhigh : leAt body 4 4 ≤ 1048576) : laneFeed h tag body s =
      if leAt body 8 4 ≠ l.bytesTaken then .answered s (.refused .offsetMismatch (leBytes 4 l.bytesTaken))
      else if l.expected < leAt body 8 4 + leAt body 4 4 then .answered s (.no .tooLong)
      else .begun (s.setLane (leAt body 0 1) (some { l with state := .digesting (leAt body 4 4) tag })) := by
  unfold laneFeed
  simp only [State.ownLane_own hn hl ho, hst]
  exact if_neg fun hb : leAt body 4 4 = 0 ∨ 1048576 < leAt body 4 4 => by omega

/-- Settles O28: LANE_OPEN by `laneOpen_copy`, `laneOpen_item` and the lowest FREE lane, LANE_FEED by the two checks that
`laneFeed_open` leaves. -/
theorem laneOpenAndFeed : Obligations.LaneOpenAndFeed := by
  refine ⟨fun h tag body s ht => ?_, fun h tag body s l limit ht hn hl ho hst hlow hhigh => ?_⟩
  · have hex {u a} (ha : laneOpen h body (s.popOrder h) = .answered u a) :
        exec (.laneOpen h) s = .next (u.answer h 16 tag a) := exec_answered (exec_laneOpen h) ht ha
    refine ⟨fun purpose r n hp hne hc href hn hfree hmin => hex ?_, fun it limit r n hp hi hst hr hn hfree hmin => hex ?_,
      fun it limit r hp hi hst hr hall => hex ?_⟩
    · have hf : (s.popOrder h).freeLane? = some n := by
        rw [State.popOrder_freeLane?, State.freeLane?_eq_some hn hfree hmin]
      rw [laneOpen_copy hp hne (by simpa using hc) (by simpa using href), State.openLane_copy hf, State.popOrder_limits]
      rfl
    · have hf : (s.popOrder h).freeLane? = some n := by
        rw [State.popOrder_freeLane?, State.freeLane?_eq_some hn hfree hmin]
      rw [laneOpen_item hp (by simpa using hi) hst (by simpa using hr), State.openLane_item hf, State.popOrder_limits]
      rfl
    · have hf : (s.popOrder h).freeLane? = none := by rw [State.popOrder_freeLane?, State.freeLane?_eq_none hall]
      rw [laneOpen_item hp (by simpa using hi) hst (by simpa using hr), State.openLane_none hf]
      rfl
  · have hfeed := laneFeed_open (tag := tag) (s := s.popOrder h) hn (by simpa using hl) ho hst hlow hhigh
    refine ⟨fun hoff hlen => exec_begun (exec_laneFeed h) ht ?_, fun hoff => exec_answered (exec_laneFeed h) ht ?_,
      fun hoff hlong => exec_answered (exec_laneFeed h) ht ?_⟩
    · rw [hfeed, if_neg (not_not.2 hoff), if_neg (Nat.not_lt.2 hlen)]
    · rw [hfeed, if_pos hoff]
    · rw [hfeed, if_neg (not_not.2 hoff), if_pos hlong]
      rfl

/-! ### LANE_REPORT -/

theorem LaneCtx.reportBody_length (l : LaneCtx) (n : Nat) : (l.reportBody n).length = 40 := by
  simp [LaneCtx.reportBody]

/-- Settles O33: the lane's check, and then the lane's state. -/
theorem laneReportResult : Obligations.LaneReportResult := by
  intro h tag body s ht hn
  have hex {u a} (ha : laneReport h body (s.popOrder h) = .answered u a) :
      exec (.laneReport h) s = .next (u.answer h 20 tag a) := exec_answered (exec_laneReport h) ht ha
  refine ⟨fun l hl ho hst => ⟨hex ?_, l.reportBody_length _⟩, fun l hl ho hst => hex ?_, fun hno => hex ?_⟩
  · simp [laneReport, State.ownLane_own hn hl ho, hst]
  · cases hs : l.state with
    | openFor limit => simp [laneReport, State.ownLane_own hn hl ho, hs, Answer.no]
    | digesting len t => simp [laneReport, State.ownLane_own hn hl ho, hs, Answer.no]
    | done => exact absurd hs hst
  · simp [laneReport, State.ownLane_other hn hno, Answer.no]

/-! ### A feed short of the end -/

@[simp] theorem State.wakeRoom_lane (s : State) (n : Nat) : s.wakeRoom.lane n = s.lane n := s.wakeRoom_works.lane_eq n

/-- A feed that completes short of the expected length leaves the lane OPEN with the feed's bytes taken. -/
theorem State.completeFeed_short {s : State} {n : Nat} {l l1 : LaneCtx} {r : Reel} {len : Nat}
    (hr : s.reel? l.target.reel = some r) (hlen : l.bytesTaken + len < l.expected)
    (hl1 : l1 = l.takeBytes r.frameSize (s.seg l.target.seg).frameList (Memory.load s.windows (n * 1048576) len)) :
    s.completeFeed n l len = s.setLane n (some { l1 with state := .openFor s.limits.stall }) := by
  have htaken : l1.bytesTaken = l.bytesTaken + len := by
    rw [hl1, (LaneCtx.takeBytes_counts _ _ _ l).1, Memory.load_length]
  unfold State.completeFeed
  simp only [hr, Option.map_some, Option.getD_some, Config.windowBytes, ← hl1]
  exact if_neg (by omega)

/-- LANE_FEED_COMPLETION, once the state after the feed and the lane in it are known. -/
theorem exec_laneFeedCompletion_digesting {s u : State} {n : Nat} {l l' : LaneCtx} {len : Nat} {tag : Half}
    (hl : s.lane n = some l) (hst : l.state = .digesting len tag) (hu : s.completeFeed n l len = u)
    (hl' : u.lane n = some l') : exec (.laneFeedCompletion n) s = .next ((u.wakeRoom.release l.owner).answer l.owner 17 tag
      (.ok (leBytes 4 l'.bytesTaken ++ leBytes 1 l'.state.code ++ zeros 3))) := by
  change execLaneFeedCompletion n s = _
  unfold execLaneFeedCompletion
  simp only [hl, hst, hu, State.wakeRoom_lane, hl']
  rfl

/-- A byte that does not complete its frame. -/
theorem LaneCtx.takeByte_within {size : Nat} {l : LaneCtx} (h : l.bytesTaken + 1 ≠ (l.frameIndex + 1) * size)
    (list : Option (List Digest)) (b : Byte) : l.takeByte size list b = { l with
      segCrc := crcByte l.segCrc b, frameCrc := crcByte l.frameCrc b, bytesTaken := l.bytesTaken + 1 } := by
  unfold LaneCtx.takeByte
  dsimp only
  rw [if_neg h]

/-- A byte that completes its frame: the byte is taken and then the frame completes. -/
theorem LaneCtx.takeByte_last {size : Nat} {l : LaneCtx} (h : l.bytesTaken + 1 = (l.frameIndex + 1) * size)
    (list : Option (List Digest)) (b : Byte) : l.takeByte size list b = LaneCtx.completeFrame list { l with
      segCrc := crcByte l.segCrc b, frameCrc := crcByte l.frameCrc b, bytesTaken := l.bytesTaken + 1 } := by
  unfold LaneCtx.takeByte
  dsimp only
  rw [if_pos h]

/-- Settles O30: the feed by `State.completeFeed_short`, the bytes by `LaneCtx.takeBytes_frame`, one byte by whether it
completes its frame. -/
theorem feedCompletionContinues : Obligations.FeedCompletionContinues := by
  refine ⟨fun n s l l1 r len tag hn hl hst hlen hr hl1 => ?_, fun size list l bytes => ?_, fun size list l b =>
    ⟨fun hin => LaneCtx.takeByte_within hin list b, fun d hd hlast => ?_⟩⟩
  · have htaken : l1.bytesTaken = l.bytesTaken + len := by
      rw [hl1, (LaneCtx.takeBytes_counts _ _ _ l).1, Memory.load_length]
    rw [exec_laneFeedCompletion_digesting hl hst (State.completeFeed_short hr hlen hl1) (State.lane_setLane s n _ hn),
      ← htaken]
    rfl
  · obtain ⟨i, c, ds, m, k, he⟩ := l.takeBytes_frame size list bytes
    exact ⟨rfl, by rw [he], by rw [he]⟩
  · rw [LaneCtx.takeByte_last hlast, hd]
    cases list with
    | none => simp [LaneCtx.completeFrame, Config.crcOnes]
    | some ds =>
      simp only [LaneCtx.completeFrame, Config.crcOnes, maskBit, Option.isSome_some, Bool.and_true]
      split <;> rfl

end Sys2Proof.Machine
end


section
/-! Proofs: lanes that end without a judgement, and the items that go back to their class or go for good (R33 to R35, R40,
R149, R158 to R164). -/

namespace Sys2Proof.Machine

/-! ### An item at the front of its class (R149) -/

/-- An item QUEUED again, with its requeue count raised. -/
def Item.requeued (it : Item) : Item := { it with state := .queued, requeue := it.requeue + 1, source := none }

/-- The list in which an item stands QUEUED again, its requeue count raised, at the front of its class. -/
def requeuedFront (it : Item) (l : List Item) : List Item :=
  placeFront (fun i => i.tag == it.tag)
    (l.map fun i => if i.tag = it.tag then { i with state := .queued, requeue := it.requeue + 1, source := none } else i)

theorem State.requeueFront_eq (s : State) (it : Item) : s.requeueFront it (it.requeue + 1) =
    { s with queue := { s.queue with items := requeuedFront it s.queue.items } } := rfl

/-- One class of the list after a move to the front: the moved items of the class, then its other ones. -/
theorem filter_placeFront (p : Item → Bool) (l : List Item) (cls : ItemClass) :
    (placeFront p l).filter (fun i => i.cls = cls) =
      l.filter (fun i => i.cls = cls && p i) ++ l.filter (fun i => i.cls = cls && !p i) := by
  have key (c : ItemClass) (q : Item → Bool) : (l.filter fun i => i.cls = c && q i).filter (fun i => i.cls = cls) =
      if c = cls then l.filter fun i => i.cls = cls && q i else [] := by
    rw [List.filter_filter]
    split
    · next hc =>
      subst hc
      exact List.filter_congr fun i _ => by simp
    · next hc =>
      refine List.filter_eq_nil_iff.2 fun i _ => ?_
      simp only [Bool.and_eq_true, decide_eq_true_eq]
      rintro ⟨h1, h2, -⟩
      exact hc (h2.symm.trans h1)
  unfold placeFront
  simp only [List.flatMap_cons, List.flatMap_nil, List.append_nil, List.filter_append, key]
  cases cls <;> simp

/-- Where no tag is held twice, an item is the only one with its tag. -/
theorem filter_tag_of_nodup {l : List Item} {it : Item} (hn : (l.map Item.tag).Nodup) (hi : it ∈ l) :
    l.filter (fun i => i.tag == it.tag) = [it] := by
  induction l with
  | nil => cases hi
  | cons j l ih =>
    obtain ⟨hj, hn⟩ := List.nodup_cons.1 hn
    rcases List.mem_cons.1 hi with rfl | hi
    · rw [List.filter_cons_of_pos (by simp), List.filter_eq_nil_iff.2]
      intro k hk ht
      exact hj (List.mem_map.2 ⟨k, hk, by simpa using ht⟩)
    · rw [List.filter_cons_of_neg, ih hn hi]
      intro ht
      exact hj (List.mem_map.2 ⟨it, hi, (by simpa using ht : j.tag = it.tag).symm⟩)

/-- One class of the list after an item went back: the item first, when it is of the class, then the class as it was. -/
theorem filter_requeuedFront {l : List Item} {it : Item} (hn : (l.map Item.tag).Nodup) (hi : it ∈ l) (cls : ItemClass) :
    (requeuedFront it l).filter (fun i => i.cls = cls) =
      (if it.cls = cls then [it.requeued] else []) ++ l.filter fun i => i.cls = cls && i.tag != it.tag := by
  have htag (i : Item) : (if i.tag = it.tag then { i with state := .queued, requeue := it.requeue + 1, source := none }
      else i).tag = i.tag := by split <;> rfl
  have hcls (i : Item) : (if i.tag = it.tag then { i with state := .queued, requeue := it.requeue + 1, source := none }
      else i).cls = i.cls := by split <;> rfl
  unfold requeuedFront
  rw [filter_placeFront, List.filter_map, List.filter_map]
  simp only [Function.comp_def, htag, hcls]
  congr 1
  · have hown : l.filter (fun i => i.cls = cls && i.tag == it.tag) = if it.cls = cls then [it] else [] := by
      rw [← List.filter_filter, filter_tag_of_nodup hn hi]
      split <;> simp [*]
    rw [hown]
    split
    · simp [Item.requeued]
    · rfl
  · refine (List.map_congr_left fun i hmem => ?_).trans (List.map_id _)
    have hne := (List.mem_filter.1 hmem).2
    simp only [Bool.and_eq_true, Bool.not_eq_true', beq_eq_false_iff_ne] at hne
    exact if_neg hne.2

/-! ### Items that go for good -/

section

variable (s : State) (it : Item) (cause : Nat)

/-- The status of the slot an item serves. -/
theorem State.ownSlot?_eq_some (st : Slot) : s.ownSlot? it = some st ↔
    ∃ d, s.collecting? it.target.seg = some d ∧ d.slots[it.target.copy]? = some st ∧ st.tag = some it.tag := by
  simp only [State.ownSlot?, Option.bind_eq_some_iff, Option.filter_eq_some_iff, beq_iff_eq]

/-- An item serves no slot when the slot of its copy does not name it. -/
theorem State.ownSlot?_eq_none (h : ∀ d st, s.collecting? it.target.seg = some d → d.slots[it.target.copy]? = some st →
    st.tag ≠ some it.tag) : s.ownSlot? it = none := by
  cases ho : s.ownSlot? it with
  | none => rfl
  | some st =>
    obtain ⟨d, hd, hs, ht⟩ := (s.ownSlot?_eq_some it st).1 ho
    exact absurd ht (h d st hd hs)

/-- The owner of a withdrawn item acts as R72, R73, R97 and R103 say. -/
theorem State.ownerLost_acts : s.ownerActs it cause (s.ownerLost it cause) := by
  refine ⟨fun hk => ?_, fun hk => ⟨fun d hd hs => ?_, fun d o n hd hs => ?_, fun hno => ?_⟩⟩
  · simp [State.ownerLost, hk, State.abandonRepair]
  · have ho : s.ownSlot? it = some (.issued it.tag) := (s.ownSlot?_eq_some it _).2 ⟨d, hd, hs, rfl⟩
    cases hkind : it.kind with
    | repair => exact absurd hkind hk
    | scrub => simp [State.ownerLost, hkind, ho]
    | confirm => simp [State.ownerLost, hkind, ho]
  · have ho : s.ownSlot? it = some (.observed o n (some it.tag)) := (s.ownSlot?_eq_some it _).2 ⟨d, hd, hs, rfl⟩
    cases hkind : it.kind with
    | repair => exact absurd hkind hk
    | scrub => simp [State.ownerLost, hkind, ho, State.clearSlotTag]
    | confirm => simp [State.ownerLost, hkind, ho, State.clearSlotTag]
  · have ho := s.ownSlot?_eq_none it hno
    cases hkind : it.kind with
    | repair => exact absurd hkind hk
    | scrub => simp [State.ownerLost, hkind, ho]
    | confirm => simp [State.ownerLost, hkind, ho]

/-- The ITEM_ABANDONED finding of an item, as the withdrawal leaves what it names. -/
theorem State.abandonItem_eq : s.abandonItem it cause =
    ((s.withdrawItem it).post ⟨.itemAbandoned, false, s.day.getD 0, some it.target.reel, some it.target.segment,
      some it.target.copy, some (s.mediumOf it.target), none, none, it.tag + 65536 * cause⟩).ownerLost it 4 := by
  have hm := (s.withdrawItem_steady (fun _ => False) it).medium it.target
  have ht : (s.withdrawItem it).today = s.day.getD 0 := (s.withdrawItem_works it).today
  simp only [State.abandonItem, State.copyFinding, hm, ht]

/-- An item that keeps its purpose and whose raise is not the fourth goes back to the front of its class. -/
theorem State.returnFront_requeued {s : State} {it : Item} (hp : ¬s.lostPurpose it) (hq : it.requeue < 3) :
    s.returnFront it cause = { s with queue := { s.queue with items := requeuedFront it s.queue.items } } := by
  unfold State.returnFront
  rw [if_neg fun h => hp ((s.isPurposeless_iff it).1 h), State.requeueFront_eq]
  exact if_pos (Nat.succ_lt_succ hq : it.requeue + 1 < 4)

/-- A withdrawal for a lost purpose, or else an abandonment with its cause, is what `State.itemGone` says. -/
theorem State.itemGone_of {t : State} (h1 : s.lostPurpose it → t = s.withdrawPurposeless it)
    (h2 : ¬s.lostPurpose it → t = s.abandonItem it cause) : s.itemGone it cause t := by
  refine ⟨fun h => h1 h ▸ s.withdrawPurposeless_gone it, fun h => ?_⟩
  rw [h2 h, State.abandonItem_eq]
  exact State.ownerLost_acts _ it 4

/-- An item without a purpose, or at its fourth raise, goes where it was to return to the front of its class. -/
theorem State.returnFront_gone {s : State} {it : Item} (hgo : s.lostPurpose it ∨ 3 ≤ it.requeue) :
    s.itemGone it cause (s.returnFront it cause) := by
  refine s.itemGone_of it cause (fun h => if_pos ((s.isPurposeless_iff it).2 h)) fun h => ?_
  have h4 : ¬it.requeue + 1 < 4 := by have := hgo.resolve_left h; omega
  exact (if_neg fun hp => h ((s.isPurposeless_iff it).1 hp)).trans (if_neg h4)

/-- The same where it was to return to the end of its class. -/
theorem State.returnRetry_gone {s : State} {it : Item} (hgo : s.lostPurpose it ∨ 3 ≤ it.requeue) :
    s.itemGone it 2 (s.returnRetry it) := by
  refine s.itemGone_of it 2 (fun h => if_pos ((s.isPurposeless_iff it).2 h)) fun h => ?_
  have h4 : ¬it.requeue + 1 < 4 := by have := hgo.resolve_left h; omega
  exact (if_neg fun hp => h ((s.isPurposeless_iff it).1 hp)).trans (if_neg h4)

end

/-! ### A lane that ends without a judgement -/

section

variable {s : State} {n : Nat} {l : LaneCtx} {it : Item} (reason : EndReason) (result : Option Result)

/-- A lane without an item is charged for the bytes it took. -/
theorem State.endUnjudged_charged (hp : l.purpose ≠ .item) (ht : l.itemTag = none) : s.endUnjudged n l reason result =
    (s.chargeCredit (chargeOf l.bytesTaken)).finishLane n l reason result none .notUsed := by
  unfold State.endUnjudged
  rw [ht]
  dsimp only [Option.bind_none]
  rw [State.chargeLane_eq, if_neg hp]

/-- A lane with an item returns the item, and charges nothing. -/
theorem State.endUnjudged_item (hp : l.purpose = .item) (ht : l.itemTag = some it.tag) (hi : s.item? it.tag = some it) :
    s.endUnjudged n l reason result = (s.returnFront it 3).finishLane n l reason result none .notUsed := by
  have hb : l.itemTag.bind s.item? = some it := by rw [ht]; exact hi
  unfold State.endUnjudged
  rw [hb]
  dsimp only
  rw [State.chargeLane_eq, if_pos hp]

end

/-- The lane `l` as it is DONE without a judgement, its copy's trust being `t` (R39, R42). -/
def LaneCtx.unjudged (l : LaneCtx) (reason : EndReason) (result : Option Result) (t : Trust) : LaneCtx :=
  { l with
    state := .done, endReason := some reason, result := result, observed := none, routing := some .notUsed,
    trustAfter := some t }

/-- A lane whose item goes back to the front of its class. -/
theorem State.endUnjudged_requeued {s : State} {n : Nat} {l : LaneCtx} {it : Item} (hp : l.purpose = .item)
    (ht : l.itemTag = some it.tag) (hi : s.item? it.tag = some it) (hkeep : ¬s.lostPurpose it) (hq : it.requeue < 3)
    (reason : EndReason) (result : Option Result) : s.endUnjudged n l reason result =
      ({ s with queue := { s.queue with items := requeuedFront it s.queue.items } }).setLane n
        (some (l.unjudged reason result (s.copy l.target).trust)) := by
  rw [State.endUnjudged_item reason result hp ht hi, State.returnFront_requeued 3 hkeep hq]
  rfl

/-! ### The commands that end a lane -/

section

variable {s : State} {n : Nat} {l : LaneCtx} (hn : n < 12) (hl : s.lane n = some l)
include hn hl

theorem exec_laneEnd_open {tag : Half} {body : List Byte} {limit : Nat} (ht : s.takes l.owner 18 tag body)
    (hb : leAt body 0 1 = n) (hst : l.state = .openFor limit) : exec (.laneEnd l.owner) s =
      .next (((s.popOrder l.owner).endUnjudged n l .short none).wakeRoom.answer l.owner 18 tag (.ok [])) := by
  refine exec_answered (exec_laneEnd l.owner) ht ?_
  simp [laneEnd, hb, State.ownLane_own hn hl rfl, hst]

theorem exec_laneAbort_open {tag : Half} {body : List Byte} {limit : Nat} (ht : s.takes l.owner 19 tag body)
    (hb : leAt body 0 1 = n) (hst : l.state = .openFor limit) : exec (.laneAbort l.owner) s =
      .next (((s.popOrder l.owner).endUnjudged n l .aborted none).wakeRoom.answer l.owner 19 tag (.ok [])) := by
  refine exec_answered (exec_laneAbort l.owner) ht ?_
  simp [laneAbort, hb, State.ownLane_own hn hl rfl, hst]

theorem exec_laneAbort_digesting {tag feed : Half} {body : List Byte} {len : Nat} (ht : s.takes l.owner 19 tag body)
    (hb : leAt body 0 1 = n) (hst : l.state = .digesting len feed) : exec (.laneAbort l.owner) s =
      .next ((((s.popOrder l.owner).release l.owner).endUnjudged n l .aborted none).wakeRoom.answer l.owner 19 tag
        (.ok [])) := by
  refine exec_answered (exec_laneAbort l.owner) ht ?_
  simp [laneAbort, hb, State.ownLane_own hn hl rfl, hst]

omit hn in
theorem exec_stallTimerExpiry_open {limit : Nat} (hst : l.state = .openFor limit) :
    exec (.stallTimerExpiry n) s = .next (s.endUnjudged n l .stalled none).wakeRoom.settle := by
  change execStallTimerExpiry n s = _
  unfold execStallTimerExpiry
  simp only [hl, hst]

end

/-! What is read of the items and the tables when a port changes. -/

section

variable (s : State) (h : Head)

@[simp] theorem State.release_item? (tag : Nat) : (s.release h).item? tag = s.item? tag := by cases h <;> rfl
@[simp] theorem State.release_copy (c : CopyId) : (s.release h).copy c = s.copy c := by cases h <;> rfl
@[simp] theorem State.popOrder_lostPurpose (it : Item) : (s.popOrder h).lostPurpose it ↔ s.lostPurpose it := by
  cases h <;> exact Iff.rfl
@[simp] theorem State.release_lostPurpose (it : Item) : (s.release h).lostPurpose it ↔ s.lostPurpose it := by
  cases h <;> exact Iff.rfl

end

/-- Settles O31: each command ends the lane (`exec_laneEnd_open` and its kin); a lane without an item is charged, and an item
goes to the front of its class, which `filter_requeuedFront` reads. -/
theorem laneEndsUnjudged : Obligations.LaneEndsUnjudged := by
  refine ⟨fun h tag body s n l hn hl hp htag => ⟨fun limit ht hb ho hst => ?_, fun limit ht hb ho hst => ?_,
    fun len t ht hb ho hst => ?_, fun limit hst => ?_⟩, fun s n l it ended hn hl hp htag hi hkeep hq hnd hended => ?_⟩
  · subst ho
    rw [exec_laneEnd_open hn hl ht hb hst, State.endUnjudged_charged _ _ hp htag, ← s.popOrder_copy l.owner]
    rfl
  · subst ho
    rw [exec_laneAbort_open hn hl ht hb hst, State.endUnjudged_charged _ _ hp htag, ← s.popOrder_copy l.owner]
    rfl
  · subst ho
    rw [exec_laneAbort_digesting hn hl ht hb hst, State.endUnjudged_charged _ _ hp htag, ← s.popOrder_copy l.owner,
      ← (s.popOrder l.owner).release_copy l.owner]
    rfl
  · rw [exec_stallTimerExpiry_open hl hst, State.endUnjudged_charged _ _ hp htag]
    rfl
  · subst hended
    have hmem : it ∈ s.queue.items := (s.item?_some hi).1
    refine ⟨requeuedFront it s.queue.items, filter_requeuedFront hnd hmem, fun tag body limit ht hb hst => ?_,
      fun tag body limit ht hb hst => ?_, fun tag body len feed ht hb hst => ?_, fun limit hst => ?_⟩
    · rw [exec_laneEnd_open hn hl ht hb hst, State.endUnjudged_requeued hp htag (by simpa using hi) (by simpa using hkeep) hq,
        State.popOrder_queue, State.popOrder_copy]
      rfl
    · rw [exec_laneAbort_open hn hl ht hb hst,
        State.endUnjudged_requeued hp htag (by simpa using hi) (by simpa using hkeep) hq,
        State.popOrder_queue, State.popOrder_copy]
      rfl
    · rw [exec_laneAbort_digesting hn hl ht hb hst,
        State.endUnjudged_requeued hp htag (by simpa using hi) (by simpa using hkeep) hq,
        State.release_queue, State.release_copy, State.popOrder_queue, State.popOrder_copy]
      rfl
    · rw [exec_stallTimerExpiry_open hl hst, State.endUnjudged_requeued hp htag hi hkeep hq]
      rfl

end Sys2Proof.Machine
end


section
/-! Proofs: what becomes of an item that goes, and the judgement of a completed read (R36 to R42, R163, R164). -/

namespace Sys2Proof.Machine

/-! ### Claims that lapse or are returned -/

theorem Item.isClaimedBy_of_claimed {it : Item} {h : Head} {limit : Nat} (hst : it.state = .claimed h limit) :
    it.isClaimedBy h = true := by
  simp [Item.isClaimedBy, hst]

theorem exec_claimTimerExpiry_claimed {s : State} {tag : Nat} {it : Item} {h : Head} {limit : Nat}
    (hi : s.item? tag = some it) (hst : it.state = .claimed h limit) :
    exec (.claimTimerExpiry tag) s = .next (s.returnFront it 1).wakeRoom.settle := by
  have hc : (it.isClaimedBy .a || it.isClaimedBy .b) = true := by
    have := Item.isClaimedBy_of_claimed hst
    cases h <;> simp [this]
  have hf : (s.item? tag).filter (fun it => it.isClaimedBy .a || it.isClaimedBy .b) = some it :=
    Option.filter_eq_some_iff.2 ⟨hi, hc⟩
  change execClaimTimerExpiry tag s = _
  unfold execClaimTimerExpiry
  rw [hf]

theorem exec_itemReturn_retry {s : State} {h : Head} {tag : Half} {body : List Byte} {it : Item} {limit : Nat}
    (ht : s.takes h 25 tag body) (hr : leAt body 2 1 = 1) (hi : s.item? (leAt body 0 2) = some it)
    (hst : it.state = .claimed h limit) :
    exec (.itemReturn h) s = .next (((s.popOrder h).returnRetry it).wakeRoom.answer h 25 tag (.ok [])) := by
  have hf : (s.item? (leAt body 0 2)).filter (fun it => it.isClaimedBy h) = some it :=
    Option.filter_eq_some_iff.2 ⟨hi, Item.isClaimedBy_of_claimed hst⟩
  refine exec_answered (exec_itemReturn h) ht ?_
  simp [itemReturn, hr, ReturnReason.ofCode, hf]

/-! ### Reads that are not judged -/

/-- A read with a window conflict is INCONCLUSIVE, whatever its digest (R36). -/
theorem judge_conflict (purpose : Purpose) (ref : Option Digest) (d : Digest) : judge true purpose ref d = .inconclusive := rfl

/-- A RESTORE read without a reference is INCONCLUSIVE (R36). -/
theorem judge_restore_none (conflict : Bool) (d : Digest) : judge conflict .restore none d = .inconclusive := by
  cases conflict <;> rfl

/-- A completed read of an item with a window conflict: the item goes back or goes for good, and nothing is charged. -/
theorem State.completes.exec_conflict_item {s : State} {n : Nat} {l l1 : LaneCtx} {tag : Half} {d : Digest} {it : Item}
    (h : s.completes n l l1 tag d) (hc : l.conflict = true) (hp : l.purpose = .item) (ht : l.itemTag = some it.tag)
    (hi : s.item? it.tag = some it) :
    Machine.exec (.laneFeedCompletion n) s = .next ((s.returnFront it 3).readDone n l1 tag .inconclusive none .notUsed) := by
  obtain ⟨-, -, -, e4, e5, e6, -, -⟩ := h.context
  refine h.exec ?_
  rw [State.completeLane_inconclusive (by rw [e5, hc, judge_conflict]),
    State.endUnjudged_item _ _ (e6.trans hp) (e4.trans ht) hi]

/-- Settles O38: a lapse, a RETRY return and every unjudged end of a lane comes to `State.returnFront` or
`State.returnRetry` of the item, which goes by `State.returnFront_gone` and `State.returnRetry_gone`. -/
theorem itemsThatGo : Obligations.ItemsThatGo := by
  intro s it hgo hi
  have hgoPop (h : Head) : (s.popOrder h).lostPurpose it ∨ 3 ≤ it.requeue := hgo.imp_left (s.popOrder_lostPurpose h it).2
  refine ⟨fun h limit hst => ⟨?_, fun tag body ht hb hr => ?_⟩, fun n l ended hn hl hp htag hended => ?_⟩
  · exact ⟨_, State.returnFront_gone 1 hgo, exec_claimTimerExpiry_claimed hi hst⟩
  · exact ⟨_, State.returnRetry_gone (hgoPop h), exec_itemReturn_retry ht hr (hb ▸ hi) hst⟩
  · subst hended
    refine ⟨fun tag body limit ht hb hst => ?_, fun tag body limit ht hb hst => ?_, fun tag body len feed ht hb hst => ?_,
      fun limit hst => ?_, fun l1 tag d hdone hc => ?_⟩
    · refine ⟨_, State.returnFront_gone 3 (hgoPop l.owner), ?_⟩
      rw [exec_laneEnd_open hn hl ht hb hst, State.endUnjudged_item _ _ hp htag (by simpa using hi)]
      rfl
    · refine ⟨_, State.returnFront_gone 3 (hgoPop l.owner), ?_⟩
      rw [exec_laneAbort_open hn hl ht hb hst, State.endUnjudged_item _ _ hp htag (by simpa using hi)]
      rfl
    · have hgoRel : ((s.popOrder l.owner).release l.owner).lostPurpose it ∨ 3 ≤ it.requeue := by simpa using hgo
      refine ⟨_, State.returnFront_gone 3 hgoRel, ?_⟩
      rw [exec_laneAbort_digesting hn hl ht hb hst, State.endUnjudged_item _ _ hp htag (by simpa using hi)]
      rfl
    · refine ⟨_, State.returnFront_gone 3 hgo, ?_⟩
      rw [exec_stallTimerExpiry_open hl hst, State.endUnjudged_item _ _ hp htag hi]
      rfl
    · exact ⟨_, State.returnFront_gone 3 hgo, hdone.exec_conflict_item hc hp htag hi⟩

/-! ### Reads that are judged by a reference -/

/-- A read judged by a reference, once its routing is known: the routed state is charged for, and the lane is DONE (R39). -/
theorem State.completes.exec_routed {s v w : State} {n : Nat} {l l1 : LaneCtx} {tag : Half} {d ref : Digest}
    {result : Result} {routing : Routing} (h : s.completes n l l1 tag d) (hc : l.conflict = false)
    (hr : s.refDigest l.target.seg = some ref) (hres : result = if d = ref then .matched else .mismatch)
    (hv : s.readyToRoute n l l1 d v)
    (hroute : v.route n l1 (l.itemTag.bind s.item?) result ⟨d, l1.badMask, l1.compared⟩ = (routing, w)) :
    Machine.exec (.laneFeedCompletion n) s =
      .next ((if l.purpose = .item then w else w.chargeCredit (chargeOf l.expected)).readDone n l1 tag result (some d)
        routing) := by
  rw [← h.charge w]
  exact h.exec (hv.completeLane h hc hr hres _ hroute.symm)

/-- The slot of a COLLECTING entry decides what a result routed to it does (R70 to R72). -/
theorem State.completes.exec_dispute {s v w : State} {n : Nat} {l l1 : LaneCtx} {tag : Half} {d ref : Digest}
    {result : Result} {routing : Routing} {e : Dispute} (h : s.completes n l l1 tag d) (hc : l.conflict = false)
    (hr : s.refDigest l.target.seg = some ref) (hres : result = if d = ref then .matched else .mismatch)
    (hv : s.readyToRoute n l l1 d v) (hkind : ∀ it, l.itemTag.bind s.item? = some it → it.kind ≠ .repair)
    (he : v.collecting? l.target.seg = some e)
    (hw : v.routeDispute e l.target ⟨d, l1.badMask, l1.compared⟩ n l.itemTag = (routing, w)) :
    Machine.exec (.laneFeedCompletion n) s =
      .next ((if l.purpose = .item then w else w.chargeCredit (chargeOf l.expected)).readDone n l1 tag result (some d)
        routing) := by
  obtain ⟨-, -, e3, e4, -, -, -, -⟩ := h.context
  refine h.exec_routed hc hr hres hv ?_
  rw [State.route_dispute hkind (e3.symm ▸ he), e3, e4, hw]

/-- The own item of a slot that another lane has filled goes when it is QUEUED (R72). -/
theorem State.dealOwnItem_queued {s : State} {t : Nat} {own : Item} (hi : s.item? t = some own) (hq : own.isQueued = true)
    (c : CopyId) (o : Obs) (n : Nat) : s.dealOwnItem c o n t = (s.withdrawItem own).setSlot c (.observed o n none) := by
  simp [State.dealOwnItem, hi, hq]

/-- It goes on when it is CLAIMED or BOUND (R72). -/
theorem State.dealOwnItem_busy {s : State} {t : Nat} {own : Item} (hi : s.item? t = some own) (hq : own.isQueued = false)
    (c : CopyId) (o : Obs) (n : Nat) : s.dealOwnItem c o n t = s := by
  simp [State.dealOwnItem, hi, hq]

/-- Settles O39: the routing is `State.routeDispute`, by the status of the slot. -/
theorem disputeTakesResults : Obligations.DisputeTakesResults := by
  intro n s v l l1 tag d ref result e st done o h hc hr hres hv hkind he hst ho hdone
  subst ho hdone
  have hex {w : State} {routing : Routing}
      (hw : v.routeDispute e l.target ⟨d, l1.badMask, l1.compared⟩ n l.itemTag = (routing, w)) :=
    h.exec_dispute hc hr hres hv hkind he hw
  have hslot {t : Nat} {own : Item} (hown : v.item? t = some own) (x : Slot) :
      (v.setSlot l.target x).item? t = some own := hown
  refine ⟨fun hw => hex ?_, fun t hi ht => hex ?_, fun t own hi ht hown => ⟨fun hq => hex ?_, fun hq => hex ?_⟩,
    fun o' n' t hob ht => hex ?_, fun hno => hex ?_⟩
  · simp [State.routeDispute, hst, hw]
  · simp [State.routeDispute, hst, hi, ht]
  · simp only [State.routeDispute, hst, hi, if_neg ht]
    rw [State.dealOwnItem_queued (hslot hown _) hq]
  · simp only [State.routeDispute, hst, hi, if_neg ht]
    rw [State.dealOwnItem_busy (hslot hown _) hq]
  · simp [State.routeDispute, hst, hob, ht]
  · rcases hno with hu | hu | ⟨o', n', t, hob, ht⟩
    · simp [State.routeDispute, hst, hu]
    · simp [State.routeDispute, hst, hu]
    · cases t with
      | none => simp [State.routeDispute, hst, hob]
      | some t => simp [State.routeDispute, hst, hob, ht.resolve_left (by simp)]

end Sys2Proof.Machine
end


section
/-! Proofs: the judgements of a completed read and the rules they go to (R36 to R42, R51 to R56, R100 to R102). -/

namespace Sys2Proof.Machine

/-! ### The plain rules -/

section

variable {s : State} {c : CopyId}

/-- A result that is no MISMATCH makes an UNVERIFIED or GOOD copy GOOD (R51). -/
theorem State.plain_good (ha : s.awaiting? c.seg = none)
    (ht : (s.copy c).trust = .unverified ∨ (s.copy c).trust = .good) {result : Result} (hr : result ≠ .mismatch) (o : Obs)
    (lane : Nat) : s.plain c result o lane = s.setGood c s.today := by
  unfold State.plain
  rw [ha]
  cases result with
  | mismatch => exact absurd rfl hr
  | matched | learned | inconclusive => rcases ht with ht | ht <;> simp [ht]

/-- A MATCH of a SUSPECT copy that waits for a dispute was a transient read (R52). -/
theorem State.plain_transient (ha : s.awaiting? c.seg = none) (ht : (s.copy c).trust = .suspect)
    (hd : (s.copy c).deferred = true) (o : Obs) (lane : Nat) : s.plain c .matched o lane =
      ((s.setGood c s.today).post ⟨.transientRead, false, s.day.getD 0, some c.reel, some c.segment, some c.copy,
        some (s.mediumOf c), some o.digest, none, lane⟩).chargeMedium c 1 := by
  have hm : (s.setGood c s.today).mediumOf c = s.mediumOf c := s.mediumOf_modSeg _ _ c
  simp only [State.plain, ha, ht, hd, State.plainTransient, State.copyFinding, hm]
  rfl

/-- A result of a BAD or REPAIRING copy changes nothing (R55). -/
theorem State.plain_bad (ha : s.awaiting? c.seg = none) (ht : (s.copy c).trust = .bad ∨ (s.copy c).trust = .repairing)
    (result : Result) (o : Obs) (lane : Nat) : s.plain c result o lane = s := by
  unfold State.plain
  rw [ha]
  rcases ht with ht | ht <;> simp [ht]

/-- A MATCH while the segment's entry awaits resolution changes nothing (R56). -/
theorem State.plain_matched_awaiting {a : Dispute × Digest} (ha : s.awaiting? c.seg = some a) (o : Obs) (lane : Nat) :
    s.plain c .matched o lane = s := by
  simp [State.plain, ha]

/-- A MISMATCH while the segment's entry awaits resolution is posted and nothing else (R56, R63). -/
theorem State.plain_mismatch_awaiting {a : Dispute × Digest} (ha : s.awaiting? c.seg = some a) (o : Obs) (lane : Nat) :
    s.plain c .mismatch o lane = s.post ⟨.copyMismatch, true, s.day.getD 0, some c.reel, some c.segment, some c.copy,
      some (s.mediumOf c), some o.digest, if o.compared then some o.mask else none, lane⟩ := by
  simp only [State.plain, ha, Option.isSome_some, if_true]
  rfl

end

/-! ### The entry of the segment, where a read is routed -/

/-- Where no entry of a segment COLLECTS, none does after work that leaves the phases. -/
theorem State.Steady.collecting?_none {P : CopyId → Prop} {s t : State} (h : s.Steady P t) {g : SegId}
    (hg : s.collecting? g = none) : t.collecting? g = none := by
  cases hd : s.dispute? g with
  | none => simp [State.collecting?, h.dispute?_none hd]
  | some d =>
    obtain ⟨e, he, -, -, hphase, -⟩ := h.dispute?_some hd
    have hsame : e.isCollecting = d.isCollecting := by simp only [Dispute.isCollecting, hphase]
    simpa [State.collecting?, hd, he, hsame] using hg

theorem State.collecting?_of_dispute?_none {s : State} {g : SegId} (h : s.dispute? g = none) : s.collecting? g = none := by
  simp [State.collecting?, h]

theorem State.awaiting?_of_dispute?_none {s : State} {g : SegId} (h : s.dispute? g = none) : s.awaiting? g = none := by
  simp [State.awaiting?, h]

/-! ### Reads of a RESTORE or INGEST lane -/

/-- An INGEST read without a reference and without a window conflict is LEARNED (R36). -/
theorem judge_learned (d : Digest) : judge false .ingest none d = .learned := rfl

/-- The copy records of a segment whose reference alone changes. -/
theorem State.copy_modSeg (s : State) (g : SegId) {f : SegRec → SegRec} (hf : ∀ r, (f r).copies = r.copies) (c : CopyId) :
    (s.modSeg g f).copy c = s.copy c := by
  by_cases hg : c.seg = g
  · cases hr : s.reel? g.reel with
    | none => simp [State.copy, State.seg, hg, State.reel?_modSeg, hr]
    | some r => rw [State.copy, State.copy, hg, State.seg_modSeg s f hr, hf]
  · rw [State.copy, State.copy, State.seg_modSeg_other s f hg]

theorem State.copy_learn (s : State) (g : SegId) (d : Digest) (frames : List Digest) (c : CopyId) :
    (s.learn g d frames).copy c = s.copy c :=
  s.copy_modSeg g (f := fun r => { r with reference := some ⟨d, .learned⟩, frameList := some frames }) (fun _ => rfl) c

/-- A LEARNED result of an UNVERIFIED or GOOD copy makes it GOOD where its segment has no dispute (R51). -/
theorem State.route_learned {s : State} {l : LaneCtx} (hd : s.dispute? l.target.seg = none)
    (ht : (s.copy l.target).trust = .unverified ∨ (s.copy l.target).trust = .good) (n : Nat) (o : Obs) :
    s.route n l none .learned o = (.plain, s.setGood l.target s.today) := by
  rw [State.route_plain (fun _ hi => by cases hi) (State.collecting?_of_dispute?_none hd),
    State.plain_good (State.awaiting?_of_dispute?_none hd) ht (by simp)]

/-- What a LEARNED read does to a copy that is UNVERIFIED or GOOD, without a dispute (R37, R51). -/
theorem State.completeLane_learned {s : State} {n : Nat} {l : LaneCtx} (hc : l.conflict = false) (hp : l.purpose = .ingest)
    (ht : l.itemTag = none) (hr : s.refDigest l.target.seg = none) (hd : s.dispute? l.target.seg = none)
    (htrust : (s.copy l.target).trust = .unverified ∨ (s.copy l.target).trust = .good) : s.completeLane n l =
      (((s.learn l.target.seg (crcFinal l.segCrc) l.frameDigests).setGood l.target s.today).chargeCredit
        (chargeOf l.bytesTaken)).finishLane n l .completed (some .learned) (some (crcFinal l.segCrc)) .plain := by
  unfold State.completeLane
  dsimp only
  rw [hc, hp, hr, judge_learned, if_neg (by simp), if_pos rfl, ht]
  simp only [State.postFrameSuspect, reduceCtorEq, false_and, if_false, Option.bind_none]
  rw [State.route_learned (s := s.learn _ _ _) hd (by rwa [State.copy_learn]), State.chargeLane_eq, if_neg (by simp [hp])]
  rfl

section

variable {s : State} {n : Nat} {l l1 : LaneCtx} {tag : Half} {d : Digest} (h : s.completes n l l1 tag d)
include h

/-- A RESTORE or INGEST read that is not judged is charged for, and has no further effect (R36, R44). -/
theorem State.completes.exec_inconclusive (hp : l.purpose ≠ .item) (ht : l.itemTag = none)
    (hj : l.conflict = true ∨ l.purpose = .restore ∧ s.refDigest l.target.seg = none) :
    Machine.exec (.laneFeedCompletion n) s =
      .next ((s.chargeCredit (chargeOf l.expected)).readDone n l1 tag .inconclusive none .notUsed) := by
  obtain ⟨e1, -, e3, e4, e5, e6, -, -⟩ := h.context
  have hjudge : judge l1.conflict l1.purpose (s.refDigest l1.target.seg) (crcFinal l1.segCrc) = .inconclusive := by
    rw [e3, e5, e6]
    rcases hj with hc | ⟨hp, hr⟩
    · rw [hc, judge_conflict]
    · rw [hp, hr, judge_restore_none]
  refine h.exec ?_
  rw [State.completeLane_inconclusive hjudge, State.endUnjudged_charged _ _ (e6 ▸ hp) (e4.trans ht), e1]

/-- An INGEST read without a reference is learned (R37). -/
theorem State.completes.exec_learned (ht : l.itemTag = none) (hc : l.conflict = false) (hp : l.purpose = .ingest)
    (hr : s.refDigest l.target.seg = none) (hd : s.dispute? l.target.seg = none)
    (htrust : (s.copy l.target).trust = .unverified ∨ (s.copy l.target).trust = .good) :
    Machine.exec (.laneFeedCompletion n) s = .next ((((s.learn l.target.seg d l1.frameDigests).setGood l.target
      s.today).chargeCredit (chargeOf l.expected)).readDone n l1 tag .learned (some d) .plain) := by
  obtain ⟨e1, -, e3, e4, e5, e6, -, e8⟩ := h.context
  refine h.exec ?_
  rw [State.completeLane_learned (e5.trans hc) (e6.trans hp) (e4.trans ht) (e3 ▸ hr) (e3 ▸ hd) (e3 ▸ htrust), e1, e3, e8]

/-- A judged read that goes to the plain rules (R41). -/
theorem State.completes.exec_plain {v : State} {ref : Digest} {result : Result} (hc : l.conflict = false)
    (hr : s.refDigest l.target.seg = some ref) (hres : result = if d = ref then .matched else .mismatch)
    (hv : s.readyToRoute n l l1 d v) (hkind : ∀ it, l.itemTag.bind s.item? = some it → it.kind ≠ .repair)
    (hcol : s.collecting? l.target.seg = none) :
    Machine.exec (.laneFeedCompletion n) s = .next ((if l.purpose = .item then
        v.plain l.target result ⟨d, l1.badMask, l1.compared⟩ n
      else (v.plain l.target result ⟨d, l1.badMask, l1.compared⟩ n).chargeCredit (chargeOf l.expected)).readDone
        n l1 tag result (some d) .plain) := by
  obtain ⟨-, -, e3, -, -, -, -, -⟩ := h.context
  refine h.exec_routed hc hr hres hv ?_
  have hnone : v.collecting? l1.target.seg = none := e3.symm ▸ (hv.steady fun _ => False).collecting?_none hcol
  rw [State.route_plain hkind hnone, e3]

end

/-- The last acts of a read whose copy's trust is known, in the words of the lane before it. -/
theorem State.completes.readDone_eq {s : State} {n : Nat} {l l1 : LaneCtx} {tag : Half} {d : Digest}
    (h : s.completes n l l1 tag d) {u : State} {t : Trust} (hu : (u.copy l.target).trust = t) (result : Result)
    (observed : Option Digest) (routing : Routing) : u.readDone n l1 tag result observed routing =
      ((u.setLane n (some { l1 with
        state := .done, endReason := some .completed, result := some result, observed := observed,
        routing := some routing, trustAfter := some t })).wakeRoom.release l.owner).answer l.owner 17 tag
          (.ok (leBytes 4 l.expected ++ leBytes 1 3 ++ zeros 3)) := by
  obtain ⟨-, e2, e3, -, -, -, e7, -⟩ := h.context
  unfold State.readDone
  rw [e2, e3, e7, hu]

/-- Settles O29: each judgement by its `State.completes.exec_…`, the plain MATCH in full as the judged read of a copy that
`State.plain_good` makes GOOD, and the plain rules one by one. -/
theorem feedCompletionJudges : Obligations.FeedCompletionJudges := by
  refine ⟨fun n s l l1 r len tag d hn hl hst hlen hp ht hc hr hl1 hd href hmask hdis htrust hlt => ?_,
    fun n s l l1 tag d h hp ht => ⟨h.exec_inconclusive hp ht, fun hc hi href hdis htrust => ?_,
      fun v ref result hc href hres hv hcol => ?_⟩,
    fun s c o lane => ⟨fun ha ht => ?_, fun ha ht hdef => ?_, fun ha ht result => ?_, fun a ha => ⟨?_, ?_⟩⟩⟩
  · have h : s.completes n l l1 tag d := ⟨hn, hl, len, r, hst, hlen, hr, hl1, hd⟩
    have hv : s.readyToRoute n l l1 d s := ⟨s, by simp [hmask], .inl ⟨hp, ht, rfl⟩⟩
    have hgood : (((s.setGood l.target s.today).chargeCredit (chargeOf l.expected)).copy l.target).trust = .good :=
      (s.setGood_goodOn s.today hlt).1
    rw [h.exec_plain hc href (if_pos rfl).symm hv (by simp [ht]) (State.collecting?_of_dispute?_none hdis), if_neg hp,
      State.plain_good (State.awaiting?_of_dispute?_none hdis) htrust (by simp), h.readDone_eq hgood]
  · exact h.exec_learned ht hc hi href hdis htrust
  · rw [h.exec_plain hc href hres hv (by simp [ht]) hcol, if_neg hp]
  · exact State.plain_good ha ht (by simp) o lane
  · exact State.plain_transient ha ht hdef o lane
  · exact State.plain_bad ha ht result o lane
  · exact State.plain_matched_awaiting ha o lane
  · exact State.plain_mismatch_awaiting ha o lane

/-! ### Repair entries while items leave and waiting owners are served -/

/-- Every repair entry stands with its mask and its attempt. -/
def State.KeepsRepairs (s t : State) : Prop :=
  ∀ c q, s.repair? c = some q → ∃ r, t.repair? c = some r ∧ r.mask = q.mask ∧ r.attempt = q.attempt

namespace State.KeepsRepairs

theorem ofRepairs {s t : State} (h : t.repairs = s.repairs) : s.KeepsRepairs t := fun c q hq =>
  ⟨q, by rw [State.repair?, h]; exact hq, rfl, rfl⟩

theorem trans {s t u : State} (h1 : s.KeepsRepairs t) (h2 : t.KeepsRepairs u) : s.KeepsRepairs u := by
  intro c q hq
  obtain ⟨r, hr, hm, ha⟩ := h1 c q hq
  obtain ⟨r', hr', hm', ha'⟩ := h2 c r hr
  exact ⟨r', hr', hm'.trans hm, ha'.trans ha⟩

end State.KeepsRepairs

section

variable (s : State)

theorem State.modRepair_keepsRepairs (c : CopyId) (x : RepairState) :
    s.KeepsRepairs (s.modRepair c fun q => { q with state := x }) := by
  intro k q hq
  have hcomp : ((fun r : Repair => r.target == k) ∘ fun r => if r.target = c then { r with state := x } else r) =
      fun r => r.target == k := by
    funext r
    simp only [Function.comp_apply]
    split <;> rfl
  refine ⟨if q.target = c then { q with state := x } else q, ?_, by split <;> rfl, by split <;> rfl⟩
  simp only [State.repair?, State.modRepair, List.find?_map, hcomp] at hq ⊢
  rw [hq]
  rfl

theorem State.issue_keepsRepairs (o : Owner) : s.KeepsRepairs (s.issue o) := by
  cases o with
  | slot c => exact .ofRepairs rfl
  | repair c =>
    exact (State.KeepsRepairs.ofRepairs (t := s.createItem .repair .urgent c (((s.repair? c).map Repair.mask).getD 0#64))
      rfl).trans (State.modRepair_keepsRepairs _ c _)

theorem State.serveList_keepsRepairs (ws : List Waiter) : s.KeepsRepairs (State.serveList ws s) := by
  induction ws generalizing s with
  | nil => exact .ofRepairs rfl
  | cons w ws ih =>
    unfold State.serveList
    split
    · exact (State.issue_keepsRepairs { s with queue := { s.queue with waiters := ws } } w.owner).trans (ih _)
    · exact .ofRepairs rfl

theorem State.leftoverGone_keepsRepairs (c : CopyId) : s.KeepsRepairs (s.leftoverGone c) := by
  unfold State.leftoverGone
  split
  · split
    · exact State.serveList_keepsRepairs (s.startWaiting (.repair c)) _
    · exact .ofRepairs rfl
  · exact .ofRepairs rfl

end

theorem State.readyToRoute.keepsRepairs {s v : State} {n : Nat} {l l1 : LaneCtx} {d : Digest}
    (hv : s.readyToRoute n l l1 d v) : s.KeepsRepairs v := by
  obtain ⟨p, hp, hv⟩ := hv
  have h1 : s.KeepsRepairs p := .ofRepairs (by rw [hp]; split <;> rfl)
  obtain ⟨-, -, rfl⟩ | ⟨it, -, -, -, rfl⟩ := hv
  · exact h1
  · exact h1.trans ((State.serveList_keepsRepairs (({ p with queue := { p.queue with
      items := p.queue.items.filter fun i => i.tag != it.tag } }).setItemTag it.target none) _).trans
        (State.leftoverGone_keepsRepairs _ _))

/-! ### Read-backs -/

section

variable {v : State} {c : CopyId} {r : Repair}

/-- A MATCH makes the target GOOD, posts REPAIRED and removes the entry (R100). -/
theorem State.readBack_matched (hr : v.repair? c = some r) (o : Obs) : v.readBack c .matched o =
    ((v.setGood c v.today).post ⟨.repaired, false, v.today, some c.reel, some c.segment, some c.copy,
      some (v.mediumOf c), some o.digest, some r.mask, r.attempt⟩).removeRepair c := by
  have hm : (v.setGood c v.today).mediumOf c = v.mediumOf c := v.mediumOf_modSeg _ _ c
  simp only [State.readBack, hr, reduceCtorEq, if_false, State.readBackMatch, State.copyFinding, hm]
  rfl

/-- A MISMATCH below attempt 3 begins the next attempt (R101). -/
theorem State.readBack_again (hr : v.repair? c = some r) (ha : r.attempt < 3) (o : Obs) : v.readBack c .mismatch o =
    (v.modRepair c fun e => { e with
      attempt := r.attempt + 1, state := .waitingPlace,
      mask := if o.compared = true ∧ o.mask ≠ 0#64 then o.mask else fullMask (v.frameCount c.seg) }).issueOrWait
        (.repair c) := by
  rw [← Obs.repairMask_eq]
  simp only [State.readBack, hr, if_true, State.readBackMismatch]
  exact if_pos ha

/-- A MISMATCH at attempt 3 exhausts the repair (R102). -/
theorem State.readBack_exhausted (hr : v.repair? c = some r) (ha : 3 ≤ r.attempt) (o : Obs) : v.readBack c .mismatch o =
    ((((((v.setTrust c .bad).setExhausted c true).post ⟨.repairFailed, true, v.today, some c.reel, some c.segment,
      some c.copy, some (v.mediumOf c), some o.digest, if o.compared then some o.mask else none, 3⟩).chargeMedium
        c 8).removeRepair c).postIfLost c.seg) := by
  have hm : ((v.setTrust c .bad).setExhausted c true).mediumOf c = v.mediumOf c :=
    ((v.setTrust c .bad).mediumOf_modSeg _ _ c).trans (v.mediumOf_modSeg _ _ c)
  simp only [State.readBack, hr, if_true, State.readBackMismatch, State.copyFinding, hm]
  exact if_neg (by omega)

end

/-- Settles O32: an unjudged read returns its item (`State.returnFront_requeued`), a judged one of a SCRUB or CONFIRM item
goes to the plain rules, and that of a REPAIR item is a read-back to its entry, which the item's departure leaves with its
mask and attempt. -/
theorem itemFeedCompletions : Obligations.ItemFeedCompletions := by
  intro n s v l l1 tag d it h hp ht hi
  have hitem : l.itemTag.bind s.item? = some it := by rw [ht]; exact hi
  obtain ⟨-, -, e3, -, -, -, -, -⟩ := h.context
  refine ⟨fun hc hkeep hq hnd => ?_, fun ref result hc href hres hv => ⟨fun hk hcol => ?_, fun q hk hq => ?_⟩⟩
  · have hlost : ¬s.lostPurpose it := fun hl => by simp [(s.isPurposeless_iff it).2 hl] at hkeep
    refine ⟨requeuedFront it s.queue.items, ?_, filter_requeuedFront hnd (s.item?_some hi).1⟩
    rw [h.exec_conflict_item hc hp ht hi, State.returnFront_requeued 3 hlost hq]
  · have hkind : ∀ i, l.itemTag.bind s.item? = some i → i.kind ≠ .repair := fun i hb => by
      cases hitem.symm.trans hb
      exact hk
    rw [h.exec_plain hc href hres hv hkind hcol, if_pos hp]
  · obtain ⟨r, hr, hmask, hatt⟩ := hv.keepsRepairs l.target q hq
    have hsteady := hv.steady fun _ => False
    have hday : v.today = s.day.getD 0 := hv.works.today
    have hex {w : State} (hw : v.readBack l.target result ⟨d, l1.badMask, l1.compared⟩ = w) :
        exec (.laneFeedCompletion n) s = .next (w.readDone n l1 tag result (some d) .plain) := by
      have hroute : v.route n l1 (l.itemTag.bind s.item?) result ⟨d, l1.badMask, l1.compared⟩ = (.plain, w) := by
        rw [hitem, State.route_repair hk, e3, hw]
      rw [h.exec_routed hc href hres hv hroute, if_pos hp]
    refine ⟨fun hd => ?_, fun hd ha w hw => ?_, fun hd ha => ?_⟩
    · rw [if_pos hd] at hres
      subst hres
      refine hex ?_
      rw [State.readBack_matched hr, hday, hsteady.medium, hmask, hatt]
      rfl
    · rw [if_neg hd] at hres
      subst hres
      have hback : v.readBack l.target .mismatch ⟨d, l1.badMask, l1.compared⟩ = w.issueOrWait (.repair l.target) := by
        rw [State.readBack_again hr (hatt ▸ ha), hatt, hsteady.frameCount, hw]
      have hlen : w.queue.items.length = v.queue.items.length := by rw [hw]; rfl
      exact ⟨fun hroom => hex (hback.trans (if_pos (hlen ▸ hroom))),
        fun hfull => hex (hback.trans (if_neg (Nat.not_lt.2 (hlen ▸ hfull))))⟩
    · rw [if_neg hd] at hres
      subst hres
      refine hex ?_
      rw [State.readBack_exhausted hr (hatt ▸ ha), hday, hsteady.medium]

end Sys2Proof.Machine
end


section
/-! Proofs: COPY_SELECT (R59 to R61). -/

namespace Sys2Proof.Machine

/-! ### The lowest of a rising list -/

/-- In a list without an element before the one it marks, the marked element is found first. -/
theorem find?_of_lowest {α : Type} {r : α → α → Prop} {p : α → Bool} {a : α} {l : List α} (hl : l.Pairwise r) (ha : a ∈ l)
    (hp : p a = true) (hlow : ∀ b ∈ l, r b a → p b = false) : l.find? p = some a := by
  obtain ⟨before, after, rfl⟩ := List.append_of_mem ha
  refine List.find?_eq_some_iff_append.2 ⟨hp, before, after, rfl, fun b hb => ?_⟩
  have hba : r b a := (List.pairwise_append.1 hl).2.2 b hb a (by simp)
  simp [hlow b (by simp [hb]) hba]

/-- The same for a list of keys, each of which may have a value. -/
theorem findSome?_of_lowest {α β : Type} {r : α → α → Prop} {f : α → Option β} {a : α} {v : β} {l : List α}
    (hl : l.Pairwise r) (ha : a ∈ l) (hf : f a = some v) (hlow : ∀ b ∈ l, r b a → f b = none) : l.findSome? f = some v := by
  obtain ⟨before, after, rfl⟩ := List.append_of_mem ha
  refine List.findSome?_eq_some_iff.2 ⟨before, a, after, rfl, hf, fun b hb => ?_⟩
  exact hlow b (by simp [hb]) ((List.pairwise_append.1 hl).2.2 b hb a (by simp))

/-- The copies of a segment stand in ascending index. -/
theorem State.copiesOf_ascending (s : State) (g : SegId) : (s.copiesOf g).Pairwise fun c d => c.copy < d.copy :=
  List.pairwise_map.2 List.pairwise_lt_range

/-! ### Candidates and their tiers (R59) -/

theorem tierOf_mem {t : Trust} {w : Health} {tier : Nat} (h : tierOf t w = some tier) : tier ∈ [1, 2, 3, 4, 5] := by
  cases t <;> cases w <;> cases h <;> decide

theorem Trust.isReadable_iff {t : Trust} : t.isReadable = true ↔ t ≠ .bad ∧ t ≠ .repairing := by
  cases t <;> decide

/-- A copy is excluded when the order's copy field is not ABSENT and names it. -/
theorem copy_ne_optByte {i v : Nat} : (some i != optByte v) = true ↔ v = 255 ∨ i ≠ v := by
  unfold optByte
  split <;> simp_all

section

variable {s : State} {g : SegId} {excluded : Option Nat} {c : CopyId} {tier : Nat}

/-- The candidate of a tier is the lowest copy that has the tier. -/
theorem State.candidate?_eq_some (hc : c ∈ s.copiesOf g) (hx : (some c.copy != excluded) = true)
    (ht : tierOf (s.copy c).trust (s.copyHealth c) = some tier)
    (hlow : ∀ d ∈ s.copiesOf g, (some d.copy != excluded) = true →
      tierOf (s.copy d).trust (s.copyHealth d) = some tier → c.copy ≤ d.copy) : s.candidate? g excluded tier = some c := by
  refine find?_of_lowest (s.copiesOf_ascending g) hc (by simp [hx, ht]) fun d hd hdc => ?_
  by_contra hp
  simp only [Bool.not_eq_false, Bool.and_eq_true, beq_iff_eq] at hp
  exact absurd (hlow d hd hp.1 hp.2) (by omega)

/-- A tier that no copy has is without a candidate. -/
theorem State.candidate?_eq_none (h : ∀ d ∈ s.copiesOf g, (some d.copy != excluded) = true →
    tierOf (s.copy d).trust (s.copyHealth d) ≠ some tier) : s.candidate? g excluded tier = none := by
  refine List.find?_eq_none.2 fun d hd hp => ?_
  rw [Bool.and_eq_true, beq_iff_eq] at hp
  exact h d hd hp.1 hp.2

/-- COPY_SELECT names the candidate of the lowest tier, and the lowest copy within it. -/
theorem State.selectCopy_eq_some (hc : c ∈ s.copiesOf g) (hx : (some c.copy != excluded) = true)
    (ht : tierOf (s.copy c).trust (s.copyHealth c) = some tier)
    (hbest : ∀ d ∈ s.copiesOf g, ∀ other, (some d.copy != excluded) = true →
      tierOf (s.copy d).trust (s.copyHealth d) = some other → tier < other ∨ tier = other ∧ c.copy ≤ d.copy) :
    s.selectCopy g excluded = some (c, tier) := by
  have hcand : s.candidate? g excluded tier = some c := s.candidate?_eq_some hc hx ht fun d hd hdx hdt =>
    (hbest d hd tier hdx hdt).elim (fun hlt => absurd hlt (Nat.lt_irrefl _)) And.right
  refine findSome?_of_lowest (r := (· < ·)) (by decide) (tierOf_mem ht) (by rw [hcand]; rfl) fun low _ hlow => ?_
  have hnone : s.candidate? g excluded low = none := s.candidate?_eq_none fun d hd hdx hdt => by
    rcases hbest d hd low hdx hdt with h | h <;> omega
  rw [hnone]
  rfl

/-- Without a copy that has a tier, COPY_SELECT names none. -/
theorem State.selectCopy_eq_none (h : ∀ d ∈ s.copiesOf g, (some d.copy != excluded) = true →
    tierOf (s.copy d).trust (s.copyHealth d) = none) : s.selectCopy g excluded = none := by
  refine List.findSome?_eq_none_iff.2 fun t _ => ?_
  rw [s.candidate?_eq_none fun d hd hdx => by simp [h d hd hdx]]
  rfl

/-! ### The cause of NO_COPY (R60) -/

theorem State.noCopyCause_eq_lost : s.noCopyCause g excluded = .lost ↔ s.isLost g = true := by
  unfold State.noCopyCause
  dsimp only
  repeat' split
  all_goals simp_all

/-- NO_COPY names withdrawn media when there are readable copies that may answer, and each stands on such a medium. -/
theorem State.noCopyCause_eq_withdrawn : s.noCopyCause g excluded = .withdrawn ↔ s.isLost g = false ∧
    (∃ d ∈ s.copiesOf g, (some d.copy != excluded) = true ∧ (s.copy d).trust ≠ .bad ∧ (s.copy d).trust ≠ .repairing) ∧
    ∀ d ∈ s.copiesOf g, (some d.copy != excluded) = true → (s.copy d).trust ≠ .bad → (s.copy d).trust ≠ .repairing →
      s.copyHealth d = .withdrawn := by
  unfold State.noCopyCause
  extract_lets others
  have hmem : ∀ d, d ∈ others ↔ d ∈ s.copiesOf g ∧ (some d.copy != excluded) = true ∧ (s.copy d).trust ≠ .bad ∧
      (s.copy d).trust ≠ .repairing := fun d => by
    rw [List.mem_filter, Bool.and_eq_true, Trust.isReadable_iff]
  have hsome : (!others.isEmpty) = true ↔ ∃ d, d ∈ others := by
    rw [Bool.not_eq_true', List.isEmpty_eq_false_iff_exists_mem]
  have hall : (others.all fun c => s.copyHealth c == .withdrawn) = true ↔ ∀ d ∈ others, s.copyHealth d = .withdrawn := by
    simp
  rcases hlost : s.isLost g with _ | _
  · by_cases hw : (!others.isEmpty) = true ∧ (others.all fun c => s.copyHealth c == .withdrawn) = true
    · simp only [Bool.and_eq_true, hw]
      simpa [hmem, and_assoc] using And.intro (hsome.1 hw.1) (hall.1 hw.2)
    · simp only [Bool.false_eq_true, if_false, Bool.and_eq_true, if_neg hw]
      rw [hsome, hall] at hw
      simpa [hmem, and_assoc] using hw
  · simp

end

/-! ### The order -/

/-- The answer of COPY_SELECT past its checks: the copy named, or NO_COPY (R59, R60). -/
def State.selectAnswer (s : State) (g : SegId) (excluded : Option Nat) : Answer :=
  match s.selectCopy g excluded with
  | some (c, tier) => .ok (leBytes 1 c.copy ++ leBytes 1 (s.copy c).trust.code ++ leBytes 1 tier ++
      leBytes 1 (s.copyHealth c).rank ++ leBytes 4 (s.mediumOf c))
  | none => .noCopy (s.noCopyCause g excluded)

theorem State.selectAnswer_named {s : State} {g : SegId} {excluded : Option Nat} {c : CopyId} {tier : Nat}
    (h : s.selectCopy g excluded = some (c, tier)) : s.selectAnswer g excluded = .ok (leBytes 1 c.copy ++
      leBytes 1 (s.copy c).trust.code ++ leBytes 1 tier ++ leBytes 1 (s.copyHealth c).rank ++ leBytes 4 (s.mediumOf c)) := by
  simp only [State.selectAnswer, h]

theorem State.selectAnswer_noCopy {s : State} {g : SegId} {excluded : Option Nat} (h : s.selectCopy g excluded = none) :
    s.selectAnswer g excluded = .noCopy (s.noCopyCause g excluded) := by
  simp only [State.selectAnswer, h]

@[simp] theorem State.popOrder_selectAnswer (s : State) (h : Head) (g : SegId) (excluded : Option Nat) :
    (s.popOrder h).selectAnswer g excluded = s.selectAnswer g excluded := by
  cases h <;> rfl

theorem copySelect_checked {body : List Byte} {s : State} {r : Reel}
    (hseg : leAt body 8 1 = 255 → s.checkSeg (segOperand body) = .ok r)
    (hcopy : leAt body 8 1 ≠ 255 → s.checkCopy ((segOperand body).copy (leAt body 8 1)) = .ok r) :
    copySelect body s = .answered s (s.selectAnswer (segOperand body) (optByte (leAt body 8 1))) := by
  by_cases hx : leAt body 8 1 = 255
  · have hexcluded : optByte (leAt body 8 1) = none := if_pos hx
    simp only [copySelect, State.selectAnswer, hexcluded, hseg hx]
    cases s.selectCopy (segOperand body) none <;> rfl
  · have hexcluded : optByte (leAt body 8 1) = some (leAt body 8 1) := if_neg hx
    simp only [copySelect, State.selectAnswer, hexcluded, hcopy hx]
    cases s.selectCopy (segOperand body) (some (leAt body 8 1)) <;> rfl

/-- Settles O27: the order's answer is `State.selectAnswer`; the best candidate is the copy that is named
(`State.selectCopy_eq_some`), and without one the cause is read off `State.noCopyCause`. -/
theorem copySelectResult : Obligations.CopySelectResult := by
  intro h tag body s r ht hseg hcopy
  have hexec : exec (.copySelect h) s = .next ((s.popOrder h).answer h 10 tag
      (s.selectAnswer (segOperand body) (optByte (leAt body 8 1)))) := by
    refine exec_answered (exec_copySelect h) ht ?_
    rw [copySelect_checked (fun hx => (s.popOrder_checkSeg h _).trans (hseg hx))
      fun hx => (s.popOrder_checkCopy h _).trans (hcopy hx), State.popOrder_selectAnswer]
  rw [hexec]
  refine ⟨fun c hc tier hx htier hbest => ?_, fun hnone =>
    ⟨s.noCopyCause (segOperand body) (optByte (leAt body 8 1)), ?_, State.noCopyCause_eq_lost, ?_⟩⟩
  · rw [State.selectAnswer_named (State.selectCopy_eq_some hc (copy_ne_optByte.2 hx) htier fun d hd other hdx =>
      hbest d hd other (copy_ne_optByte.1 hdx))]
  · rw [State.selectAnswer_noCopy (State.selectCopy_eq_none fun d hd hdx => hnone d hd (copy_ne_optByte.1 hdx))]
  · rw [State.noCopyCause_eq_withdrawn]
    simp only [copy_ne_optByte]

end Sys2Proof.Machine
end


section
/-! Proofs: the part's own repair requests and endings, and the condition LOST (R58, R84, R94 to R97, R103, R105). -/

namespace Sys2Proof.Machine

section

variable {s : State} {c : CopyId} {mask : Mask} {origin : RepairOrigin}

/-! ### The requests of one decision -/

theorem State.requestRepairs_cons_bad (l : List (CopyId × Mask)) (hb : (s.copy c).trust = .bad) :
    s.requestRepairs origin ((c, mask) :: l) = (s.requestRepair c mask origin).requestRepairs origin l := by
  simp only [State.requestRepairs, List.foldl_cons, if_pos hb]

theorem State.requestRepairs_cons_other (l : List (CopyId × Mask)) (hb : (s.copy c).trust ≠ .bad) :
    s.requestRepairs origin ((c, mask) :: l) = s.requestRepairs origin l := by
  simp only [State.requestRepairs, List.foldl_cons, if_neg hb]

/-! ### One request -/

/-- The state in which a request of the part has entered its repair: the entry stands at attempt 1 without an item, and the
copy is REPAIRING (R96). -/
def State.repairOpened (s : State) (c : CopyId) (mask : Mask) (origin : RepairOrigin) : State :=
  ({ s with repairs := s.repairs ++ [(⟨c, mask, 1, .waitingPlace, origin⟩ : Repair)] }).setTrust c .repairing

/-- With a medium that is not WITHDRAWN and a source, the table's room decides (R94). -/
theorem State.requestRepair_sourced (hw : s.copyHealth c ≠ .withdrawn) (hs : s.source? c ≠ none) :
    s.requestRepair c mask origin = if 16 ≤ s.repairs.length then
        s.post (s.copyFinding .repairDeferred false s.today c none (some mask) 16)
      else s.createRepair c mask origin := by
  simp only [State.requestRepair, if_neg hw, Option.isNone_iff_eq_none, if_neg hs]
  rfl

theorem State.requestRepair_accepted (hw : s.copyHealth c ≠ .withdrawn) (hs : s.source? c ≠ none)
    (hroom : s.repairs.length < 16) : s.requestRepair c mask origin = s.createRepair c mask origin :=
  (State.requestRepair_sourced hw hs).trans (if_neg (Nat.not_le.2 hroom))

/-- A copy that becomes REPAIRING keeps its work item tag. -/
theorem State.repairOpened_itemTag : ((s.repairOpened c mask origin).copy c).itemTag = (s.copy c).itemTag := by
  let entered : State := { s with repairs := s.repairs ++ [(⟨c, mask, 1, .waitingPlace, origin⟩ : Repair)] }
  have hcopy := entered.copy_modCopy_or c fun r =>
    { r with trust := .repairing, deferred := r.deferred && Trust.repairing == .suspect }
  rcases hcopy with he | he
  all_goals exact (congrArg CopyRec.itemTag he).trans rfl

/-- A leftover item on the copy is withdrawn when it is QUEUED, and goes on when it is not (R97). -/
theorem State.createRepair_leftover {it : Item} (hit : (s.copy c).itemTag.bind s.item? = some it) :
    s.createRepair c mask origin = if it.isQueued then ((s.repairOpened c mask origin).withdrawItem it).leftoverGone c
      else s.repairOpened c mask origin := by
  have hopened : ((s.repairOpened c mask origin).copy c).itemTag.bind (s.repairOpened c mask origin).item? = some it := by
    rw [State.repairOpened_itemTag]
    exact hit
  unfold State.repairOpened at hopened
  simp only [State.createRepair, hopened]
  rfl

/-- Without a leftover item the entry gets its REPAIR item or starts waiting (R96). -/
theorem State.createRepair_free (hno : (s.copy c).itemTag.bind s.item? = none) :
    s.createRepair c mask origin = (s.repairOpened c mask origin).issueOrWait (.repair c) := by
  have hopened : ((s.repairOpened c mask origin).copy c).itemTag.bind (s.repairOpened c mask origin).item? = none := by
    rw [State.repairOpened_itemTag]
    exact hno
  unfold State.repairOpened at hopened
  simp only [State.createRepair, hopened]
  rfl

/-- An owner is served while the queue holds fewer than 40 items. -/
theorem State.issueOrWait_room {o : Owner} (h : s.queue.items.length < 40) : s.issueOrWait o = s.issue o := if_pos h

/-- With 40 items in the queue an owner starts waiting. -/
theorem State.issueOrWait_full {o : Owner} (h : 40 ≤ s.queue.items.length) : s.issueOrWait o = s.startWaiting o :=
  if_neg (Nat.not_lt.2 h)

end

/-! ### Endings -/

/-- A repair that is closed without success leaves a BAD copy, without an entry or a waiting start (R99, R103, R105). -/
theorem State.closeRepair_eq (s : State) (c : CopyId) (kind : FindingKind) (critical : Bool) (cause : Nat) :
    s.closeRepair c kind critical cause = (((s.removeRepair c).setTrust c .bad).post ⟨kind, critical, s.day.getD 0,
      some c.reel, some c.segment, some c.copy, some (s.mediumOf c), none, (s.repair? c).map Repair.mask,
        cause⟩).postIfLost c.seg := by
  have hm : ((s.removeRepair c).setTrust c .bad).mediumOf c = s.mediumOf c := (s.removeRepair c).mediumOf_modSeg _ _ c
  simp only [State.closeRepair, State.copyFinding, hm]
  rfl

theorem State.isLost_iff {s : State} {g : SegId} : s.isLost g = true ↔ ∀ r ∈ (s.seg g).copies, r.trust = .bad := by
  simp [State.isLost]

/-- Settles O45: the requests by `State.requestRepairs_cons_bad`, one request by its checks and then `State.createRepair`
as it meets a leftover item or none; the endings by `State.closeRepair_eq`, and LOST by `State.isLost_iff`. -/
theorem repairRequests : Obligations.RepairRequests := by
  refine ⟨fun s origin c mask l => ⟨rfl, s.requestRepairs_cons_bad l, s.requestRepairs_cons_other l⟩,
    fun s entry c mask origin find hfind hentry => ⟨fun hw => ?_, fun hw => ⟨fun hs => ?_, fun hs hfull => ?_,
      fun hs hroom => ⟨fun it hit => ?_, fun hno => ?_⟩⟩⟩,
    fun s c kind critical cause => s.closeRepair_eq c kind critical cause,
    fun s g => ⟨fun hall => ?_, fun ⟨r, hr, hb⟩ => ?_⟩⟩
  · subst hfind
    exact if_pos hw
  · subst hfind
    simp only [State.requestRepair, if_neg hw, hs]
    rfl
  · subst hfind
    exact (State.requestRepair_sourced hw hs).trans (if_pos hfull)
  · rw [State.requestRepair_accepted hw hs hroom, State.createRepair_leftover hit, hentry]
    exact ⟨fun hq => if_pos hq, fun hq => if_neg (Bool.not_eq_true _ ▸ hq)⟩
  · subst hentry
    rw [State.requestRepair_accepted hw hs hroom, State.createRepair_free hno]
    exact ⟨(s.repairOpened c mask origin).issueOrWait_room, (s.repairOpened c mask origin).issueOrWait_full⟩
  · have hlost : s.isLost g = true := State.isLost_iff.2 hall
    exact ⟨hlost, if_pos hlost⟩
  · have hlost : s.isLost g = false := Bool.eq_false_iff.2 fun hl => hb (State.isLost_iff.1 hl r hr)
    exact ⟨hlost, if_neg (by simp [hlost])⟩

end Sys2Proof.Machine
end


section
/-! Proofs: the opening of a dispute by a plain MISMATCH (R53, R54, R63, R67 to R69). -/

namespace Sys2Proof.Machine

/-! ### Serving a slot (R68, R69) -/

section

variable {s : State} {c : CopyId}

theorem State.serveSlot_other {st : Slot} (hst : (s.dispute? c.seg).bind (fun d => d.slots[c.copy]?) = some st)
    (hw : st ≠ .wanted) : s.serveSlot c = s := by
  cases st with
  | wanted => exact absurd rfl hw
  | notWanted | issued | observed | unread => simp only [State.serveSlot, hst]

/-- The item that a slot takes over goes to the end of class URGENT, which is the first (R149). -/
theorem placeLast_urgent {it : Item} (hc : it.cls = .urgent) (l : List Item) : placeLast it l =
    l.filter (fun i => i.cls = ItemClass.urgent) ++ it :: l.filter (fun i => i.cls ≠ ItemClass.urgent) := by
  have hrank (k : ItemClass) : k.rank ≤ ItemClass.urgent.rank ↔ k = .urgent := by cases k <;> decide
  have hlater (k : ItemClass) : ItemClass.urgent.rank < k.rank ↔ k ≠ .urgent := by rw [← Nat.not_le, hrank]
  simp only [placeLast, hc, hrank, hlater]

theorem State.takeOver_eq (it : Item) : s.takeOver c it = ({ s with queue := { s.queue with
    items := (s.queue.items.filter fun (i : Item) => i.tag != it.tag && i.cls = ItemClass.urgent) ++
      ({ it with kind := .confirm, cls := .urgent } : Item) ::
      (s.queue.items.filter fun (i : Item) => i.tag != it.tag && i.cls ≠ ItemClass.urgent) } }).setSlot c
        (.issued it.tag) := by
  unfold State.takeOver
  rw [placeLast_urgent rfl, List.filter_filter, List.filter_filter]
  simp only [Bool.and_comm]

section

variable (hst : (s.dispute? c.seg).bind (fun d => d.slots[c.copy]?) = some .wanted)
include hst

/-- A WANTED slot takes over the item of its copy, unless that is a REPAIR item (R68). -/
theorem State.serveSlot_takeOver {it : Item} (hit : (s.copy c).itemTag.bind s.item? = some it) (hk : it.kind ≠ .repair) :
    s.serveSlot c = s.takeOver c it := by
  have hown : ((s.copy c).itemTag.bind s.item?).filter (fun it => it.kind != .repair) = some it := by
    simp [hit, hk]
  simp only [State.serveSlot, hst, hown]

/-- A WANTED slot without an item to take over gets a new one, or waits (R69). -/
theorem State.serveSlot_new (hno : ∀ it, (s.copy c).itemTag.bind s.item? = some it → it.kind = .repair) :
    s.serveSlot c = s.issueOrWait (.slot c) := by
  have hown : ((s.copy c).itemTag.bind s.item?).filter (fun it => it.kind != .repair) = none :=
    Option.filter_eq_none_iff.2 fun it hit => by simp [hno it hit]
  simp only [State.serveSlot, hst, hown]

end

/-- Serving a slot touches neither the media nor the findings. -/
theorem State.serveSlot_rest (s : State) (c : CopyId) : (s.serveSlot c).media = s.media ∧ (s.serveSlot c).fq = s.fq := by
  unfold State.serveSlot State.issueOrWait
  repeat' split
  all_goals exact ⟨rfl, rfl⟩

theorem State.serveSlots_rest (s : State) (l : List CopyId) :
    (l.foldl State.serveSlot s).media = s.media ∧ (l.foldl State.serveSlot s).fq = s.fq := by
  induction l generalizing s with
  | nil => exact ⟨rfl, rfl⟩
  | cons c l ih =>
    obtain ⟨hmedia, hfq⟩ := ih (s.serveSlot c)
    exact ⟨hmedia.trans (s.serveSlot_rest c).1, hfq.trans (s.serveSlot_rest c).2⟩

/-! ### The slots at the start (R67) -/

/-- A slot starts WANTED for the trigger, and for a readable copy on a medium that is not WITHDRAWN. -/
theorem State.startSlot_eq_wanted {d : CopyId} : s.startSlot c d = .wanted ↔ d = c ∨
    ((s.copy d).trust = .unverified ∨ (s.copy d).trust = .good ∨ (s.copy d).trust = .suspect) ∧
      s.copyHealth d ≠ .withdrawn := by
  unfold State.startSlot
  by_cases hd : d = c
  · simp [hd]
  · cases (s.copy d).trust <;> simp [hd]

theorem State.startSlot_else (d : CopyId) (h : s.startSlot c d ≠ .wanted) : s.startSlot c d = .notWanted := by
  unfold State.startSlot at h ⊢
  repeat' split
  all_goals simp_all

/-! ### The copy becomes SUSPECT -/

/-- The state in which a plain MISMATCH has made its copy SUSPECT and posted its finding (R53, R63). -/
def State.mismatched (s : State) (c : CopyId) (f : Finding) : State :=
  { s.setTrust c .suspect with fq := s.fq.post f }

/-- The finding of a MISMATCH (R63). -/
def State.mismatchFinding (s : State) (c : CopyId) (o : Obs) (lane : Nat) : Finding :=
  ⟨.copyMismatch, true, s.day.getD 0, some c.reel, some c.segment, some c.copy, some (s.mediumOf c), some o.digest,
    if o.compared then some o.mask else none, lane⟩

theorem State.postMismatch_suspect (s : State) (c : CopyId) (o : Obs) (lane : Nat) :
    (s.setTrust c .suspect).postMismatch c o lane = s.mismatched c (s.mismatchFinding c o lane) := by
  have hm : (s.setTrust c .suspect).mediumOf c = s.mediumOf c := s.mediumOf_modSeg _ _ c
  simp only [State.postMismatch, State.copyFinding, hm]
  rfl

/-- A plain MISMATCH of a readable copy whose segment has no dispute (R53, R54). -/
theorem State.plain_mismatch_readable (hd : s.dispute? c.seg = none) (hb : (s.copy c).trust ≠ .bad)
    (hr : (s.copy c).trust ≠ .repairing) (o : Obs) (lane : Nat) :
    s.plain c .mismatch o lane = s.plainMismatch c o lane := by
  unfold State.plain
  rw [State.awaiting?_of_dispute?_none hd]
  cases ht : (s.copy c).trust with
  | bad => exact absurd ht hb
  | repairing => exact absurd ht hr
  | unverified | good | suspect => rfl

section

variable {f : Finding}

theorem State.mismatched_copies_length (g : SegId) :
    ((s.mismatched c f).seg g).copies.length = (s.seg g).copies.length := s.modCopy_copies_length _ _ g

theorem State.mismatched_trust (hlt : c.copy < (s.seg c.seg).copies.length) : ((s.mismatched c f).copy c).trust = .suspect :=
  congrArg CopyRec.trust (s.copy_modCopy _ hlt)

theorem State.mismatched_copy_other {d : CopyId} (hd : d ≠ c) : (s.mismatched c f).copy d = s.copy d :=
  s.copy_modCopy_other _ hd

theorem State.mismatched_copyHealth (d : CopyId) : (s.mismatched c f).copyHealth d = s.copyHealth d :=
  congrArg s.healthOf (s.mediumOf_modSeg _ _ d)

/-! ### The entry opened (R67) -/

/-- The slots of the entry at its opening. -/
def State.slotsStarted (s : State) (c : CopyId) (f : Finding) : List Slot :=
  ((List.range (s.seg c.seg).copies.length).map c.seg.copy).map ((s.mismatched c f).startSlot c)

theorem State.slotsStarted_length : (s.slotsStarted c f).length = (s.seg c.seg).copies.length := by
  simp [State.slotsStarted]

/-- Every slot starts WANTED or NOT_WANTED, by the records as they stood before the MISMATCH. -/
theorem State.slotsStarted_get {i : Nat} {st : Slot} (h : (s.slotsStarted c f)[i]? = some st) :
    (st = .wanted ↔ i = c.copy ∨
      ((s.copy (c.seg.copy i)).trust = .unverified ∨ (s.copy (c.seg.copy i)).trust = .good ∨
        (s.copy (c.seg.copy i)).trust = .suspect) ∧ s.copyHealth (c.seg.copy i) ≠ .withdrawn) ∧
      (st ≠ .wanted → st = .notWanted) := by
  have hst : st = (s.mismatched c f).startSlot c (c.seg.copy i) := by
    obtain ⟨_, rfl⟩ := List.getElem?_eq_some_iff.1 h
    simp [State.slotsStarted]
  subst hst
  refine ⟨?_, State.startSlot_else _⟩
  rw [State.startSlot_eq_wanted, State.mismatched_copyHealth]
  by_cases hi : i = c.copy
  · exact iff_of_true (.inl (by rw [hi, CopyId.seg_copy])) (.inl hi)
  · have hother : c.seg.copy i ≠ c := fun he => hi (congrArg CopyId.copy he)
    rw [State.mismatched_copy_other hother]
    simp [hi, hother]

/-- The state in which the entry stands with its slots started, none of them served. -/
def State.disputeOpened (s : State) (c : CopyId) (o : Obs) (f : Finding) : State :=
  { s.setTrust c .suspect with
    fq := s.fq.post f
    disputes := s.disputes ++ [⟨c.seg, c.copy, .collecting s.limits.confirm, o, s.slotsStarted c f, [], []⟩] }

/-- The state in which the slots are served, in ascending copy index. -/
def State.disputeServed (s : State) (c : CopyId) (o : Obs) (f : Finding) : State :=
  ((List.range (s.seg c.seg).copies.length).map c.seg.copy).foldl State.serveSlot (s.disputeOpened c o f)

/-- With a place in the table the entry is opened. -/
theorem State.plainMismatch_room (hlen : s.disputes.length < 24) (o : Obs) (lane : Nat) : s.plainMismatch c o lane =
    (s.disputeServed c o (s.mismatchFinding c o lane)).setDeferred c false := by
  have hcopies : (s.mismatched c (s.mismatchFinding c o lane)).copiesOf c.seg =
      (List.range (s.seg c.seg).copies.length).map c.seg.copy := by
    rw [State.copiesOf, State.mismatched_copies_length]
  unfold State.plainMismatch
  rw [State.postMismatch_suspect]
  refine (if_pos hlen).trans ?_
  rw [State.openDispute, hcopies]
  rfl

/-- With the table full the dispute is deferred (R54). -/
theorem State.plainMismatch_full (hlen : 24 ≤ s.disputes.length) (o : Obs) (lane : Nat) : s.plainMismatch c o lane =
    { (s.setTrust c .suspect).setDeferred c true with
      fq := (s.fq.post (s.mismatchFinding c o lane)).post
        { s.mismatchFinding c o lane with kind := .disputeDeferred, critical := false } } := by
  have hm : ((s.mismatched c (s.mismatchFinding c o lane)).setDeferred c true).mediumOf c = s.mediumOf c :=
    ((s.mismatched c _).mediumOf_modSeg _ _ c).trans (s.mediumOf_modSeg _ _ c)
  unfold State.plainMismatch
  rw [State.postMismatch_suspect]
  refine (if_neg (Nat.not_lt.2 hlen)).trans ?_
  simp only [State.copyFinding, hm]
  rfl

theorem State.disputeServed_steady (P : CopyId → Prop) (o : Obs) :
    (s.disputeOpened c o f).Steady P (s.disputeServed c o f) :=
  .foldl _ (fun t d _ => t.serveSlot_steady P d) _

/-- The entry that is found once its slots are served. -/
theorem State.disputeServed_entry (hd : s.dispute? c.seg = none) (o : Obs) : ∃ d,
    (s.disputeServed c o f).dispute? c.seg = some d ∧ d.trigger = c.copy ∧ d.phase = .collecting s.limits.confirm ∧
      d.first = o ∧ d.slots.length = (s.seg c.seg).copies.length := by
  have hnone : s.disputes.find? (fun d => d.seg == c.seg) = none := hd
  have hopened : (s.disputeOpened c o f).dispute? c.seg =
      some ⟨c.seg, c.copy, .collecting s.limits.confirm, o, s.slotsStarted c f, [], []⟩ := by
    simp [State.disputeOpened, State.dispute?, List.find?_append, hnone]
  obtain ⟨d, hfound, -, htrigger, hphase, hfirst, -, -, hslots⟩ :=
    (State.disputeServed_steady (fun _ => True) o).dispute?_some hopened
  exact ⟨d, hfound, htrigger, hphase, hfirst, hslots.trans State.slotsStarted_length⟩

end

/-- Setting the mark leaves a copy's trust. -/
theorem State.setDeferred_trust (s : State) (c d : CopyId) (b : Bool) :
    ((s.setDeferred c b).copy d).trust = (s.copy d).trust := by
  by_cases hd : d = c
  · subst hd
    rcases s.copy_modCopy_or d fun r => { r with deferred := b } with he | he
    all_goals exact (congrArg CopyRec.trust he).trans rfl
  · exact congrArg CopyRec.trust (s.copy_modCopy_other _ hd)

/-- What a plain MISMATCH comes to, whether its dispute is opened or deferred. -/
theorem State.plainMismatch_result (hlt : c.copy < (s.seg c.seg).copies.length) (o : Obs) (lane : Nat) :
    ((s.plainMismatch c o lane).copy c).trust = .suspect ∧ (s.plainMismatch c o lane).media = s.media ∧
      ∀ g, ((s.plainMismatch c o lane).seg g).reference = (s.seg g).reference := by
  have hsuspect := State.mismatched_trust (f := s.mismatchFinding c o lane) hlt
  rcases Nat.lt_or_ge s.disputes.length 24 with hlen | hlen
  · have hsteady := s.disputeServed_steady (c := c) (f := s.mismatchFinding c o lane) (fun _ => False) o
    rw [State.plainMismatch_room hlen, State.setDeferred_trust]
    refine ⟨(hsteady.copy c id).1.trans hsuspect, (State.serveSlots_rest _ _).1, fun g => ?_⟩
    exact (State.modCopy_reference _ _ _ g).trans ((hsteady.reference g).trans (s.modCopy_reference _ _ g))
  · rw [State.plainMismatch_full hlen]
    refine ⟨((s.setTrust c .suspect).setDeferred_trust c c true).trans hsuspect, rfl, fun g => ?_⟩
    exact (State.modCopy_reference _ _ _ g).trans (s.modCopy_reference _ _ g)

/-- The trigger's mark is clear once the entry stands. -/
theorem State.disputeServed_deferred {f : Finding} (hlt : c.copy < (s.seg c.seg).copies.length) (o : Obs) :
    (((s.disputeServed c o f).setDeferred c false).copy c).deferred = false := by
  have hlen : c.copy < ((s.disputeServed c o f).seg c.seg).copies.length := by
    rw [(State.disputeServed_steady (fun _ => True) o).copies]
    exact (State.mismatched_copies_length (f := f) c.seg).symm ▸ hlt
  exact congrArg CopyRec.deferred (State.copy_modCopy _ _ hlen)

end

/-- Settles O40: the MISMATCH is `State.plainMismatch`, which opens the entry (`State.plainMismatch_room`) or defers it
(`State.plainMismatch_full`); serving the slots is steady, and each slot is served by `State.serveSlot_takeOver` or
`State.serveSlot_new`. -/
theorem mismatchOpensDispute : Obligations.MismatchOpensDispute := by
  refine ⟨fun s c o lane f hd hb hr hlt hf => ?_, fun s c st hst => ⟨State.serveSlot_other hst, fun hw => ?_⟩⟩
  · have hparts : s.sameParts (s.plain c .mismatch o lane) := (s.plain_works c .mismatch o lane).sameParts
    obtain ⟨htrust, hmedia, hreference⟩ := State.plainMismatch_result hlt o lane
    rw [State.plain_mismatch_readable hd hb hr] at hparts ⊢
    obtain rfl : f = s.mismatchFinding c o lane := hf
    refine ⟨htrust, hparts, hmedia, hreference, fun hroom => ?_, fun hroom => ?_,
      fun hfull => State.plainMismatch_full hfull o lane⟩
    · rw [State.plainMismatch_room hroom]
      exact ⟨(State.serveSlots_rest _ _).2, State.disputeServed_deferred hlt o, State.disputeServed_entry hd o⟩
    · exact ⟨s.slotsStarted c (s.mismatchFinding c o lane), State.slotsStarted_length, fun i st => State.slotsStarted_get,
        State.plainMismatch_room hroom o lane⟩
  · subst hw
    refine ⟨fun it hit hk => ?_, fun hno => ?_⟩
    · rw [State.serveSlot_takeOver hst hit hk, State.takeOver_eq]
    · rw [State.serveSlot_new hst hno]
      exact ⟨State.issueOrWait_room, State.issueOrWait_full⟩

end Sys2Proof.Machine
end


section
/-! Proofs: what the departure of an item leaves, and the service of waiting owners (R97, R125, R139 to R142, R147, R149 to
R152). -/

namespace Sys2Proof.Machine

section

variable (s : State)

/-! ### Departures -/

/-- A refund raises credit up to the cap, and wakes a walker that waits for credit when credit rises above 0 in WORK. -/
theorem State.refundCredit_eq (n : Nat) : s.refundCredit n =
    { s with
      pacer := s.pacer.refund n
      walker := if s.walker.state = .waitCredit ∧ s.pacer.state = .work ∧ s.pacer.credit ≤ 0 ∧
          0 < (s.pacer.refund n).credit then { s.walker with state := .walking } else s.walker } := by
  unfold State.refundCredit State.wakeCredit
  dsimp only
  by_cases hrise : s.pacer.state = .work ∧ s.pacer.credit ≤ 0 ∧ 0 < (s.pacer.refund n).credit
  · rw [if_pos hrise]
    by_cases hw : s.walker.state = .waitCredit
    · rw [if_pos hw, if_pos ⟨hw, hrise⟩]
    · rw [if_neg hw, if_neg fun h => hw h.1]
  · rw [if_neg hrise, if_neg fun h => hrise h.2]

theorem State.takeOut_itemTag (it : Item) : ((s.takeOut it).copy it.target).itemTag = none := by
  by_cases hlt : it.target.copy < (s.seg it.target.seg).copies.length
  · exact congrArg CopyRec.itemTag (State.copy_modCopy { s with queue := { s.queue with
      items := s.queue.items.filter fun i => i.tag != it.tag } } _ hlt)
  · rw [State.copy_absent]
    · rfl
    · rwa [(s.takeOut_steady (fun _ => True) it).copies]

theorem State.takeOut_copy_other (it : Item) {c : CopyId} (hc : c ≠ it.target) : (s.takeOut it).copy c = s.copy c :=
  State.copy_modCopy_other _ _ hc

/-- An item that was bound goes without a refund (R142). -/
theorem State.withdrawItem_bound {it : Item} (hb : it.everBound = true) : s.withdrawItem it = (s.takeOut it).serve := by
  rw [State.withdrawItem, if_pos hb]

theorem State.withdrawItem_unbound {it : Item} (hb : it.everBound = false) :
    s.withdrawItem it = ((s.takeOut it).refundCredit it.charge).serve := by
  rw [State.withdrawItem, if_neg (by simp [hb])]

/-- A walker that waits for a place goes on when the queue holds fewer than 32 items (R125). -/
theorem State.wakeRoom_walker : s.wakeRoom = { s with
    walker := if s.walker.state = .waitRoom ∧ s.queue.items.length < 32 then { s.walker with state := .walking }
      else s.walker } := by
  unfold State.wakeRoom
  by_cases hw : s.walker.state = .waitRoom ∧ s.queue.items.length < 32
  · rw [if_pos hw]
    exact if_pos hw
  · rw [if_neg hw]
    exact if_neg hw

/-! ### Service -/

theorem State.issue_waiters (o : Owner) : (s.issue o).queue.waiters = s.queue.waiters := by cases o <;> rfl

/-- Without a waiting owner or without a place nothing is served. -/
theorem State.serve_idle (h : s.queue.waiters = [] ∨ 40 ≤ s.queue.items.length) : s.serve = s := by
  unfold State.serve
  cases hw : s.queue.waiters with
  | nil => rfl
  | cons w ws => exact if_neg (Nat.not_lt.2 (h.resolve_left (by simp [hw])))

/-- With a place free the oldest waiting owner gets its item, and then the next (R152). -/
theorem State.serve_cons {w : Waiter} {ws : List Waiter} (hw : s.queue.waiters = w :: ws)
    (hroom : s.queue.items.length < 40) :
    s.serve = (({ s with queue := { s.queue with waiters := ws } }).issue w.owner).serve := by
  unfold State.serve
  rw [State.issue_waiters, hw]
  exact if_pos hroom

/-! ### A repair entry whose leftover item is gone (R97) -/

theorem State.leftoverGone_starts {c : CopyId} {r : Repair} (hr : s.repair? c = some r) (hst : r.state = .waitingPlace)
    (hw : s.isWaiting (.repair c) = false) : s.leftoverGone c = (s.startWaiting (.repair c)).serve := by
  simp only [State.leftoverGone, hr]
  exact if_pos ⟨hst, hw⟩

theorem State.leftoverGone_idle {c : CopyId}
    (h : ∀ r, s.repair? c = some r → r.state ≠ .waitingPlace ∨ s.isWaiting (.repair c) = true) :
    s.leftoverGone c = s := by
  unfold State.leftoverGone
  cases hr : s.repair? c with
  | none => rfl
  | some r =>
    refine if_neg fun ⟨hst, hw⟩ => ?_
    rcases h r hr with hn | hn
    · exact hn hst
    · simp [hw] at hn

/-! ### A new item (R140, R141, R147, R149) -/

theorem State.createItem_copy (kind : ItemKind) (cls : ItemClass) (mask : Mask) {c : CopyId}
    (hlt : c.copy < (s.seg c.seg).copies.length) :
    (s.createItem kind cls c mask).copy c = { s.copy c with itemTag := some s.queue.nextTag } :=
  State.copy_modCopy { s with queue := (s.createItem kind cls c mask).queue }
    (fun r => { r with itemTag := some s.queue.nextTag }) hlt

theorem State.createItem_copy_other (kind : ItemKind) (cls : ItemClass) (mask : Mask) {c k : CopyId} (hk : k ≠ c) :
    (s.createItem kind cls c mask).copy k = s.copy k :=
  State.copy_modCopy_other { s with queue := (s.createItem kind cls c mask).queue }
    (fun r => { r with itemTag := some s.queue.nextTag }) hk

theorem State.createItem_pacer (kind : ItemKind) (cls : ItemClass) (c : CopyId) (mask : Mask) :
    (s.createItem kind cls c mask).pacer = { s.pacer with
      credit := max (s.pacer.credit - chargeOf (s.byteLength c.seg)) (-4 * (s.pacer.inForce.budget : Int)) } := by
  rw [neg_mul]
  rfl

end

/-- Settles O37: departures by `State.takeOut` and `State.refundCredit_eq`, the service of waiting owners by one step of
it (`State.serve_cons`), and a new item by the one copy record it changes. -/
theorem itemDepartures : Obligations.ItemDepartures := by
  refine ⟨fun s out back it c hout hc hback => ?_, fun s => ⟨s.serve_idle, fun w ws => s.serve_cons⟩,
    fun s c => ⟨rfl, fun r hr => ?_⟩, fun s t kind cls c mask ht => ?_, fun s c => ?_⟩
  · obtain rfl : out = s.takeOut it := hout
    obtain rfl : back = (s.takeOut it).refundCredit it.charge := by
      rw [hback, hc, State.refundCredit_eq]
      rfl
    exact ⟨s.takeOut_itemTag it, fun k hk => s.takeOut_copy_other it hk, s.withdrawItem_bound, s.withdrawItem_unbound,
      rfl⟩
  · simp only [State.issue, hr]
    rfl
  · subst ht
    exact ⟨rfl, s.createItem_pacer kind cls c mask, s.createItem_copy kind cls mask,
      fun k hk => s.createItem_copy_other kind cls mask hk, rfl⟩
  · exact ⟨fun r => s.leftoverGone_starts, s.leftoverGone_idle, s.wakeRoom_walker⟩

end Sys2Proof.Machine
end


section
/-! Proofs: the claim of an item, its return, and the lapse of its claim (R99, R149, R153 to R162). -/

namespace Sys2Proof.Machine

/-! ### The claim's walk (R153, R154) -/

section

variable {s : State} {it : Item} (h : Head) (n : Nat)

/-- An item passes on a medium in service; a REPAIR item passes with the source that is chosen for it, any other without
one. -/
theorem State.claimVerdict_pass {source : Option Nat} (hm : s.copyHealth it.target ≠ .withdrawn)
    (hother : it.kind ≠ .repair → source = none)
    (hrepair : it.kind = .repair → source = s.source? it.target ∧ source ≠ none) :
    s.claimVerdict it = .pass source := by
  unfold State.claimVerdict
  rw [if_neg hm]
  cases hk : it.kind with
  | scrub | confirm => rw [hother (by simp [hk])]
  | repair =>
    obtain ⟨hsource, hsome⟩ := hrepair hk
    obtain ⟨i, hi⟩ := Option.ne_none_iff_exists'.1 hsome
    simp only [← hsource, hi]

theorem State.claimWalk_pass {source : Option Nat} (hf : s.queue.items.find? Item.isQueued = some it)
    (hv : s.claimVerdict it = .pass source) : State.claimWalk h (n + 1) s =
      (s.modItem it.tag fun _ => { it with state := .claimed h s.limits.claim, source := source },
        some { it with state := .claimed h s.limits.claim, source := source }) := by
  simp only [State.claimWalk, hf, hv]

theorem State.claimWalk_empty (hf : s.queue.items.find? Item.isQueued = none) :
    State.claimWalk h (n + 1) s = (s, none) := by
  simp only [State.claimWalk, hf]

end

/-- Settles O34: the walk goes past the items turned away (`State.turnsAwayAll.walk`) to the first QUEUED item that they
leave, or to none. -/
theorem itemClaimResult : Obligations.ItemClaimResult := by
  intro h tag s u gone ht hgone
  obtain ⟨m, hwalk⟩ := hgone.walk h (s.popOrder h).claimLoad_lt
  refine ⟨fun it source r hf hm hother hrepair hr => exec_answered (exec_itemClaim h) ht ?_,
    fun hnone => exec_answered (exec_itemClaim h) ht ?_⟩
  · have hreel : (u.modItem it.tag fun _ => { it with state := .claimed h u.limits.claim, source := source }).reel?
        it.target.reel = some r := hr
    rw [State.claimWalk_pass h m hf (State.claimVerdict_pass hm hother hrepair)] at hwalk
    simp only [itemClaim, hwalk, hreel]
    rfl
  · have hf : u.queue.items.find? Item.isQueued = none := List.find?_eq_none.2 fun i hi => by simp [hnone i hi]
    rw [State.claimWalk_empty h m hf] at hwalk
    simp only [itemClaim, hwalk]

/-! ### The targets of the repair entries while items leave -/

section

variable (s : State)

theorem State.repair?_eq_none {s : State} {c : CopyId} : s.repair? c = none ↔ c ∉ s.repairs.map Repair.target := by
  simp [State.repair?]

theorem State.issue_repairTargets (o : Owner) : (s.issue o).repairs.map Repair.target = s.repairs.map Repair.target := by
  cases o with
  | slot c => rfl
  | repair c =>
    show (s.repairs.map _).map Repair.target = _
    rw [List.map_map]
    refine List.map_congr_left fun r _ => ?_
    simp only [Function.comp_apply]
    split <;> rfl

theorem State.serveList_repairTargets (ws : List Waiter) :
    (State.serveList ws s).repairs.map Repair.target = s.repairs.map Repair.target := by
  induction ws generalizing s with
  | nil => rfl
  | cons w ws ih =>
    unfold State.serveList
    split
    · exact (ih _).trans (State.issue_repairTargets { s with queue := { s.queue with waiters := ws } } w.owner)
    · rfl

theorem State.withdrawItem_repairTargets (it : Item) :
    (s.withdrawItem it).repairs.map Repair.target = s.repairs.map Repair.target := by
  refine (State.serveList_repairTargets _ _).trans ?_
  split
  · rfl
  · rw [State.refundCredit_eq]
    rfl

end

/-! ### ITEM_RETURN (R160 to R162) -/

section

variable {s : State} {it : Item}

/-- A RETRY puts an item that keeps its purpose behind every item of its class, when its raise is not the fourth. -/
theorem State.returnRetry_requeued (hp : s.isPurposeless it = false) (hq : it.requeue < 3) :
    s.returnRetry it = { s with queue := { s.queue with
      items := (s.queue.items.filter fun (i : Item) => i.tag != it.tag && i.cls.rank ≤ it.cls.rank) ++ it.requeued ::
        (s.queue.items.filter fun (i : Item) => i.tag != it.tag && it.cls.rank < i.cls.rank) } } := by
  have hlimit : it.requeue + 1 < Config.requeueLimit := Nat.succ_lt_succ hq
  rw [State.returnRetry, if_neg (by simp [hp]), if_pos hlimit]
  simp only [State.requeueLast, placeLast, List.filter_filter, Bool.and_comm]
  rfl

/-- Where the segment has no dispute and the copy no repair, nobody acts for a SCRUB item that is gone. -/
theorem State.ownerLost_scrub_unowned (hk : it.kind = .scrub) (hd : s.dispute? it.target.seg = none)
    (hr : s.repair? it.target = none) (cause : Nat) : s.ownerLost it cause = s := by
  have hslot : s.ownSlot? it = none := by simp [State.ownSlot?, State.collecting?_of_dispute?_none hd]
  simp only [State.ownerLost, hk, hslot]
  exact s.leftoverGone_idle fun r hr' => by simp [hr] at hr'

theorem State.returnUnreadable_scrub_unowned (hk : it.kind = .scrub) (hd : s.dispute? it.target.seg = none)
    (hr : s.repair? it.target = none) : s.returnUnreadable it = (s.withdrawItem it).chargeMedium it.target 2 := by
  have hsteady := (s.withdrawItem_steady (fun _ => True) it).trans (State.chargeMedium_steady _ _ it.target 2)
  obtain ⟨-, -, -, hrepairs, -⟩ := (s.withdrawItem it).chargeMedium_sameTables it.target 2
  refine State.ownerLost_scrub_unowned hk (hsteady.dispute?_none hd) ?_ 3
  rw [State.repair?_eq_none] at hr ⊢
  rwa [hrepairs, State.withdrawItem_repairTargets]

theorem exec_itemReturn_unreadable {h : Head} {tag : Half} {body : List Byte} {limit : Nat} (ht : s.takes h 25 tag body)
    (hr : leAt body 2 1 = 2) (hi : s.item? (leAt body 0 2) = some it) (hst : it.state = .claimed h limit) :
    exec (.itemReturn h) s = .next (((s.popOrder h).returnUnreadable it).wakeRoom.answer h 25 tag (.ok [])) := by
  have hf : (s.item? (leAt body 0 2)).filter (fun it => it.isClaimedBy h) = some it :=
    Option.filter_eq_some_iff.2 ⟨hi, Item.isClaimedBy_of_claimed hst⟩
  refine exec_answered (exec_itemReturn h) ht ?_
  simp [itemReturn, hr, ReturnReason.ofCode, hf]

theorem ReturnReason.ofCode_eq_none {n : Nat} : ReturnReason.ofCode n = none ↔ n = 0 ∨ 2 < n := by
  match n with
  | 0 | 1 | 2 => decide
  | n + 3 => exact iff_of_true rfl (.inr (by omega))

end

/-- Where no CLAIMED item has the tag, no claim lapses. -/
theorem exec_claimTimerExpiry_idle {s : State} {tag : Nat}
    (h : ∀ it, s.item? tag = some it → it.isQueued = true ∨ ∃ n, it.state = .bound n) :
    exec (.claimTimerExpiry tag) s = .next s := by
  have hnone : (s.item? tag).filter (fun it => it.isClaimedBy .a || it.isClaimedBy .b) = none := by
    refine Option.filter_eq_none_iff.2 fun it hit => ?_
    have hst := h it hit
    unfold Item.isQueued at hst
    unfold Item.isClaimedBy
    cases hs : it.state <;> simp_all
  change execClaimTimerExpiry tag s = _
  unfold execClaimTimerExpiry
  rw [hnone]

/-- Settles O35: RETRY by `State.returnRetry_requeued`, UNREADABLE by its withdrawal, its charge and its owner
(`State.ownerLost_acts`), and a lapse as the return to the front of the class that `filter_requeuedFront` reads. -/
theorem itemReturnAndLapse : Obligations.ItemReturnAndLapse := by
  refine ⟨fun h tag body s ht => ⟨fun it limit hr hi hst hp hq => ?_, fun it limit hr hi hst hk hd hrep => ?_,
    fun it limit hr hi hst => ?_, fun hr => ?_, fun hr hno => ?_⟩,
    fun tag s => ⟨fun it h limit hi hst hp hq hn => ?_, exec_claimTimerExpiry_idle⟩⟩
  · have hp' : (s.popOrder h).isPurposeless it = false := by cases h <;> exact hp
    rw [exec_itemReturn_retry ht hr hi hst, State.returnRetry_requeued hp' hq, State.popOrder_queue]
    rfl
  · rw [exec_itemReturn_unreadable ht hr hi hst, State.returnUnreadable_scrub_unowned hk (by simpa using hd)
      (by simpa using hrep)]
  · exact ⟨_, State.ownerLost_acts _ it 3, exec_itemReturn_unreadable ht hr hi hst⟩
  · refine exec_answered (exec_itemReturn h) ht ?_
    simp only [itemReturn, ReturnReason.ofCode_eq_none.2 hr, Answer.no]
  · refine exec_answered (exec_itemReturn h) ht ?_
    have hknown : ReturnReason.ofCode (leAt body 2 1) ≠ none := by
      rw [Ne, ReturnReason.ofCode_eq_none]
      omega
    obtain ⟨reason, hreason⟩ := Option.ne_none_iff_exists'.1 hknown
    have hnone : (s.item? (leAt body 0 2)).filter (fun it => it.isClaimedBy h) = none :=
      Option.filter_eq_none_iff.2 fun it hit => by simp [hno it hit]
    simp only [itemReturn, hreason, State.popOrder_item?, hnone, Answer.no]
  · have hkeep : ¬s.lostPurpose it := fun hl => by simp [(s.isPurposeless_iff it).2 hl] at hp
    obtain ⟨hmem, htag⟩ := s.item?_some hi
    refine ⟨requeuedFront it s.queue.items, ?_, fun cls => htag ▸ filter_requeuedFront hn hmem cls⟩
    rw [exec_claimTimerExpiry_claimed hi hst, State.returnFront_requeued 1 hkeep hq]

end Sys2Proof.Machine
end


section
/-! Proofs: who is voted, and what a decision judges (R77, R79 to R82). -/

namespace Sys2Proof.Machine

/-! ### The voted copies (R79) -/

section

variable {d : Dispute} {i : Nat} {o : Obs}

theorem Dispute.slotObs_eq_some {lane : Nat} :
    d.slotObs i = some (o, lane) ↔ ∃ own, d.slots[i]? = some (.observed o lane own) := by
  unfold Dispute.slotObs
  constructor
  · intro h
    split at h
    · next hs =>
      cases h
      exact ⟨_, hs⟩
    · cases h
  · rintro ⟨own, hs⟩
    rw [hs]

theorem Dispute.slotObs_eq_none : d.slotObs i = none ↔ ∀ o lane own, d.slots[i]? ≠ some (.observed o lane own) := by
  constructor
  · intro h o lane own hs
    have := Dispute.slotObs_eq_some.2 ⟨own, hs⟩
    simp [h] at this
  · intro h
    cases hs : d.slotObs i with
    | none => rfl
    | some p =>
      obtain ⟨own, ho⟩ := Dispute.slotObs_eq_some.1 hs
      exact absurd ho (h _ _ _)

/-- A copy is voted on the observation of its slot, the trigger failing that on its first one. -/
theorem Dispute.effective_eq_some : d.effective i = some o ↔ (∃ lane own, d.slots[i]? = some (.observed o lane own)) ∨
    i = d.trigger ∧ o = d.first ∧ ∀ o' lane own, d.slots[i]? ≠ some (.observed o' lane own) := by
  unfold Dispute.effective
  cases hs : d.slotObs i with
  | none =>
    have hnone := Dispute.slotObs_eq_none.1 hs
    simp [hnone, eq_comm]
  | some p =>
    obtain ⟨own, ho⟩ := Dispute.slotObs_eq_some.1 hs
    simp [ho, eq_comm]

theorem Dispute.mem_votes : (i, o) ∈ d.votes ↔ i < d.slots.length ∧ d.effective i = some o := by
  simp only [Dispute.votes, List.mem_filterMap, List.mem_range, Option.map_eq_some_iff, Prod.mk.injEq]
  constructor
  · rintro ⟨j, hj, o', ho, rfl, rfl⟩
    exact ⟨hj, ho⟩
  · rintro ⟨hi, ho⟩
    exact ⟨i, hi, o, ho, rfl, rfl⟩

theorem Dispute.votes_rising (d : Dispute) : (d.votes.map Prod.fst).Pairwise (· < ·) := by
  unfold Dispute.votes
  rw [List.map_filterMap, List.pairwise_filterMap]
  refine List.pairwise_lt_range.imp ?_
  simp only [Option.map_map, Option.map_eq_some_iff, Function.comp_apply]
  rintro i j hij _ ⟨_, -, rfl⟩ _ ⟨_, -, rfl⟩
  exact hij

theorem Dispute.votes_nodup (d : Dispute) : (d.votes.map Prod.fst).Nodup := d.votes_rising.imp Nat.ne_of_lt

/-- A copy is voted once. -/
theorem Dispute.votes_inj {p q : Nat × Obs} (hp : p ∈ d.votes) (hq : q ∈ d.votes) (h : p.1 = q.1) : p = q :=
  List.inj_on_of_nodup_map d.votes_nodup hp hq h

/-- Where a vote is in one part of the votes, its copy has none in the other part. -/
theorem Dispute.votes_not_mem {f : Nat × Obs → Bool} {p : Nat × Obs} (hp : p ∈ d.votes) (hf : f p = false) :
    p.1 ∉ (d.votes.filter f).map Prod.fst := by
  intro hm
  obtain ⟨q, hq, hqp⟩ := List.mem_map.1 hm
  obtain ⟨hq, hfq⟩ := List.mem_filter.1 hq
  rw [Dispute.votes_inj hq hp hqp, hf] at hfq
  cases hfq

end

/-! ### A digest that two voted copies share (R82) -/

/-- Two copies among these votes have this digest. -/
def sharesDigest (votes : List (Nat × Obs)) (dd : Digest) : Prop :=
  ∃ p ∈ votes, ∃ q ∈ votes, p.1 ≠ q.1 ∧ p.2.digest = dd ∧ q.2.digest = dd

theorem two_le_length_iff_sharesDigest {votes : List (Nat × Obs)} (hn : (votes.map Prod.fst).Nodup) (dd : Digest) :
    2 ≤ (votes.filter fun p => p.2.digest == dd).length ↔ sharesDigest votes dd := by
  have hmem (p : Nat × Obs) : p ∈ votes.filter (fun p => p.2.digest == dd) ↔ p ∈ votes ∧ p.2.digest = dd := by simp
  have hnodup : ((votes.filter fun p => p.2.digest == dd).map Prod.fst).Nodup :=
    hn.sublist (List.filter_sublist.map _)
  generalize votes.filter (fun p => p.2.digest == dd) = l at hmem hnodup
  match l with
  | [] => exact iff_of_false (by simp) fun ⟨p, hp, _, _, _, hpd, _⟩ => by simpa using (hmem p).2 ⟨hp, hpd⟩
  | [a] =>
    refine iff_of_false (by simp) fun ⟨p, hp, q, hq, hne, hpd, hqd⟩ => hne ?_
    rw [List.mem_singleton.1 ((hmem p).2 ⟨hp, hpd⟩), List.mem_singleton.1 ((hmem q).2 ⟨hq, hqd⟩)]
  | a :: b :: l =>
    obtain ⟨ha, had⟩ := (hmem a).1 (by simp)
    obtain ⟨hb, hbd⟩ := (hmem b).1 (by simp)
    refine iff_of_true (by simp) ⟨a, ha, b, hb, fun hab => ?_, had, hbd⟩
    simp [hab] at hnodup

theorem sharedDigest_shares {votes : List (Nat × Obs)} (hn : (votes.map Prod.fst).Nodup) {dd : Digest}
    (h : sharedDigest votes = some dd) : sharesDigest votes dd := by
  obtain ⟨p, hp, rfl⟩ := Option.map_eq_some_iff.1 h
  exact (two_le_length_iff_sharesDigest hn _).1 (by simpa using List.find?_some hp)

theorem sharedDigest_eq_none {votes : List (Nat × Obs)} (hn : (votes.map Prod.fst).Nodup) :
    sharedDigest votes = none ↔ ∀ dd, ¬sharesDigest votes dd := by
  simp only [sharedDigest, Option.map_eq_none_iff, List.find?_eq_none, decide_eq_true_eq]
  constructor
  · rintro h dd ⟨p, hp, hq⟩
    have hdd := (two_le_length_iff_sharesDigest hn dd).2 ⟨p, hp, hq⟩
    obtain ⟨q, hq, hne, hpd, hqd⟩ := hq
    exact h p hp (hpd ▸ hdd)
  · exact fun h p _ h2 => h _ ((two_le_length_iff_sharesDigest hn _).1 h2)

theorem sharedDigest_of_shares {votes : List (Nat × Obs)} (hn : (votes.map Prod.fst).Nodup) {dd : Digest}
    (h : sharesDigest votes dd) : ∃ dd', sharedDigest votes = some dd' :=
  Option.ne_none_iff_exists'.1 fun hnone => (sharedDigest_eq_none hn).1 hnone dd h

/-- No digest is shared when the digests of two voted copies differ. -/
theorem not_sharesDigest {votes : List (Nat × Obs)}
    (h : ∀ p ∈ votes, ∀ q ∈ votes, p.1 ≠ q.1 → p.2.digest ≠ q.2.digest) (dd : Digest) :
    ¬sharesDigest votes dd :=
  fun ⟨p, hp, q, hq, hne, hpd, hqd⟩ => h p hp q hq hne (hpd.trans hqd.symm)

/-! ### The decision test (R77) -/

theorem Dispute.isDecided_iff {d : Dispute} :
    d.isDecided = true ↔ ∀ st ∈ d.slots, st ≠ .wanted ∧ ∀ tag, st ≠ .issued tag := by
  simp only [Dispute.isDecided, List.all_eq_true]
  refine forall₂_congr fun st _ => ?_
  cases st <;> simp

section

variable {s : State} {g : SegId} {d : Dispute}

theorem State.testDecision_decided (hd : s.collecting? g = some d)
    (h : ∀ st ∈ d.slots, st ≠ .wanted ∧ ∀ tag, st ≠ .issued tag) : s.testDecision g = s.takeVote g false := by
  simp only [State.testDecision, hd, Dispute.isDecided_iff.2 h, if_true]

theorem State.testDecision_open (hd : s.collecting? g = some d)
    (h : ∃ st ∈ d.slots, st = .wanted ∨ ∃ tag, st = .issued tag) : s.testDecision g = s := by
  have hopen : ¬d.isDecided = true := fun hdec => by
    obtain ⟨st, hst, hw | ⟨tag, hi⟩⟩ := h
    · exact (Dispute.isDecided_iff.1 hdec st hst).1 hw
    · exact (Dispute.isDecided_iff.1 hdec st hst).2 tag hi
  simp only [State.testDecision, hd, if_neg hopen]

theorem State.testDecision_none (hd : s.collecting? g = none) : s.testDecision g = s := by
  simp only [State.testDecision, hd]

end

end Sys2Proof.Machine
end


section
/-! Proofs: the acts of a copy vote and what they leave (R79 to R85, R88). -/

namespace Sys2Proof.Machine

/-! ### What judgements leave of the segments -/

/-- From `s` to `t` the day, the entries, the references, the number of copies and their media and the frames stand: what a
decision leaves while it judges copies, posts findings and charges media. -/
structure State.KeepsSegments (s t : State) : Prop where
  day : t.day = s.day
  disputes : t.disputes = s.disputes
  reference : ∀ g, (t.seg g).reference = (s.seg g).reference
  copies : ∀ g, (t.seg g).copies.length = (s.seg g).copies.length
  medium : ∀ c, t.mediumOf c = s.mediumOf c
  frames : ∀ g, t.frameCount g = s.frameCount g

namespace State.KeepsSegments

variable {s t u : State}

theorem refl (s : State) : s.KeepsSegments s := ⟨rfl, rfl, fun _ => rfl, fun _ => rfl, fun _ => rfl, fun _ => rfl⟩

theorem trans (h : s.KeepsSegments t) (k : t.KeepsSegments u) : s.KeepsSegments u where
  day := k.day.trans h.day
  disputes := k.disputes.trans h.disputes
  reference g := (k.reference g).trans (h.reference g)
  copies g := (k.copies g).trans (h.copies g)
  medium c := (k.medium c).trans (h.medium c)
  frames g := (k.frames g).trans (h.frames g)

theorem foldl {α : Type} {f : State → α → State} (hf : ∀ (s : State) a, s.KeepsSegments (f s a)) (l : List α)
    (s : State) : s.KeepsSegments (l.foldl f s) := by
  induction l generalizing s with
  | nil => exact refl s
  | cons a l ih => exact (hf s a).trans (ih _)

/-- Steady work that keeps the day and the entries. -/
theorem ofSteady {P : CopyId → Prop} (h : s.Steady P t) (hd : t.day = s.day) (he : t.disputes = s.disputes) :
    s.KeepsSegments t :=
  ⟨hd, he, h.reference, h.copies, h.medium, h.frameCount⟩

theorem dispute? (h : s.KeepsSegments t) (g : SegId) : t.dispute? g = s.dispute? g := by
  simp only [State.dispute?, h.disputes]

theorem today (h : s.KeepsSegments t) : t.today = s.day.getD 0 := congrArg (·.getD 0) h.day

end State.KeepsSegments

section

variable (s : State)

theorem State.modCopy_keepsSegments (c : CopyId) (f : CopyRec → CopyRec) : s.KeepsSegments (s.modCopy c f) where
  day := rfl
  disputes := rfl
  reference g := s.modCopy_reference c f g
  copies g := s.modCopy_copies_length c f g
  medium k := s.mediumOf_modSeg _ _ k
  frames g := s.frameCount_modSeg _ g _

theorem State.setTrust_keepsSegments (c : CopyId) (t : Trust) : s.KeepsSegments (s.setTrust c t) :=
  s.modCopy_keepsSegments c _

theorem State.setGood_keepsSegments (c : CopyId) (day : Nat) : s.KeepsSegments (s.setGood c day) :=
  s.modCopy_keepsSegments c _

theorem State.setDeferred_keepsSegments (c : CopyId) (b : Bool) : s.KeepsSegments (s.setDeferred c b) :=
  s.modCopy_keepsSegments c _

theorem State.post_keepsSegments (f : Finding) : s.KeepsSegments (s.post f) :=
  .ofSteady (s.post_steady (fun _ => True) f) rfl rfl

theorem State.postIfLost_keepsSegments (g : SegId) : s.KeepsSegments (s.postIfLost g) := by
  unfold State.postIfLost
  split
  · exact s.post_keepsSegments _
  · exact .refl s

theorem State.chargeMedium_keepsSegments (c : CopyId) (w : Nat) : s.KeepsSegments (s.chargeMedium c w) :=
  .ofSteady (s.chargeMedium_steady (fun _ => True) c w) (s.chargeMedium_works c w).day (s.chargeMedium_sameTables c w).2.2.1

theorem State.transientTest_keepsSegments (d : Dispute) (r : Option Digest) : s.KeepsSegments (s.transientTest d r) := by
  unfold State.transientTest
  repeat' split
  · exact (s.post_keepsSegments _).trans (State.chargeMedium_keepsSegments _ _ _)
  · exact .refl s
  · exact .refl s

theorem State.judgeAllGood_keepsSegments (g : SegId) (day : Nat) (l : List Nat) :
    s.KeepsSegments (s.judgeAllGood g day l) := .foldl (fun t i => t.setGood_keepsSegments (g.copy i) day) l s

theorem State.judgeBad_keepsSegments (g : SegId) (n : Nat) (p : Nat × Obs) : s.KeepsSegments (s.judgeBad g n p) :=
  ((s.setTrust_keepsSegments (g.copy p.1) .bad).trans (State.post_keepsSegments _ _)).trans
    (State.chargeMedium_keepsSegments _ _ _)

theorem State.judgeAllBad_keepsSegments (g : SegId) (n : Nat) (l : List (Nat × Obs)) :
    s.KeepsSegments (s.judgeAllBad g n l) := .foldl (fun t p => t.judgeBad_keepsSegments g n p) l s

/-- The marks of the voted copies are cleared. -/
theorem State.setDeferreds_keepsSegments (g : SegId) (votes : List (Nat × Obs)) :
    s.KeepsSegments (votes.foldl (fun t p => t.setDeferred (g.copy p.1) false) s) :=
  .foldl (fun t (p : Nat × Obs) => t.setDeferred_keepsSegments (g.copy p.1) false) votes s

theorem State.closeVote_keepsSegments (g : SegId) (votes : List (Nat × Obs)) (n : Nat) (e : Bool) (dig : Option Digest) :
    s.KeepsSegments (s.closeVote g votes n e dig) :=
  ((s.setDeferreds_keepsSegments g votes).trans (State.post_keepsSegments _ _)).trans (State.postIfLost_keepsSegments _ _)

/-! ### Several copies of one trust -/

/-- Several voted copies take one trust. -/
def State.setTrusts (s : State) (g : SegId) (t : Trust) (l : List (Nat × Obs)) : State :=
  l.foldl (fun u p => u.setTrust (g.copy p.1) t) s

theorem State.setTrusts_keepsSegments (g : SegId) (t : Trust) (l : List (Nat × Obs)) :
    s.KeepsSegments (s.setTrusts g t l) := .foldl (fun u (p : Nat × Obs) => u.setTrust_keepsSegments (g.copy p.1) t) l s

/-- Every copy in the list, and every one that had the trust, has it. -/
theorem State.setTrusts_trust (g : SegId) (t : Trust) {l : List (Nat × Obs)} {i : Nat}
    (hlt : i < (s.seg g).copies.length) (h : i ∈ l.map Prod.fst ∨ (s.copy (g.copy i)).trust = t) :
    ((s.setTrusts g t l).copy (g.copy i)).trust = t := by
  unfold State.setTrusts
  induction l generalizing s with
  | nil => exact h.resolve_left (by simp)
  | cons p l ih =>
    have hstep : i = p.1 → ((s.setTrust (g.copy p.1) t).copy (g.copy i)).trust = t := by
      rintro rfl
      exact congrArg CopyRec.trust (s.copy_modCopy _ hlt)
    refine ih (s.setTrust (g.copy p.1) t) (by rwa [State.setTrust, State.modCopy_copies_length]) ?_
    by_cases hi : i = p.1
    · exact .inr (hstep hi)
    · have hother : (s.setTrust (g.copy p.1) t).copy (g.copy i) = s.copy (g.copy i) :=
        s.copy_modCopy_other _ fun hc => hi (congrArg CopyId.copy hc)
      rw [hother]
      exact h.imp_left fun hm => (List.mem_cons.1 hm).resolve_left hi

theorem State.setTrusts_other (g : SegId) (t : Trust) {l : List (Nat × Obs)} {i : Nat} (h : i ∉ l.map Prod.fst) :
    (s.setTrusts g t l).copy (g.copy i) = s.copy (g.copy i) := by
  unfold State.setTrusts
  induction l generalizing s with
  | nil => rfl
  | cons p l ih =>
    obtain ⟨hne, hl⟩ := not_or.1 (mt List.mem_cons.2 h)
    exact (ih (s.setTrust (g.copy p.1) t) hl).trans
      (s.copy_modCopy_other _ fun hc => hne (congrArg CopyId.copy hc))

/-- Findings and charges apart, copies judged BAD take the trust BAD. -/
theorem State.judgeAllBad_reels {t : State} (h : s.reels = t.reels) (g : SegId) (n : Nat) (l : List (Nat × Obs)) :
    (s.judgeAllBad g n l).reels = (t.setTrusts g .bad l).reels := by
  unfold State.judgeAllBad State.setTrusts
  induction l generalizing s t with
  | nil => exact h
  | cons p l ih =>
    refine ih _ ?_
    refine (State.chargeMedium_sameTables _ _ _).1.trans ?_
    simp only [State.post_reels, State.setTrust, State.modCopy, State.modSeg, h]

theorem State.copy_ofReels {t : State} (h : s.reels = t.reels) (c : CopyId) : s.copy c = t.copy c := by
  simp only [State.copy, State.seg, State.reel?, h]

theorem State.judgeAllBad_copy (g : SegId) (n : Nat) (l : List (Nat × Obs)) (c : CopyId) :
    (s.judgeAllBad g n l).copy c = (s.setTrusts g .bad l).copy c := State.copy_ofReels _ (s.judgeAllBad_reels rfl g n l) c

/-! ### The closing of a vote (R84) -/

/-- Clearing the marks leaves trust and day. -/
theorem State.setDeferreds_verdict (g : SegId) (votes : List (Nat × Obs)) (c : CopyId) :
    ((votes.foldl (fun t p => t.setDeferred (g.copy p.1) false) s).copy c).trust = (s.copy c).trust ∧
      ((votes.foldl (fun t p => t.setDeferred (g.copy p.1) false) s).copy c).lastDay = (s.copy c).lastDay := by
  induction votes generalizing s with
  | nil => exact ⟨rfl, rfl⟩
  | cons p votes ih =>
    have hstep : ((s.setDeferred (g.copy p.1) false).copy c).lastDay = (s.copy c).lastDay := by
      by_cases hc : c = g.copy p.1
      · subst hc
        rcases s.copy_modCopy_or (g.copy p.1) fun r => { r with deferred := false } with he | he
        all_goals exact (congrArg CopyRec.lastDay he).trans rfl
      · exact congrArg CopyRec.lastDay (s.copy_modCopy_other _ hc)
    obtain ⟨htrust, hday⟩ := ih (s.setDeferred (g.copy p.1) false)
    exact ⟨htrust.trans (s.setDeferred_trust _ c false), hday.trans hstep⟩

/-- The closing of a vote judges no copy. -/
theorem State.closeVote_verdict (g : SegId) (votes : List (Nat × Obs)) (n : Nat) (e : Bool) (dig : Option Digest)
    (c : CopyId) : ((s.closeVote g votes n e dig).copy c).trust = (s.copy c).trust ∧
      ((s.closeVote g votes n e dig).copy c).lastDay = (s.copy c).lastDay := by
  have hpost : (s.closeVote g votes n e dig).copy c =
      (votes.foldl (fun t p => t.setDeferred (g.copy p.1) false) s).copy c := by
    refine State.copy_ofReels _ ?_ c
    unfold State.closeVote State.postIfLost
    dsimp only
    split <;> rfl
  rw [hpost]
  exact s.setDeferreds_verdict g votes c

/-- The end of a vote removes the entry, and then judges no copy that is neither BAD nor REPAIRING. -/
theorem State.endVote_steady (g : SegId) (l : List (Nat × Obs)) : (s.removeDispute g).Steady
    (fun c => (s.copy c).trust = .bad ∨ (s.copy c).trust = .repairing) (s.endVote g l) := by
  unfold State.endVote
  dsimp only
  split
  · exact .refl _
  · exact (s.removeDispute g).requestRepairs_steady _ _

theorem State.endVote_dispute? (g : SegId) (l : List (Nat × Obs)) : (s.endVote g l).dispute? g = none :=
  (s.endVote_steady g l).dispute?_none (State.tablesOk.dispute?_removed s g)

end

/-! ### The entry of a segment after a change -/

theorem State.dispute?_modDispute_map (s : State) (g k : SegId) {f : Dispute → Dispute} (hf : ∀ d, (f d).seg = d.seg) :
    (s.modDispute g f).dispute? k = (s.dispute? k).map fun d => if d.seg = g then f d else d := by
  have hcomp : ((fun d : Dispute => d.seg == k) ∘ fun d => if d.seg = g then f d else d) = fun d => d.seg == k := by
    funext d
    simp only [Function.comp_apply]
    split
    · rw [hf]
    · rfl
  simp only [State.dispute?, State.modDispute, List.find?_map, hcomp]

section

variable {s : State} {g k : SegId} {d : Dispute} {f : Dispute → Dispute}

theorem State.dispute?_modDispute (hd : s.dispute? g = some d) (hf : ∀ d, (f d).seg = d.seg) :
    (s.modDispute g f).dispute? g = some (f d) := by
  rw [s.dispute?_modDispute_map g g hf, hd, Option.map_some, if_pos (State.dispute?_mem hd).2]

theorem State.dispute?_modDispute_other (hf : ∀ d, (f d).seg = d.seg) (hk : k ≠ g) :
    (s.modDispute g f).dispute? k = s.dispute? k := by
  rw [s.dispute?_modDispute_map g k hf]
  cases hd : s.dispute? k with
  | none => rfl
  | some d => rw [Option.map_some, if_neg ((State.dispute?_mem hd).2 ▸ hk)]

end

end Sys2Proof.Machine
end


section
/-! Proofs: the outcomes of a copy vote (R77 to R85, R88). -/

namespace Sys2Proof.Machine

/-! ### The votes for a digest and against it -/

/-- The voted copies that have the digest. -/
def votesFor (r : Option Digest) (votes : List (Nat × Obs)) : List (Nat × Obs) :=
  votes.filter fun p => some p.2.digest = r

/-- The voted copies that have another digest. -/
def votesAgainst (r : Option Digest) (votes : List (Nat × Obs)) : List (Nat × Obs) :=
  votes.filter fun p => some p.2.digest ≠ r

theorem mem_votesFor {r : Option Digest} {votes : List (Nat × Obs)} {p : Nat × Obs} :
    p ∈ votesFor r votes ↔ p ∈ votes ∧ some p.2.digest = r := by simp [votesFor]

theorem mem_votesAgainst {r : Option Digest} {votes : List (Nat × Obs)} {p : Nat × Obs} :
    p ∈ votesAgainst r votes ↔ p ∈ votes ∧ some p.2.digest ≠ r := by simp [votesAgainst]

theorem votesFor_some (dd : Digest) (votes : List (Nat × Obs)) :
    votesFor (some dd) votes = votes.filter fun p => p.2.digest == dd := by
  refine List.filter_congr fun p _ => Bool.eq_iff_iff.2 ?_
  simp

theorem votesAgainst_some (dd : Digest) (votes : List (Nat × Obs)) :
    votesAgainst (some dd) votes = votes.filter fun p => p.2.digest != dd := by
  refine List.filter_congr fun p _ => Bool.eq_iff_iff.2 ?_
  simp

theorem any_votes_iff {r : Option Digest} {votes : List (Nat × Obs)} :
    (votes.any fun p => some p.2.digest == r) = true ↔ ∃ p ∈ votes, r = some p.2.digest := by
  rw [List.any_eq_true]
  exact exists_congr fun p => and_congr_right fun _ => beq_iff_eq.trans eq_comm

/-- The two parts have no copy in common. -/
theorem Dispute.not_mem_votesAgainst {d : Dispute} {r : Option Digest} {p : Nat × Obs} (hp : p ∈ d.votes)
    (hr : some p.2.digest = r) : p.1 ∉ (votesAgainst r d.votes).map Prod.fst := d.votes_not_mem hp (by simp [hr])

/-! ### The outcomes as their judgements, and then the closing -/

section

variable (s : State) (g : SegId) (votes : List (Nat × Obs)) (e : Bool)

/-- The judgements of an AGREED vote (R81). -/
def State.judgedAgreed (r : Option Digest) : State :=
  (s.judgeAllGood g s.today ((votesFor r votes).map Prod.fst)).judgeAllBad g 1 (votesAgainst r votes)

theorem State.voteAgreed_eq (r : Option Digest) : s.voteAgreed g votes r e =
    ((s.judgedAgreed g votes r).closeVote g votes 1 e r).endVote g (votesAgainst r votes) := by
  have hfor : votesFor r votes = votes.filter fun p => some p.2.digest == r :=
    List.filter_congr fun p _ => Bool.eq_iff_iff.2 (by simp)
  have hagainst : votesAgainst r votes = votes.filter fun p => some p.2.digest != r :=
    List.filter_congr fun p _ => Bool.eq_iff_iff.2 (by simp)
  simp only [State.judgedAgreed, hfor, hagainst]
  rfl

/-- The judgements of a DISPUTED vote (R82). -/
def State.judgedDisputed (dd : Digest) : State :=
  (s.setTrusts g .suspect (votesFor (some dd) votes)).judgeAllBad g 2 (votesAgainst (some dd) votes)

/-- The entry with the outcome DISPUTED on a digest (R82). -/
def Dispute.disputedOn (dd : Digest) (votes : List (Nat × Obs)) (d : Dispute) : Dispute :=
  { d with
    phase := .awaiting dd
    agreeing := (votesFor (some dd) votes).map Prod.fst
    rejected := (votesAgainst (some dd) votes).map Prod.fst }

/-- The state in which the entry awaits resolution, its vote not yet closed (R82). -/
def State.disputedOn (dd : Digest) : State :=
  ((s.judgedDisputed g votes dd).post ⟨.referenceDisputed, true, s.day.getD 0, some g.reel, some g.segment, none, none,
    some dd, none, (votesFor (some dd) votes).length⟩).modDispute g (Dispute.disputedOn dd votes)

theorem State.judgedAgreed_keepsSegments (r : Option Digest) : s.KeepsSegments (s.judgedAgreed g votes r) :=
  (s.judgeAllGood_keepsSegments _ _ _).trans (State.judgeAllBad_keepsSegments _ _ _ _)

theorem State.judgedDisputed_keepsSegments (dd : Digest) : s.KeepsSegments (s.judgedDisputed g votes dd) :=
  (s.setTrusts_keepsSegments _ _ _).trans (State.judgeAllBad_keepsSegments _ _ _ _)

/-- The entry then awaits resolution, and the closing leaves it so. -/
theorem State.disputedOn_dispute? {d : Dispute} (hd : s.dispute? g = some d) (dd : Digest) :
    ((s.disputedOn g votes dd).closeVote g votes 2 e (some dd)).dispute? g = some (d.disputedOn dd votes) := by
  rw [(State.closeVote_keepsSegments _ g votes 2 e (some dd)).dispute?]
  exact State.dispute?_modDispute (((s.judgedDisputed_keepsSegments g votes dd).dispute? g).trans hd) fun _ => rfl

theorem State.voteDisputed_eq (dd : Digest) :
    s.voteDisputed g votes dd e = (s.disputedOn g votes dd).closeVote g votes 2 e (some dd) := by
  have hday := (s.judgedDisputed_keepsSegments g votes dd).today
  unfold State.disputedOn Dispute.disputedOn
  rw [← hday]
  simp only [State.judgedDisputed, votesFor_some, votesAgainst_some]
  rfl

end

section

variable {s : State} {g : SegId} {d : Dispute} (hd : s.dispute? g = some d) (e : Bool)
include hd

theorem State.takeVote_agreed (ha : ∃ p ∈ d.votes, s.refDigest g = some p.2.digest) :
    s.takeVote g e = (s.transientTest d (s.refDigest g)).voteAgreed g d.votes (s.refDigest g) e := by
  simp only [State.takeVote, hd, if_pos (any_votes_iff.2 ha)]

theorem State.takeVote_disputed {dd : Digest} (hno : ∀ p ∈ d.votes, s.refDigest g ≠ some p.2.digest)
    (hs : sharedDigest d.votes = some dd) :
    s.takeVote g e = (s.transientTest d (s.refDigest g)).voteDisputed g d.votes dd e := by
  have hany := mt any_votes_iff.1 fun ⟨p, hp, hr⟩ => hno p hp hr
  simp only [State.takeVote, hd, if_neg hany, hs]

theorem State.takeVote_unagreed (hno : ∀ p ∈ d.votes, s.refDigest g ≠ some p.2.digest)
    (hs : sharedDigest d.votes = none) :
    s.takeVote g e = (s.transientTest d (s.refDigest g)).voteUnagreed g d.votes (s.refDigest g) e := by
  have hany := mt any_votes_iff.1 fun ⟨p, hp, hr⟩ => hno p hp hr
  simp only [State.takeVote, hd, if_neg hany, hs]

/-- A vote has one of its three outcomes. -/
theorem State.takeVote_cases :
    (∃ r, s.takeVote g e = (s.transientTest d (s.refDigest g)).voteAgreed g d.votes r e) ∨
      (∃ dd, s.takeVote g e = (s.transientTest d (s.refDigest g)).voteDisputed g d.votes dd e) ∨
      ∃ r, s.takeVote g e = (s.transientTest d (s.refDigest g)).voteUnagreed g d.votes r e := by
  by_cases ha : ∃ p ∈ d.votes, s.refDigest g = some p.2.digest
  · exact .inl ⟨_, State.takeVote_agreed hd e ha⟩
  · have hno : ∀ p ∈ d.votes, s.refDigest g ≠ some p.2.digest := fun p hp hr => ha ⟨p, hp, hr⟩
    cases hs : sharedDigest d.votes with
    | some dd => exact .inr (.inl ⟨_, State.takeVote_disputed hd e hno hs⟩)
    | none => exact .inr (.inr ⟨_, State.takeVote_unagreed hd e hno hs⟩)

end

/-! ### What each outcome leaves -/

section

variable (s : State) (g : SegId) (votes : List (Nat × Obs)) (n : Nat) (e : Bool) (r : Option Digest) (l : List (Nat × Obs))

/-- The reference stands when a vote is closed and its entry goes. -/
theorem State.closedVote_reference (k : SegId) :
    (((s.closeVote g votes n e r).endVote g l).seg k).reference = (s.seg k).reference :=
  ((State.endVote_steady _ g l).reference k).trans ((s.closeVote_keepsSegments g votes n e r).reference k)

/-- A copy judged BAD is BAD, or REPAIRING already, when the vote is closed and the entry has gone. -/
theorem State.closedVote_bad {c : CopyId} (h : (s.copy c).trust = .bad) :
    (((s.closeVote g votes n e r).endVote g l).copy c).trust = .bad ∨
      (((s.closeVote g votes n e r).endVote g l).copy c).trust = .repairing :=
  (State.endVote_steady _ g l).judged c (.inl ((s.closeVote_verdict g votes n e r c).1.trans h))

/-- A copy judged GOOD is as it was judged. -/
theorem State.closedVote_good {c : CopyId} (h : (s.copy c).trust = .good) :
    (((s.closeVote g votes n e r).endVote g l).copy c).trust = .good ∧
      (((s.closeVote g votes n e r).endVote g l).copy c).lastDay = (s.copy c).lastDay := by
  obtain ⟨htrust, hday⟩ := s.closeVote_verdict g votes n e r c
  have hgood := htrust.trans h
  obtain ⟨htrust', hday', -⟩ := (State.endVote_steady (s.closeVote g votes n e r) g l).copy c (by simp [hgood])
  exact ⟨htrust'.trans hgood, hday'.trans hday⟩

/-- A vote against the reference makes a copy BAD. -/
theorem State.judgedAgreed_bad {p : Nat × Obs} (hp : p ∈ votesAgainst r votes) (hlt : p.1 < (s.seg g).copies.length) :
    ((s.judgedAgreed g votes r).copy (g.copy p.1)).trust = .bad := by
  unfold State.judgedAgreed
  rw [State.judgeAllBad_copy]
  exact State.setTrusts_trust _ _ _ ((s.judgeAllGood_keepsSegments g _ _).copies g ▸ hlt) (.inl (List.mem_map_of_mem hp))

/-- A vote for the reference makes a copy GOOD today. -/
theorem State.judgedAgreed_good {p : Nat × Obs} (hp : p ∈ votesFor r votes)
    (hno : p.1 ∉ (votesAgainst r votes).map Prod.fst) (hlt : p.1 < (s.seg g).copies.length) :
    ((s.judgedAgreed g votes r).copy (g.copy p.1)).goodOn s.today := by
  unfold State.judgedAgreed
  rw [State.judgeAllBad_copy, State.setTrusts_other _ _ _ hno]
  exact s.judgeAllGood_goodOn g s.today _ p.1 hlt (.inl (List.mem_map_of_mem hp))

end

section

variable {s : State} {g : SegId} {d : Dispute} (hd : s.dispute? g = some d) (e : Bool)
include hd

/-- The entry is gone after an AGREED vote; a copy with the reference's digest is GOOD today, another voted one is BAD or
REPAIRING. -/
theorem State.takeVote_agreed_result (ha : ∃ p ∈ d.votes, s.refDigest g = some p.2.digest) :
    (s.takeVote g e).dispute? g = none ∧ ∀ p ∈ d.votes, p.1 < (s.seg g).copies.length →
      (s.refDigest g = some p.2.digest → ((s.takeVote g e).copy (g.copy p.1)).trust = .good ∧
        ((s.takeVote g e).copy (g.copy p.1)).lastDay = s.day.getD 0) ∧
      (s.refDigest g ≠ some p.2.digest → ((s.takeVote g e).copy (g.copy p.1)).trust = .bad ∨
        ((s.takeVote g e).copy (g.copy p.1)).trust = .repairing) := by
  have hkeep := s.transientTest_keepsSegments d (s.refDigest g)
  rw [State.takeVote_agreed hd e ha, State.voteAgreed_eq]
  refine ⟨State.endVote_dispute? _ _ _, fun p hp hlt => ⟨fun hr => ?_, fun hr => ?_⟩⟩
  · obtain ⟨htrust, hday, -⟩ := State.judgedAgreed_good _ g d.votes _ (mem_votesFor.2 ⟨hp, hr.symm⟩)
      (d.not_mem_votesAgainst hp hr.symm) ((hkeep.copies g).symm ▸ hlt)
    obtain ⟨htrust', hday'⟩ := State.closedVote_good _ g d.votes 1 e (s.refDigest g)
      (votesAgainst (s.refDigest g) d.votes) htrust
    exact ⟨htrust', hday'.trans (hday.trans hkeep.today)⟩
  · exact State.closedVote_bad _ _ _ _ _ _ _
      (State.judgedAgreed_bad _ g d.votes _ (mem_votesAgainst.2 ⟨hp, hr.symm⟩) ((hkeep.copies g).symm ▸ hlt))

/-- The entry is gone after an UNAGREED vote, and every voted copy is BAD or REPAIRING. -/
theorem State.takeVote_unagreed_result (hno : ∀ p ∈ d.votes, s.refDigest g ≠ some p.2.digest)
    (hs : sharedDigest d.votes = none) :
    (s.takeVote g e).dispute? g = none ∧ ∀ p ∈ d.votes, p.1 < (s.seg g).copies.length →
      ((s.takeVote g e).copy (g.copy p.1)).trust = .bad ∨ ((s.takeVote g e).copy (g.copy p.1)).trust = .repairing := by
  have hkeep := s.transientTest_keepsSegments d (s.refDigest g)
  rw [State.takeVote_unagreed hd e hno hs]
  refine ⟨State.endVote_dispute? _ _ _, fun p hp hlt => State.closedVote_bad _ _ _ _ _ _ _ ?_⟩
  rw [State.judgeAllBad_copy]
  exact State.setTrusts_trust _ _ _ ((hkeep.copies g).symm ▸ hlt) (.inl (List.mem_map_of_mem hp))

/-- After a DISPUTED vote the entry awaits resolution; a copy with the shared digest is SUSPECT, another voted one BAD. -/
theorem State.takeVote_disputed_result {dd : Digest} (hno : ∀ p ∈ d.votes, s.refDigest g ≠ some p.2.digest)
    (hs : sharedDigest d.votes = some dd) :
    (s.takeVote g e).dispute? g = some (d.disputedOn dd d.votes) ∧ 2 ≤ (votesFor (some dd) d.votes).length ∧
      (∀ p ∈ votesFor (some dd) d.votes, p.1 < (s.seg g).copies.length →
        ((s.takeVote g e).copy (g.copy p.1)).trust = .suspect) ∧
      ∀ p ∈ votesAgainst (some dd) d.votes, p.1 < (s.seg g).copies.length →
        ((s.takeVote g e).copy (g.copy p.1)).trust = .bad := by
  have hkeep := s.transientTest_keepsSegments d (s.refDigest g)
  have hentry : (s.transientTest d (s.refDigest g)).dispute? g = some d := (hkeep.dispute? g).trans hd
  rw [State.takeVote_disputed hd e hno hs, State.voteDisputed_eq]
  generalize s.transientTest d (s.refDigest g) = u at hkeep hentry
  have hcopy (c : CopyId) : (((u.disputedOn g d.votes dd).closeVote g d.votes 2 e (some dd)).copy c).trust =
      (((u.setTrusts g .suspect (votesFor (some dd) d.votes)).setTrusts g .bad
        (votesAgainst (some dd) d.votes)).copy c).trust := by
    rw [(State.closeVote_verdict _ g d.votes 2 e (some dd) c).1, ← State.judgeAllBad_copy _ g 2]
    rfl
  have hsuspect := u.setTrusts_keepsSegments g .suspect (votesFor (some dd) d.votes)
  have hlen := hkeep.copies g
  refine ⟨u.disputedOn_dispute? g d.votes e hentry dd, ?_, fun p hp hlt => ?_, fun p hp hlt => ?_⟩
  · rw [votesFor_some, two_le_length_iff_sharesDigest d.votes_nodup]
    exact sharedDigest_shares d.votes_nodup hs
  · obtain ⟨hvote, hdd⟩ := mem_votesFor.1 hp
    rw [hcopy, State.setTrusts_other _ _ _ (d.not_mem_votesAgainst hvote hdd)]
    exact State.setTrusts_trust _ _ _ (hlen.symm ▸ hlt) (.inl (List.mem_map_of_mem hp))
  · rw [hcopy]
    exact State.setTrusts_trust _ _ _ ((hsuspect.copies g).symm ▸ hlen.symm ▸ hlt) (.inl (List.mem_map_of_mem hp))

end

/-- A vote leaves the references. -/
theorem State.takeVote_reference (s : State) (g : SegId) (e : Bool) (k : SegId) :
    ((s.takeVote g e).seg k).reference = (s.seg k).reference := by
  cases hd : s.dispute? g with
  | none => simp only [State.takeVote, hd]
  | some d =>
    have hkeep := s.transientTest_keepsSegments d (s.refDigest g)
    rw [← hkeep.reference k]
    obtain ⟨r, hv⟩ | ⟨dd, hv⟩ | ⟨r, hv⟩ := State.takeVote_cases hd e <;> rw [hv]
    · rw [State.voteAgreed_eq, State.closedVote_reference]
      exact (State.judgedAgreed_keepsSegments _ _ _ _).reference k
    · rw [State.voteDisputed_eq, (State.closeVote_keepsSegments _ _ _ _ _ _).reference]
      exact (State.judgedDisputed_keepsSegments _ g d.votes dd).reference k
    · rw [State.voteUnagreed, State.closedVote_reference]
      exact (State.judgeAllBad_keepsSegments _ _ _ _).reference k

/-- No entry of the segment collects after its vote. -/
theorem State.takeVote_collecting? (s : State) (g : SegId) (e : Bool) : (s.takeVote g e).collecting? g = none := by
  cases hd : s.dispute? g with
  | none =>
    have hv : s.takeVote g e = s := by simp only [State.takeVote, hd]
    rw [hv]
    exact State.collecting?_of_dispute?_none hd
  | some d =>
    have hentry := ((s.transientTest_keepsSegments d (s.refDigest g)).dispute? g).trans hd
    obtain ⟨r, hv⟩ | ⟨dd, hv⟩ | ⟨r, hv⟩ := State.takeVote_cases hd e <;> rw [hv]
    · exact State.collecting?_of_dispute?_none (State.endVote_dispute? _ _ _)
    · rw [State.voteDisputed_eq, State.collecting?, State.disputedOn_dispute? _ g d.votes e hentry dd]
      rfl
    · exact State.collecting?_of_dispute?_none (State.endVote_dispute? _ _ _)

end Sys2Proof.Machine
end


section
/-! Proofs: the acts of a copy vote written out, and the settling of VoteOutcomes (R79 to R85, R88). -/

namespace Sys2Proof.Machine

/-! ### The acts, with the day, the media and the frames of the state before the vote -/

/-- A trigger whose re-read has the reference's digest was a transient read, and its medium is charged 1 point (R80). -/
theorem State.transientTest_eq {s : State} {g : SegId} {d : Dispute} (hd : s.dispute? g = some d) (r : Option Digest) :
    s.transientTest d r = match d.slots[d.trigger]? with
      | some (.observed o lane _) => if some o.digest = r then
          (s.post ⟨.transientRead, false, s.day.getD 0, some g.reel, some g.segment, some d.trigger,
            some (s.mediumOf (g.copy d.trigger)), some o.digest, none, lane⟩).chargeMedium (g.copy d.trigger) 1
        else s
      | _ => s := by
  obtain ⟨-, rfl⟩ := State.dispute?_mem hd
  unfold State.transientTest Dispute.slotObs
  rcases d.slots[d.trigger]? with _ | (_ | _ | _ | _ | _) <;> rfl

section

variable (s : State) (g : SegId)

/-- A voted copy is judged BAD in state `u` with an outcome (R81, R88). -/
def State.badAct (n : Nat) (u : State) (p : Nat × Obs) : State :=
  ((u.setTrust (g.copy p.1) .bad).post ⟨.copyBad, true, s.day.getD 0, some g.reel, some g.segment, some p.1,
    some (s.mediumOf (g.copy p.1)), some p.2.digest, if p.2.compared then some p.2.mask else none,
    n⟩).chargeMedium (g.copy p.1) 8

/-- A vote is closed in state `u` with an outcome and a digest: marks, VOTE_DECIDED, SEGMENT_LOST (R84, R88). -/
def State.closeAct (votes : List (Nat × Obs)) (e : Bool) (u : State) (n : Nat) (dig : Option Digest) : State :=
  ((votes.foldl (fun w p => w.setDeferred (g.copy p.1) false) u).post ⟨.voteDecided, false, s.day.getD 0, some g.reel,
    some g.segment, none, none, dig, none, n + if e then 16 else 0⟩).postIfLost g

/-- A vote ends in state `u`: the entry goes, and repairs are requested for the rejected copies (R84, R85). -/
def State.endAct (u : State) (rejected : List (Nat × Obs)) : State :=
  if (u.removeDispute g).isLost g then u.removeDispute g else (u.removeDispute g).requestRepairs .vote
    (rejected.map fun p => (g.copy p.1, if p.2.compared = true ∧ p.2.mask ≠ 0#64 then p.2.mask
      else fullMask (s.frameCount g)))

variable {s g}
variable {u : State}

theorem State.judgeAllBad_acts (h : s.KeepsSegments u) (n : Nat) (l : List (Nat × Obs)) :
    u.judgeAllBad g n l = l.foldl (s.badAct g n) u := s.judgeAllBad_eq g n l h.day h.medium

theorem State.closeVote_acts (h : u.day = s.day) (votes : List (Nat × Obs)) (n : Nat) (e : Bool) (dig : Option Digest) :
    u.closeVote g votes n e dig = s.closeAct g votes e u n dig := by
  unfold State.closeAct
  rw [← h, ← (u.setDeferreds_keepsSegments g votes).today]
  rfl

theorem State.endVote_acts (h : s.KeepsSegments u) (l : List (Nat × Obs)) : u.endVote g l = s.endAct g u l := by
  unfold State.endAct
  rw [← h.frames g]
  simp only [State.endVote, repairList, Obs.repairMask_eq]
  rfl

/-- A vote that is closed after judgements, and whose entry then goes. -/
theorem State.closedVote_acts (h : s.KeepsSegments u) (votes : List (Nat × Obs)) (n : Nat) (e : Bool)
    (dig : Option Digest) (l : List (Nat × Obs)) :
    (u.closeVote g votes n e dig).endVote g l = s.endAct g (s.closeAct g votes e u n dig) l := by
  rw [State.endVote_acts (h.trans (State.closeVote_keepsSegments _ _ _ _ _ _)), State.closeVote_acts h.day]

end

/-! ### The outcomes by their acts -/

section

variable {s : State} {g : SegId} {d : Dispute} (hd : s.dispute? g = some d) (e : Bool)
include hd

theorem State.takeVote_agreed_acts (ha : ∃ p ∈ d.votes, s.refDigest g = some p.2.digest) :
    s.takeVote g e = s.endAct g (s.closeAct g d.votes e ((votesAgainst (s.refDigest g) d.votes).foldl (s.badAct g 1)
      ((votesFor (s.refDigest g) d.votes).foldl (fun u p => u.setGood (g.copy p.1) (s.day.getD 0))
        (s.transientTest d (s.refDigest g)))) 1 (s.refDigest g)) (votesAgainst (s.refDigest g) d.votes) := by
  have hkeep := s.transientTest_keepsSegments d (s.refDigest g)
  rw [State.takeVote_agreed hd e ha, State.voteAgreed_eq,
    State.closedVote_acts (hkeep.trans (State.judgedAgreed_keepsSegments _ g d.votes _)), State.judgedAgreed,
    State.judgeAllBad_acts (hkeep.trans (State.judgeAllGood_keepsSegments _ g _ _)), State.judgeAllGood, List.foldl_map,
    hkeep.today]

theorem State.takeVote_disputed_acts {dd : Digest} (hno : ∀ p ∈ d.votes, s.refDigest g ≠ some p.2.digest)
    (hs : sharedDigest d.votes = some dd) :
    s.takeVote g e = s.closeAct g d.votes e ((((votesAgainst (some dd) d.votes).foldl (s.badAct g 2)
      ((votesFor (some dd) d.votes).foldl (fun u p => u.setTrust (g.copy p.1) .suspect)
        (s.transientTest d (s.refDigest g)))).post ⟨.referenceDisputed, true, s.day.getD 0, some g.reel, some g.segment,
          none, none, some dd, none, (votesFor (some dd) d.votes).length⟩).modDispute g
            (Dispute.disputedOn dd d.votes)) 2 (some dd) := by
  have hkeep := s.transientTest_keepsSegments d (s.refDigest g)
  have hday : ((s.transientTest d (s.refDigest g)).disputedOn g d.votes dd).day = s.day :=
    (hkeep.trans (State.judgedDisputed_keepsSegments _ g d.votes dd)).day
  rw [State.takeVote_disputed hd e hno hs, State.voteDisputed_eq, State.closeVote_acts hday, State.disputedOn,
    State.judgedDisputed, State.judgeAllBad_acts (hkeep.trans (State.setTrusts_keepsSegments _ g _ _)), hkeep.day]
  rfl

theorem State.takeVote_unagreed_acts (hno : ∀ p ∈ d.votes, s.refDigest g ≠ some p.2.digest)
    (hs : sharedDigest d.votes = none) :
    s.takeVote g e = s.endAct g (s.closeAct g d.votes e (d.votes.foldl (s.badAct g 3)
      (s.transientTest d (s.refDigest g))) 3 (s.refDigest g)) d.votes := by
  have hkeep := s.transientTest_keepsSegments d (s.refDigest g)
  rw [State.takeVote_unagreed hd e hno hs, State.voteUnagreed,
    State.closedVote_acts (hkeep.trans (State.judgeAllBad_keepsSegments _ g 3 _)), State.judgeAllBad_acts hkeep]

end

/-- Settles O41: a vote has one of three outcomes (`State.takeVote_agreed` and its kin), each its judgements and then the
closing. What they leave of a copy is the trust that it takes last, for a copy has one vote; what they do is written out by
`State.takeVote_agreed_acts` and its kin. -/
theorem voteOutcomes : Obligations.VoteOutcomes := by
  refine ⟨fun s g e d hd => ⟨s.takeVote_reference g e g, (s.takeVote_works g e).sameParts,
      State.takeVote_agreed_result hd e, fun hno => ⟨?_, fun hdiff => ?_⟩⟩,
    fun s t g e d R find bad closed ended hd hR hfind ht hbad hclosed hended => ?_,
    fun d => ⟨d.votes_rising, fun i o => ?_⟩,
    fun s g => ⟨fun d => State.testDecision_decided, fun d => State.testDecision_open, State.testDecision_none⟩⟩
  · rintro ⟨p, hp, q, hq, hne, hpq⟩
    obtain ⟨dd, hs⟩ := sharedDigest_of_shares d.votes_nodup ⟨p, hp, q, hq, hne, hpq, rfl⟩
    obtain ⟨hentry, htwo, hsuspect, hrejected⟩ := State.takeVote_disputed_result hd e hno hs
    refine ⟨dd, d.disputedOn dd d.votes, hentry, rfl, congrArg (List.map Prod.fst) (votesFor_some dd d.votes),
      congrArg (List.map Prod.fst) (votesAgainst_some dd d.votes), by simpa [Dispute.disputedOn] using htwo,
      fun i hi hlt => ?_, fun i hi hlt => ?_⟩
    · obtain ⟨p, hp, rfl⟩ := List.mem_map.1 hi
      exact hsuspect p hp hlt
    · obtain ⟨p, hp, rfl⟩ := List.mem_map.1 hi
      exact hrejected p hp hlt
  · exact State.takeVote_unagreed_result hd e hno ((sharedDigest_eq_none d.votes_nodup).2 (not_sharesDigest hdiff))
  · subst hR hfind
    obtain rfl : t = s.transientTest d (s.refDigest g) := ht.trans (State.transientTest_eq hd _).symm
    obtain rfl : bad = s.badAct g := hbad
    obtain rfl : closed = s.closeAct g d.votes e := hclosed
    obtain rfl : ended = s.endAct g := hended
    refine ⟨?_, fun hno => ⟨?_, fun hdiff => ?_⟩⟩
    · rintro ha good rejected rfl rfl
      exact State.takeVote_agreed_acts hd e ha
    · rintro dd agreeing rejected ⟨p, hp, hshare⟩ hone rfl rfl
      obtain ⟨dd', hs⟩ := sharedDigest_of_shares d.votes_nodup ⟨p, hp, hshare⟩
      obtain rfl : dd' = dd := hone dd' (sharedDigest_shares d.votes_nodup hs)
      have hfor : (d.votes.filter fun p => p.2.digest = dd') = votesFor (some dd') d.votes := by simp [votesFor]
      have hagainst : (d.votes.filter fun p => p.2.digest ≠ dd') = votesAgainst (some dd') d.votes := by
        simp [votesAgainst]
      rw [hfor, hagainst]
      exact State.takeVote_disputed_acts hd e hno hs
    · exact State.takeVote_unagreed_acts hd e hno ((sharedDigest_eq_none d.votes_nodup).2 (not_sharesDigest hdiff))
  · rw [Dispute.mem_votes, Dispute.effective_eq_some]

end Sys2Proof.Machine
end


section
/-! Proofs: the expiry of a confirm timer (R76, R78). -/

namespace Sys2Proof.Machine

/-- A slot once the confirm timer of its entry has expired: an open one is given up (R78). -/
def Slot.expired : Slot → Slot
  | .wanted | .issued _ => .unread
  | .notWanted => .notWanted
  | .unread => .unread
  | .observed o lane tag => .observed o lane tag

/-- The slots once the first `n` have been given up. -/
def expiredBefore (n : Nat) (slots : List Slot) : List Slot := slots.mapIdx fun i st => if i < n then st.expired else st

section

variable {slots : List Slot} {n : Nat} {st : Slot}

theorem expiredBefore_zero (slots : List Slot) : expiredBefore 0 slots = slots :=
  List.ext_getElem? fun i => by simp [expiredBefore]

theorem expiredBefore_length (slots : List Slot) : expiredBefore slots.length slots = slots.map Slot.expired := by
  refine List.ext_getElem (by simp [expiredBefore]) fun i h _ => ?_
  have hi : i < slots.length := by simpa [expiredBefore] using h
  simp [expiredBefore, hi]

theorem expiredBefore_get (h : slots[n]? = some st) : (expiredBefore n slots)[n]? = some st := by
  simp [expiredBefore, h]

/-- The next slot given up. -/
theorem expiredBefore_succ (h : slots[n]? = some st) :
    expiredBefore (n + 1) slots = (expiredBefore n slots).set n st.expired := by
  refine List.ext_getElem? fun i => ?_
  by_cases hi : n = i
  · subst hi
    have hlt : n < (expiredBefore n slots).length := by simpa [expiredBefore] using (List.getElem?_eq_some_iff.1 h).1
    rw [List.getElem?_set_self hlt]
    simp [expiredBefore, h]
  · have hiff : i < n + 1 ↔ i < n := by omega
    simp only [expiredBefore, List.getElem?_set_ne hi, List.getElem?_mapIdx, hiff]

/-- A slot that is not open stands. -/
theorem expiredBefore_succ_same (h : slots[n]? = some st) (hst : st.expired = st) :
    expiredBefore (n + 1) slots = expiredBefore n slots := by
  obtain ⟨hlt, hget⟩ := List.getElem?_eq_some_iff.1 (expiredBefore_get h)
  rw [expiredBefore_succ h, hst]
  exact hget ▸ List.set_getElem_self hlt

end

/-! ### The entry after a slot is set -/

section

variable {s : State} {c : CopyId} {d : Dispute} {st : Slot}

theorem State.dispute?_setSlot (hd : s.dispute? c.seg = some d) :
    (s.setSlot c st).dispute? c.seg = some { d with slots := d.slots.set c.copy st } :=
  State.dispute?_modDispute (f := fun d => { d with slots := d.slots.set c.copy st }) hd fun _ => rfl

theorem State.dispute?_setSlot_other {k : SegId} (hk : k ≠ c.seg) : (s.setSlot c st).dispute? k = s.dispute? k :=
  State.dispute?_modDispute_other (f := fun d => { d with slots := d.slots.set c.copy st }) (fun _ => rfl) hk

end

/-! ### The slots given up one after the other -/

/-- From `s`, where `d` is the entry of segment `g`, its first `n` slots have been given up, and those that waited have left
the waiting owners; nothing else has changed in `t`. -/
structure State.SlotsExpired (s : State) (g : SegId) (d : Dispute) (n : Nat) (t : State) : Prop where
  entry : t.dispute? g = some { d with slots := expiredBefore n d.slots }
  others : ∀ k, k ≠ g → t.dispute? k = s.dispute? k
  waiters : ∀ x, x ∈ t.queue.waiters ↔
    x ∈ s.queue.waiters ∧ ∀ i < n, d.slots[i]? = some .wanted → x.owner ≠ .slot (g.copy i)
  rest : t = { s with disputes := t.disputes, queue := { s.queue with waiters := t.queue.waiters } }

section

variable {s t : State} {g : SegId} {d : Dispute} {n : Nat}

/-- The status of the next slot. -/
theorem State.SlotsExpired.slot (h : s.SlotsExpired g d n t) {st : Slot} (hst : d.slots[n]? = some st) :
    (t.dispute? g).bind (fun d => d.slots[n]?) = some st := by
  rw [h.entry]
  exact expiredBefore_get hst

/-- The condition on the waiting owners, with one slot more. -/
theorem waited_succ {slots : List Slot} {n : Nat} {st : Slot} (hst : slots[n]? = some st) (g : SegId) (o : Owner) :
    (∀ i < n + 1, slots[i]? = some .wanted → o ≠ .slot (g.copy i)) ↔
      (∀ i < n, slots[i]? = some .wanted → o ≠ .slot (g.copy i)) ∧ (st = .wanted → o ≠ .slot (g.copy n)) := by
  constructor
  · exact fun h => ⟨fun i hi => h i (by omega), fun hw => h n (by omega) (hw ▸ hst)⟩
  · rintro ⟨hlt, hn⟩ i hi hw
    rcases Nat.lt_succ_iff_lt_or_eq.1 hi with hi | rfl
    · exact hlt i hi hw
    · exact hn (Option.some.inj (hst.symm.trans hw))

/-- The next slot is open and becomes UNREAD, in a state whose tables are those of `t` but for the waiting owners. -/
theorem State.SlotsExpired.giveUp (h : s.SlotsExpired g d n t) {st : Slot} (hst : d.slots[n]? = some st)
    (hopen : st.expired = .unread) {u : State} (hu : u = { t with queue := { t.queue with waiters := u.queue.waiters } })
    (hw : ∀ x, x ∈ u.queue.waiters ↔ x ∈ t.queue.waiters ∧ (st = .wanted → x.owner ≠ .slot (g.copy n))) :
    s.SlotsExpired g d (n + 1) (u.setSlot (g.copy n) .unread) := by
  have hdis (k : SegId) : u.dispute? k = t.dispute? k := by rw [hu]; rfl
  refine ⟨?_, fun k hk => ?_, fun x => ?_, ?_⟩
  · rw [expiredBefore_succ hst, hopen]
    exact State.dispute?_setSlot (c := g.copy n) ((hdis g).trans h.entry)
  · exact (State.dispute?_setSlot_other (c := g.copy n) hk).trans ((hdis k).trans (h.others k hk))
  · exact (hw x).trans (by rw [h.waiters, waited_succ hst, and_assoc])
  · rw [hu, h.rest]
    rfl

/-- The next slot is not open and stands. -/
theorem State.SlotsExpired.keep (h : s.SlotsExpired g d n t) {st : Slot} (hst : d.slots[n]? = some st)
    (hsame : st.expired = st) (hw : st ≠ .wanted) : s.SlotsExpired g d (n + 1) t where
  entry := by rw [expiredBefore_succ_same hst hsame]; exact h.entry
  others := h.others
  waiters x := by rw [h.waiters, waited_succ hst, and_iff_left fun hc => absurd hc hw]
  rest := h.rest

/-- One more slot. -/
theorem State.SlotsExpired.expireSlot (h : s.SlotsExpired g d n t) (hn : n < d.slots.length) :
    s.SlotsExpired g d (n + 1) (t.expireSlot (g.copy n)) := by
  obtain ⟨st, hst⟩ : ∃ st, d.slots[n]? = some st := ⟨_, List.getElem?_eq_getElem hn⟩
  have hslot : (t.dispute? (g.copy n).seg).bind (fun d => d.slots[(g.copy n).copy]?) = some st := h.slot hst
  unfold State.expireSlot
  rw [hslot]
  cases st with
  | wanted => exact h.giveUp (u := t.stopWaiting (.slot (g.copy n))) hst rfl rfl fun x => by simp [State.stopWaiting]
  | issued tag => exact h.giveUp (u := t) hst rfl rfl fun x => by simp
  | notWanted => exact h.keep hst rfl (by simp)
  | observed o lane tag => exact h.keep hst rfl (by simp)
  | unread => exact h.keep hst rfl (by simp)

/-- All the slots of the entry are given up in ascending index. -/
theorem State.slotsExpired_range (hd : s.dispute? g = some d) {n : Nat} (hn : n ≤ d.slots.length) :
    s.SlotsExpired g d n (((List.range n).map g.copy).foldl State.expireSlot s) := by
  induction n with
  | zero => exact ⟨by rw [expiredBefore_zero]; exact hd, fun _ _ => rfl, fun x => by simp, rfl⟩
  | succ n ih =>
    rw [List.range_succ, List.map_append, List.foldl_append]
    exact (ih (by omega)).expireSlot (by omega)

end

/-- Settles O44: the slots are given up one after the other (`State.slotsExpired_range`); after the withdrawals, which leave
the references, the vote leaves no entry that collects (`State.takeVote_collecting?`). -/
theorem confirmExpiryDecides : Obligations.ConfirmExpiryDecides := by
  rintro reel segment s g rfl
  refine ⟨fun d hd => ?_, fun hd => ?_⟩
  · have hentry := (Option.filter_eq_some_iff.1 hd).1
    have hw := State.slotsExpired_range hentry (Nat.le_refl d.slots.length)
    have hsteady : s.Steady (fun _ => True) (((s.openItems d).filter Item.isQueued).foldl State.withdrawItem
        (((List.range d.slots.length).map (SegId.copy ⟨reel, segment⟩)).foldl State.expireSlot s)) :=
      (State.Steady.foldl _ (fun t c _ => t.expireSlot_steady _ c) s).trans
        (State.Steady.foldl _ (fun t it _ => t.withdrawItem_steady _ it) _)
    have hexec : exec (.confirmTimerExpiry reel segment) s = .next (s.expireDispute ⟨reel, segment⟩ d).settle := by
      change execConfirmTimerExpiry reel segment s = _
      simp only [execConfirmTimerExpiry, hd]
    refine ⟨_, s.expireDispute ⟨reel, segment⟩ d, ?_, hw.others, fun x => (hw.waiters x).trans ?_, hw.rest, rfl, hexec,
      (s.expireDispute_works _ d).sameParts, ?_, ?_⟩
    · rw [hw.entry, expiredBefore_length]
      refine congrArg (fun l : List Slot => some { d with slots := l }) (List.map_congr_left fun st _ => ?_)
      cases st <;> rfl
    · refine and_congr_right fun _ => ⟨fun h i hi => h i (List.getElem?_eq_some_iff.1 hi).1 hi, fun h i _ => h i⟩
    · exact (State.wakeRoom_steady _ fun _ => True).collecting?_none (State.takeVote_collecting? _ _ true)
    · exact ((State.wakeRoom_steady _ fun _ => True).reference _).trans
        ((State.takeVote_reference _ _ true _).trans (hsteady.reference _))
  · change execConfirmTimerExpiry reel segment s = _
    simp only [execConfirmTimerExpiry, hd]

end Sys2Proof.Machine
end


section
/-! Proofs: the walker's shape through every step (R107, R109, R111, R113, R118). -/

namespace Sys2Proof.Machine

/-- A walker as power-on leaves it is in shape, when the slots and the day are in their ranges. -/
theorem State.walkerOk.ofInitial {s : State} (hw : s.walker = Walker.initial)
    (hloaded : ∀ i es, s.slot i = .loaded es → 1 ≤ es.length ∧ es.length ≤ 512)
    (hloading : ∀ i h tag es, s.slot i ≠ .loading h tag es) (hday : ∀ d, s.day = some d → d ≤ 65535) : s.walkerOk := by
  unfold State.walkerOk
  rw [hw]
  exact ⟨iff_of_true rfl rfl, iff_of_true rfl rfl, nofun, nofun, nofun, hloaded,
    fun i h tag es hi => absurd hi (hloading i h tag es), hday⟩

/-- Work inside an event keeps the walker's shape: it leaves the walker, or wakes one that waits. -/
theorem State.Works.walkerOk {s t : State} (h : s.Works t) (hs : s.walkerOk) : t.walkerOk := by
  rw [State.walkerOk_iff] at hs ⊢
  rw [h.slots, h.day]
  rcases h.walker with hw | ⟨hwait, hw⟩
  · rwa [hw]
  · rw [hw]
    refine hs.setState ?_ (by decide)
    rcases hwait with hst | hst <;> rw [hst] <;> decide

/-- Every move keeps the walker's shape: only work and a move of the plan touch it. -/
theorem Move.walkerOk {s t : State} (hs : s.walkerOk) (m : Move s t) : t.walkerOk := by
  cases m with
  | works h => exact h.walkerOk hs
  | plan w slots day h => exact h hs
  | port h p _ => cases h <;> exact hs
  | settle => exact hs
  | lane _ _ _ => exact hs
  | windows _ _ => exact hs
  | pacer _ _ => exact hs
  | findings _ _ => exact hs
  | settings _ _ => exact hs
  | ladder _ _ _ => exact hs

/-- A slot that is LOADED after a card reset was LOADED with those entries before it (R109, R110). -/
theorem PlanSlot.cardReset_eq_loaded {p : PlanSlot} {es : List PlanEntry} (h : p.cardReset = .loaded es) :
    p = .loaded es := by
  cases p with
  | loaded _ => exact h
  | empty => cases h
  | loading _ _ _ => cases h

theorem PlanSlot.cardReset_ne_loading (p : PlanSlot) (h : Head) (tag : Half) (es : List PlanEntry) :
    p.cardReset ≠ .loading h tag es := by
  cases p <;> nofun

/-- A card reset leaves the walker IDLE and empties or keeps each slot. -/
theorem execCardReset_walkerOk {s t : State} (hs : s.walkerOk) (h : execCardReset s = .next t) : t.walkerOk := by
  obtain ⟨-, -, -, -, -, hloaded, -, hday⟩ := hs
  have hslot := State.slot_cardReset h
  refine .ofInitial (by cases h; rfl) (fun i es hi => ?_) (fun i k tag es hi => ?_) (by cases h; exact hday)
  · exact hloaded i es (PlanSlot.cardReset_eq_loaded ((hslot i).symm.trans hi))
  · exact PlanSlot.cardReset_ne_loading _ k tag es ((hslot i).symm.trans hi)

/-- Power-on leaves the walker IDLE, the slots EMPTY and the day unset. -/
theorem execPowerOn_walkerOk {s t : State} (h : execPowerOn s = .next t) : t.walkerOk := by
  have hslot : ∀ i, t.slot i = .empty := State.slot_of_allEmpty (by cases h; rfl)
  refine .ofInitial (by cases h; rfl) (fun i es hi => ?_) (fun i k tag es hi => ?_) (by cases h; nofun)
  · rw [hslot] at hi
    cases hi
  · rw [hslot] at hi
    cases hi

/-- Settles O10: every move keeps the shape, and both resets leave the walker IDLE. -/
theorem walkerShapeKept : Obligations.WalkerShapeKept := fun _ _ =>
  step_keeps (P := State.walkerOk) (fun _ _ h => h) (fun _ _ => Move.walkerOk) (fun _ _ _ => execPowerOn_walkerOk)
    fun _ _ => execCardReset_walkerOk

end Sys2Proof.Machine
end


section
/-! Proofs: the walker's entries and passes, and WALKER_POSITION (R116 to R126). -/

namespace Sys2Proof.Machine

section

variable (s : State)

/-! ### Taking up an entry (R116, R119) -/

theorem State.takeUpEntry_halted {i : Nat} (hh : s.walker.haltEntry = some i) (e : PlanEntry) :
    s.takeUpEntry i e = { s with walker := { s.walker with state := .halted, haltEntry := none } } := if_pos hh

theorem State.takeUpEntry_taken {i : Nat} {e : PlanEntry} {r : Reel} (hh : s.walker.haltEntry ≠ some i)
    (hr : s.activeReel? e.acc = some r) (hlt : e.firstSegment < r.segCount) :
    s.takeUpEntry i e =
      { s with walker := { s.walker with position := some ⟨i, e.firstSegment, 0⟩, entryPhase := .taken } } := by
  simp only [State.takeUpEntry, if_neg hh, hr, if_neg (Nat.not_le.2 hlt)]

/-- An entry whose reel is not ACTIVE is stale with cause 1, one whose reel is too short with cause 2. -/
theorem State.takeUpEntry_stale {i : Nat} {e : PlanEntry} {cause : Nat} (hh : s.walker.haltEntry ≠ some i)
    (hc : s.activeReel? e.acc = none ∧ cause = 1 ∨
      cause = 2 ∧ ∃ r, s.activeReel? e.acc = some r ∧ r.segCount ≤ e.firstSegment) :
    s.takeUpEntry i e = s.foundStale i e cause := by
  rcases hc with ⟨hn, rfl⟩ | ⟨rfl, r, hr, hle⟩
  · simp only [State.takeUpEntry, if_neg hh, hn]
  · simp only [State.takeUpEntry, if_neg hh, hr, if_pos hle]

theorem State.takeUpEntry_takesUp (i : Nat) (e : PlanEntry) : s.takesUp i e (s.takeUpEntry i e) :=
  ⟨fun hh => s.takeUpEntry_halted hh e, fun hh => ⟨fun _ => s.takeUpEntry_taken hh, fun _ => s.takeUpEntry_stale hh⟩⟩

/-! ### The start and the end of a pass (R117, R118) -/

theorem State.planEntriesNow_of_running {s : State} {slot : Nat} (hr : s.walker.running = some slot) :
    s.planEntriesNow = (s.slot slot).entries := by
  simp [State.planEntriesNow, hr]

/-- A pass start takes up entry 0 of the running slot. -/
theorem State.passStart_of_running {s : State} {slot : Nat} {e : PlanEntry} (hr : s.walker.running = some slot)
    (he : (s.slot slot).entries[0]? = some e) :
    s.passStart = ({ s with
      media := s.media.map Medium.applyReset
      walker := { s.walker with
        pass := (s.walker.pass + 1) % 256, notices := [], position := some ⟨0, e.firstSegment, 0⟩,
        entryPhase := .ahead } } : State).takeUpEntry 0 e := by
  have hnow : s.planEntriesNow[0]? = some e := by rw [State.planEntriesNow_of_running hr, he]
  have hstart : s.entryStart 0 = ⟨0, e.firstSegment, 0⟩ := by simp [State.entryStart, hnow]
  rw [State.passStart_eq, hnow, ← hstart]
  rfl

theorem State.passStart_startsPass {s : State} {slot : Nat} {e : PlanEntry} (hr : s.walker.running = some slot)
    (he : (s.slot slot).entries[0]? = some e) : s.startsPass e s.passStart := by
  rw [State.passStart_of_running hr he]
  exact State.takeUpEntry_takesUp _ 0 e

/-- The state in which the end of a pass has posted PLAN_DONE. -/
def State.planDone (slot : Nat) : State := s.post (s.planFinding .planDone none none (s.walker.pass + 256 * slot))

theorem State.passEnd_queued {q : Nat} (hq : s.walker.queued = some q) (slot : Nat) :
    s.passEnd slot = ({ s.planDone slot with
      walker := { s.walker with running := some q, queued := none, haltEntry := none } } : State).passStart := by
  simp only [State.passEnd, State.post_walker, hq]
  rfl

theorem State.passEnd_loop (hq : s.walker.queued = none) (hl : s.walker.loop = true) (slot : Nat) :
    s.passEnd slot = (s.planDone slot).passStart := by
  simp only [State.passEnd, State.post_walker, hq, if_pos hl]
  rfl

theorem State.passEnd_idle (hq : s.walker.queued = none) (hl : s.walker.loop = false) (slot : Nat) :
    s.passEnd slot = { s.planDone slot with
      walker := { s.walker with state := .idle, running := none, position := none, entryPhase := .ahead } } := by
  simp only [State.passEnd, State.post_walker, hq, hl]
  rfl

/-! ### The end of an entry (R119) -/

/-- The state in which the end of an entry has posted its note. -/
def State.noted (slot i : Nat) (e : PlanEntry) : State :=
  if e.note then s.post (s.planFinding .planMark (some e.acc) none (i + 512 * slot)) else s

theorem State.noted_rest (slot i : Nat) (e : PlanEntry) : s.noted slot i e = { s with fq := (s.noted slot i e).fq } := by
  unfold State.noted
  split <;> rfl

/-- The walker goes on after an entry: to the next one, or to the end of its pass. -/
def State.wentOn (slot i : Nat) (e : PlanEntry) : State :=
  if endsPlan s.planEntriesNow i e then s.passEnd slot else s.gotoEntry (i + 1)

theorem State.finishEntry_eq (slot i : Nat) (e : PlanEntry) : s.finishEntry slot i e =
    if e.hold && ((s.noted slot i e).wentOn slot i e).walker.state != .idle then
      { (s.noted slot i e).wentOn slot i e with
        walker := { ((s.noted slot i e).wentOn slot i e).walker with state := .paused } }
    else (s.noted slot i e).wentOn slot i e := rfl

theorem State.wentOn_next {s : State} {slot i : Nat} {e next : PlanEntry} (hr : s.walker.running = some slot)
    (hl : e.last = false) (hn : (s.slot slot).entries[i + 1]? = some next) :
    s.wentOn slot i e = { s with walker :=
      { s.walker with position := some ⟨i + 1, next.firstSegment, 0⟩, entryPhase := .ahead } } := by
  have hnow := State.planEntriesNow_of_running hr
  have hlt := (List.getElem?_eq_some_iff.1 hn).1
  have hend : endsPlan s.planEntriesNow i e = false := by
    simp only [endsPlan, hl, hnow, Bool.false_or, beq_eq_false_iff_ne]
    omega
  have hstart : s.entryStart (i + 1) = ⟨i + 1, next.firstSegment, 0⟩ := by simp [State.entryStart, hnow, hn]
  rw [State.wentOn, hend, ← hstart]
  rfl

theorem State.wentOn_end {s : State} {slot i : Nat} {e : PlanEntry} (hr : s.walker.running = some slot)
    (hl : e.last = true ∨ i + 1 = (s.slot slot).entries.length) : s.wentOn slot i e = s.passEnd slot := by
  refine if_pos ?_
  rw [endsPlan, State.planEntriesNow_of_running hr, Bool.or_eq_true, beq_iff_eq]
  exact hl

/-- The walker finishes an entry as R118 and R119 say: the note changes the findings alone, so what follows it reads the
plan and the walker of `s`. -/
theorem State.finishEntry_endsEntry {s : State} {slot : Nat} (hr : s.walker.running = some slot) (i : Nat)
    (e : PlanEntry) : s.endsEntry slot i e (s.finishEntry slot i e) := by
  have hnote : s.noted slot i e = if e.note = true then { s with fq := s.fq.post ⟨.planMark, false, s.day.getD 0,
      some e.acc, none, none, none, none, none, i + 512 * slot⟩ } else s := rfl
  rw [State.finishEntry_eq]
  have hrest := s.noted_rest slot i e
  generalize s.noted slot i e = v at hnote hrest
  have hwalker : v.walker = s.walker := by rw [hrest]
  have hslot (q : Nat) : v.slot q = s.slot q := by rw [hrest]; rfl
  have hdone : v.planDone slot = { v with fq := v.fq.post ⟨.planDone, false, s.day.getD 0, none, none, none, none, none,
      none, s.walker.pass + 256 * slot⟩ } := by rw [hrest]; rfl
  rw [← hwalker] at hr
  refine ⟨v, v.wentOn slot i e, v.planDone slot, hnote, hdone, fun next hl hn => ?_, fun hl => ⟨?_, ?_, ?_⟩, ?_⟩
  · exact State.wentOn_next hr hl (by rwa [hslot])
  · intro q first hq hf
    rw [State.wentOn_end hr (by rwa [hslot]), v.passEnd_queued (hwalker ▸ hq)]
    exact State.passStart_startsPass rfl ((congrArg (fun p : PlanSlot => p.entries[0]?) (hslot q)).trans hf)
  · intro first hq hloop hf
    rw [State.wentOn_end hr (by rwa [hslot]), v.passEnd_loop (hwalker ▸ hq) (hwalker ▸ hloop)]
    exact State.passStart_startsPass hr ((congrArg (fun p : PlanSlot => p.entries[0]?) (hslot slot)).trans hf)
  · intro hq hloop
    rw [State.wentOn_end hr (by rwa [hslot]), v.passEnd_idle (hwalker ▸ hq) (hwalker ▸ hloop)]
    rfl
  · simp only [Bool.and_eq_true, bne_iff_ne]

/-! ### One position (R119 to R126) -/

theorem State.advance_movesOn {s : State} {slot : Nat} (hr : s.walker.running = some slot) (p : Position) (e : PlanEntry)
    (r : Reel) : s.movesOn slot p e r (s.advance slot p e r) := by
  refine ⟨fun h => if_pos h, fun h h' => ?_, fun h h' => ?_⟩
  · rw [State.advance, if_neg (Nat.not_lt.2 h), if_pos h']
  · rw [State.advance, if_neg (Nat.not_lt.2 h), if_neg (Nat.not_lt.2 h')]
    exact State.finishEntry_endsEntry hr _ _

theorem State.evaluate_stale {p : Position} {e : PlanEntry}
    (h : ∀ r, s.activeReel? e.acc = some r → e.endSegment r < p.segment) (slot : Nat) :
    s.evaluate slot p e = s.staleRest slot p.entry e := by
  unfold State.evaluate
  split
  · rfl
  · next r hr => exact if_pos (h r hr)

/-- The due score of a copy of a reel, today (R121). -/
def State.scoreOf (r : Reel) (c : CopyId) : Nat := dueScore (s.copy c) s.today r.scrubInterval (s.copyHealth c)

section

variable {s : State} {p : Position} {e : PlanEntry} {r : Reel} {c : CopyId} {b : Band}
  (hr : s.activeReel? e.acc = some r) (hle : p.segment ≤ e.endSegment r) (hc : c = ⟨e.acc, p.segment, p.copy⟩)

include hr hle hc

/-- A position that a skip test removes, or whose score no band contains, is passed over. -/
theorem State.evaluate_passed (h : s.skipped e r c = true ∨ findBand s.bands (s.scoreOf r c) = none) (slot : Nat) :
    s.evaluate slot p e = s.advance slot p e r := by
  subst hc
  simp only [State.evaluate, hr, if_neg (Nat.not_lt.2 hle)]
  by_cases hs : s.skipped e r ⟨e.acc, p.segment, p.copy⟩ = true
  · rw [if_pos hs]
  · have hb := h.resolve_left hs
    unfold State.scoreOf at hb
    rw [if_neg hs, hb]

/-- A position whose score a band contains: the band's notice, then its action. -/
theorem State.evaluate_banded (hs : s.skipped e r c = false) (hb : findBand s.bands (s.scoreOf r c) = some b) {t : State}
    (ht : t = s.notice p c (s.scoreOf r c) b) (slot : Nat) :
    (b.action = .skip → s.evaluate slot p e = t.advance slot p e r) ∧
    ∀ cls, (b.action = .normal ∧ cls = .normal ∨ b.action = .priority ∧ cls = .priority) →
      s.evaluate slot p e = t.releaseOrWait slot p e r c cls := by
  subst hc ht
  unfold State.scoreOf at hb
  simp only [State.evaluate, hr, if_neg (Nat.not_lt.2 hle), hs, hb]
  refine ⟨fun ha => by rw [ha]; rfl, fun cls hcls => ?_⟩
  rcases hcls with ⟨ha, rfl⟩ | ⟨ha, rfl⟩ <;> rw [ha] <;> rfl

end

/-- The notice changes the findings and the walker's marks alone, once for an entry and pass (R122). -/
theorem State.notice_eq (p : Position) (c : CopyId) (score : Nat) (b : Band) : s.notice p c score b =
    if b.notify = true ∧ p.entry ∉ s.walker.notices then { s with
      fq := s.fq.post ⟨.dueNotice, false, s.day.getD 0, some c.reel, some c.segment, some c.copy,
        some (s.mediumOf c), none, none, score⟩
      walker := { s.walker with notices := s.walker.notices ++ [p.entry] } } else s := by
  simp only [State.notice, Bool.and_eq_true, Bool.not_eq_true', List.contains_eq_mem, decide_eq_false_iff_not]
  rfl

theorem State.notice_rest (p : Position) (c : CopyId) (score : Nat) (b : Band) : s.notice p c score b =
    { s with fq := (s.notice p c score b).fq, walker := (s.notice p c score b).walker } := by
  unfold State.notice
  split <;> rfl

theorem State.notice_running (p : Position) (c : CopyId) (score : Nat) (b : Band) :
    (s.notice p c score b).walker.running = s.walker.running := by
  unfold State.notice
  split <;> rfl

section

variable {slot : Nat} {p : Position} {e : PlanEntry} {r : Reel} {c : CopyId} {cls : ItemClass}

theorem State.releaseOrWait_full (h : 32 ≤ s.queue.items.length) : s.releaseOrWait slot p e r c cls =
    { s with walker := { s.walker with state := .waitRoom } } := if_pos h

theorem State.releaseOrWait_noCredit (h : s.queue.items.length < 32)
    (hc : s.pacer.state ≠ .work ∨ s.pacer.credit ≤ 0) : s.releaseOrWait slot p e r c cls =
    { s with walker := { s.walker with state := .waitCredit } } := by
  have hno : ¬(s.pacer.state = .work ∧ 0 < s.pacer.credit) := fun ⟨h1, h2⟩ => hc.elim (· h1) (by omega)
  exact (if_neg (Nat.not_le.2 h)).trans (if_neg hno)

theorem State.releaseOrWait_released (h : s.queue.items.length < 32) (hw : s.pacer.state = .work)
    (hc : 0 < s.pacer.credit) : s.releaseOrWait slot p e r c cls =
    (s.createItem .scrub cls c 0#64).advance slot p e r :=
  (if_neg (Nat.not_le.2 h)).trans (if_pos ⟨hw, hc⟩)

end

/-! ### One step of a WALKING walker -/

theorem execWalkerPosition_walking {s : State} (hw : s.walker.state = .walking) :
    exec .walkerPosition s = .next s.walk.settle := if_pos hw

/-- A step of the walk by the phase of the entry at the walker's position. -/
theorem State.walk_of_phase {slot : Nat} {p : Position} {e : PlanEntry} (hr : s.walker.running = some slot)
    (hp : s.walker.position = some p) (he : (s.slot slot).entries[p.entry]? = some e) :
    (s.walker.entryPhase = .ahead → s.walk = s.walkEntry slot p.entry e) ∧
    (s.walker.entryPhase = .taken → s.walk = s.evaluate slot p e) ∧
    (s.walker.entryPhase = .stale → s.walk = s.finishEntry slot p.entry e) := by
  have hnow : s.planEntriesNow[p.entry]? = some e := by rw [State.planEntriesNow_of_running hr, he]
  refine ⟨fun hph => ?_, fun hph => ?_, fun hph => ?_⟩ <;> simp only [State.walk, hr, hp, hnow, hph]

end

/-- Settles O51: a step of the walk by its phase (`State.walk_of_phase`), the position by `State.evaluate_stale`,
`State.evaluate_passed` and `State.evaluate_banded`; where the walker moves on or ends an entry, by
`State.advance_movesOn` and `State.finishEntry_endsEntry`. -/
theorem walkerPositionResult : Obligations.WalkerPositionResult := by
  refine fun s => ⟨fun hn => if_neg hn, fun slot p e hw hr hp he => ?_⟩
  obtain ⟨hahead, htaken, hstale⟩ := s.walk_of_phase hr hp he
  rw [execWalkerPosition_walking hw]
  refine ⟨fun hph => ⟨_, s.takeUpEntry_takesUp p.entry e, fun hn => ?_, fun hs => ⟨_, State.finishEntry_endsEntry
      ((s.takeUpEntry_shape p.entry e).1.trans hr) p.entry e, ?_⟩⟩, fun hph => ?_, fun hph hgone => ?_,
    fun r c hph hreel hle hc => ?_⟩
  · rw [hahead hph, State.walkEntry, if_neg hn]
  · rw [hahead hph, State.walkEntry, if_pos hs]
  · exact ⟨_, State.finishEntry_endsEntry hr p.entry e, by rw [hstale hph]⟩
  · exact ⟨_, State.finishEntry_endsEntry (s := s.postStale p.entry e 3) hr p.entry e,
      by rw [htaken hph, s.evaluate_stale hgone]; rfl⟩
  · rw [htaken hph]
    refine ⟨fun hpass => ⟨_, State.advance_movesOn hr p e r, by rw [State.evaluate_passed hreel hle hc hpass]⟩,
      fun b v hskip hb hv => ?_⟩
    rw [← State.notice_eq] at hv
    obtain ⟨hskipped, hdue⟩ := State.evaluate_banded hreel hle hc hskip hb hv slot
    have hrest : v = { s with fq := v.fq, walker := v.walker } := hv ▸ s.notice_rest p c (s.scoreOf r c) b
    have hr' : v.walker.running = some slot := by rw [hv, State.notice_running, hr]
    have hqueue : v.queue = s.queue := by rw [hrest]
    have hpacer : v.pacer = s.pacer := by rw [hrest]
    refine ⟨fun ha => ⟨_, State.advance_movesOn hr' p e r, by rw [hskipped ha]⟩, fun cls hcls => ?_⟩
    rw [hdue cls hcls]
    refine ⟨fun hfull => ?_, fun hroom hno => ?_, fun hroom hwork hcredit => ?_⟩
    · rw [v.releaseOrWait_full (hqueue ▸ hfull)]
    · rw [v.releaseOrWait_noCredit (hqueue ▸ hroom) (hpacer ▸ hno)]
    · refine ⟨v.createItem .scrub cls c 0#64, _, State.advance_movesOn (s := v.createItem .scrub cls c 0#64) hr' p e r,
        by rw [v.releaseOrWait_released (hqueue ▸ hroom) (hpacer ▸ hwork) (hpacer ▸ hcredit)], ?_⟩
      have hcopy : p.copy = c.copy := by rw [hc]
      rw [hrest, hcopy]
      exact ⟨rfl, rfl, fun hlt => congrArg CopyRec.itemTag (State.createItem_copy _ .scrub cls 0#64 hlt),
        fun k hk => State.createItem_copy_other _ .scrub cls 0#64 hk, rfl, rfl, rfl, rfl, rfl,
        ⟨rfl, rfl, rfl, rfl, rfl, rfl, rfl, rfl, rfl, rfl⟩⟩

end Sys2Proof.Machine
end


section
/-! Proofs: the plan orders and the day clock (R108 to R114, R117, R119). -/

namespace Sys2Proof.Machine

/-! ### PLAN_LOAD (R109, R110) -/

theorem planEntries_length (body : List Byte) : (planEntries body).length = leAt body 2 2 := by
  simp [planEntries]

theorem PlanEntry.inRange_iff {e : PlanEntry} : e.inRange = true ↔
    e.acc ≠ 0 ∧ 1 ≤ e.copyMask ∧ e.copyMask ≤ 7 ∧ e.firstSegment ≤ 16383 ∧ e.segmentCount ≤ 16384 := by
  simp [PlanEntry.inRange, and_assoc]

/-- PLAN_LOAD past its first check: a slot in use is refused, else the list decides. -/
theorem planLoad_eq {body : List Byte} (hi : leAt body 0 1 < 2) (h1 : 1 ≤ leAt body 2 2) (h512 : leAt body 2 2 ≤ 512)
    (h : Head) (tag : Half) (s : State) : planLoad h tag body s =
      if (s.slot (leAt body 0 1)).isLoading = true ∨ s.walker.running = some (leAt body 0 1) ∨
        s.walker.queued = some (leAt body 0 1) then .answered s (.refused .slotBusy [])
      else if (planEntries body).all PlanEntry.inRange = true then
        .begun (s.setPlanSlot (leAt body 0 1) (.loading h tag (planEntries body)))
      else .answered s (.refused .badArgument []) := by
  have hargs : ¬(2 ≤ leAt body 0 1 ∨ (planEntries body).length = 0 ∨ Config.planEntriesMax < (planEntries body).length) := by
    have hmax : Config.planEntriesMax = 512 := rfl
    rw [planEntries_length]
    omega
  exact if_neg hargs

/-- Settles O47: PLAN_LOAD by `planLoad_eq`, its completion by the state of the slot. -/
theorem planLoadResult : Obligations.PlanLoadResult := by
  refine ⟨fun h tag body s ht hi h1 h512 => ?_, fun slot s => ⟨fun h tag es hs => ?_, fun hs => ?_⟩⟩
  · have heq := planLoad_eq hi h1 h512 h tag (s.popOrder h)
    simp only [State.popOrder_slot, State.popOrder_walker] at heq
    refine ⟨fun hl hr hq hes => exec_begun (exec_planLoad h) ht (heq.trans ?_),
      fun hu => exec_answered (exec_planLoad h) ht (heq.trans (if_pos hu))⟩
    have hin : (planEntries body).all PlanEntry.inRange = true :=
      List.all_eq_true.2 fun e he => PlanEntry.inRange_iff.2 (hes e he)
    rw [if_neg (by simp [hl, hr, hq]), if_pos hin]
  · change execPlanLoadCompletion slot s = _
    simp only [execPlanLoadCompletion, hs]
    rfl
  · change execPlanLoadCompletion slot s = _
    unfold execPlanLoadCompletion
    cases hp : s.slot slot with
    | loading h tag es => rw [hp] at hs; cases hs
    | empty => rfl
    | loaded es => rfl

/-! ### PLAN_START (R112, R117) -/

/-- The state of PLAN_START in which entry 0, `e`, is still to be taken up. -/
def State.passBegun (s : State) (slot : Nat) (loop : Bool) (halt : Option Nat) (e : PlanEntry) : State :=
  { s with
    media := s.media.map Medium.applyReset
    walker := ⟨.walking, some slot, none, loop, halt, some ⟨0, e.firstSegment, 0⟩, .ahead, (s.walker.pass + 1) % 256, []⟩ }

theorem State.passStart_begun {s : State} {slot : Nat} {e : PlanEntry} (he : (s.slot slot).entries[0]? = some e)
    {loop : Bool} {halt : Option Nat} :
    ({ s with walker := { s.walker with
      state := .walking, running := some slot, queued := none, loop := loop, haltEntry := halt } } : State).passStart =
    (s.passBegun slot loop halt e).takeUpEntry 0 e := State.passStart_of_running rfl he

theorem State.takeUpEntry_pass (s : State) (i : Nat) (e : PlanEntry) :
    (s.takeUpEntry i e).walker.pass = s.walker.pass := by
  unfold State.takeUpEntry
  repeat' split
  all_goals rfl

theorem optHalf_of_ne {v : Nat} (h : v ≠ 65535) : optHalf v = some v := if_neg h

section

variable {body : List Byte} {s : State} {es : List PlanEntry} {e : PlanEntry} (hb : leAt body 1 1 ≤ 1)
  (hi : leAt body 0 1 < 2)

include hb hi

theorem planStart_busy (hw : s.walker.state ≠ .idle) : planStart body s = .answered s (.refused .busy []) := by
  simp only [planStart, boolAt_of_le hb, if_neg (Nat.not_le.2 hi), if_pos hw]
  rfl

variable (hw : s.walker.state = .idle) (hs : s.slot (leAt body 0 1) = .loaded es)
  (hh : leAt body 2 2 = 65535 ∨ leAt body 2 2 < es.length)

include hw hs hh

/-- PLAN_START with the walker IDLE, on a LOADED slot and with a halt entry that is ABSENT or one of the plan. -/
theorem planStart_idle : planStart body s =
    if s.day = none then .answered s (.refused .dayUnset [])
    else
      let t := ({ s with walker := { s.walker with
        state := .walking, running := some (leAt body 0 1), queued := none, loop := leAt body 1 1 == 1,
        haltEntry := optHalf (leAt body 2 2) } } : State).passStart
      .answered t (.ok (leBytes 1 t.walker.pass ++ zeros 3)) := by
  have hhalt : ¬((optHalf (leAt body 2 2)).any fun n => es.length ≤ n) = true := by
    rcases eq_or_ne (leAt body 2 2) 65535 with h | h
    · simp [h, optHalf]
    · simpa [optHalf_of_ne h] using hh.resolve_left h
  simp only [planStart, boolAt_of_le hb, if_neg (Nat.not_le.2 hi), hw, hs]
  exact if_neg hhalt

/-- With the day set the pass starts, and its entry 0 is taken up. -/
theorem planStart_starts (he : es[0]? = some e) (hd : s.day ≠ none) : planStart body s =
    .answered ((s.passBegun (leAt body 0 1) (leAt body 1 1 == 1) (optHalf (leAt body 2 2)) e).takeUpEntry 0 e)
      (.ok (leBytes 1 ((s.walker.pass + 1) % 256) ++ zeros 3)) := by
  have he' : (s.slot (leAt body 0 1)).entries[0]? = some e := by rw [hs]; exact he
  rw [planStart_idle hb hi hw hs hh, if_neg hd]
  dsimp only
  rw [State.passStart_begun he', State.takeUpEntry_pass]
  rfl

end

/-- Settles O48: the pass starts by `planStart_starts`, and entry 0 is taken up by the lemmas on `State.takeUpEntry`. -/
theorem planStartResult : Obligations.PlanStartResult := by
  intro h tag body s es e start ht hb hi hstart
  have hex {u a} (ha : planStart body (s.popOrder h) = .answered u a) :
      exec (.planStart h) s = .next (u.answer h 41 tag a) := exec_answered (exec_planStart h) ht ha
  refine ⟨fun hw => hex (planStart_busy hb hi (by simpa using hw)), fun hw hs he hd hh => hex ?_, fun hw hs he hd => ?_⟩
  · rw [planStart_idle hb hi (by simpa using hw) (by simpa using hs) hh, if_pos (by simpa using hd)]
  · have hpass {halt : Option Nat} {u : State} (ho : optHalf (leAt body 2 2) = halt)
        (hh : leAt body 2 2 = 65535 ∨ leAt body 2 2 < es.length)
        (hu : ((s.popOrder h).passBegun (leAt body 0 1) (leAt body 1 1 == 1) halt e).takeUpEntry 0 e = u) :
        exec (.planStart h) s = .next (u.answer h 41 tag (.ok (leBytes 1 ((s.walker.pass + 1) % 256) ++ zeros 3))) := by
      refine hex ?_
      rw [planStart_starts hb hi (by simpa using hw) (by simpa using hs) hh he (by simpa using hd), ho, hu,
        State.popOrder_walker]
    have hreel (halt : Option Nat) : ((s.popOrder h).passBegun (leAt body 0 1) (leAt body 1 1 == 1) halt e).activeReel?
        e.acc = s.activeReel? e.acc := s.popOrder_activeReel? h e.acc
    subst hstart
    refine ⟨fun h0 => ?_, fun halt hh => ?_⟩
    · have hlt := (List.getElem?_eq_some_iff.1 he).1
      refine hpass (congrArg optHalf h0) (.inr (h0 ▸ hlt)) ((State.takeUpEntry_halted _ rfl e).trans ?_)
      simp [State.passBegun]
    · obtain ⟨ho, hh', hne⟩ : optHalf (leAt body 2 2) = halt ∧
          (leAt body 2 2 = 65535 ∨ leAt body 2 2 < es.length) ∧ halt ≠ some 0 := by
        rcases hh with ⟨hv, rfl⟩ | ⟨h1, hlt, hv, rfl⟩
        · exact ⟨if_pos hv, .inl hv, nofun⟩
        · exact ⟨optHalf_of_ne hv, .inr hlt, fun hc => by have := Option.some.inj hc; omega⟩
      refine ⟨fun r hr hlt => hpass ho hh' ?_, fun cause hc => hpass ho hh' ?_⟩
      · rw [State.takeUpEntry_taken _ hne ((hreel halt).trans hr) hlt]
        simp [State.passBegun]
      · rw [← hreel halt] at hc
        rw [State.takeUpEntry_stale _ hne hc]
        simp [State.foundStale, State.postStale, State.post, State.planFinding, State.today, State.passBegun]

/-! ### PLAN_QUEUE, PLAN_PAUSE and PLAN_RESUME (R113, R114) -/

/-- Settles O49. -/
theorem planQueuePauseResume : Obligations.PlanQueuePauseResume := by
  refine fun h tag body s => ⟨fun ht hi => ?_, fun ht => ?_, fun ht => ?_⟩
  · have hex {u a} (ha : planQueue body (s.popOrder h) = .answered u a) :
        exec (.planQueue h) s = .next (u.answer h 42 tag a) := exec_answered (exec_planQueue h) ht ha
    have hi' : ¬2 ≤ leAt body 0 1 := Nat.not_le.2 hi
    refine ⟨fun hw => hex ?_, fun hw hr => hex ?_, fun hw hr hl => hex ?_, fun hw hr hl => hex ?_⟩
    · simp [planQueue, hi', hw, Answer.no]
    · simp [planQueue, hi', hw, hr, Answer.no]
    · simp [planQueue, hi', hw, hr, hl, Answer.no]
    · simp [planQueue, hi', hw, hr, hl]
  · have hex {u a} (ha : planPause (s.popOrder h) = .answered u a) :
        exec (.planPause h) s = .next (u.answer h 43 tag a) := exec_answered (exec_planPause h) ht ha
    refine ⟨fun hw => hex ?_, fun hw => hex ?_, fun hw => hex ?_⟩
    · rcases hw with hw | hw | hw <;> simp [planPause, hw]
    · rcases hw with hw | hw <;> simp [planPause, hw]
    · simp [planPause, hw, Answer.no]
  · have hex {u a} (ha : planResume (s.popOrder h) = .answered u a) :
        exec (.planResume h) s = .next (u.answer h 44 tag a) := exec_answered (exec_planResume h) ht ha
    refine ⟨fun hw => hex ?_, fun hp hh => hex ?_⟩
    · rcases hw with hw | hw <;> simp [planResume, hw]
    · unfold planResume
      rw [State.popOrder_walker]
      cases hw : s.walker.state with
      | paused => exact absurd hw hp
      | halted => exact absurd hw hh
      | idle => rfl
      | walking => rfl
      | waitCredit => rfl
      | waitRoom => rfl

/-! ### DAY_SET (R108) -/

/-- Settles O52: the days ahead on the ring are the same number in Nat and in Int. -/
theorem daySetResult : Obligations.DaySetResult := by
  intro h tag body s ht
  have hex {u a} (ha : daySet body (s.popOrder h) = .answered u a) :
      exec (.daySet h) s = .next (u.answer h 47 tag a) := exec_answered (exec_daySet h) ht ha
  have hv : leAt body 0 2 < 65536 := leAt_lt body 0 2
  refine ⟨fun hd => hex ?_, fun today hd hle => ⟨fun he => hex ?_, fun h1 h2 => hex ?_, fun h1 => hex ?_⟩⟩
  · simp only [daySet, State.popOrder_day, hd]
  · have h0 : (leAt body 0 2 + 65536 - today) % 65536 = 0 := by omega
    simp only [daySet, State.popOrder_day, hd, if_pos h0]
  · have h0 : ¬(leAt body 0 2 + 65536 - today) % 65536 = 0 := by omega
    have hlt : (leAt body 0 2 + 65536 - today) % 65536 ≤ 32767 := by omega
    simp only [daySet, State.popOrder_day, hd, if_neg h0, if_pos hlt]
  · have h0 : ¬(leAt body 0 2 + 65536 - today) % 65536 = 0 := by omega
    have hlt : ¬(leAt body 0 2 + 65536 - today) % 65536 ≤ 32767 := by omega
    simp only [daySet, State.popOrder_day, hd, if_neg h0, if_neg hlt]

end Sys2Proof.Machine
end


section
/-! Proofs: BANDS_SET, LADDER_SET, TIMERS_SET and ATTENTION_SET (R122, R123, R173, R174, R188, R197). -/

namespace Sys2Proof.Machine

/-! ### Lists read from an order's body -/

/-- A list that is read entry by entry has as many entries as were read. -/
theorem length_of_mapM_eq_some {α β : Type} {f : α → Option β} {l : List α} {r : List β} (h : l.mapM f = some r) :
    r.length = l.length := by
  induction l generalizing r with
  | nil =>
    obtain rfl : r = [] := by simpa [eq_comm] using h
    rfl
  | cons a l ih =>
    simp only [List.mapM_cons, Option.bind_eq_bind, Option.bind_eq_some_iff, Option.pure_def, Option.some.injEq] at h
    obtain ⟨b, -, bs, hbs, rfl⟩ := h
    simp [ih hbs]

theorem bandsOperand_length {body : List Byte} {bands : List Band} (h : bandsOperand body = some bands) :
    bands.length = leAt body 0 1 := (length_of_mapM_eq_some h).trans List.length_range

theorem ladderOperand_length {body : List Byte} {steps : List LadderStep} (h : ladderOperand body = some steps) :
    steps.length = leAt body 0 1 := (length_of_mapM_eq_some h).trans List.length_range

/-- A list of no band, or of more than 6, is refused. -/
theorem bandsSet_badLength {body : List Byte} (h : leAt body 0 1 = 0 ∨ 6 < leAt body 0 1) (s : State) :
    bandsSet body s = .answered s (.refused .badArgument []) := by
  unfold bandsSet
  cases hb : bandsOperand body with
  | none => rfl
  | some bands =>
    have hlen := bandsOperand_length hb
    exact if_neg fun ⟨h1, h6, _⟩ => by omega

/-- A list of no step, or of more than 5, is refused. -/
theorem ladderSet_badLength {body : List Byte} (h : leAt body 0 1 = 0 ∨ 5 < leAt body 0 1) (s : State) :
    ladderSet body s = .answered s (.refused .badArgument []) := by
  unfold ladderSet
  cases hl : ladderOperand body with
  | none => rfl
  | some steps =>
    have hlen := ladderOperand_length hl
    exact if_neg fun ⟨h1, h5, _⟩ => by omega

/-! ### The ladder (R173, R174) -/

theorem ladderRising_iff {low : Nat} {steps : List LadderStep} : ladderRising low steps = true ↔
    (∀ t ∈ steps, low < t.threshold) ∧ (steps.map LadderStep.threshold).Pairwise (· < ·) := by
  induction steps generalizing low with
  | nil => simp [ladderRising]
  | cons t ts ih =>
    simp only [ladderRising, Bool.and_eq_true, decide_eq_true_eq, ih, List.forall_mem_cons, List.map_cons,
      List.pairwise_cons, List.forall_mem_map]
    exact ⟨fun ⟨h1, h2, h3⟩ => ⟨⟨h1, fun u hu => h1.trans (h2 u hu)⟩, h2, h3⟩, fun ⟨⟨h1, _⟩, h2, h3⟩ => ⟨h1, h2, h3⟩⟩

/-- Every step before the position has a threshold at most the points. -/
theorem threshold_le_of_lt_ladderPosition {points i : Nat} {steps : List LadderStep} {t : LadderStep}
    (hi : i < ladderPosition points steps) (ht : steps[i]? = some t) : t.threshold ≤ points := by
  induction steps generalizing i with
  | nil => cases ht
  | cons u us ih =>
    unfold ladderPosition at hi
    split at hi
    · omega
    · next hu =>
      cases i with
      | zero => cases ht; omega
      | succ i => exact ih (Nat.lt_of_succ_lt_succ hi) ht

/-- The step at the position, if there is one, is above the points. -/
theorem lt_threshold_ladderPosition {points : Nat} {steps : List LadderStep} {t : LadderStep}
    (ht : steps[ladderPosition points steps]? = some t) : points < t.threshold := by
  rcases ladderPosition_le points steps with h | ⟨u, hu, hlt⟩
  · rw [h, List.getElem?_eq_none (Nat.le_refl _)] at ht
    cases ht
  · exact Option.some.inj (hu.symm.trans ht) ▸ hlt

theorem ladderPosition_le_length (points : Nat) (steps : List LadderStep) : ladderPosition points steps ≤ steps.length := by
  rcases ladderPosition_le points steps with h | ⟨t, ht, -⟩
  · exact h.le
  · exact (List.getElem?_eq_some_iff.1 ht).1.le

/-! ### The four orders -/

theorem bandsSet_result {h : Head} {tag : Half} {body : List Byte} {s : State} (ht : s.takes h 46 tag body) :
    (∀ bands, bandsOperand body = some bands → 1 ≤ bands.length → bands.length ≤ 6 → (∀ b ∈ bands, b.low ≤ b.high) →
      exec (.bandsSet h) s = .next (({ s.popOrder h with bands := bands }).answer h 46 tag (.ok []))) ∧
    ((leAt body 0 1 = 0 ∨ 6 < leAt body 0 1) →
      exec (.bandsSet h) s = .next ((s.popOrder h).answer h 46 tag (.refused .badArgument []))) := by
  refine ⟨fun bands hb h1 h6 hlow => exec_answered (exec_bandsSet h) ht ?_,
    fun hn => exec_answered (exec_bandsSet h) ht (bandsSet_badLength hn _)⟩
  simp only [bandsSet, hb]
  exact if_pos ⟨h1, h6, by simpa using hlow⟩

theorem ladderSet_result {h : Head} {tag : Half} {body : List Byte} {s : State} (ht : s.takes h 52 tag body)
    {steps : List LadderStep} (hs : ladderOperand body = some steps) (h1 : 1 ≤ steps.length) (h5 : steps.length ≤ 5)
    (hpos : ∀ t ∈ steps, 1 ≤ t.threshold) (hrise : (steps.map LadderStep.threshold).Pairwise (· < ·)) :
    exec (.ladderSet h) s = .next (({ s.popOrder h with
      ladder := steps
      media := s.media.map fun (m : Medium) => { m with position := ladderPosition m.points steps } }).answer h 52 tag
        (.ok [])) := by
  refine exec_answered (exec_ladderSet h) ht ?_
  simp only [ladderSet, hs, State.popOrder_media]
  exact if_pos ⟨h1, h5, ladderRising_iff.2 ⟨hpos, hrise⟩⟩

/-- Settles O58: the two tables by their lengths and ranges, the ladder's positions by the lemmas on `ladderPosition`; the
timers and the attention settings by the ranges of their values. -/
theorem settingsOrders : Obligations.SettingsOrders := by
  refine ⟨fun h tag body s => ⟨bandsSet_result, fun ht => ⟨fun steps hs h1 h5 hpos hrise =>
      ⟨_, ladderSet_result ht hs h1 h5 hpos hrise, rfl, fun m hm => ?_⟩,
    fun hn => exec_answered (exec_ladderSet h) ht (ladderSet_badLength hn _)⟩⟩,
    fun h tag body s => ⟨fun ht => ⟨fun hin => ?_, fun hout => ?_⟩, fun ht => ⟨fun h1 h256 => ?_, fun hout => ?_⟩⟩⟩
  · obtain ⟨n, -, rfl⟩ := List.mem_map.1 hm
    exact ⟨ladderPosition_le_length _ _, fun _ => lt_threshold_ladderPosition,
      fun _ _ => threshold_le_of_lt_ladderPosition⟩
  · exact exec_answered (exec_timersSet h) ht (if_pos hin)
  · exact exec_answered (exec_timersSet h) ht (if_neg (by dsimp only; omega))
  · exact exec_answered (exec_attentionSet h) ht (if_pos ⟨h1, h256⟩)
  · exact exec_answered (exec_attentionSet h) ht (if_neg (by omega))

end Sys2Proof.Machine
end


section
/-! Proofs: PLAN_STOP (R115, R142, R151). -/

namespace Sys2Proof.Machine

/-! ### Service adds CONFIRM and REPAIR items alone -/

/-- From `s` to `t` items are only added, none of them a SCRUB item, and no two get the same tag. -/
structure State.AddsOwned (s t : State) : Prop where
  kept : ∀ i ∈ s.queue.items, i ∈ t.queue.items
  added : ∀ i ∈ t.queue.items, i ∈ s.queue.items ∨ i.kind ≠ .scrub
  apart : (s.queue.items.map Item.tag).Nodup → (t.queue.items.map Item.tag).Nodup

namespace State.AddsOwned

theorem trans {s t u : State} (h1 : s.AddsOwned t) (h2 : t.AddsOwned u) : s.AddsOwned u where
  kept i hi := h2.kept i (h1.kept i hi)
  added i hi := (h2.added i hi).elim (h1.added i) .inr
  apart := h2.apart ∘ h1.apart

/-- The same items. -/
theorem ofItems {s t : State} (h : t.queue.items = s.queue.items) : s.AddsOwned t where
  kept _ hi := h ▸ hi
  added _ hi := .inl (h ▸ hi)
  apart hn := h ▸ hn

end State.AddsOwned

/-- In a queue of at most 40 items the next tag is no item's. -/
theorem Queue.nextTag_notMem {q : Queue} (h : q.items.length ≤ 40) : q.nextTag ∉ q.items.map Item.tag := by
  have hrange : 1 ≤ succTag q.lastTag ∧ succTag q.lastTag ≤ 65535 := by
    unfold succTag
    split <;> omega
  simpa [Queue.nextTag] using freeTag_free (q.items.map Item.tag) (succTag q.lastTag) hrange (by simpa using h)

section

variable (s : State)

theorem State.createItem_addsOwned {kind : ItemKind} (hk : kind ≠ .scrub) (cls : ItemClass) (c : CopyId) (mask : Mask)
    (hl : s.queue.items.length ≤ 40) : s.AddsOwned (s.createItem kind cls c mask) := by
  have hperm : (s.createItem kind cls c mask).queue.items.Perm (_ :: s.queue.items) := placeLast_perm _ _
  refine ⟨fun i hi => hperm.mem_iff.2 (List.mem_cons_of_mem _ hi), fun i hi => ?_, fun hn => ?_⟩
  · rcases List.mem_cons.1 (hperm.mem_iff.1 hi) with rfl | hi
    · exact .inr hk
    · exact .inl hi
  · rw [(hperm.map Item.tag).nodup_iff, List.map_cons, List.nodup_cons]
    exact ⟨Queue.nextTag_notMem hl, hn⟩

theorem State.issue_addsOwned (o : Owner) (hl : s.queue.items.length ≤ 40) : s.AddsOwned (s.issue o) := by
  cases o with
  | slot c => exact (s.createItem_addsOwned (by decide) _ c _ hl).trans (.ofItems rfl)
  | repair c => exact (s.createItem_addsOwned (by decide) _ c _ hl).trans (.ofItems rfl)

theorem State.serveList_addsOwned (ws : List Waiter) : s.AddsOwned (State.serveList ws s) := by
  induction ws generalizing s with
  | nil => exact .ofItems rfl
  | cons w ws ih =>
    unfold State.serveList
    split
    · next hroom =>
      have hwaiters : s.AddsOwned { s with queue := { s.queue with waiters := ws } } := .ofItems rfl
      exact (hwaiters.trans (State.issue_addsOwned _ w.owner (Nat.le_of_lt hroom))).trans (ih _)
    · exact .ofItems rfl

theorem State.serve_addsOwned : s.AddsOwned s.serve := s.serveList_addsOwned _

theorem State.leftoverGone_addsOwned (c : CopyId) : s.AddsOwned (s.leftoverGone c) := by
  unfold State.leftoverGone
  repeat' split
  · exact State.AddsOwned.trans (t := s.startWaiting (.repair c)) (.ofItems rfl) (State.serve_addsOwned _)
  · exact .ofItems rfl
  · exact .ofItems rfl

/-- A withdrawal takes the item out; then owners may be served. -/
theorem State.withdrawItem_addsOwned (it : Item) : (s.takeOut it).AddsOwned (s.withdrawItem it) := by
  unfold State.withdrawItem
  refine State.AddsOwned.trans (.ofItems ?_) (State.serve_addsOwned _)
  split
  · rfl
  · rw [State.refundCredit_queueEq]

theorem State.mem_takeOut {it i : Item} : i ∈ (s.takeOut it).queue.items ↔ i ∈ s.queue.items ∧ i.tag ≠ it.tag := by
  change i ∈ s.queue.items.filter _ ↔ _
  simp

/-! ### The sweep -/

/-- PLAN_STOP's withdrawal of one item (R115 step 2). -/
def State.sweepItem (it : Item) : State := (s.withdrawItem it).leftoverGone it.target

theorem State.sweepItem_works (it : Item) : s.Works (s.sweepItem it) :=
  (s.withdrawItem_works it).trans (State.leftoverGone_works _ _)

theorem State.sweepItem_addsOwned (it : Item) : (s.takeOut it).AddsOwned (s.sweepItem it) :=
  (s.withdrawItem_addsOwned it).trans (State.leftoverGone_addsOwned _ _)

end

/-- After the sweep of a list of items, what is left was there before and is not of the list, or is no SCRUB item; and
every item that is not of the list is left. -/
theorem State.sweep_items {l : List Item} {s : State} (hs : (s.queue.items.map Item.tag).Nodup)
    (hl : (l.map Item.tag).Nodup) (hmem : ∀ it ∈ l, it ∈ s.queue.items) :
    (∀ i ∈ (l.foldl State.sweepItem s).queue.items, i ∈ s.queue.items ∧ i ∉ l ∨ i.kind ≠ .scrub) ∧
      ∀ i ∈ s.queue.items, i ∉ l → i ∈ (l.foldl State.sweepItem s).queue.items := by
  induction l generalizing s with
  | nil => exact ⟨fun i hi => .inl ⟨hi, List.not_mem_nil⟩, fun i hi _ => hi⟩
  | cons it l ih =>
    have hstep := s.sweepItem_addsOwned it
    have hout : ((s.takeOut it).queue.items.map Item.tag).Nodup := hs.sublist (List.filter_sublist.map _)
    obtain ⟨hnew, hl⟩ := List.nodup_cons.1 hl
    have hrest : ∀ j ∈ l, j ∈ (s.sweepItem it).queue.items := fun j hj =>
      hstep.kept j (s.mem_takeOut.2 ⟨hmem j (List.mem_cons_of_mem _ hj), fun ht => hnew (ht ▸ List.mem_map_of_mem hj)⟩)
    obtain ⟨hleft, hkept⟩ := ih (hstep.apart hout) hl hrest
    rw [List.foldl_cons]
    refine ⟨fun i hi => ?_, fun i hi hn => ?_⟩
    · refine (hleft i hi).elim (fun ⟨hi, hn⟩ => (hstep.added i hi).imp_left fun hi => ?_) .inr
      obtain ⟨hi, htag⟩ := s.mem_takeOut.1 hi
      exact ⟨hi, List.not_mem_cons_of_ne_of_not_mem (fun he => htag (congrArg Item.tag he)) hn⟩
    · obtain ⟨hne, hn⟩ := List.ne_and_not_mem_of_not_mem_cons hn
      have htag : i.tag ≠ it.tag := fun ht => hne (List.inj_on_of_nodup_map hs hi (hmem it List.mem_cons_self) ht)
      exact hkept i (hstep.kept i (s.mem_takeOut.2 ⟨hi, htag⟩)) hn

theorem State.wakeRoom_queue (s : State) : s.wakeRoom.queue = s.queue := by
  obtain ⟨-, -, -, -, hq⟩ := s.wakeRoom_sameTables
  exact hq

/-- The state PLAN_STOP leaves before its reply. -/
def State.planStopped (s : State) : State :=
  (s.queuedScrubs.foldl State.sweepItem { s with walker := s.walker.stopped }).wakeRoom

theorem planStop_eq (s : State) :
    planStop s = .answered s.planStopped (.ok (leBytes 1 s.queuedScrubs.length ++ zeros 3)) := rfl

theorem State.mem_queuedScrubs {s : State} {i : Item} :
    i ∈ s.queuedScrubs ↔ i ∈ s.queue.items ∧ i.kind = .scrub ∧ i.isQueued = true := by
  simp [State.queuedScrubs]

/-- What PLAN_STOP does to the items. -/
theorem State.planStopped_items {s : State} (hs : (s.queue.items.map Item.tag).Nodup) :
    (∀ i ∈ s.planStopped.queue.items, ¬(i.kind = .scrub ∧ i.isQueued = true)) ∧
      ∀ i ∈ s.queue.items, ¬(i.kind = .scrub ∧ i.isQueued = true) → i ∈ s.planStopped.queue.items := by
  obtain ⟨hleft, hkept⟩ := State.sweep_items (s := { s with walker := s.walker.stopped }) (l := s.queuedScrubs) hs
    (hs.sublist (List.filter_sublist.map _)) fun it hit => List.mem_of_mem_filter hit
  rw [State.planStopped, State.wakeRoom_queue]
  refine ⟨fun i hi ⟨hk, hq⟩ => (hleft i hi).elim (fun ⟨hi, hn⟩ => ?_) (· hk), fun i hi hn => hkept i hi fun hc => ?_⟩
  · exact hn (State.mem_queuedScrubs.2 ⟨hi, hk, hq⟩)
  · exact hn (State.mem_queuedScrubs.1 hc).2

/-- After the walker has stopped, PLAN_STOP is work inside the event. -/
theorem State.planStopped_works (s : State) : ({ s with walker := s.walker.stopped } : State).Works s.planStopped :=
  (State.Works.foldl State.sweepItem_works _ _).trans (State.wakeRoom_works _)

/-- The work of PLAN_STOP wakes no walker, as the walker is IDLE. -/
theorem State.planStopped_walker (s : State) : s.planStopped.walker = s.walker.stopped := by
  rcases s.planStopped_works.walker with h | ⟨h, -⟩
  · exact h
  · rcases h with h | h <;> cases h

/-- Settles O50. -/
theorem planStopResult : Obligations.PlanStopResult := by
  intro h tag s ht hnd
  have hqueue := s.popOrder_queue h
  have hswept : (s.popOrder h).queuedScrubs = s.queuedScrubs := by rw [State.queuedScrubs, hqueue]; rfl
  have hwalker : (s.popOrder h).walker.stopped =
      ⟨.idle, none, none, false, none, none, .ahead, s.walker.pass, s.walker.notices⟩ := by
    rw [State.popOrder_walker]
    rfl
  obtain ⟨hgone, hkept⟩ := State.planStopped_items (s := s.popOrder h) (by rwa [hqueue])
  rw [hqueue] at hkept
  refine ⟨(s.popOrder h).planStopped, ?_, ?_, (s.popOrder h).planStopped_works.sameParts,
    (s.popOrder h).planStopped_walker.trans hwalker, hgone, hkept⟩
  · rw [exec_answered (exec_planStop h) ht (planStop_eq _), hswept]
    rfl
  · rw [State.planStopped, hswept, hwalker]
    rfl

end Sys2Proof.Machine
end


section
/-! Proofs: the Pacer's windows, starts and stops, and that every step keeps it within its ranges (R129 to R138). -/

namespace Sys2Proof.Machine

/-! ### Every step keeps the Pacer within its ranges -/

/-- Work inside an event moves credit alone, by charges and refunds that stop at the floor and the cap. -/
theorem State.Works.pacerOk {s t : State} (h : s.Works t) (hs : s.pacer.ok) : t.pacer.ok := by
  obtain ⟨c, hp, hrange⟩ := h.pacer
  obtain ⟨hfloor, hcap, hrest⟩ := hs
  obtain ⟨hfloor, hcap⟩ := hrange hfloor hcap
  rw [hp]
  exact ⟨hfloor, hcap, hrest⟩

/-- Every move keeps the Pacer within its ranges: only work and a move of the Pacer touch it. -/
theorem Move.pacerOk {s t : State} (hs : s.pacer.ok) (m : Move s t) : t.pacer.ok := by
  cases m with
  | works h => exact h.pacerOk hs
  | pacer p h => exact h hs
  | port h p _ => rwa [State.setPort_pacer]
  | settle => exact hs
  | lane _ _ _ => exact hs
  | windows _ _ => exact hs
  | plan _ _ _ _ => exact hs
  | findings _ _ => exact hs
  | settings _ _ => exact hs
  | ladder _ _ _ => exact hs

/-- Settles O4: every move keeps the ranges; power-on has the Pacer of `State.reset`, and a card reset halts it. -/
theorem creditRangeKept : Obligations.CreditRangeKept := by
  intro s t
  refine step_keeps (P := fun s => s.pacer.ok) (fun _ _ h => h) (fun _ _ => Move.pacerOk) (fun s t _ h => ?_)
    (fun s t hs h => ?_)
  · obtain ⟨-, hpacer, -⟩ := resetIsSound
    cases h
    exact hpacer
  · cases h
    exact Pacer.halted_ok hs

/-! ### The Pacer's own changes -/

theorem PaceSettings.inRange_iff {q : PaceSettings} : q.inRange = true ↔
    1 ≤ q.budget ∧ q.budget ≤ 65535 ∧ q.fraction ≤ 15 ∧ 1 ≤ q.work ∧ q.work ≤ 4095 ∧ q.yield ≤ 4095 ∧
      q.delay ≤ 65535 := by
  simp [PaceSettings.inRange, and_assoc]

section

variable (p : Pacer)

/-- The clamp to the floor and the cap of R129. -/
theorem Pacer.clamp_eq : p.clamp =
    { p with credit := max (-4 * (p.inForce.budget : Int)) (min p.credit (2 * p.inForce.budget)) } := by
  rw [Pacer.clamp, Pacer.floor, Pacer.cap, Int.neg_mul]

/-- What a staged set makes of the Pacer (R131). -/
theorem Pacer.bringStaged_eq : p.bringStaged = { p with inForce := p.staged.getD p.inForce, staged := none } := by
  obtain ⟨_, _, _, _, _, _, staged⟩ := p
  cases staged <;> rfl

/-- A pending stop without a staged set keeps the settings and the credit (R136). -/
theorem Pacer.enterStopped_none (h : p.staged = none) :
    p.enterStopped = { p with state := .stopped, window := none, stopPending := false } := by
  simp [Pacer.enterStopped, h]

/-- A pending stop with a staged set brings it into force and clamps credit to its range (R131, R136). -/
theorem Pacer.enterStopped_some {set : PaceSettings} (h : p.staged = some set) : p.enterStopped =
    { p with
      state := .stopped, window := none, stopPending := false, inForce := set, staged := none
      credit := max (-4 * (set.budget : Int)) (min p.credit (2 * set.budget)) } := by
  simp [Pacer.enterStopped, Pacer.bringStaged_eq, Pacer.clamp_eq, h]

/-- The fraction accumulates with a carry of at most 1, as both summands are at most 15 (R135 steps 3 and 4). -/
theorem Pacer.grant_eq (ha : p.acc ≤ 15) (hf : p.inForce.fraction ≤ 15) :
    ∃ acc carry : Nat, carry ≤ 1 ∧ acc ≤ 15 ∧ acc + 16 * carry = p.acc + p.inForce.fraction ∧
      p.grant = { p with
        acc := acc, credit := min (p.credit + p.inForce.budget + carry) (2 * p.inForce.budget) } := by
  by_cases hcarry : 16 ≤ p.acc + p.inForce.fraction
  · refine ⟨p.acc + p.inForce.fraction - 16, 1, by omega, by omega, by omega, ?_⟩
    simp [Pacer.grant, Pacer.cap, hcarry]
  · refine ⟨p.acc + p.inForce.fraction, 0, by omega, by omega, by omega, ?_⟩
    simp [Pacer.grant, Pacer.cap, hcarry]

end

/-- Where credit is above 0 after the Pacer's part, a walker that waits for credit is woken (R135, R139). -/
theorem State.startWorkWindow_eq (s : State) : s.startWorkWindow =
    { s with
      pacer := s.pacer.startWork
      walker := if 0 < s.pacer.startWork.credit ∧ s.walker.state = .waitCredit then
        { s.walker with state := .walking } else s.walker } := by
  unfold State.startWorkWindow State.wakeCredit
  dsimp only
  by_cases hcredit : 0 < s.pacer.startWork.credit
  · rw [if_pos hcredit]
    by_cases hw : s.walker.state = .waitCredit
    · rw [if_pos hw, if_pos ⟨hcredit, hw⟩]
    · rw [if_neg hw, if_neg fun h => hw h.2]
  · rw [if_neg hcredit, if_neg fun h => hcredit h.1]

/-- Settles O55: the staged set by `Pacer.bringStaged_eq`, the clamp by `Pacer.clamp_eq`, the fraction, carry and grant by
`Pacer.grant_eq`, the wake by `State.startWorkWindow_eq`. -/
theorem workWindowStart : Obligations.WorkWindowStart := by
  rintro s hacc set rfl hfraction
  obtain ⟨acc, carry, hcarry, hacc', hsum, hgrant⟩ := s.pacer.bringStaged.clamp.grant_eq
    (by simpa [Pacer.bringStaged_eq, Pacer.clamp_eq] using hacc)
    (by simpa [Pacer.bringStaged_eq, Pacer.clamp_eq] using hfraction)
  rw [Pacer.clamp_eq, Pacer.bringStaged_eq] at hsum hgrant
  refine ⟨acc, carry, _, hcarry, hacc', hsum, rfl, ?_⟩
  rw [State.startWorkWindow_eq, Pacer.startWork, Pacer.clamp_eq, Pacer.bringStaged_eq, hgrant]

/-! ### The orders -/

/-- The ranges of the settings in an order's body (R130): no value of two bytes is above 65535, so the budget's upper bound
and the delay's always hold. -/
theorem paceOperand_inRange_iff (body : List Byte) : (paceOperand body).inRange = true ↔
    1 ≤ leAt body 0 2 ∧ leAt body 2 1 ≤ 15 ∧ 1 ≤ leAt body 4 2 ∧ leAt body 4 2 ≤ 4095 ∧ leAt body 6 2 ≤ 4095 := by
  have hbudget : leAt body 0 2 ≤ 65535 := Nat.le_of_lt_succ (leAt_lt body 0 2)
  have hdelay : leAt body 8 2 ≤ 65535 := Nat.le_of_lt_succ (leAt_lt body 8 2)
  simp only [PaceSettings.inRange_iff, paceOperand]
  omega

/-- Settles O53: the set is the one of the order's body; its ranges decide on the refusal, the Pacer's state on whether it
comes into force, with the clamp of `Pacer.clamp_eq`, or is staged. -/
theorem paceSetResult : Obligations.PaceSetResult := by
  rintro h tag body s set ht rfl
  have hex {u a} (ha : paceSet body (s.popOrder h) = .answered u a) :
      exec (.paceSet h) s = .next (u.answer h 48 tag a) := exec_answered (exec_paceSet h) ht ha
  refine ⟨fun hout => hex (if_neg fun hin => ?_), fun hb hf hw hw' hy => ?_⟩
  · rw [paceOperand_inRange_iff] at hin
    dsimp only at hout
    omega
  · have hin := (paceOperand_inRange_iff body).2 ⟨hb, hf, hw, hw', hy⟩
    refine ⟨fun hst c hc => hex ((if_pos hin).trans ?_), fun hst => hex ((if_pos hin).trans ?_)⟩
    · subst hc
      rw [State.popOrder_pacer, if_pos hst, Pacer.clamp_eq]
      rfl
    · rw [State.popOrder_pacer, if_neg hst]
      rfl

/-- Settles O54: the four branches of the order, by the Pacer's state, its delay and the stop pending. -/
theorem paceStartResult : Obligations.PaceStartResult := by
  intro h tag s ht
  have hex {u a} (ha : paceStart (s.popOrder h) = .answered u a) :
      exec (.paceStart h) s = .next (u.answer h 49 tag a) := exec_answered (exec_paceStart h) ht ha
  refine ⟨fun hst hd => hex ?_, fun hst hd => hex ?_, fun hst hp => hex ?_, fun hst hp => hex ?_⟩
  · simp [paceStart, hst, hd]
  · simp [paceStart, hst, hd]
  · simp [paceStart, hst, hp]
  · simp [paceStart, hst, hp, Answer.no]

/-- Settles O57: the halted Pacer is `Pacer.halted_eq`. -/
theorem paceHaltResult : Obligations.PaceHaltResult := by
  intro h tag s ht
  refine exec_answered (exec_paceHalt h) ht ?_
  rw [paceHalt, State.popOrder_pacer, Pacer.halted_eq]

/-! ### The ends of the windows -/

/-- At the end of the window that runs, a pending stop makes the Pacer STOPPED, whichever window it is (R134, R136). -/
theorem exec_windowEnd_stopPending {s : State} {c : Instr}
    (hc : c = .delayTimerExpiry ∧ s.pacer.state = .delay ∨ c = .workWindowEnd ∧ s.pacer.state = .work ∨
      c = .yieldWindowEnd ∧ s.pacer.state = .yield) (hp : s.pacer.stopPending = true) :
    exec c s = .next { s with pacer := s.pacer.enterStopped } := by
  rcases hc with ⟨rfl, hst⟩ | ⟨rfl, hst⟩ | ⟨rfl, hst⟩
  · exact (if_pos hst).trans (if_pos hp)
  · exact (if_pos hst).trans (if_pos hp)
  · exact (if_pos hst).trans (if_pos hp)

/-- Settles O56: the order by the Pacer's state, each window's end by the stop pending, and the stop by
`Pacer.enterStopped_none` and `Pacer.enterStopped_some`. -/
theorem stopAtWindowEnd : Obligations.StopAtWindowEnd := by
  refine ⟨fun h tag s ht => ⟨fun hst => exec_answered (exec_paceStop h) ht ?_,
      fun hst => exec_answered (exec_paceStop h) ht ?_⟩,
    fun s => ⟨fun hst hp => ?_, fun hst hp => ?_, fun hst hp hy => ?_, fun hst hp hy => ?_, fun c hc hp hset => ?_,
      fun c set hc hp hset => ?_, fun c hc => ?_⟩⟩
  · simp [paceStop, hst]
  · simp [paceStop, hst]
  · exact (if_pos hst).trans (if_neg (ne_true_of_eq_false hp))
  · exact (if_pos hst).trans (if_neg (ne_true_of_eq_false hp))
  · exact (if_pos hst).trans ((if_neg (ne_true_of_eq_false hp)).trans (if_neg (by omega)))
  · exact (if_pos hst).trans ((if_neg (ne_true_of_eq_false hp)).trans (if_pos hy))
  · rw [exec_windowEnd_stopPending hc hp, Pacer.enterStopped_none _ hset]
  · rw [exec_windowEnd_stopPending hc hp, Pacer.enterStopped_some _ hset]
  · rcases hc with ⟨rfl, hst⟩ | ⟨rfl, hst⟩ | ⟨rfl, hst⟩
    · exact if_neg hst
    · exact if_neg hst
    · exact if_neg hst

end Sys2Proof.Machine
end


section
/-! Proofs: what every step keeps of the Work Item Queue (R147, R149 to R152). -/

namespace Sys2Proof.Machine

/-- A property of the tables that has a `Keeper` and that both resets keep is kept by every step. -/
theorem Keeper.step_keeps {P : State → Prop} (hP : Keeper P) (hpower : ∀ s t, P s → execPowerOn s = .next t → P t)
    (hreset : ∀ s t, P s → execCardReset s = .next t → P t) {s t : State} (hs : P s) (h : step s = .next t) : P t := by
  unfold step at h
  split at h
  · cases h
    exact hs
  · next c rest _ =>
    have hs' : P { s with pending := rest } := hP.same hs
    by_cases hp : c = .powerOn
    · subst hp
      exact hpower _ t hs' h
    · by_cases hr : c = .cardReset
      · subst hr
        exact hreset _ t hs' h
      · exact exec_keeps hP c hp hr hs' h

/-- A queue without items and without waiting owners is in order, whatever tag was issued last. -/
theorem Queue.ok_empty {lastTag : Nat} (waitCount : Nat) (h : lastTag ≤ 65535) :
    Queue.ok ⟨[], lastTag, [], waitCount⟩ :=
  ⟨Nat.zero_le _, .nil, nofun, h, fun hw => absurd rfl hw, .nil⟩

/-- Power-on empties the queue, and the last tag issued is 0 again (R167). -/
theorem execPowerOn_queueOk {s t : State} (h : execPowerOn s = .next t) : t.queue.ok := by
  cases h
  exact Queue.ok_empty 0 (Nat.zero_le _)

/-- A card reset empties the queue and keeps the last tag issued (R167). -/
theorem execCardReset_queueOk {s t : State} (hs : s.queue.ok) (h : execCardReset s = .next t) : t.queue.ok := by
  obtain ⟨-, -, -, hlast, -, -⟩ := hs
  cases h
  exact Queue.ok_empty 0 hlast

/-- Settles O8: every operation on the queue keeps it in order (`Queue.keeper`), and both resets empty it. -/
theorem workItemQueueKept : Obligations.WorkItemQueueKept := fun _ _ =>
  Queue.keeper.step_keeps (fun _ _ _ => execPowerOn_queueOk) fun _ _ => execCardReset_queueOk

end Sys2Proof.Machine
end


section
/-! Proofs: the charge against a medium and its climb up the ladder, and that every step keeps every medium's place on the
ladder (R169, R171 to R174, R179). -/

namespace Sys2Proof.Machine

/-! ### Every step keeps the ladder condition -/

/-- Media that keep their place on the same ladder keep the ladder condition. -/
theorem State.ladderOk.ofPlaced {s t : State} (hs : s.ladderOk) (hladder : t.ladder = s.ladder)
    (hplaced : (∀ m ∈ s.media, m.placedOn s.ladder) → ∀ m ∈ t.media, m.placedOn s.ladder) : t.ladderOk := by
  obtain ⟨hpos, hmax, hrise, hmedia⟩ := hs
  unfold State.ladderOk
  rw [hladder]
  exact ⟨hpos, hmax, hrise, hplaced hmedia⟩

/-- Every move keeps the ladder condition: only work, which charges media, and a move of the ladder touch it. -/
theorem Move.ladderOk {s t : State} (hs : s.ladderOk) (m : Move s t) : t.ladderOk := by
  cases m with
  | works h => exact hs.ofPlaced h.ladder h.media
  | ladder steps media h => exact h hs
  | port h p _ => exact hs.ofPlaced (s.setPort_ladder h p) fun hm => by rwa [State.setPort_media]
  | settle => exact hs
  | lane _ _ _ => exact hs
  | windows _ _ => exact hs
  | plan _ _ _ _ => exact hs
  | pacer _ _ => exact hs
  | findings _ _ => exact hs
  | settings _ _ => exact hs

/-- Settles O7: every move keeps the condition; power-on has the ladder of `State.reset` and no medium, and a card reset
leaves the ladder and the media. -/
theorem ladderConditionKept : Obligations.LadderConditionKept := by
  intro s t
  refine step_keeps (P := State.ladderOk) (fun _ _ h => h) (fun _ _ => Move.ladderOk) (fun s t _ h => ?_) (fun s t hs h => ?_)
  · obtain ⟨-, -, -, -, hladder, -⟩ := resetIsSound
    cases h
    exact hladder
  · cases h
    exact hs

/-! ### The steps a charge passes (R172) -/

theorem Health.rank_higher (a b : Health) : (a.higher b).rank = max a.rank b.rank := by
  unfold Health.higher
  split
  · next h => exact (max_eq_right h).symm
  · next h => exact (max_eq_left (Nat.le_of_not_le h)).symm

/-- The steps at the front of `ts` whose thresholds the points have reached, each with the ladder state after it, for a
medium whose ladder state is `before`. -/
def stepsPassed (points : Nat) (before : Health) : List LadderStep → List (LadderStep × Health)
  | [] => []
  | t :: ts =>
    if t.threshold ≤ points then (t, before.higher t.state) :: stepsPassed points (before.higher t.state) ts else []

/-- The climb passes the steps of `stepsPassed`, and moves the position and the ladder state past them. -/
theorem Medium.climb_eq (m : Medium) (ts : List LadderStep) : m.climb ts =
    ({ m with
        position := m.position + (stepsPassed m.points m.ladderState ts).length
        ladderState := ((stepsPassed m.points m.ladderState ts).map Prod.snd).getLastD m.ladderState },
      ((stepsPassed m.points m.ladderState ts).zipIdx m.position).map fun p => (p.2, p.1.2, p.1.1.attention)) := by
  induction ts generalizing m with
  | nil => rfl
  | cons t ts ih =>
    unfold Medium.climb stepsPassed
    split
    · simp only [ih, List.length_cons, List.map_cons, List.getLastD_cons, List.zipIdx_cons, Nat.add_assoc, Nat.add_comm 1]
    · rfl

section

variable (points : Nat) (before : Health) (ts : List LadderStep)

theorem stepsPassed_fst :
    (stepsPassed points before ts).map Prod.fst = ts.take (stepsPassed points before ts).length := by
  induction ts generalizing before with
  | nil => rfl
  | cons t ts ih =>
    unfold stepsPassed
    split
    · exact congrArg (t :: ·) (ih _)
    · rfl

theorem threshold_le_of_mem_stepsPassed : ∀ p ∈ stepsPassed points before ts, p.1.threshold ≤ points := by
  induction ts generalizing before with
  | nil => nofun
  | cons t ts ih =>
    unfold stepsPassed
    split
    · next h => exact List.forall_mem_cons.2 ⟨h, ih _⟩
    · nofun

/-- The step behind the last one passed has a threshold above the points. -/
theorem lt_threshold_of_stepsPassed {next : LadderStep}
    (hnext : ts[(stepsPassed points before ts).length]? = some next) : points < next.threshold := by
  induction ts generalizing before with
  | nil => cases hnext
  | cons t ts ih =>
    unfold stepsPassed at hnext
    split at hnext
    · exact ih _ hnext
    · next h =>
      cases hnext
      exact Nat.lt_of_not_le h

/-- Each step raises the ladder state before it to its own. -/
theorem stepsPassed_rank {i : Nat} {p : LadderStep × Health} {h : Health}
    (hp : (stepsPassed points before ts)[i]? = some p)
    (hh : (before :: (stepsPassed points before ts).map Prod.snd)[i]? = some h) :
    p.2.rank = max h.rank p.1.state.rank := by
  induction ts generalizing before i with
  | nil => cases hp
  | cons t ts ih =>
    unfold stepsPassed at hp hh
    split at hp
    · next hle =>
      rw [if_pos hle] at hh
      cases i with
      | zero =>
        cases hp
        cases hh
        exact Health.rank_higher _ _
      | succ i => exact ih _ hp hh
    · cases hp

end

/-! ### The charge (R171, R179) -/

theorem State.chargeMedium_saturated {s : State} {c : CopyId} {m : Medium} (w : Nat)
    (hm : s.medium? (s.mediumOf c) = some m) (hsat : m.saturated = true) : s.chargeMedium c w = s := by
  simp only [State.chargeMedium, hm, if_pos hsat]

/-- The points after a counted charge: the sum, or 65535 with the saturated mark. -/
theorem Medium.addPoints_eq {m : Medium} {w points : Nat} {saturated : Bool} (hsat : m.saturated = false)
    (h : m.points + w ≤ 65535 ∧ points = m.points + w ∧ saturated = false ∨
      65535 < m.points + w ∧ points = 65535 ∧ saturated = true) :
    m.addPoints w = { m with points := points, saturated := saturated } := by
  rcases h with ⟨hle, rfl, rfl⟩ | ⟨hlt, rfl, rfl⟩
  · simp only [Medium.addPoints, hsat, Config.pointsMax, if_pos hle]
    rfl
  · simp only [Medium.addPoints, hsat, Config.pointsMax, if_neg (Nat.not_le.2 hlt)]
    rfl

theorem State.foldl_post (l : List Finding) (s : State) :
    l.foldl State.post s = { s with fq := l.foldl (fun q f => q.post f) s.fq } := by
  induction l generalizing s with
  | nil => rfl
  | cons f l ih => exact ih _

/-- A counted charge replaces the medium's record by that at the end of its climb, and posts one MEDIUM_STEP for each step
passed. -/
theorem State.chargeMedium_eq {s : State} {c : CopyId} {m m1 : Medium} {w : Nat}
    (hm : s.medium? (s.mediumOf c) = some m) (hsat : m.saturated = false) (hadd : m.addPoints w = m1)
    {passed : List (LadderStep × Health)}
    (hpassed : stepsPassed m1.points m1.ladderState (s.ladder.drop m1.position) = passed) :
    s.chargeMedium c w = { s with
      media := s.media.map fun q => if q.id = s.mediumOf c then { m1 with
        position := m1.position + passed.length
        ladderState := (passed.map Prod.snd).getLastD m1.ladderState } else q
      fq := passed.zipIdx.foldl (fun q p =>
        q.post (s.stepFinding c m1.points (m1.position + p.2, p.1.2, p.1.1.attention))) s.fq } := by
  have hid : m.id = s.mediumOf c := by simpa using List.find?_some hm
  simp only [State.chargeMedium, hm, hsat, hadd, Medium.climb_eq, hpassed, hid, Bool.false_eq_true, if_false]
  rw [State.foldl_post, List.zipIdx_eq_map_add]
  simp only [List.foldl_map]
  rfl

/-- Settles O36: the steps passed are `stepsPassed` of the ladder from the medium's position on, and the state after the
charge is `State.chargeMedium_eq`. -/
theorem mediumCharge : Obligations.MediumCharge := by
  intro s c w m hm
  refine ⟨State.chargeMedium_saturated w hm, fun points saturated hsat hpoints => ?_⟩
  refine ⟨stepsPassed points m.ladderState (s.ladder.drop m.position), stepsPassed_fst _ _ _,
    threshold_le_of_mem_stepsPassed _ _ _, fun next hnext => ?_, fun i p before => stepsPassed_rank _ _ _, ?_⟩
  · rw [← List.getElem?_drop] at hnext
    exact lt_threshold_of_stepsPassed _ _ _ hnext
  · exact State.chargeMedium_eq hm hsat (Medium.addPoints_eq hsat hpoints) rfl

end Sys2Proof.Machine
end


section
/-! Proofs: the Finding Queue: posting (R194), FINDING_TAKE (R195), and that every step keeps the queue within its bounds
(R191, R194, R196). -/

namespace Sys2Proof.Machine

/-! ### The oldest ROUTINE finding -/

/-- `dropRoutine` erases the first finding that is not CRITICAL, where there is one. -/
theorem dropRoutine_eq (l : List Finding) :
    dropRoutine l = if ∀ f ∈ l, f.critical = true then none else some (l.eraseP fun f => !f.critical) := by
  induction l with
  | nil => rfl
  | cons f fs ih =>
    by_cases hf : f.critical = true
    · rw [dropRoutine, if_pos hf, ih]
      have hcons : (∀ g ∈ f :: fs, g.critical = true) ↔ ∀ g ∈ fs, g.critical = true := by simp [hf]
      by_cases hall : ∀ g ∈ fs, g.critical = true
      · rw [if_pos hall, if_pos (hcons.2 hall)]
        rfl
      · rw [if_neg hall, if_neg (hcons.not.2 hall), List.eraseP_cons_of_neg (by simp [hf])]
        rfl
    · simp [dropRoutine, hf]

/-- With every finding CRITICAL there is none to erase. -/
theorem dropRoutine_allCritical {l : List Finding} (h : ∀ f ∈ l, f.critical = true) : dropRoutine l = none := by
  rw [dropRoutine_eq, if_pos h]

/-- The first ROUTINE finding goes, and those before and after it stay. -/
theorem dropRoutine_append {before after : List Finding} {g : Finding} (hg : g.critical = false)
    (hb : ∀ f ∈ before, f.critical = true) : dropRoutine (before ++ g :: after) = some (before ++ after) := by
  have hnot : ¬∀ f ∈ before ++ g :: after, f.critical = true := fun h => by simpa [hg] using h g (by simp)
  rw [dropRoutine_eq, if_neg hnot, List.eraseP_append_right _ (by simpa using hb), List.eraseP_cons_of_pos (by simp [hg])]

/-- One finding fewer is left. -/
theorem length_of_dropRoutine {l fs : List Finding} (h : dropRoutine l = some fs) : fs.length + 1 = l.length := by
  rw [dropRoutine_eq] at h
  split at h
  · cases h
  · next hnot =>
    cases h
    obtain ⟨g, hg, hcrit⟩ := not_forall₂.1 hnot
    have hpos : 0 < l.length := List.length_pos_of_mem hg
    rw [List.length_eraseP_of_mem hg (by simpa using hcrit)]
    omega

/-! ### Posting (R194) -/

section

variable {q : FindingQueue} {f : Finding}

theorem FindingQueue.post_room (h : q.findings.length < 256) :
    q.post f = { q with findings := q.findings ++ [f] } := if_pos h

theorem FindingQueue.post_displaces {fs : List Finding} (h : 256 ≤ q.findings.length)
    (hd : dropRoutine q.findings = some fs) :
    q.post f = { q with findings := fs ++ [f], dropped := min (q.dropped + 1) 65535 } := by
  refine (if_neg (Nat.not_lt.2 h)).trans ?_
  rw [hd]
  rfl

theorem FindingQueue.post_dropped (h : 256 ≤ q.findings.length) (hd : dropRoutine q.findings = none) :
    q.post f = { q with dropped := min (q.dropped + 1) 65535, overflow := q.overflow || f.critical } := by
  refine (if_neg (Nat.not_lt.2 h)).trans ?_
  rw [hd]
  cases hf : f.critical <;> simp [FindingQueue.countDrop, Config.droppedMax]

/-- Posting keeps the queue within its bounds: a full queue does not grow, and the overflow flag is set on a full one
alone. -/
theorem FindingQueue.ok.post (hq : q.ok) (f : Finding) : (q.post f).ok := by
  obtain ⟨hlen, hdropped, hover⟩ := hq
  have hmin : min (q.dropped + 1) 65535 ≤ 65535 := Nat.min_le_right _ _
  by_cases hroom : q.findings.length < 256
  · rw [FindingQueue.post_room hroom]
    exact ⟨by simpa using hroom, hdropped, fun _ => by simp⟩
  · have hfull : 256 ≤ q.findings.length := Nat.le_of_not_lt hroom
    cases hd : dropRoutine q.findings with
    | some fs =>
      have hfs := length_of_dropRoutine hd
      rw [FindingQueue.post_displaces hfull hd]
      exact ⟨by simpa [hfs] using hlen, hmin, fun _ => by simp⟩
    | none =>
      rw [FindingQueue.post_dropped hfull hd]
      exact ⟨hlen, hmin, fun _ => List.ne_nil_of_length_pos (by dsimp only; omega)⟩

theorem FindingQueue.ok.foldl_post (hq : q.ok) (l : List Finding) : (l.foldl (fun q f => q.post f) q).ok := by
  induction l generalizing q with
  | nil => exact hq
  | cons f l ih => exact ih (hq.post f)

end

/-! ### Every step -/

/-- Every move keeps the Finding Queue within its bounds: work only posts to it, and a move of the findings says so. -/
theorem Move.fqOk {s t : State} (hs : s.fq.ok) (m : Move s t) : t.fq.ok := by
  cases m with
  | works h =>
    obtain ⟨l, hl⟩ := h.fq
    rw [hl]
    exact hs.foldl_post l
  | findings q h => exact h hs
  | port h p _ => rwa [State.setPort_fq]
  | settle => exact hs
  | lane _ _ _ => exact hs
  | windows _ _ => exact hs
  | plan _ _ _ _ => exact hs
  | pacer _ _ => exact hs
  | settings _ _ => exact hs
  | ladder _ _ _ => exact hs

theorem FindingQueue.ok_empty : FindingQueue.ok ⟨[], false, 0⟩ := ⟨Nat.zero_le _, Nat.zero_le _, nofun⟩

/-- Settles O5: every move keeps the bounds, and both resets empty the queue. -/
theorem findingQueueKept : Obligations.FindingQueueKept := by
  intro s t
  refine step_keeps (P := fun s => s.fq.ok) (fun _ _ h => h) (fun _ _ => Move.fqOk) (fun s t _ h => ?_) (fun s t _ h => ?_)
  · cases h
    exact FindingQueue.ok_empty
  · cases h
    exact FindingQueue.ok_empty

/-! ### FINDING_TAKE (R195) -/

/-- A limit that ends the first part of a list, or lies behind a first part that is the whole list, cuts it there. -/
theorem take_drop_of_append {α : Type} {l taken left : List α} {limit : Nat} (hl : l = taken ++ left)
    (hn : taken.length = limit ∨ taken.length ≤ limit ∧ left = []) : l.take limit = taken ∧ l.drop limit = left := by
  subst hl
  rcases hn with rfl | ⟨hle, rfl⟩
  · exact ⟨List.take_left, List.drop_left⟩
  · simp [List.take_of_length_le, List.drop_eq_nil_of_le, hle]

/-- A limit outside 1..8 is refused. -/
theorem findingTake_badLimit {body : List Byte} (h : leAt body 0 1 = 0 ∨ 8 < leAt body 0 1) (s : State) :
    findingTake body s = .answered s (.refused .badArgument []) := if_pos h

section

variable {body : List Byte} {s : State} (h1 : 1 ≤ leAt body 0 1) (h8 : leAt body 0 1 ≤ 8)
include h1 h8

theorem findingTake_empty (hf : s.fq.findings = []) : findingTake body s = .answered s .empty :=
  (if_neg (by omega)).trans (if_pos hf)

theorem findingTake_some {taken left : List Finding} (hne : taken ≠ []) (hf : s.fq.findings = taken ++ left)
    (hn : taken.length = leAt body 0 1 ∨ taken.length ≤ leAt body 0 1 ∧ left = []) :
    findingTake body s = .answered { s with fq := ⟨left, s.fq.overflow && !left.isEmpty, s.fq.dropped⟩ }
      (.ok (leBytes 1 taken.length ++ leBytes 1 (boolNat (s.fq.overflow && !left.isEmpty)) ++ leBytes 2 left.length ++
        leBytes 2 s.fq.dropped ++ zeros 2 ++ taken.flatMap Finding.body)) := by
  obtain ⟨htake, hdrop⟩ := take_drop_of_append hf hn
  have hfull : ¬s.fq.findings = [] := by simp [hf, hne]
  refine (if_neg (by omega)).trans ((if_neg hfull).trans ?_)
  rw [htake, hdrop]

end

/-- Settles O59: posting by its three forms (`FindingQueue.post_room` and its kin), FINDING_TAKE by its limit and by what the
queue holds. -/
theorem findingQueueResult : Obligations.FindingQueueResult := by
  refine ⟨fun s f => ⟨fun hroom => ?_, fun before g after hfull hf hg hb => ?_, fun hfull hall => ?_⟩,
    fun h tag body s ht => ⟨fun hbad => ?_, fun h1 h8 => ⟨fun hf => ?_, fun taken left overflow hne hf hn ho => ?_⟩⟩⟩
  · rw [State.post, FindingQueue.post_room hroom]
  · rw [State.post, FindingQueue.post_displaces hfull (hf ▸ dropRoutine_append hg hb)]
  · rw [State.post, FindingQueue.post_dropped hfull (dropRoutine_allCritical hall)]
  · exact exec_answered (exec_findingTake h) ht (findingTake_badLimit hbad _)
  · exact exec_answered (exec_findingTake h) ht (findingTake_empty h1 h8 (by rwa [State.popOrder_fq]))
  · subst ho
    rw [← s.popOrder_fq h] at hf ⊢
    exact exec_answered (exec_findingTake h) ht (findingTake_some h1 h8 hne hf hn)

end Sys2Proof.Machine
end


section
/-! Proofs: the attention lines: the conditions of R198, and that every step leaves both lines at their levels (R198,
R199). -/

namespace Sys2Proof.Machine

/-! ### The conditions of R198 -/

/-- A lane of the head is DONE. -/
def State.hasDoneLane (s : State) (h : Head) : Prop := ∃ n l, s.lane n = some l ∧ l.owner = h ∧ l.state = .done

/-- The context of a lane that is not FREE is one of the lanes held. -/
theorem State.mem_lanes_iff (s : State) (l : LaneCtx) : some l ∈ s.lanes.toList ↔ ∃ n, s.lane n = some l := by
  simp only [State.lane, Vector.mem_toList_iff, Vector.mem_iff_getElem?]
  refine exists_congr fun n => ?_
  cases s.lanes[n]? <;> simp

/-- The level of a head's line is the disjunction of the four conditions. -/
theorem State.lineOf_iff (s : State) (h : Head) : s.lineOf h = true ↔
    ((s.port h).routineEnable = true ∧ (s.port h).threshold ≤ s.fq.findings.length) ∨
    ((s.port h).criticalEnable = true ∧ ∃ f ∈ s.fq.findings, f.critical = true) ∨ s.fq.overflow = true ∨
    ((s.port h).laneEnable = true ∧ s.hasDoneLane h) := by
  have hlanes : s.hasDoneLane h ↔ ∃ l, some l ∈ s.lanes.toList ∧ l.owner = h ∧ l.state = .done := by
    simp only [State.hasDoneLane, State.mem_lanes_iff, exists_and_right.symm]
    exact exists_comm
  simp only [hlanes, State.lineOf, Bool.or_eq_true, Bool.and_eq_true, decide_eq_true_eq, List.any_eq_true, or_assoc,
    Option.exists, Bool.false_eq_true, and_false, false_or]

/-- Settles O20: the levels are those of `State.lineOf`, whose conditions `State.lineOf_iff` names. -/
theorem linesDriven : Obligations.LinesDriven := by
  refine fun s => ⟨s.lineOf .a, s.lineOf .b, rfl, fun h => ?_⟩
  cases h with
  | a => exact s.lineOf_iff .a
  | b => exact s.lineOf_iff .b

/-! ### What leaves the levels as they are -/

theorem State.linesOk_iff (s : State) : s.linesOk ↔ ∀ h, (s.port h).line = s.lineOf h :=
  ⟨fun ⟨ha, hb⟩ h => by cases h; exacts [ha, hb], fun hs => ⟨hs .a, hs .b⟩⟩

/-- A line and the settings of its head, which stand in the port. -/
def Port.sameAttention (p q : Port) : Prop :=
  q.line = p.line ∧ q.threshold = p.threshold ∧ q.routineEnable = p.routineEnable ∧
    q.criticalEnable = p.criticalEnable ∧ q.laneEnable = p.laneEnable

theorem Port.sameAttention.refl (p : Port) : p.sameAttention p := ⟨rfl, rfl, rfl, rfl, rfl⟩

/-- The lines stay right where the ports keep their lines and settings, the findings stay, and the same heads have a DONE
lane. -/
theorem State.linesOk.frame {s t : State} (hs : s.linesOk) (hport : ∀ h, (s.port h).sameAttention (t.port h))
    (hfq : t.fq = s.fq) (hdone : ∀ h, t.hasDoneLane h ↔ s.hasDoneLane h) : t.linesOk := by
  refine t.linesOk_iff.2 fun h => ?_
  obtain ⟨hline, hthr, hrout, hcrit, hlane⟩ := hport h
  have hlevel : t.lineOf h = s.lineOf h := by
    rw [Bool.eq_iff_iff, State.lineOf_iff, State.lineOf_iff, hthr, hrout, hcrit, hlane, hfq, hdone]
  rw [hline, hlevel, s.linesOk_iff.1 hs h]

/-- A change of a port beside its line and its settings leaves the levels. -/
theorem State.linesOk.setPort {s : State} (hs : s.linesOk) {h : Head} {p : Port} (hp : (s.port h).sameAttention p) :
    (s.setPort h p).linesOk := by
  refine hs.frame (fun k => ?_) (s.setPort_fq h p) fun k => by simp only [State.hasDoneLane, State.lane, State.setPort_lanes]
  by_cases hk : k = h
  · subst hk
    rwa [State.port_setPort]
  · rw [s.port_setPort_other p hk]
    exact .refl _

/-- A change of a lane that is neither DONE before nor after it leaves the levels. -/
theorem State.linesOk.setLane {s : State} (hs : s.linesOk) {n : Nat} {l k : LaneCtx} (hl : s.lane n = some l)
    (hnot : l.state ≠ .done) (hst : k.state = l.state) : (s.setLane n (some k)).linesOk := by
  refine hs.frame (fun h => by cases h <;> exact .refl _) rfl fun h => exists_congr fun m => ?_
  by_cases hm : m = n
  · subst hm
    have hlt : m < 12 := by
      by_contra hge
      rw [State.lane_none_of_le _ (Nat.le_of_not_lt hge)] at hl
      cases hl
    simp [s.lane_setLane m _ hlt, hl, hst, hnot]
  · rw [s.lane_setLane_other _ hm]

/-- A work window's start reaches the Pacer and the walker alone. -/
theorem State.linesOk.startWorkWindow {s : State} (hs : s.linesOk) : s.startWorkWindow.linesOk := by
  unfold State.startWorkWindow State.wakeCredit
  dsimp only
  repeat' split
  all_goals exact hs

/-! ### Every command -/

/-- The taking of an order ends with the driving of the lines, or changes nothing. -/
theorem takeOrder_linesOk {h : Head} {code : Nat} {act : Half → List Byte → State → Applied} {s t : State}
    (hs : s.linesOk) (ht : takeOrder h code act s = .next t) : t.linesOk := by
  rcases takeOrder_cases ht with rfl | rfl | rfl
  · exact hs
  · exact State.settle_linesOk _
  · cases act (s.port h).frontOrder.tag (s.port h).frontOrder.body (s.popOrder h) with
    | answered u a => exact State.settle_linesOk _
    | begun u => exact State.settle_linesOk _

/-- At power-on both lines are low, and no condition calls for more. -/
theorem execPowerOn_linesOk {s t : State} (ht : execPowerOn s = .next t) : t.linesOk := by
  refine t.linesOk_iff.2 fun h => ?_
  have hlow : (t.port h).line = false := by cases ht; cases h <;> rfl
  have hthr : 1 ≤ (t.port h).threshold := by cases ht; cases h <;> exact Nat.le_refl 1
  rw [hlow, State.lineOf_of_calm (by cases ht; rfl) (by cases ht; rfl) hthr]

/-- A window write stores into the windows, marks a lane that is DIGESTING, or is discarded. -/
theorem execWindowWrite_linesOk {h : Head} {lane offset : Nat} {bytes : List Byte} {s t : State} (hs : s.linesOk)
    (ht : execWindowWrite h lane offset bytes s = .next t) : t.linesOk := by
  unfold execWindowWrite at ht
  split at ht
  · split at ht
    · cases ht
      exact hs
    · split at ht
      · cases ht
        exact hs
      · next l hl =>
        split at ht
        · cases ht
          exact hs
        · split at ht
          · cases ht
            exact hs
          · next hst =>
            cases ht
            exact hs.setLane hl (by rw [hst]; nofun) rfl
          · cases ht
            exact hs
  · cases ht

/-- Every other command that is not the taking of an order drives the lines last, or leaves what R198 looks at. -/
theorem exec_event_linesOk (c : Instr) (hc : orderTaken c = none) {s t : State} (hs : s.linesOk)
    (ht : exec c s = .next t) : t.linesOk := by
  cases c with
  | powerOn => exact execPowerOn_linesOk ht
  | cardReset =>
    cases ht
    exact State.settle_linesOk _
  | windowWrite h lane offset bytes => exact execWindowWrite_linesOk hs ht
  | orderPostCountWrite h v =>
    simp only [exec, execOrderPostCountWrite] at ht
    repeat' split at ht
    all_goals cases ht
    · exact hs
    · exact hs.setPort ⟨rfl, rfl, rfl, rfl, rfl⟩
    · exact hs.setPort ⟨rfl, rfl, rfl, rfl, rfl⟩
  | replyReadCountWrite h v =>
    simp only [exec, execReplyReadCountWrite] at ht
    split at ht <;> cases ht
    · exact hs.setPort ⟨rfl, rfl, rfl, rfl, rfl⟩
    · exact hs
  | portAreaWrite h offset bytes =>
    simp only [exec, execPortAreaWrite] at ht
    repeat' split at ht
    all_goals cases ht
    · exact hs
    · exact hs.setPort ⟨rfl, rfl, rfl, rfl, rfl⟩
  | linkLoss h =>
    simp only [exec, execLinkLoss] at ht
    split at ht <;> cases ht
    · exact State.settle_linesOk _
    · exact hs
  | linkUp h =>
    simp only [exec, execLinkUp] at ht
    split at ht <;> cases ht
    · exact hs
    · exact State.settle_linesOk _
  | unknownOrder h =>
    simp only [exec, execUnknownOrder] at ht
    split at ht <;> cases ht
    · exact State.settle_linesOk _
    · exact hs
  | reelAddCompletion reel =>
    simp only [exec, execReelAddCompletion] at ht
    repeat' split at ht
    all_goals cases ht
    · exact hs
    · exact hs
    · exact State.settle_linesOk _
  | laneFeedCompletion n =>
    simp only [exec, execLaneFeedCompletion] at ht
    split at ht
    · cases ht
      exact hs
    · split at ht <;> cases ht
      · exact State.settle_linesOk _
      · exact hs
      · exact hs
  | stallTimerExpiry n =>
    simp only [exec, execStallTimerExpiry] at ht
    repeat' split at ht
    all_goals cases ht
    · exact hs
    · exact State.settle_linesOk _
    · exact hs
    · exact hs
  | claimTimerExpiry tag =>
    simp only [exec, execClaimTimerExpiry] at ht
    split at ht <;> cases ht
    · exact State.settle_linesOk _
    · exact hs
  | confirmTimerExpiry reel segment =>
    simp only [exec, execConfirmTimerExpiry] at ht
    split at ht <;> cases ht
    · exact State.settle_linesOk _
    · exact hs
  | planLoadCompletion i =>
    simp only [exec, execPlanLoadCompletion] at ht
    split at ht <;> cases ht
    · exact State.settle_linesOk _
    · exact hs
    · exact hs
  | walkerPosition =>
    simp only [exec, execWalkerPosition] at ht
    split at ht <;> cases ht
    · exact State.settle_linesOk _
    · exact hs
  | delayTimerExpiry =>
    simp only [exec, execDelayTimerExpiry] at ht
    repeat' split at ht
    all_goals cases ht
    · exact hs
    · exact hs.startWorkWindow
    · exact hs
  | workWindowEnd =>
    simp only [exec, execWorkWindowEnd] at ht
    repeat' split at ht
    all_goals cases ht
    · exact hs
    · exact hs
    · exact hs.startWorkWindow
    · exact hs
  | yieldWindowEnd =>
    simp only [exec, execYieldWindowEnd] at ht
    repeat' split at ht
    all_goals cases ht
    · exact hs
    · exact hs.startWorkWindow
    · exact hs
  | _ => cases hc

/-- Every command keeps both lines at their levels: an order by `takeOrder_linesOk`, any other command by its branches. -/
theorem exec_linesOk (c : Instr) {s t : State} (hs : s.linesOk) (ht : exec c s = .next t) : t.linesOk := by
  cases hc : orderTaken c with
  | none => exact exec_event_linesOk c hc hs ht
  | some p =>
    obtain ⟨act, hact⟩ := exec_order hc
    exact takeOrder_linesOk hs (hact s ▸ ht)

/-- Settles O6: the levels do not look at the commands still to be given, and `exec_linesOk` is every command. -/
theorem attentionLinesKept : Obligations.AttentionLinesKept := by
  intro s t hs ht
  unfold step at ht
  split at ht
  · cases ht
    exact hs
  · next c rest _ => exact exec_linesOk c (s := { s with pending := rest }) hs ht

end Sys2Proof.Machine
end


section
/-! Proofs: the common checks of a taken order, the counts a head writes, LINK_UP and STATUS (R183 to R186, R189, R190, R202,
R206, R210). -/

namespace Sys2Proof.Machine

/-! ### Orders refused, and orders not taken -/

theorem exec_unknownOrder_taken {h : Head} {s : State} (ht : (s.port h).canTake = true)
    (hn : bodyLength (s.port h).frontOrder.body (s.port h).frontOrder.code = none) :
    exec (.unknownOrder h) s = .next ((s.popOrder h).answer h (s.port h).frontOrder.code (s.port h).frontOrder.tag
      (.refused .unknownOrder [])) := if_pos ⟨ht, hn⟩

theorem exec_unknownOrder_not {h : Head} {s : State} (hn : (s.port h).canTake = false ∨
    bodyLength (s.port h).frontOrder.body (s.port h).frontOrder.code ≠ none) :
    exec (.unknownOrder h) s = .next s := by
  refine if_neg fun ⟨ht, hlen⟩ => ?_
  rcases hn with hn | hn
  · exact Bool.noConfusion (ht.symm.trans hn)
  · exact hn hlen

/-- Settles O18: a known order is a `takeOrder` (`exec_order`), whose two checks come before its meaning; an unknown one has
its own command. -/
theorem ordersRefusedOrNotTaken : Obligations.OrdersRefusedOrNotTaken := by
  refine ⟨⟨fun h s => exec_unknownOrder_taken, fun c h code s hc ht hcode hlen => ?_⟩, fun c h code s hc hn => ?_,
    fun h s => exec_unknownOrder_not⟩
  · obtain ⟨act, hact⟩ := exec_order hc
    rw [hact, takeOrder_badLength act ht hcode hlen]
  · obtain ⟨act, hact⟩ := exec_order hc
    rw [hact, takeOrder_not act hn]

/-! ### LINK_UP and the two counts a head writes -/

section

variable {h : Head} {s : State}

theorem exec_linkUp_down (hl : (s.port h).link = false) : exec (.linkUp h) s = .next (s.setPort h { s.port h with
    link := true, orderPost := 0, orderTake := 0, replyPost := 0, replyRead := 0, reserved := 0,
    overrun := false }).settle := if_neg (by simp [hl])

theorem exec_linkUp_up (hl : (s.port h).link = true) : exec (.linkUp h) s = .next s := if_pos hl

variable {value : Half}

theorem exec_orderPostCountWrite_up (hl : (s.port h).link = true) : exec (.orderPostCountWrite h value) s =
    if (s.port h).orders < 16 ∧ value = (s.port h).orderPost + 1 then
      .next (s.setPort h { s.port h with orderPost := value })
    else .next (s.setPort h { s.port h with overrun := true }) := if_neg (by simp [hl])

theorem exec_orderPostCountWrite_down (hl : (s.port h).link = false) :
    exec (.orderPostCountWrite h value) s = .next s := if_pos hl

theorem exec_replyReadCountWrite_not
    (hn : (s.port h).link = false ∨ (s.port h).unread < (value - (s.port h).replyRead).toNat) :
    exec (.replyReadCountWrite h value) s = .next s := by
  refine if_neg fun ⟨hl, hle⟩ => ?_
  rcases hn with hn | hn
  · exact Bool.noConfusion (hl.symm.trans hn)
  · exact Nat.not_lt.2 hle hn

end

/-- Settles O15: each clause is one branch of LINK_UP or of the write to a count. -/
theorem portCounts : Obligations.PortCounts := by
  refine ⟨fun h s => ⟨exec_linkUp_down, exec_linkUp_up⟩, fun h value s => ⟨fun hl hroom hv => ?_, fun hl hno => ?_,
    fun hl hle => if_pos ⟨hl, hle⟩, fun _ hlt => exec_replyReadCountWrite_not (.inr hlt),
    fun hl => ⟨exec_orderPostCountWrite_down hl, exec_replyReadCountWrite_not (.inl hl)⟩⟩⟩
  · rw [exec_orderPostCountWrite_up hl, if_pos ⟨hroom, hv⟩]
  · have hnot : ¬((s.port h).orders < 16 ∧ value = (s.port h).orderPost + 1) := fun ⟨hroom, hv⟩ =>
      hno.elim (Nat.not_le.2 hroom) fun hne => hne hv
    rw [exec_orderPostCountWrite_up hl, if_neg hnot]

/-! ### STATUS -/

theorem State.classCounts_length (s : State) (c : ItemClass) : (s.classCounts c).length = 3 := rfl

theorem State.walkerBody_length (s : State) : s.walkerBody.length = 18 := by
  unfold State.walkerBody
  cases hp : s.walker.position with
  | none => simp [hp]
  | some p => simp [hp]

/-- The snapshot's length: every part of it has a fixed one, the lanes a byte for each of the twelve. -/
theorem State.statusBody_length (s : State) (h : Head) : (s.statusBody h).length = 108 := by
  have hlanes : (s.lanes.toList.flatMap fun l => leBytes 1 (laneByte l)).length = 12 := by
    simp
  unfold State.statusBody
  simp only [List.length_append, leBytes_length, zeros_length, State.walkerBody_length,
    State.classCounts_length, hlanes, List.flatMap_cons, List.flatMap_nil, List.length_nil]

/-- Settles O60: the answer is read off `status`, and the snapshot's length is `State.statusBody_length`. -/
theorem statusResult : Obligations.StatusResult := by
  refine fun h tag s ht => ⟨?_, State.statusBody_length _ h⟩
  rw [← s.popOrder_fq h]
  exact exec_answered (exec_status h) ht rfl

end Sys2Proof.Machine
end


section
/-! Proofs: the bytes of a port area, as a head writes them and as a posted reply leaves them (R205, R206, R209). -/

namespace Sys2Proof.Machine

/-! ### PORT_AREA_WRITE -/

/-- A head may write the bytes of the sixteen order places (131328 = 16 · 8208) whose place, counted from the oldest
order, lies behind the waiting ones. -/
theorem Port.headMayWrite_iff (p : Port) (a : Nat) :
    p.headMayWrite a = true ↔ a < 131328 ∧ p.orders ≤ (a / 8208 + 16 - p.orderTake.toNat % 16) % 16 := by
  have hplace : a / 8208 < 16 ↔ a < 131328 := Nat.div_lt_iff_lt_mul (by decide)
  rw [Port.headMayWrite, Bool.and_eq_true, decide_eq_true_iff, decide_eq_true_iff]
  exact and_congr_left' hplace

/-- What each byte reads as after a head's bytes: the written byte where it falls in the range and the head may write it,
and what it was elsewhere. -/
theorem Port.read_headStore (p : Port) {m : List Host.Cell} (hm : Memory.wf m = true) (bs : List Byte) (off a : Nat) :
    Memory.read (p.headStore off bs m) a =
      if off ≤ a ∧ a < off + bs.length ∧ p.headMayWrite a = true then (bs[a - off]?).getD 0#8 else Memory.read m a := by
  induction bs generalizing m off with
  | nil => exact (if_neg (by simp only [List.length_nil]; omega)).symm
  | cons b bs ih =>
    have hwf : Memory.wf (if p.headMayWrite off then Memory.write m off b else m) = true := by
      split
      · exact Memory.wf_write off b hm
      · exact hm
    have hfirst : Memory.read (if p.headMayWrite off then Memory.write m off b else m) a =
        if a = off ∧ p.headMayWrite off = true then b else Memory.read m a := by
      by_cases hmay : p.headMayWrite off = true <;> simp [hmay, Memory.read_write hm]
    rw [Port.headStore, ih hwf, hfirst, List.length_cons]
    by_cases ha : a = off
    · subst ha
      simp
    · have hrange : off + 1 ≤ a ∧ a < off + 1 + bs.length ↔ off ≤ a ∧ a < off + (bs.length + 1) := by omega
      simp only [ha, false_and, if_false, ← and_assoc, hrange]
      split
      next hin => rw [show a - off = (a - (off + 1)) + 1 by omega, List.getElem?_cons_succ]
      next => rfl

theorem exec_portAreaWrite_down {h : Head} {off : Nat} {bs : List Byte} {s : State}
    (hin : off + bs.length ≤ 164096 ∨ 164100 ≤ off ∧ off + bs.length ≤ 164104) (hl : (s.port h).link = false) :
    exec (.portAreaWrite h off bs) s = .next s := (if_pos hin).trans (if_pos hl)

theorem exec_portAreaWrite_up {h : Head} {off : Nat} {bs : List Byte} {s : State}
    (hin : off + bs.length ≤ 164096 ∨ 164100 ≤ off ∧ off + bs.length ≤ 164104) (hl : (s.port h).link = true) :
    exec (.portAreaWrite h off bs) s =
      .next (s.setPort h { s.port h with area := (s.port h).headStore off bs (s.port h).area }) :=
  (if_pos hin).trans (if_neg (by simp [hl]))

/-- Settles O17: the stored bytes are read by `Port.read_headStore`, the places open to the head by
`Port.headMayWrite_iff`. -/
theorem portAreaWriteStored : Obligations.PortAreaWriteStored := by
  refine fun h off bs s hin => ⟨exec_portAreaWrite_down hin, fun hl hwf =>
    ⟨_, exec_portAreaWrite_up hin hl, Port.wf_headStore _ off bs hwf, fun a => ?_⟩⟩
  simp only [Port.read_headStore _ hwf, Port.headMayWrite_iff]

/-! ### Posting a reply -/

/-- The record of R209 is a head of eight bytes and the body. -/
theorem replyBytes_length (code : Nat) (tag : Half) (a : Answer) : (replyBytes code tag a).length = 8 + a.body.length := by
  simp only [replyBytes, List.length_append, leBytes_length]

/-- Settles O19: posting stores the record at its place, and `Memory.read_store` reads it back over its length. -/
theorem replyPosted : Obligations.ReplyPosted := by
  refine fun s h code tag a hwf => ⟨_, rfl, Memory.wf_store _ _ hwf, fun x => ?_⟩
  rw [Memory.read_store hwf, replyBytes_length]
  rfl

end Sys2Proof.Machine
end


section
/-! Proofs: one step of the part, by the two cases of its queue of commands. -/

namespace Sys2Proof.Machine

/-- On an empty queue the part idles (notes/assumptions/6.md). -/
theorem step_of_pending_nil {s : State} (h : s.pending = []) : step s = .next s := by
  unfold step
  rw [h]

/-- The command at the front runs in a state that already holds the queue's rest. -/
theorem step_of_pending_cons {s : State} {c : Instr} {rest : List Instr} (h : s.pending = c :: rest) :
    step s = exec c { s with pending := rest } := by
  unfold step
  rw [h]

/-- Settles O1: the two cases of the queue; setting the rest over `c :: rest` is setting it over `s`. -/
theorem stepRunsFrontCommand : Obligations.StepRunsFrontCommand :=
  ⟨fun _ _ _ => step_of_pending_cons rfl, fun _ => step_of_pending_nil⟩

end Sys2Proof.Machine
end
